-- ==== Sys2Proof/Word.lean ====
section
/-! DEFINITION. The word types of the engine: a 32-bit cell, a byte of a byte view, a 64-bit command word. -/

namespace Sys2Proof

/-- A 32-bit cell: an `f32` pattern or a `u32` (00_scope R8, 20_memory R63). -/
abbrev Word := BitVec 32

/-- One byte of the little-endian byte view of a memory (20_memory R61). -/
abbrev Byte := BitVec 8

/-- A command word of format C (30_encoding R90). -/
abbrev CommandWord := BitVec 64

end Sys2Proof
end

