-- ==== Sys2Proof/Config.lean ====
section
/-! DEFINITION. What the implementation fixes (00_scope R6, R7, 10_state R31), and the free values the spec leaves open:
opaque constants without a body, so that nothing in Lean can find out what they are. The free instance of NUM,
`Config.numFree`, stands in Machine/Instance.lean, since its type says which instances 40_numerics R128 admits. -/

namespace Sys2Proof.Config

/-- WMAX: the largest curve width and the size of CRV (00_scope R7). -/
def wmax : Nat := 4096

/-- FS_MIN = 1.0, the least sample rate PREPARE accepts (00_scope R7). -/
def fsMin : Word := 0x3F800000#32

/-- NYQ_FRAC, the binary32 nearest to 0.49 (00_scope R7, 40_numerics R132). -/
def nyqFrac : Word := 0x3EFAE148#32

/-- PI, the binary32 nearest to pi (40_numerics R132). -/
def pi : Word := 0x40490FDB#32

/-- TWO_PI, the binary32 nearest to 2 pi (40_numerics R132). -/
def twoPi : Word := 0x40C90FDB#32

/-- The constant that register ID reads (10_state R31). -/
def idValue : Word := 0x56450207#32

/-- FREE VALUE (log entry 3): the default parameter values DEF_P[0..6] before they are held to their ranges
(`Machine.Snapshot.defaultOf`); 92_eei_decisions D6 leaves them open. -/
opaque defPFree : Nat → Word

/-- FREE VALUE (log entry 4): the sign of the zero that the reference instance NUM_CR returns for an operand whose exact result
is 0, which 40_numerics R129 does not state. -/
opaque crNegZero : Word → Bool

/-- FREE VALUE (log entry 5): the sign and the 22 payload bits of the `n`-th NaN the engine stores
(40_numerics R130, 93_implementation_defined U1). -/
opaque nanBits : Nat → BitVec 23

/-- FREE VALUE (log entry 6): byte `a` of a sample memory cell that nothing has written since reset number `epoch`
(10_state R41, 93_implementation_defined U7). -/
opaque unwrittenSmp : (epoch : Nat) → (a : Nat) → Byte

/-- FREE VALUE (log entry 6): byte `a` of a curve memory cell that nothing has written since reset number `epoch`
(10_state R42, 93_implementation_defined U7). -/
opaque unwrittenCrv : (epoch : Nat) → (a : Nat) → Byte

end Sys2Proof.Config
end

