-- ==== Sys2Proof/Syntax.lean ====
section
/-! DEFINITION. The twenty-one commands of command set VXTEQ-C1 (30_encoding R94, R96): one constructor per row of
spec/opcode_table.json, with the operands the row gives it. -/

namespace Sys2Proof

/-- The two cut sides of a chain (00_scope R11): low-cut is side 0, high-cut is side 1. -/
inductive Side where
  | low
  | high
deriving DecidableEq, Repr

/-- The twenty-one assigned opcodes (30_encoding R94), by mnemonic. -/
inductive Opcode where
  | rdreg | pwrite | pread | pdefault | prepare | block | release | wrsmp | rdsmp | clrch | proc
  | snap | despk | descut | ldstg | setpk | setcut | publish | tick | setview | rdcrv
deriving DecidableEq, Repr

/-- A command with its operands, each at the width the encoding gives it (30_encoding R96).
A chain number and a side are one bit, so they are held as what they name. -/
inductive Instr where
  | rdreg (addr : BitVec 16)
  | pwrite (idx : BitVec 8) (value : Word)
  | pread (idx : BitVec 8)
  | pdefault
  | prepare (bs : BitVec 16) (fs : Word)
  | block (nin : BitVec 4) (nout : BitVec 4) (count : BitVec 16)
  | release
  | wrsmp (ch : Fin 2) (index : BitVec 16) (value : Word)
  | rdsmp (ch : Fin 2) (index : BitVec 16)
  | clrch (ch : Fin 2) (count : BitVec 16)
  | proc (ch : Fin 2) (count : BitVec 16)
  | snap
  | despk
  | descut (side : Side)
  | ldstg (slot : BitVec 8) (k : BitVec 16) (value : Word)
  | setpk (ch : Fin 2)
  | setcut (ch : Fin 2) (side : Side) (slope : BitVec 16)
  | publish
  | tick
  | setview (width : BitVec 16) (height : BitVec 16)
  | rdcrv (index : BitVec 16)
deriving DecidableEq, Repr

/-- The opcode of a command. -/
def Instr.opcode : Instr → Opcode
  | .rdreg _ => .rdreg
  | .pwrite _ _ => .pwrite
  | .pread _ => .pread
  | .pdefault => .pdefault
  | .prepare _ _ => .prepare
  | .block _ _ _ => .block
  | .release => .release
  | .wrsmp _ _ _ => .wrsmp
  | .rdsmp _ _ => .rdsmp
  | .clrch _ _ => .clrch
  | .proc _ _ => .proc
  | .snap => .snap
  | .despk => .despk
  | .descut _ => .descut
  | .ldstg _ _ _ => .ldstg
  | .setpk _ => .setpk
  | .setcut _ _ _ => .setcut
  | .publish => .publish
  | .tick => .tick
  | .setview _ _ => .setview
  | .rdcrv _ => .rdcrv

end Sys2Proof
end

