-- ==== Sys2Proof/Machine/Operands.lean ====
section
/-! DEFINITION. The operands: which values are legal (30_encoding R96), the slots of a chain (00_scope R11), and the map of
the REG address space (10_state R30, 46_access R260). -/

namespace Sys2Proof.Machine

/-- The bit that encodes a side. -/
def sideBit : Side → Nat
  | .low => 0
  | .high => 1

/-- The slot of stage `i` of a side: `base(side) + i`, base 0 or 5 (00_scope R11). -/
def cutSlot (side : Side) (i : Fin 4) : Fin 9 :=
  match side with
  | .low => ⟨i.val, by omega⟩
  | .high => ⟨i.val + 5, by omega⟩

/-- The peak slot (00_scope R11). -/
def peakSlot : Fin 9 := 4

/-- The bypass flag of stage `i` of a side, among the eight of a chain (10_state R26). -/
def cutFlag (side : Side) (i : Fin 4) : Fin 8 :=
  match side with
  | .low => ⟨i.val, by omega⟩
  | .high => ⟨i.val + 4, by omega⟩

/-- The bypass flag of a slot; the peak slot has none (10_state R26). -/
def flagOfSlot (s : Fin 9) : Option (Fin 8) :=
  if h : s.val < 4 then some ⟨s.val, by omega⟩
  else if h' : s.val = 4 then none
  else some ⟨s.val - 1, by omega⟩

/-- The nine slots in processing order (43_chain R198). -/
def slotsInOrder : List (Fin 9) := [0, 1, 2, 3, 4, 5, 6, 7, 8]

/-- Stages 0 to `k` of a side, in increasing order (43_chain R192). -/
def stagesUpTo (k : Fin 4) : List (Fin 4) := ([0, 1, 2, 3] : List (Fin 4)).take (k.val + 1)

/-- The cells of the REG address space (10_state R30). `unused` is a mapped cell that reads 0. -/
inductive Reg where
  | id | lifecycle | fault | fs | blocksize | dirty | recomputes | viewW | viewH | crvLen | pubSeq | pubFs
  | p (i : Fin 7) | asnap (i : Fin 7) | rsnap (i : Fin 7)
  | stg (s : Fin 9) (k : Fin 5)
  | coef (ch : Fin 2) (s : Fin 9) (k : Fin 5) | z1 (ch : Fin 2) (s : Fin 9) | z2 (ch : Fin 2) (s : Fin 9)
  | byp (ch : Fin 2) (s : Fin 9)
  | pubCoef (s : Fin 9) (k : Fin 5) | pubByp (s : Fin 9)
  | unused
deriving DecidableEq, Repr

/-- A cell of one of the parameter-indexed rows: `d` is the offset from the row's base. -/
def paramRow (mk : Fin 7 → Reg) (d : Nat) : Option Reg :=
  if h : d < 7 then some (mk ⟨d, h⟩) else none

/-- A cell of one of the block rows, `8 s + k` from the row's base; `word` says what cell `k` of slot `s` is. -/
def blockRow (word : Fin 9 → Fin 8 → Reg) (d : Nat) : Option Reg :=
  if h : d < 72 then some (word ⟨d / 8, by omega⟩ ⟨d % 8, by omega⟩) else none

/-- Cell `k` of slot `s` of the staging blocks. -/
def stgCell (s : Fin 9) (k : Fin 8) : Reg := if h : k.val < 5 then .stg s ⟨k.val, h⟩ else .unused

/-- Cell `k` of slot `s` of chain `ch`. -/
def chainCell (ch : Fin 2) (s : Fin 9) (k : Fin 8) : Reg :=
  if h : k.val < 5 then .coef ch s ⟨k.val, h⟩
  else if k.val = 5 then .z1 ch s else if k.val = 6 then .z2 ch s else .byp ch s

/-- Cell `k` of slot `s` of the published copy. -/
def pubCell (s : Fin 9) (k : Fin 8) : Reg :=
  if h : k.val < 5 then .pubCoef s ⟨k.val, h⟩ else if k.val = 7 then .pubByp s else .unused

/-- The single registers at 0x0000 to 0x000B (10_state R30). -/
def singleRegs : List Reg :=
  [.id, .lifecycle, .fault, .fs, .blocksize, .dirty, .recomputes, .viewW, .viewH, .crvLen, .pubSeq, .pubFs]

/-- The cell at a REG address, none for an unmapped address (10_state R30, 46_access R260). -/
def regAt (a : Nat) : Option Reg :=
  if a < 0x10 then singleRegs[a]?
  else if a < 0x18 then paramRow .p (a - 0x10)
  else if a < 0x20 then paramRow .asnap (a - 0x18)
  else if a < 0x40 then paramRow .rsnap (a - 0x20)
  else if a < 0x100 then blockRow stgCell (a - 0x40)
  else if a < 0x180 then blockRow (chainCell 0) (a - 0x100)
  else if a < 0x200 then blockRow (chainCell 1) (a - 0x180)
  else blockRow pubCell (a - 0x200)

/-- The address of a cell, from the formulas of 10_state R30; an unused cell is found by its address only. -/
def Reg.addr : Reg → Nat
  | .id => 0x0 | .lifecycle => 0x1 | .fault => 0x2 | .fs => 0x3 | .blocksize => 0x4 | .dirty => 0x5
  | .recomputes => 0x6 | .viewW => 0x7 | .viewH => 0x8 | .crvLen => 0x9 | .pubSeq => 0xA | .pubFs => 0xB
  | .p i => 0x10 + i.val
  | .asnap i => 0x18 + i.val
  | .rsnap i => 0x20 + i.val
  | .stg s k => 0x40 + 8 * s.val + k.val
  | .coef ch s k => 0x100 + 0x80 * ch.val + 8 * s.val + k.val
  | .z1 ch s => 0x100 + 0x80 * ch.val + 8 * s.val + 5
  | .z2 ch s => 0x100 + 0x80 * ch.val + 8 * s.val + 6
  | .byp ch s => 0x100 + 0x80 * ch.val + 8 * s.val + 7
  | .pubCoef s k => 0x200 + 8 * s.val + k.val
  | .pubByp s => 0x200 + 8 * s.val + 7
  | .unused => 0x45

/-- The operands of a command lie in the legal sets of 30_encoding R96 that depend on the command word alone
(60_exceptions R275). RDCRV's index is checked against CRV_LEN by its meaning. -/
def operandsLegal : Instr → Bool
  | .rdreg addr => (regAt addr.toNat).isSome
  | .pwrite idx _ => decide (idx.toNat ≤ 6)
  | .pread idx => decide (idx.toNat ≤ 6)
  | .pdefault => true
  | .prepare _ _ => true
  | .block nin nout _ => decide (nin.toNat ≤ 2) && decide (nout.toNat ≤ 2)
  | .release => true
  | .wrsmp _ _ _ => true
  | .rdsmp _ _ => true
  | .clrch _ _ => true
  | .proc _ _ => true
  | .snap => true
  | .despk => true
  | .descut _ => true
  | .ldstg slot k _ => decide (slot.toNat ≤ 8) && decide (k.toNat ≤ 4)
  | .setpk _ => true
  | .setcut _ _ slope => decide (slope.toNat ≤ 3)
  | .publish => true
  | .tick => true
  | .setview width _ => decide (width.toNat ≤ Config.wmax)
  | .rdcrv _ => true

end Sys2Proof.Machine
end

