-- ==== Sys2Proof/WellFormed.lean ====
section
/-! DEFINITION. A command is well formed when its operands are in the legal sets of 30_encoding R96 that the command word
alone decides. -/

namespace Sys2Proof

/-- The check on one command; `Machine.operandsLegal` says it per command. -/
def Instr.wellFormed (i : Instr) : Bool := Machine.operandsLegal i

end Sys2Proof
end

