-- ==== Sys2Proof/Decode.lean ====
section
/-! DEFINITION. The decoder, total on every 64-bit word, and after it the encoder, both from the tables of 30_encoding R90,
R94 and R96. An unassigned opcode and an assigned one with a bad field are rejected by name (R97); the opcode is known in the
second case, because the port is checked before the fields (60_exceptions R274). -/

namespace Sys2Proof

open Machine (operandsLegal sideBit)

/-- The four fields of format C (30_encoding R90). -/
structure Fields where
  opc : BitVec 8
  a : BitVec 8
  b : BitVec 16
  imm : BitVec 32
deriving DecidableEq, Repr

/-- The fields of a command word: 63:56, 55:48, 47:32, 31:0. -/
def fieldsOf (w : CommandWord) : Fields :=
  { opc := w.extractLsb' 56 8, a := w.extractLsb' 48 8, b := w.extractLsb' 32 16, imm := w.extractLsb' 0 32 }

/-- The command word with given fields. -/
def wordOf (f : Fields) : CommandWord := f.opc ++ (f.a ++ (f.b ++ f.imm))

/-- OPC of a command (30_encoding R94). -/
def Opcode.code : Opcode → BitVec 8
  | .rdreg => 0x01#8
  | .pwrite => 0x10#8
  | .pread => 0x11#8
  | .pdefault => 0x12#8
  | .prepare => 0x20#8
  | .block => 0x21#8
  | .release => 0x22#8
  | .wrsmp => 0x23#8
  | .rdsmp => 0x24#8
  | .clrch => 0x25#8
  | .proc => 0x26#8
  | .snap => 0x28#8
  | .despk => 0x29#8
  | .descut => 0x2A#8
  | .ldstg => 0x2B#8
  | .setpk => 0x2C#8
  | .setcut => 0x2D#8
  | .publish => 0x2E#8
  | .tick => 0x30#8
  | .setview => 0x31#8
  | .rdcrv => 0x32#8

/-- The assigned opcodes, in the order of the table (30_encoding R94). -/
def Opcode.all : List Opcode :=
  [.rdreg, .pwrite, .pread, .pdefault, .prepare, .block, .release, .wrsmp, .rdsmp, .clrch, .proc,
   .snap, .despk, .descut, .ldstg, .setpk, .setcut, .publish, .tick, .setview, .rdcrv]

/-- The command an OPC value selects; none for an unassigned one (30_encoding R97, R102). -/
def opcodeOf (opc : BitVec 8) : Option Opcode := Opcode.all.find? (fun o => o.code == opc)

/-- The bits that must be zero in a word of each command: `zero_mask` of spec/opcode_table.json (30_encoding R91, R102). -/
def Opcode.zeroMask : Opcode → CommandWord
  | .rdreg => 0x00FF0000FFFFFFFF#64
  | .pwrite => 0x0000FFFF00000000#64
  | .pread => 0x0000FFFFFFFFFFFF#64
  | .pdefault => 0x00FFFFFFFFFFFFFF#64
  | .prepare => 0x00FF000000000000#64
  | .block => 0x00000000FFFFFFFF#64
  | .release => 0x00FFFFFFFFFFFFFF#64
  | .wrsmp => 0x00FE000000000000#64
  | .rdsmp => 0x00FE0000FFFFFFFF#64
  | .clrch => 0x00FE0000FFFFFFFF#64
  | .proc => 0x00FE0000FFFFFFFF#64
  | .snap => 0x00FFFFFFFFFFFFFF#64
  | .despk => 0x00FFFFFFFFFFFFFF#64
  | .descut => 0x00FEFFFFFFFFFFFF#64
  | .ldstg => 0x0000000000000000#64
  | .setpk => 0x00FEFFFFFFFFFFFF#64
  | .setcut => 0x00FC0000FFFFFFFF#64
  | .publish => 0x00FFFFFFFFFFFFFF#64
  | .tick => 0x00FFFFFFFFFFFFFF#64
  | .setview => 0x00FF0000FFFF0000#64
  | .rdcrv => 0x00FF0000FFFFFFFF#64

/-- A[0] as a chain number. -/
def chOf (f : Fields) : Fin 2 := ⟨f.a.toNat % 2, Nat.mod_lt _ (by decide)⟩

/-- A one-bit number as a side. -/
def sideOf (n : Nat) : Side := if n % 2 = 0 then .low else .high

/-- The operands of a word of a known opcode, taken from their fields (30_encoding R96); unused bits are not looked at. -/
def operandsOf (o : Opcode) (f : Fields) : Instr :=
  match o with
  | .rdreg => .rdreg f.b
  | .pwrite => .pwrite f.a f.imm
  | .pread => .pread f.a
  | .pdefault => .pdefault
  | .prepare => .prepare f.b f.imm
  | .block => .block (f.a.extractLsb' 0 4) (f.a.extractLsb' 4 4) f.b
  | .release => .release
  | .wrsmp => .wrsmp (chOf f) f.b f.imm
  | .rdsmp => .rdsmp (chOf f) f.b
  | .clrch => .clrch (chOf f) f.b
  | .proc => .proc (chOf f) f.b
  | .snap => .snap
  | .despk => .despk
  | .descut => .descut (sideOf f.a.toNat)
  | .ldstg => .ldstg f.a f.b f.imm
  | .setpk => .setpk (chOf f)
  | .setcut => .setcut (chOf f) (sideOf (f.a.toNat / 2)) f.b
  | .publish => .publish
  | .tick => .tick
  | .setview => .setview f.b (f.imm.extractLsb' 0 16)
  | .rdcrv => .rdcrv f.b

/-- What a command word is: a command, or one of the decoder's two rejections (30_encoding R97, R98). -/
inductive Decoded where
  | ok (i : Instr)
  | illegalOpcode
  | illegalOperand (o : Opcode)
deriving DecidableEq, Repr

/-- The decoder. -/
def decode (w : CommandWord) : Decoded :=
  match opcodeOf (fieldsOf w).opc with
  | none => .illegalOpcode
  | some o =>
    if w &&& o.zeroMask = 0#64 ∧ operandsLegal (operandsOf o (fieldsOf w)) = true then .ok (operandsOf o (fieldsOf w))
    else .illegalOperand o

/-- The command the decoder reads from the `nbits` low bits of `w`, numbered as spec/opcode_table.json numbers them; a
command word is 64 bits (30_encoding R99) and the bits above `nbits` are 0. -/
def decodeTableWord (nbits w : Nat) : Option Instr :=
  match decode (BitVec.ofNat 64 (w % 2 ^ nbits)) with
  | .ok i => some i
  | .illegalOpcode => none
  | .illegalOperand _ => none

/-- The A field of a command (30_encoding R96). -/
def fieldA : Instr → BitVec 8
  | .rdreg _ => 0#8
  | .pwrite idx _ => idx
  | .pread idx => idx
  | .pdefault => 0#8
  | .prepare _ _ => 0#8
  | .block nin nout _ => nout ++ nin
  | .release => 0#8
  | .wrsmp ch _ _ => BitVec.ofNat 8 ch.val
  | .rdsmp ch _ => BitVec.ofNat 8 ch.val
  | .clrch ch _ => BitVec.ofNat 8 ch.val
  | .proc ch _ => BitVec.ofNat 8 ch.val
  | .snap => 0#8
  | .despk => 0#8
  | .descut side => BitVec.ofNat 8 (sideBit side)
  | .ldstg slot _ _ => slot
  | .setpk ch => BitVec.ofNat 8 ch.val
  | .setcut ch side _ => BitVec.ofNat 8 (ch.val + 2 * sideBit side)
  | .publish => 0#8
  | .tick => 0#8
  | .setview _ _ => 0#8
  | .rdcrv _ => 0#8

/-- The B field of a command (30_encoding R96). -/
def fieldB : Instr → BitVec 16
  | .rdreg addr => addr
  | .pwrite _ _ => 0#16
  | .pread _ => 0#16
  | .pdefault => 0#16
  | .prepare bs _ => bs
  | .block _ _ count => count
  | .release => 0#16
  | .wrsmp _ index _ => index
  | .rdsmp _ index => index
  | .clrch _ count => count
  | .proc _ count => count
  | .snap => 0#16
  | .despk => 0#16
  | .descut _ => 0#16
  | .ldstg _ k _ => k
  | .setpk _ => 0#16
  | .setcut _ _ slope => slope
  | .publish => 0#16
  | .tick => 0#16
  | .setview width _ => width
  | .rdcrv index => index

/-- The IMM field of a command (30_encoding R96). -/
def fieldImm : Instr → BitVec 32
  | .rdreg _ => 0#32
  | .pwrite _ value => value
  | .pread _ => 0#32
  | .pdefault => 0#32
  | .prepare _ fs => fs
  | .block _ _ _ => 0#32
  | .release => 0#32
  | .wrsmp _ _ value => value
  | .rdsmp _ _ => 0#32
  | .clrch _ _ => 0#32
  | .proc _ _ => 0#32
  | .snap => 0#32
  | .despk => 0#32
  | .descut _ => 0#32
  | .ldstg _ _ value => value
  | .setpk _ => 0#32
  | .setcut _ _ _ => 0#32
  | .publish => 0#32
  | .tick => 0#32
  | .setview _ height => 0#16 ++ height
  | .rdcrv _ => 0#32

/-- The encoder: the command word of a command (30_encoding R90, R94, R96). -/
def encode (i : Instr) : CommandWord :=
  wordOf { opc := i.opcode.code, a := fieldA i, b := fieldB i, imm := fieldImm i }

end Sys2Proof
end

