-- ==== Sys2Proof/Machine/Float32.lean ====
section
/-! DEFINITION. IEEE 754 binary32 as the engine uses it (40_numerics R121 to R126, R130 to R132): round to nearest, ties to
even, subnormals kept, no flags, no traps, no fused operation.

A finite pattern stands for `units w * 2^-149`, with its sign; `units` is a natural number, so every exact result is a
quotient of natural numbers and is rounded once, by `roundBits`. -/

namespace Sys2Proof.Machine.F32

/-- The sign bit (00_scope R8). -/
def sign (w : Word) : Bool := w.msb

/-- Bits 30:0 of a pattern, as a number: they order the magnitudes. -/
def magBits (w : Word) : Nat := w.toNat % 2 ^ 31

/-- The magnitude bits of an infinity: exponent all ones, fraction zero. -/
def infBits : Nat := 0x7F800000

/-- Exponent all ones and fraction non-zero (40_numerics R131). -/
def isNaN (w : Word) : Bool := decide (infBits < magBits w)

/-- An infinity of either sign. -/
def isInf (w : Word) : Bool := decide (magBits w = infBits)

/-- Exponent not all ones (40_numerics R131). -/
def isFinite (w : Word) : Bool := decide (magBits w < infBits)

/-- A zero of either sign. -/
def isZero (w : Word) : Bool := decide (magBits w = 0)

/-- What magnitude bits stand for, in units of 2^-149: the fraction for a subnormal, else the fraction with its hidden bit at
its exponent (00_scope R8). -/
def bitsUnits (m : Nat) : Nat :=
  if m / 2 ^ 23 = 0 then m % 2 ^ 23 else (2 ^ 23 + m % 2 ^ 23) * 2 ^ (m / 2 ^ 23 - 1)

/-- The magnitude of a finite pattern, in units of 2^-149. -/
def units (w : Word) : Nat := bitsUnits (magBits w)

/-- The pattern with sign `neg` and magnitude bits `m`. -/
def pack (neg : Bool) (m : Nat) : Word := BitVec.ofNat 32 ((if neg then 2 ^ 31 else 0) + m)

/-- The pattern that stands for a NaN while a command computes. Which NaN reaches the state is free (log entry 5). -/
def nan : Word := 0x7FC00000#32

def one : Word := 0x3F800000#32
def two : Word := 0x40000000#32
def negTwo : Word := 0xC0000000#32
def zero : Word := 0x00000000#32
def posInf : Word := 0x7F800000#32
def negInf : Word := 0xFF800000#32

/-- The integer nearest to `a / b`, ties to even. -/
def roundEven (a b : Nat) : Nat :=
  if b < 2 * (a % b) ∨ (2 * (a % b) = b ∧ a / b % 2 = 1) then a / b + 1 else a / b

/-- The magnitude bits of the binary32 nearest to `num / den` units, ties to even, an infinity on overflow
(40_numerics R121). The quantum is `2^sh` units: 1 for a subnormal, else what leaves 24 significant bits. -/
def roundBits (num den : Nat) : Nat :=
  let sh := (num / den).log2 - 23
  min (sh * 2 ^ 23 + roundEven num (den * 2 ^ sh)) infBits

/-- Flips the sign bit (40_numerics R123). -/
def neg (a : Word) : Word := a ^^^ 0x80000000#32

/-- The exact sum of two finite patterns: its sign and its magnitude in units. A zero sum is negative only when both
operands are (40_numerics R122). -/
def exactSum (a b : Word) : Bool × Nat :=
  if sign a = sign b then (sign a, units a + units b)
  else if units b < units a then (sign a, units a - units b)
  else if units a < units b then (sign b, units b - units a)
  else (false, 0)

/-- `fadd` (40_numerics R122). -/
def fadd (a b : Word) : Word :=
  if isNaN a || isNaN b then nan
  else if isInf a then (if isInf b && sign a != sign b then nan else a)
  else if isInf b then b
  else pack (exactSum a b).1 (roundBits (exactSum a b).2 1)

/-- `fsub(a, b)` is `fadd(a, neg(b))` (40_numerics R123). -/
def fsub (a b : Word) : Word := fadd a (neg b)

/-- `fmul` (40_numerics R124). -/
def fmul (a b : Word) : Word :=
  if isNaN a || isNaN b then nan
  else if isInf a || isInf b then
    (if isZero a || isZero b then nan else pack (sign a != sign b) infBits)
  else pack (sign a != sign b) (roundBits (units a * units b) (2 ^ 149))

/-- `fdiv` (40_numerics R125). -/
def fdiv (a b : Word) : Word :=
  if isNaN a || isNaN b then nan
  else if isInf a then (if isInf b then nan else pack (sign a != sign b) infBits)
  else if isInf b then pack (sign a != sign b) 0
  else if isZero b then (if isZero a then nan else pack (sign a != sign b) infBits)
  else pack (sign a != sign b) (roundBits (units a * 2 ^ 149) (units b))

/-- The integer part of the square root of `x`, found bit by bit from bit `bits - 1` down; `r` holds the bits found. -/
def isqrt : (bits : Nat) → (x : Nat) → (r : Nat) → Nat
  | 0, _, r => r
  | b + 1, x, r => isqrt b x (if (r + 2 ^ b) * (r + 2 ^ b) ≤ x then r + 2 ^ b else r)

/-- `SQRT` (40_numerics R126). The root of `n` units is the root of `n * 2^149`, in units; it has more than 24 bits, so a
remainder can be told from none by adding half a unit, which no tie is made of. -/
def fsqrt (a : Word) : Word :=
  if isNaN a then nan
  else if isZero a then a
  else if sign a then nan
  else if isInf a then a
  else
    let x := units a * 2 ^ 149
    let r := isqrt 214 x 0
    pack false (roundBits (2 * r + (if r * r = x then 0 else 1)) 2)

/-- The place of a pattern that is no NaN on the number line; both zeros are at 0. -/
def order (w : Word) : Int := if sign w then -(magBits w : Int) else (magBits w : Int)

/-- `a < b`, false when either is a NaN (40_numerics R131). -/
def flt (a b : Word) : Bool := !isNaN a && !isNaN b && decide (order a < order b)

/-- `a > b` (40_numerics R131). -/
def fgt (a b : Word) : Bool := flt b a

/-- `a == b`, false when either is a NaN; the two zeros are equal (40_numerics R131). -/
def feq (a b : Word) : Bool := !isNaN a && !isNaN b && decide (order a = order b)

/-- `f32(n)`, exact for `n` below 2^24 (40_numerics R132). -/
def ofNat (n : Nat) : Word := pack false (roundBits (n * 2 ^ 149) 1)

/-- The integer part of a finite non-negative pattern, truncated toward zero (40_numerics R134). -/
def toNat (w : Word) : Nat := units w / 2 ^ 149

/-- The value of a finite pattern is below `n / d` in magnitude. -/
def magBelow (w : Word) (n d : Nat) : Bool := decide (units w * d < n * 2 ^ 149)

/-- `0 < w < n / d`. -/
def inOpen (w : Word) (n d : Nat) : Bool := isFinite w && !sign w && !isZero w && magBelow w n d

end Sys2Proof.Machine.F32
end

