-- ==== Sys2Proof/Machine/Numerics.lean ====
section
/-! DEFINITION. The record NUM (40_numerics R127), ClampRange and SlopeOrdinal (R133, R134), and a free NaN (R130). -/

namespace Sys2Proof.Machine

/-- A numerics record (40_numerics R127): five total functions, each result depending on the operand alone. -/
structure Numerics where
  sin : Word → Word
  cos : Word → Word
  tan : Word → Word
  pow10 : Word → Word
  log10 : Word → Word

end Sys2Proof.Machine

namespace Sys2Proof.Machine.Numeric

open F32

/-- The `n`-th NaN the engine stores: a quiet NaN of free sign and payload (40_numerics R130, log entry 5). -/
def freeNaN (n : Nat) : Word :=
  (Config.nanBits n).extractLsb' 22 1 ++ (0x1FF#9 ++ (Config.nanBits n).extractLsb' 0 22)

/-- What is stored for a computed result: the result, or for a NaN the free NaN number `n`. -/
def store (n : Nat) (r : Word) : Word := if isNaN r then freeNaN n else r

/-- `ClampRange(v, lo, hi, dflt)` (40_numerics R133). -/
def clampRange (v lo hi dflt : Word) : Word :=
  if isNaN v then dflt else if flt v lo then lo else if fgt v hi then hi else v

/-- `SlopeOrdinal(v, dflt)` (40_numerics R134). The clamp leaves an integer part of 0 to 3, so the remainder changes
nothing. -/
def slopeOrdinal (v dflt : Word) : Fin 4 :=
  Fin.ofNat 4 (F32.toNat (clampRange v zero 0x40400000#32 dflt))

end Sys2Proof.Machine.Numeric
end

