-- ==== Sys2Proof/Machine/Types.lean ====
section
/-! DEFINITION. The data the state is made of. -/

namespace Sys2Proof.Machine

/-- The three command ports and their agents (20_memory R65): A audio, R render, H host parameter. -/
inductive Port where
  | a | r | h
deriving DecidableEq, Repr

/-- The source's state machine (10_state R25). -/
inductive Lifecycle where
  | uninitialized | prepared | processing | released
deriving DecidableEq, Repr

/-- The faults of 60_exceptions R270: the abnormal ends of a command. None of them stops the machine. -/
inductive FaultCode where
  | illegalOpcode | illegalOperand | wrongPort | lifecycleFault | configMismatch | badBlock
  | invalidParameter | coefficientFault
deriving DecidableEq, Repr

/-- A coefficient block `(b0, b1, b2, a1, a2)`, a0 normalized to 1 (10_state R38). -/
structure Block where
  b0 : Word
  b1 : Word
  b2 : Word
  a1 : Word
  a2 : Word
deriving DecidableEq, Repr

/-- The delay pair of a slot (10_state R39). -/
structure Delay where
  z1 : Word
  z2 : Word
deriving DecidableEq, Repr

/-- ChainSettings, one snapshot (10_state R36); a slope is its ordinal. -/
structure Settings where
  lowCutFreq : Word
  lowCutSlope : Fin 4
  highCutFreq : Word
  highCutSlope : Fin 4
  peakFreq : Word
  peakGain : Word
  peakQ : Word
deriving DecidableEq, Repr

/-- One FilterChain: nine coefficient blocks, nine delay pairs, eight bypass flags, true for bypassed
(10_state R26, R38, R39). -/
structure Chain where
  coef : Vector Block 9
  z : Vector Delay 9
  byp : Vector Bool 8
deriving DecidableEq, Repr

/-- The published copy PUB (10_state R40). -/
structure Published where
  coef : Vector Block 9
  byp : Vector Bool 8
  fs : Word
  seq : Word
deriving DecidableEq, Repr

/-- The commands that take a snapshot, with their operands (20_memory R67). -/
inductive SnapshotCmd where
  | snap
  | prepare (bs : BitVec 16) (fs : Word)
  | block (nin : BitVec 4) (nout : BitVec 4) (count : BitVec 16)
  | tick
deriving DecidableEq, Repr

/-- A command that has begun and not answered (20_memory R67). `reading`: a snapshot, with the parameters read so far.
`defaulting n`: PDEFAULT, with the writes of P[0] to P[n-1] made; at 7 the set of DIRTY is left. -/
inductive InFlight where
  | reading (c : SnapshotCmd) (got : Vector (Option Word) 7)
  | defaulting (n : Fin 8)
deriving DecidableEq, Repr

/-- One port: the commands presented and not begun, oldest first; the command under way, if any; the last response, if any
(20_memory R66, 30_encoding R93). -/
structure PortState where
  queue : List CommandWord
  busy : Option InFlight
  resp : Option (BitVec 40)
deriving DecidableEq, Repr

/-- What happens next, chosen outside the engine (10_state R45).
`atomic p c`: port `p` makes one atomic step (20_memory R67); where the step reads a parameter, `c` chooses which of those not
yet read. `whole p`: port `p` runs its next command, or the rest of the one under way, to its response with no step of another
port between. `reset`: the external reset (70_reset R310). -/
inductive Turn where
  | atomic (p : Port) (c : Nat)
  | whole (p : Port)
  | reset
deriving DecidableEq, Repr

/-- A memory as a list of bytes (the little-endian byte view of 20_memory R61): addresses strictly rising, no entry for a byte
nothing has written. An unlisted address holds no value. -/
structure Memory where
  cells : List Host.Cell
deriving DecidableEq, Repr

end Sys2Proof.Machine
end

