-- ==== Sys2Proof/Machine/Snapshot.lean ====
section
/-! DEFINITION. The parameter ranges and defaults (10_state R22, 93_implementation_defined U11), the function Snapshot
(41_parameters R155), the identity block and the neutral chain (10_state R30, R47). -/

namespace Sys2Proof.Machine

open F32 Numeric

/-- The declared low bound of each parameter (10_state R22): 20, 0, 200, 0, 200, -24, 0.1. -/
def paramLow : Vector Word 7 :=
  #v[0x41A00000#32, 0x00000000#32, 0x43480000#32, 0x00000000#32, 0x43480000#32, 0xC1C00000#32, 0x3DCCCCCD#32]

/-- The declared high bound of each parameter (10_state R22): 2000, 3, 20000, 3, 20000, 12, 10. -/
def paramHigh : Vector Word 7 :=
  #v[0x44FA0000#32, 0x40400000#32, 0x469C4000#32, 0x40400000#32, 0x469C4000#32, 0x41400000#32, 0x41200000#32]

/-- The suggested default of each parameter (92_eei_decisions D6): 20, 0, 20000, 0, 1000, 0, 1. It stands in where a free
default is not a legal one. -/
def paramSuggested : Vector Word 7 :=
  #v[0x41A00000#32, 0x00000000#32, 0x469C4000#32, 0x00000000#32, 0x447A0000#32, 0x00000000#32, 0x3F800000#32]

/-- `v` lies in the declared range of parameter `i`. -/
def inRange (i : Fin 7) (v : Word) : Bool :=
  !isNaN v && !flt v paramLow[i] && !fgt v paramHigh[i]

/-- A legal default of parameter `i`: in its range, and for a slope exactly 0.0, 1.0, 2.0 or 3.0 (U11). -/
def defaultLegal (i : Fin 7) (v : Word) : Bool :=
  inRange i v && (!decide (i = 1 ∨ i = 3)
    || decide (v = 0x00000000#32 ∨ v = 0x3F800000#32 ∨ v = 0x40000000#32 ∨ v = 0x40400000#32))

/-- A free default held to the legal ones. -/
def defaultOf (raw : Nat → Word) (i : Fin 7) : Word :=
  if defaultLegal i (raw i.val) then raw i.val else paramSuggested[i]

/-- DEF_P (00_scope R7, log entry 3). -/
def defP : Vector Word 7 :=
  #v[defaultOf Config.defPFree 0, defaultOf Config.defPFree 1, defaultOf Config.defPFree 2, defaultOf Config.defPFree 3,
    defaultOf Config.defPFree 4, defaultOf Config.defPFree 5, defaultOf Config.defPFree 6]

/-- ClampRange of raw parameter `i` to its declared range, with its default (41_parameters R155). -/
def clampParam (r : Vector Word 7) (i : Fin 7) : Word :=
  clampRange r[i] paramLow[i] paramHigh[i] defP[i]

/-- `Snapshot(r)` (41_parameters R155). -/
def snapshot (r : Vector Word 7) : Settings :=
  { lowCutFreq := clampParam r 0
    lowCutSlope := slopeOrdinal r[1] defP[1]
    highCutFreq := clampParam r 2
    highCutSlope := slopeOrdinal r[3] defP[3]
    peakFreq := clampParam r 4
    peakGain := clampParam r 5
    peakQ := clampParam r 6 }

/-- Word `i` of a snapshot as RDREG reads it (10_state R36). -/
def Settings.word (s : Settings) (i : Fin 7) : Word :=
  #v[s.lowCutFreq, BitVec.ofNat 32 s.lowCutSlope.val, s.highCutFreq, BitVec.ofNat 32 s.highCutSlope.val,
    s.peakFreq, s.peakGain, s.peakQ][i]

/-- Every field lies in its declared range (10_state R36). -/
def Settings.inRange (s : Settings) : Bool :=
  Machine.inRange 0 s.lowCutFreq && Machine.inRange 2 s.highCutFreq && Machine.inRange 4 s.peakFreq
    && Machine.inRange 5 s.peakGain && Machine.inRange 6 s.peakQ

/-- The identity block (1.0, 0.0, 0.0, 0.0, 0.0) (10_state R30). -/
def Block.identity : Block := { b0 := one, b1 := zero, b2 := zero, a1 := zero, a2 := zero }

/-- Word `k` of a block: 0 b0, 1 b1, 2 b2, 3 a1, 4 a2 (10_state R30). -/
def Block.word (c : Block) (k : Fin 5) : Word := #v[c.b0, c.b1, c.b2, c.a1, c.a2][k]

/-- A block with word `k` replaced (42_designer R178). -/
def Block.setWord (c : Block) (k : Fin 5) (v : Word) : Block :=
  match k with
  | 0 => { c with b0 := v }
  | 1 => { c with b1 := v }
  | 2 => { c with b2 := v }
  | 3 => { c with a1 := v }
  | 4 => { c with a2 := v }

/-- `AllFinite(c)` (40_numerics R131). -/
def Block.allFinite (c : Block) : Bool :=
  isFinite c.b0 && isFinite c.b1 && isFinite c.b2 && isFinite c.a1 && isFinite c.a2

/-- The delay pair (+0.0, +0.0). -/
def Delay.clear : Delay := { z1 := zero, z2 := zero }

/-- The neutral state of a chain (10_state R47). -/
def Chain.neutral : Chain :=
  { coef := Vector.replicate 9 Block.identity, z := Vector.replicate 9 Delay.clear, byp := Vector.replicate 8 true }

end Sys2Proof.Machine
end

