-- ==== Sys2Proof/Machine/Flags.lean ====
section
/-! DEFINITION. The flags and the predicates on them: the sticky FAULT bits (10_state R28), the bypass flags (10_state R26),
the count of active stages (10_state R29) and the neutral peak (45_renderer R243). No flag is set by arithmetic. -/

namespace Sys2Proof.Machine

open F32

/-- The status code of a fault (60_exceptions R270). -/
def FaultCode.code : FaultCode → Nat
  | .illegalOpcode => 1
  | .illegalOperand => 2
  | .wrongPort => 3
  | .lifecycleFault => 4
  | .configMismatch => 5
  | .badBlock => 6
  | .invalidParameter => 7
  | .coefficientFault => 8

/-- FAULT with the bit of a fault set; the other bits stay (10_state R28). -/
def withFaultBit (w : Word) (f : FaultCode) : Word := w ||| (1#32 <<< f.code)

/-- The flag of a slot: true for bypassed; the peak slot has no flag and is never bypassed (10_state R26). -/
def bypassed (byp : Vector Bool 8) (s : Fin 9) : Bool :=
  match flagOfSlot s with
  | none => false
  | some k => byp[k]

/-- The four flags of a side given the value of `b` (phases (a) and (c) of 43_chain R192 set flags one value at a time). -/
def setFlags (side : Side) (b : Bool) (stages : List (Fin 4)) (byp : Vector Bool 8) : Vector Bool 8 :=
  stages.foldl (fun f i => f.set (cutFlag side i) b) byp

/-- `ActiveCount(ch, side)`: how many stages of a side are not bypassed (10_state R29). -/
def activeCount (byp : Vector Bool 8) (side : Side) : Nat :=
  (([0, 1, 2, 3] : List (Fin 4)).filter (fun i => !byp[cutFlag side i])).length

/-- `PeakNeutral(c)` (45_renderer R243). -/
def peakNeutral (c : Block) : Bool := feq c.b0 one && feq c.b1 c.a1 && feq c.b2 c.a2

/-- The two bits of LIFECYCLE (10_state R25). -/
def Lifecycle.code : Lifecycle → Nat
  | .uninitialized => 0
  | .prepared => 1
  | .processing => 2
  | .released => 3

end Sys2Proof.Machine
end

