-- ==== Sys2Proof/Machine/Designs.lean ====
section
/-! DEFINITION. The designs (42_designer R172, R174, R177) made with an instance `n` of NUM. -/

namespace Sys2Proof.Machine

open F32

/-- A sample rate PREPARE accepts: finite and at least FS_MIN (44_audio_loop R221). -/
def rateValid (fs : Word) : Bool := isFinite fs && !flt fs Config.fsMin

/-- `ClampF(f, fs)`, the Nyquist guard (42_designer R172). -/
def clampF (f fs : Word) : Word :=
  let m := fmul Config.nyqFrac fs
  if fgt f m then m else f

/-- `DesignPeak(f, Q, g, fs)` (42_designer R174), each operation rounded in the order written there. -/
def Numerics.designPeak (n : Numerics) (f q g fs : Word) : Block :=
  let fc := clampF f fs
  let a := n.pow10 (fdiv g 0x42200000#32)
  let w0 := fdiv (fmul Config.twoPi fc) fs
  let sn := n.sin w0
  let cs := n.cos w0
  let al := fdiv sn (fmul two q)
  let c1 := fmul negTwo cs
  let aA := fmul al a
  let aO := fdiv al a
  let b0 := fadd one aA
  let b2 := fsub one aA
  let a0 := fadd one aO
  let a2 := fsub one aO
  { b0 := fdiv b0 a0, b1 := fdiv c1 a0, b2 := fdiv b2 a0, a1 := fdiv c1 a0, a2 := fdiv a2 a0 }

/-- `1 / Q_i` of section `i` of order `2 (k + 1)` (42_designer R177). -/
def Numerics.sectionIq (n : Numerics) (k : Fin 4) (i : Nat) : Word :=
  fmul two (n.cos (fdiv (fmul (F32.ofNat (2 * i + 1)) Config.pi) (F32.ofNat (2 * (2 * (k.val + 1))))))

/-- One second-order section with pre-warped `t` and `iq = 1 / Q_i` (42_designer R177): highpass for the low-cut side,
lowpass for the high-cut side (R171). -/
def sectionBlock (side : Side) (t iq : Word) : Block :=
  let t2 := fmul t t
  let tq := fmul t iq
  let nm := fdiv one (fadd (fadd one tq) t2)
  let a1 := fmul (fmul two (fsub t2 one)) nm
  let a2 := fmul (fadd (fsub one tq) t2) nm
  match side with
  | .low => { b0 := nm, b1 := fmul negTwo nm, b2 := nm, a1 := a1, a2 := a2 }
  | .high => { b0 := fmul t2 nm, b1 := fmul two (fmul t2 nm), b2 := fmul t2 nm, a1 := a1, a2 := a2 }

/-- `DesignCut(kind, f, fs, k)`: `k + 1` blocks in order of increasing `i` (42_designer R177). -/
def Numerics.designCut (n : Numerics) (side : Side) (f fs : Word) (k : Fin 4) : List Block :=
  let t := n.tan (fdiv (fmul Config.pi (clampF f fs)) fs)
  (stagesUpTo k).map fun i => sectionBlock side t (n.sectionIq k i.val)

/-- The cut frequency and slope of a side in a snapshot (42_designer R176). -/
def Settings.cutFreq (v : Settings) : Side → Word
  | .low => v.lowCutFreq
  | .high => v.highCutFreq
def Settings.cutSlope (v : Settings) : Side → Fin 4
  | .low => v.lowCutSlope
  | .high => v.highCutSlope

/-- The peak block of a snapshot at a sample rate (42_designer R173). -/
def Numerics.peakOf (n : Numerics) (v : Settings) (fs : Word) : Block := n.designPeak v.peakFreq v.peakQ v.peakGain fs

/-- The cut blocks of one side of a snapshot at a sample rate (42_designer R176). -/
def Numerics.cutOf (n : Numerics) (v : Settings) (fs : Word) (side : Side) : List Block :=
  n.designCut side (v.cutFreq side) fs (v.cutSlope side)

/-- Every design of a snapshot at a sample rate is finite (44_audio_loop R221, R224). -/
def Numerics.finiteAt (n : Numerics) (v : Settings) (fs : Word) : Bool :=
  (n.peakOf v fs).allFinite && (n.cutOf v fs .low).all Block.allFinite && (n.cutOf v fs .high).all Block.allFinite

/-- No design of a snapshot in range at a valid sample rate has a non-finite word: 42_designer R175(c) and R179(d), which
60_exceptions R279 says of every instance of NUM. -/
def Numerics.DesignsFinite (n : Numerics) : Prop :=
  ∀ (v : Settings) (fs : Word), v.inRange = true → rateValid fs = true → n.finiteAt v fs = true

end Sys2Proof.Machine
end

