-- ==== Sys2Proof/Machine/Reference.lean ====
section
/-! DEFINITION. The real numbers that binary32 patterns stand for and the exact functions on them: what 40_numerics R128
requires of an instance of NUM, and R129's reference instance NUM_CR. Nothing here is computed by a command. -/

namespace Sys2Proof.Machine

open F32

/-- The real number that a finite pattern stands for (00_scope R8). -/
noncomputable def val (w : Word) : ℝ := (if sign w then -(units w : ℝ) else (units w : ℝ)) / 2 ^ 149

/-- One unit in the last place of a real number other than 0: the quantum of binary32 at its magnitude, 2^-149 at the least. -/
noncomputable def ulpOf (r : ℝ) : ℝ := 2 ^ max (Int.log 2 |r| - 23) (-149)

/-- `r` rounds to a finite binary32 number: its magnitude is below the largest one and half its quantum. -/
def representable (r : ℝ) : Prop := |r| < (2 ^ 25 - 1) * 2 ^ 103

/-- `u` as a number of quarters that lies between the same multiples of a half: those, where it is one of them, else the quarter
between. -/
noncomputable def quarters (u : ℝ) : Nat := 2 * ⌊2 * u⌋₊ + if 2 * u = ⌊2 * u⌋₊ then 0 else 1

/-- The magnitude bits of the binary32 nearest to `u` units, ties to even, an infinity on overflow (40_numerics R121): every
number and every tie is a multiple of half a unit, so `u` is rounded as its quarters are. -/
noncomputable def realBits (u : ℝ) : Nat := roundBits (quarters u) 4

/-- A real number rounded once to binary32, to nearest, ties to even. `negZero` is the sign of an exact 0. -/
noncomputable def roundReal (negZero : Bool) (r : ℝ) : Word :=
  pack (if r = 0 then negZero else if r < 0 then true else false) (realBits (|r| * 2 ^ 149))

/-- N6 of 40_numerics R128 for one result `y` of exact value `r`: where `r` is not 0 and does not overflow, `y` is within `ulp`
units in the last place of it. -/
def Accurate (ulp : ℚ) (r : ℝ) (y : Word) : Prop :=
  r ≠ 0 → representable r → isFinite y = true ∧ |val y - r| ≤ ulp * ulpOf r

/-- The properties required of every instance of NUM (40_numerics R128); `ulp` is the open parameter NUM_ULP. -/
structure Numerics.Required (n : Numerics) (ulp : ℚ) : Prop where
  /-- POW10 of a zero is 1.0. -/
  n1 : ∀ x, isZero x = true → n.pow10 x = one
  /-- LOG10(1.0) is +0.0. -/
  n2 : n.log10 one = zero
  /-- LOG10 of the zeros, below zero, of a NaN and of `+inf`. -/
  n3 : (∀ x, isZero x = true → n.log10 x = negInf) ∧
    (∀ x, isNaN x = true ∨ flt x zero = true → isNaN (n.log10 x) = true) ∧ n.log10 posInf = posInf
  /-- POW10 of the infinities and of a NaN; SIN, COS, TAN of what is not finite. -/
  n4 : n.pow10 negInf = zero ∧ n.pow10 posInf = posInf ∧ (∀ x, isNaN x = true → isNaN (n.pow10 x) = true) ∧
    ∀ x, isFinite x = false → isNaN (n.sin x) = true ∧ isNaN (n.cos x) = true ∧ isNaN (n.tan x) = true
  /-- SIN and COS of a finite operand are of magnitude at most 1.0; POW10 is `+0.0`, positive or `+inf`. -/
  n5 : ∀ x, isFinite x = true → magBits (n.sin x) ≤ magBits one ∧ magBits (n.cos x) ≤ magBits one ∧
    sign (n.pow10 x) = false ∧ isNaN (n.pow10 x) = false
  /-- Accuracy. -/
  n6 : ∀ x, isFinite x = true → Accurate ulp (Real.sin (val x)) (n.sin x) ∧ Accurate ulp (Real.cos (val x)) (n.cos x) ∧
    Accurate ulp (Real.tan (val x)) (n.tan x) ∧ Accurate ulp ((10 : ℝ) ^ val x) (n.pow10 x) ∧
    (0 < val x → Accurate ulp (Real.logb 10 (val x)) (n.log10 x))
  /-- Sign, on the operands of a design. -/
  n7 : (∀ x, inOpen x 15394 10000 = true → flt zero (n.tan x) = true) ∧
    (∀ x, inOpen x 30788 10000 = true → flt zero (n.sin x) = true) ∧ ∀ x, inOpen x 15 10 = true → flt zero (n.cos x) = true

/-- The reference instance NUM_CR (40_numerics R129): the exact result rounded once, with the special values of N1 to N4. -/
noncomputable def numCR : Numerics where
  sin x := if isFinite x then roundReal (Config.crNegZero x) (Real.sin (val x)) else nan
  cos x := if isFinite x then roundReal (Config.crNegZero x) (Real.cos (val x)) else nan
  tan x := if isFinite x then roundReal (Config.crNegZero x) (Real.tan (val x)) else nan
  pow10 x :=
    if isNaN x then nan
    else if isInf x then (if sign x then zero else posInf)
    else roundReal false ((10 : ℝ) ^ val x)
  log10 x :=
    if isNaN x then nan
    else if isZero x then negInf
    else if sign x then nan
    else if isInf x then posInf
    else roundReal false (Real.logb 10 (val x))

end Sys2Proof.Machine
end

