-- ==== Sys2Proof/Machine/Instance.lean ====
section
/-! DEFINITION. The instance of NUM that the engine has: any that 40_numerics R128 admits (log entry 4). -/

namespace Sys2Proof.Machine

/-- An instance of NUM with its NUM_ULP that the spec admits: NUM_ULP at least 0.5, the properties of 40_numerics R128, and
finite designs, which 60_exceptions R279 says every instance has. For a NUM_ULP below 2^22 the last follows from the others. -/
structure Numerics.Admitted (n : Numerics) (ulp : ℚ) : Prop where
  ulpAtLeastHalf : 1 / 2 ≤ ulp
  required : n.Required ulp
  designs : n.DesignsFinite

end Sys2Proof.Machine

/-- FREE VALUE (log entry 4): NUM_ULP and NUM (40_numerics R127, R128), any admitted pair. -/
opaque Sys2Proof.Config.numFree : Option { x : ℚ × Sys2Proof.Machine.Numerics // x.2.Admitted x.1 }

namespace Sys2Proof.Machine.Numeric

open F32

/-- An admitted pair that stands in where the free value names none: every result that R128 leaves open is 1.0, for a NUM_ULP
so large that N6 allows it. -/
def spareUlp : ℚ := 2 ^ 300
def spare : Numerics where
  sin x := if isFinite x then one else nan
  cos x := if isFinite x then one else nan
  tan x := if isFinite x then one else nan
  pow10 x := if isNaN x then nan else if isInf x then (if sign x then zero else posInf) else one
  log10 x :=
    if isNaN x then nan
    else if isZero x then negInf
    else if sign x then nan
    else if isInf x then posInf
    else zero

/-- The pair that a free choice gives. -/
def pairOf : Option { x : ℚ × Numerics // x.2.Admitted x.1 } → ℚ × Numerics
  | some x => x.1
  | none => (spareUlp, spare)

/-- NUM_ULP, the open accuracy parameter (40_numerics R128, N6). -/
def numUlp : ℚ := (pairOf Config.numFree).1

/-- NUM, the engine's numerics record (40_numerics R127). -/
def num : Numerics := (pairOf Config.numFree).2

/-- The functions of NUM. -/
abbrev sin : Word → Word := num.sin
abbrev cos : Word → Word := num.cos
abbrev tan : Word → Word := num.tan
abbrev pow10 : Word → Word := num.pow10
abbrev log10 : Word → Word := num.log10

end Sys2Proof.Machine.Numeric
end

