-- ==== Sys2Proof/Machine/State.lean ====
section
/-! DEFINITION. The state of the engine (10_state R20) with the three ports and the outside world's choices, the reasons a step
can stop, and the state after reset (10_state R46). -/

namespace Sys2Proof.Machine

/-- Why the machine stops with a fault: never. Every fault of the spec is the abnormal end of ONE command, reported in its
response and in FAULT, after which the engine goes on (60_exceptions R271, R273), so it is a next state. Nobody raises a
value of this type. -/
inductive Fault where
deriving DecidableEq, Repr

/-- Why the model has no meaning for an instruction. -/
inductive Refusal where
  /-- Raised by an arm of `exec` whose command has no meaning yet; safe. No arm raises it. -/
  | notModelled (mnemonic : String)
deriving DecidableEq, Repr

/-- The state. The fields down to `crv` are the spec's (10_state R20), ID aside, which is a constant. The ports hold the
commands presented, begun and answered (20_memory R66). The last four are the model's own: the port whose turn it is, the
choices of the outside world still to come (10_state R45), the number of free NaNs stored (log entry 5) and the number of
resets so far, which selects the free contents of unwritten memory (log entry 6). -/
structure State where
  p : Vector Word 7
  lifecycle : Lifecycle
  fault : Word
  fs : Word
  blocksize : BitVec 16
  dirty : Bool
  recomputes : Word
  viewW : BitVec 16
  viewH : BitVec 16
  crvLen : BitVec 16
  asnap : Settings
  rsnap : Settings
  stg : Vector Block 9
  chains : Vector Chain 2
  pub : Published
  smp : Memory
  crv : Memory
  portA : PortState
  portR : PortState
  portH : PortState
  active : Port
  schedule : List Turn
  draws : Nat
  epoch : Nat
deriving DecidableEq, Repr

/-- An idle port with nothing presented and nothing answered. -/
def PortState.idle : PortState := { queue := [], busy := none, resp := none }

/-- The published copy after reset (10_state R46). -/
def Published.neutral : Published :=
  { coef := Vector.replicate 9 Block.identity, byp := Vector.replicate 8 true, fs := F32.zero, seq := 0#32 }

/-- The state after reset (10_state R46, 70_reset R310): nothing written in SMP and CRV, the ports idle, nothing presented and
nothing scheduled. -/
def State.reset : State :=
  { p := defP
    lifecycle := .uninitialized
    fault := 0#32
    fs := F32.zero
    blocksize := 0#16
    dirty := true
    recomputes := 0#32
    viewW := 0#16
    viewH := 0#16
    crvLen := 0#16
    asnap := snapshot defP
    rsnap := snapshot defP
    stg := Vector.replicate 9 Block.identity
    chains := Vector.replicate 2 Chain.neutral
    pub := Published.neutral
    smp := { cells := [] }
    crv := { cells := [] }
    portA := PortState.idle
    portR := PortState.idle
    portH := PortState.idle
    active := .a
    schedule := []
    draws := 0
    epoch := 0 }

end Sys2Proof.Machine
end

