-- ==== Sys2Proof/Machine/Ops.lean ====
section
/-! DEFINITION. The named operations on memory and registers, the response of a command, taking a fault, and the checks every
command makes before its effect. -/

namespace Sys2Proof.Machine

open F32

/-! ### Memory (20_memory R60 to R63): one cell of 32 bits, four bytes of the little-endian view -/

/-- The byte at an address, none where nothing was written. -/
def Memory.lookup (m : Memory) (a : Nat) : Option Byte := m.cells.lookup a

/-- Puts one byte into a rising list. -/
def putCell : List Host.Cell → Nat → Byte → List Host.Cell
  | [], a, v => [(a, v)]
  | (b, w) :: rest, a, v =>
    if a < b then (a, v) :: (b, w) :: rest
    else if a = b then (a, v) :: rest
    else (b, w) :: putCell rest a v

/-- Writes one byte. -/
def Memory.put (m : Memory) (a : Nat) (v : Byte) : Memory := { cells := putCell m.cells a v }

/-- The canonical form: addresses strictly rising. An unlisted byte holds no value, so no entry can repeat one. -/
abbrev Memory.wf (m : Memory) : Prop := (m.cells.map Prod.fst).Pairwise (· < ·)

/-- Reads one byte; where nothing was written, the free content (93_implementation_defined U7). -/
def Memory.byteAt (free : Nat → Byte) (m : Memory) (a : Nat) : Byte := (m.lookup a).getD (free a)

/-- MemRead of cell `c` (20_memory R60), little-endian (R61). -/
def Memory.readWord (free : Nat → Byte) (m : Memory) (c : Nat) : Word :=
  m.byteAt free (4 * c + 3) ++ (m.byteAt free (4 * c + 2) ++ (m.byteAt free (4 * c + 1) ++ m.byteAt free (4 * c)))

/-- MemWrite of cell `c` (20_memory R60), little-endian (R61). -/
def Memory.writeWord (m : Memory) (c : Nat) (v : Word) : Memory :=
  (((m.put (4 * c) (v.extractLsb' 0 8)).put (4 * c + 1) (v.extractLsb' 8 8)).put (4 * c + 2) (v.extractLsb' 16 8)).put
    (4 * c + 3) (v.extractLsb' 24 8)

/-- The cell number of SMP[ch][i] (10_state R41). -/
def smpCell (ch : Fin 2) (i : Nat) : Nat := 65536 * ch.val + i

/-! ### Named updates of the state -/

def State.setParam (s : State) (i : Fin 7) (v : Word) : State := { s with p := s.p.set i v }
def State.setParams (s : State) (v : Vector Word 7) : State := { s with p := v }
def State.setDirty (s : State) (b : Bool) : State := { s with dirty := b }
def State.setFault (s : State) (w : Word) : State := { s with fault := w }
def State.setLifecycle (s : State) (l : Lifecycle) : State := { s with lifecycle := l }
def State.setRate (s : State) (fs : Word) (bs : BitVec 16) : State := { s with fs := fs, blocksize := bs }
def State.setAsnap (s : State) (v : Settings) : State := { s with asnap := v }
def State.setRsnap (s : State) (v : Settings) : State := { s with rsnap := v }
def State.setStaging (s : State) (v : Vector Block 9) : State := { s with stg := v }
def State.setChains (s : State) (v : Vector Chain 2) : State := { s with chains := v }
def State.setPub (s : State) (v : Published) : State := { s with pub := v }
def State.setSmp (s : State) (m : Memory) : State := { s with smp := m }
def State.setCurve (s : State) (m : Memory) (len : BitVec 16) (count : Word) : State :=
  { s with crv := m, crvLen := len, recomputes := count }
def State.setView (s : State) (w h : BitVec 16) : State := { s with viewW := w, viewH := h }
def State.setDraws (s : State) (n : Nat) : State := { s with draws := n }
def State.setActive (s : State) (p : Port) : State := { s with active := p }
def State.setSchedule (s : State) (l : List Turn) : State := { s with schedule := l }

/-- A port by its letter. -/
def State.port (s : State) : Port → PortState
  | .a => s.portA
  | .r => s.portR
  | .h => s.portH

def State.setPort (s : State) (p : Port) (v : PortState) : State :=
  match p with
  | .a => { s with portA := v }
  | .r => { s with portR := v }
  | .h => { s with portH := v }

/-- One chain (10_state R38). -/
def State.chain (s : State) (ch : Fin 2) : Chain := s.chains[ch]

/-- One chain replaced; the other is untouched (43_chain R190). -/
def State.setChain (s : State) (ch : Fin 2) (c : Chain) : State := s.setChains (s.chains.set ch c)

/-- SMP[ch][i] as a command reads it (10_state R41). -/
def State.readSmp (s : State) (ch : Fin 2) (i : Nat) : Word :=
  s.smp.readWord (Config.unwrittenSmp s.epoch) (smpCell ch i)

/-- One byte of SMP as a command would read it. -/
def State.smpByte (s : State) (a : Nat) : Byte := s.smp.byteAt (Config.unwrittenSmp s.epoch) a

/-- CRV[i] as RDCRV reads it (10_state R42). -/
def State.readCrv (s : State) (i : Nat) : Word := s.crv.readWord (Config.unwrittenCrv s.epoch) i

/-- One byte of CRV as RDCRV would read it. -/
def State.crvByte (s : State) (a : Nat) : Byte := s.crv.byteAt (Config.unwrittenCrv s.epoch) a

/-! ### Reading a register (46_access R260) -/

/-- A flag or a bit, zero-extended. -/
def bitWord (b : Bool) : Word := if b then 1#32 else 0#32

/-- The 32-bit value of a cell of the REG space, zero-extended where the register is narrower (10_state R30). -/
def State.readReg (s : State) : Reg → Word
  | .id => Config.idValue
  | .lifecycle => BitVec.ofNat 32 s.lifecycle.code
  | .fault => s.fault
  | .fs => s.fs
  | .blocksize => s.blocksize.zeroExtend 32
  | .dirty => bitWord s.dirty
  | .recomputes => s.recomputes
  | .viewW => s.viewW.zeroExtend 32
  | .viewH => s.viewH.zeroExtend 32
  | .crvLen => s.crvLen.zeroExtend 32
  | .pubSeq => s.pub.seq
  | .pubFs => s.pub.fs
  | .p i => s.p[i]
  | .asnap i => s.asnap.word i
  | .rsnap i => s.rsnap.word i
  | .stg b k => s.stg[b].word k
  | .coef ch b k => (s.chain ch).coef[b].word k
  | .z1 ch b => (s.chain ch).z[b].z1
  | .z2 ch b => (s.chain ch).z[b].z2
  | .byp ch b => bitWord (bypassed (s.chain ch).byp b)
  | .pubCoef b k => s.pub.coef[b].word k
  | .pubByp b => bitWord (bypassed s.pub.byp b)
  | .unused => 0#32

/-! ### The response and the fault -/

/-- `resp(status, data)` as a 40-bit word (30_encoding R93). -/
def response (status : Nat) (data : Word) : BitVec 40 := BitVec.ofNat 8 status ++ data

/-- The command of the port whose turn it is ends: its response is returned and the port is idle (20_memory R66). -/
def State.respond (s : State) (status : Nat) (data : Word) : State :=
  s.setPort s.active { s.port s.active with busy := none, resp := some (response status data) }

/-- TAKING A FAULT (60_exceptions R271, R272): the sticky bit of the code is set, `resp(code, 0)` is returned, and nothing else
changes. There is no handler, nothing is saved and nothing is returned from (R273): the port takes its next command. -/
def State.raise (s : State) (f : FaultCode) : State := (s.setFault (withFaultBit s.fault f)).respond f.code 0#32

/-- The command completes with a data word (30_encoding R93). -/
def State.done (s : State) (data : Word) : State := s.respond 0 data

/-! ### The checks (60_exceptions R274), steps 2 to 4 and the first of step 5 -/

/-- The port check: the class is OPC[7:4] (30_encoding R92, 60_exceptions R287). -/
def portAdmits (o : Opcode) (p : Port) : Bool :=
  match o.code.toNat / 16 with
  | 0 => true
  | 1 => decide (p = .h)
  | 2 => decide (p = .a)
  | 3 => decide (p = .r)
  | _ => false

/-- The operand that is compared with a register: RDCRV's index (60_exceptions R275). -/
def indexLegal (i : Instr) (s : State) : Bool :=
  match i with
  | .rdcrv index => decide (index.toNat < s.crvLen.toNat)
  | .rdreg _ | .pwrite _ _ | .pread _ | .pdefault | .prepare _ _ | .block _ _ _ | .release | .wrsmp _ _ _ | .rdsmp _ _
  | .clrch _ _ | .proc _ _ | .snap | .despk | .descut _ | .ldstg _ _ _ | .setpk _ | .setcut _ _ _ | .publish | .tick
  | .setview _ _ => true

/-- The table of 44_audio_loop R220: is the command admitted in this lifecycle state. -/
def lifecycleAdmits (o : Opcode) (l : Lifecycle) : Bool :=
  match o with
  | .prepare => decide (l = .uninitialized)
  | .block | .release | .snap | .despk | .descut | .ldstg | .setpk | .setcut | .publish | .proc | .clrch =>
    decide (l = .prepared) || decide (l = .processing)
  | .wrsmp | .rdsmp | .pwrite | .pread | .pdefault | .tick | .setview | .rdcrv | .rdreg => true

/-- The checks that come first among a command's own: ConfigMismatch and BadBlock (60_exceptions R277, R278). -/
def ownCheck (i : Instr) (s : State) : Option FaultCode :=
  match i with
  | .prepare bs fs => if rateValid fs && decide (bs ≠ 0#16) then none else some .configMismatch
  | .block _ _ count => if count.toNat ≤ s.blocksize.toNat then none else some .badBlock
  | .proc _ count => if count.toNat ≤ s.blocksize.toNat then none else some .badBlock
  | .clrch _ count => if count.toNat ≤ s.blocksize.toNat then none else some .badBlock
  | .rdreg _ | .pwrite _ _ | .pread _ | .pdefault | .release | .wrsmp _ _ _ | .rdsmp _ _
  | .snap | .despk | .descut _ | .ldstg _ _ _ | .setpk _ | .setcut _ _ _ | .publish | .tick
  | .setview _ _ | .rdcrv _ => none

/-- The first check that fails, in the order of 60_exceptions R274: port, operands, lifecycle, the command's own. -/
def checks (i : Instr) (s : State) : Option FaultCode :=
  if !portAdmits i.opcode s.active then some .wrongPort
  else if !(operandsLegal i && indexLegal i s) then some .illegalOperand
  else if !lifecycleAdmits i.opcode s.lifecycle then some .lifecycleFault
  else ownCheck i s

/-- A command runs: the fault of the first failing check, else its effect. -/
def checked (i : Instr) (s : State) (effect : State → State) : State :=
  match checks i s with
  | some f => s.raise f
  | none => effect s

end Sys2Proof.Machine
end

