-- ==== Sys2Proof/Machine/Access.lean ====
section
/-! DEFINITION. RDREG, WRSMP and RDSMP (46_access R260 to R263). -/

namespace Sys2Proof.Machine

/-- What RDREG reads at an address; an unmapped one is refused by the operand check before this. -/
def rdregData (addr : BitVec 16) (s : State) : Word :=
  match regAt addr.toNat with
  | some r => s.readReg r
  | none => 0#32

/-- RDREG addr (46_access R260). -/
def execRdreg (addr : BitVec 16) (s : State) : Host.Outcome State Fault Refusal :=
  .next (checked (.rdreg addr) s fun s => s.done (rdregData addr s))

/-- WRSMP ch, index, value (46_access R261): the pattern is stored as given. -/
def execWrsmp (ch : Fin 2) (index : BitVec 16) (value : Word) (s : State) : Host.Outcome State Fault Refusal :=
  .next (checked (.wrsmp ch index value) s fun s =>
    (s.setSmp (s.smp.writeWord (smpCell ch index.toNat) value)).done 0#32)

/-- RDSMP ch, index (46_access R262). -/
def execRdsmp (ch : Fin 2) (index : BitVec 16) (s : State) : Host.Outcome State Fault Refusal :=
  .next (checked (.rdsmp ch index) s fun s => s.done (s.readSmp ch index.toNat))

end Sys2Proof.Machine
end

