-- ==== Sys2Proof/Machine/Chain.lean ====
section
/-! DEFINITION. The filter chain (43_chain R190 to R202): SETPK, SETCUT, PUBLISH, PROC, CLRCH. -/

namespace Sys2Proof.Machine

open F32 Numeric

/-! ### The coefficient scheduler -/

/-- Phase (b) of SetCut (43_chain R192): the staged blocks of the listed stages are assigned one by one; false when one of them
is not finite, with the earlier ones assigned. -/
def fillStages (stg : Vector Block 9) (side : Side) : List (Fin 4) → Chain → Bool × Chain
  | [], c => (true, c)
  | i :: rest, c =>
    if stg[cutSlot side i].allFinite then
      fillStages stg side rest { c with coef := c.coef.set (cutSlot side i) stg[cutSlot side i] }
    else (false, c)

/-- Phase (a): all four stages of a side bypassed (43_chain R192). -/
def bypassSide (side : Side) (c : Chain) : Chain := { c with byp := setFlags side true [0, 1, 2, 3] c.byp }

/-- `SetCut` on one chain (43_chain R192): bypass, fill, enable; false when phase (b) met a non-finite block, and then phase (c)
has not run. -/
def setCut (stg : Vector Block 9) (side : Side) (k : Fin 4) (c : Chain) : Bool × Chain :=
  match fillStages stg side (stagesUpTo k) (bypassSide side c) with
  | (true, c') => (true, { c' with byp := setFlags side false (stagesUpTo k) c'.byp })
  | (false, c') => (false, c')

/-- SETPK ch (43_chain R191). -/
def execSetpk (ch : Fin 2) (s : State) : Host.Outcome State Fault Refusal :=
  .next (checked (.setpk ch) s fun s =>
    if s.stg[peakSlot].allFinite then
      (s.setChain ch { s.chain ch with coef := (s.chain ch).coef.set peakSlot s.stg[peakSlot] }).done 0#32
    else s.raise .coefficientFault)

/-- The slope ordinal in B; the operand check has refused what is above 3. -/
def slopeIx (slope : BitVec 16) : Fin 4 := Fin.ofNat 4 slope.toNat

/-- SETCUT ch, side, slope (43_chain R193): on a CoefficientFault the writes made before it stay (60_exceptions R271). -/
def execSetcut (ch : Fin 2) (side : Side) (slope : BitVec 16) (s : State) : Host.Outcome State Fault Refusal :=
  .next (checked (.setcut ch side slope) s fun s =>
    let r := setCut s.stg side (slopeIx slope) (s.chain ch)
    if r.1 then (s.setChain ch r.2).done 0#32 else (s.setChain ch r.2).raise .coefficientFault)

/-- The publish step: chain 0's blocks and flags with FS and a new sequence number, all at once (43_chain R195). -/
def publishStep (s : State) : State :=
  s.setPub { coef := (s.chain 0).coef, byp := (s.chain 0).byp, fs := s.fs, seq := s.pub.seq + 1#32 }

/-- PUBLISH (43_chain R195). -/
def execPublish (s : State) : Host.Outcome State Fault Refusal :=
  .next (checked .publish s fun s => (publishStep s).done 0#32)

/-! ### The state update -/

/-- `Stage(c, z, v)`, the transposed direct form II (43_chain R197): nine operations, each rounded on its own. A result that is
a NaN is stored as one of the free NaNs from number `n` on (40_numerics R130). -/
def stage (c : Block) (z : Delay) (v : Word) (n : Nat) : Word × Delay :=
  let y := store n (fadd (fmul c.b0 v) z.z1)
  (y, { z1 := store (n + 1) (fadd (fsub (fmul c.b1 v) (fmul c.a1 y)) z.z2)
        z2 := store (n + 2) (fsub (fmul c.b2 v) (fmul c.a2 y)) })

/-- What a sample carries from slot to slot: its value, the chain's delay pairs, the number of free NaNs used. -/
structure Lane where
  v : Word
  z : Vector Delay 9
  draws : Nat
deriving DecidableEq, Repr

/-- One slot of a chain: a bypassed one passes the value on bit for bit and keeps its delay pair (43_chain R199). -/
def runSlot (c : Chain) (l : Lane) (s : Fin 9) : Lane :=
  if bypassed c.byp s then l
  else
    let r := stage c.coef[s] l.z[s] l.v l.draws
    { v := r.1, z := l.z.set s r.2, draws := l.draws + 3 }

/-- One sample through slots 0 to 8 (43_chain R198). -/
def runSample (c : Chain) (l : Lane) : Lane := slotsInOrder.foldl (runSlot c) l

/-- What PROC changes. -/
structure Run where
  smp : Memory
  z : Vector Delay 9
  draws : Nat
deriving DecidableEq, Repr

/-- Sample `n` of a channel through its chain, in place (43_chain R196). -/
def procSample (c : Chain) (free : Nat → Byte) (ch : Fin 2) (r : Run) (n : Nat) : Run :=
  let l := runSample c { v := r.smp.readWord free (smpCell ch n), z := r.z, draws := r.draws }
  { smp := r.smp.writeWord (smpCell ch n) l.v, z := l.z, draws := l.draws }

/-- The first `count` samples, in increasing index (43_chain R198). -/
def procSamples (c : Chain) (free : Nat → Byte) (ch : Fin 2) (count : Nat) (r : Run) : Run :=
  (List.range count).foldl (procSample c free ch) r

/-- PROC's loop on channel `ch` (43_chain R196). -/
def runChannel (ch : Fin 2) (count : Nat) (s : State) : State :=
  let r := procSamples (s.chain ch) (Config.unwrittenSmp s.epoch) ch count
    { smp := s.smp, z := (s.chain ch).z, draws := s.draws }
  ((s.setChain ch { s.chain ch with z := r.z }).setSmp r.smp).setDraws r.draws

/-- PROC ch, count (43_chain R196). -/
def execProc (ch : Fin 2) (count : BitVec 16) (s : State) : Host.Outcome State Fault Refusal :=
  .next (checked (.proc ch count) s fun s => (runChannel ch count.toNat s).done 0#32)

/-- Silence in the first `count` samples of a channel (43_chain R201). -/
def clearSamples (ch : Fin 2) (count : Nat) (m : Memory) : Memory :=
  (List.range count).foldl (fun m n => m.writeWord (smpCell ch n) zero) m

/-- CLRCH ch, count (43_chain R201). -/
def execClrch (ch : Fin 2) (count : BitVec 16) (s : State) : Host.Outcome State Fault Refusal :=
  .next (checked (.clrch ch count) s fun s => (s.setSmp (clearSamples ch count.toNat s.smp)).done 0#32)

end Sys2Proof.Machine
end

