-- ==== Sys2Proof/Machine/Designer.lean ====
section
/-! DEFINITION. The coefficient designer (42_designer R170 to R179): DESPK, DESCUT, LDSTG. -/

namespace Sys2Proof.Machine

open F32 Numeric

/-- DesignPeak with the engine's NUM (42_designer R174). -/
abbrev designPeak : (f q g fs : Word) → Block := Numeric.num.designPeak

/-- `1 / Q_i` with the engine's NUM (42_designer R177). -/
abbrev sectionIq : (k : Fin 4) → (i : Nat) → Word := Numeric.num.sectionIq

/-- The peak block of a snapshot at a sample rate (42_designer R173). -/
abbrev peakOf : (v : Settings) → (fs : Word) → Block := Numeric.num.peakOf

/-- The cut blocks of one side of a snapshot at a sample rate (42_designer R176). -/
abbrev cutOf : (v : Settings) → (fs : Word) → (side : Side) → List Block := Numeric.num.cutOf

/-- The staging blocks with `blocks` written from the first of a side on (42_designer R176). -/
def stageCut (stg : Vector Block 9) (side : Side) (blocks : List Block) : Vector Block 9 :=
  ((([0, 1, 2, 3] : List (Fin 4)).zip blocks)).foldl (fun v x => v.set (cutSlot side x.1) x.2) stg

/-- DESPK (42_designer R173). -/
def execDespk (s : State) : Host.Outcome State Fault Refusal :=
  .next (checked .despk s fun s =>
    if (peakOf s.asnap s.fs).allFinite then (s.setStaging (s.stg.set peakSlot (peakOf s.asnap s.fs))).done 0#32
    else s.raise .invalidParameter)

/-- DESCUT side (42_designer R176). -/
def execDescut (side : Side) (s : State) : Host.Outcome State Fault Refusal :=
  .next (checked (.descut side) s fun s =>
    if (cutOf s.asnap s.fs side).all Block.allFinite then
      (s.setStaging (stageCut s.stg side (cutOf s.asnap s.fs side))).done 0#32
    else s.raise .invalidParameter)

/-- LDSTG slot, k, value (42_designer R178): any pattern; the operand check has refused a slot above 8 and a `k` above 4. -/
def execLdstg (slot : BitVec 8) (k : BitVec 16) (value : Word) (s : State) : Host.Outcome State Fault Refusal :=
  .next (checked (.ldstg slot k value) s fun s =>
    let b : Fin 9 := Fin.ofNat 9 slot.toNat
    (s.setStaging (s.stg.set b (s.stg[b].setWord (Fin.ofNat 5 k.toNat) value))).done 0#32)

end Sys2Proof.Machine
end

