-- ==== Sys2Proof/Machine/Parameters.lean ====
section
/-! DEFINITION. PWRITE, PREAD, PDEFAULT and SNAP (41_parameters R150 to R156). -/

namespace Sys2Proof.Machine

/-- A parameter index from the A field; the operand check has refused what is above 6. -/
def paramIx (idx : BitVec 8) : Fin 7 := Fin.ofNat 7 idx.toNat

/-- PWRITE idx, value (41_parameters R151): the pattern as given, then DIRTY, in one step. -/
def execPwrite (idx : BitVec 8) (value : Word) (s : State) : Host.Outcome State Fault Refusal :=
  .next (checked (.pwrite idx value) s fun s => ((s.setParam (paramIx idx) value).setDirty true).done 0#32)

/-- PREAD idx (41_parameters R152): the raw pattern. -/
def execPread (idx : BitVec 8) (s : State) : Host.Outcome State Fault Refusal :=
  .next (checked (.pread idx) s fun s => s.done s.p[paramIx idx])

/-- One of PDEFAULT's eight steps (41_parameters R153): the write of P[n] for `n` below 7, else the set of DIRTY and the
response. -/
def defaultStep (n : Fin 8) (s : State) : State :=
  if h : n.val < 7 then
    let s' := s.setParam ⟨n.val, h⟩ defP[n.val]
    s'.setPort s'.active { s'.port s'.active with busy := some (.defaulting ⟨n.val + 1, by omega⟩) }
  else (s.setDirty true).done 0#32

/-- `k` steps of PDEFAULT from step `n` on, or fewer when it ends. -/
def defaultSteps : (k : Nat) → (n : Nat) → State → State
  | 0, _, s => s
  | k + 1, n, s => if h : n < 8 then defaultSteps k (n + 1) (defaultStep ⟨n, h⟩ s) else s

/-- PDEFAULT (41_parameters R153), with no step of another port between its eight. -/
def execPdefault (s : State) : Host.Outcome State Fault Refusal :=
  .next (checked .pdefault s fun s => defaultSteps 8 0 s)

/-- The last step of SNAP: ASNAP is replaced whole by the snapshot of the values read (41_parameters R154). -/
def snapFinish (r : Vector Word 7) (s : State) : State := (s.setAsnap (snapshot r)).done 0#32

/-- SNAP (41_parameters R154), with no step of another port between its reads. -/
def execSnap (s : State) : Host.Outcome State Fault Refusal :=
  .next (checked .snap s fun s => snapFinish s.p s)

end Sys2Proof.Machine
end

