-- ==== Sys2Proof/Machine/Loop.lean ====
section
/-! DEFINITION. The audio processing loop (44_audio_loop R220 to R228): PREPARE, BLOCK, RELEASE. -/

namespace Sys2Proof.Machine

open F32

/-- Every design of a snapshot at a sample rate is finite (44_audio_loop R221, R224). -/
abbrev designsFinite : (v : Settings) → (fs : Word) → Bool := Numeric.num.finiteAt

/-- The staging blocks after Commit: the peak block, then the blocks of each side (44_audio_loop R222). -/
def stageAll (v : Settings) (fs : Word) (stg : Vector Block 9) : Vector Block 9 :=
  stageCut (stageCut (stg.set peakSlot (peakOf v fs)) .low (cutOf v fs .low)) .high (cutOf v fs .high)

/-- Commit's part on one chain: the peak assignment and the two SetCuts, which cannot fail here (44_audio_loop R222). -/
def commitChain (stg : Vector Block 9) (v : Settings) (c : Chain) : Chain :=
  (setCut stg .high v.highCutSlope
    (setCut stg .low v.lowCutSlope { c with coef := c.coef.set peakSlot stg[peakSlot] }).2).2

/-- `Commit(s, pk, lo, hi)` with the designs of snapshot `v` at the rate `fs` (44_audio_loop R222). -/
def commit (v : Settings) (fs : Word) (s : State) : State :=
  let stg := stageAll v fs s.stg
  publishStep (((s.setAsnap v).setStaging stg).setChains
    #v[commitChain stg v (s.chain 0), commitChain stg v (s.chain 1)])

/-- The last step of PREPARE, after the seven reads (44_audio_loop R221). -/
def prepareFinish (bs : BitVec 16) (fs : Word) (r : Vector Word 7) (s : State) : State :=
  if designsFinite (snapshot r) fs then
    ((commit (snapshot r) fs ((s.setRate fs bs).setChains #v[Chain.neutral, Chain.neutral])).setLifecycle .prepared).done 0#32
  else s.raise .invalidParameter

/-- PREPARE bs, fs (44_audio_loop R221), with no step of another port between its reads. -/
def execPrepare (bs : BitVec 16) (fs : Word) (s : State) : Host.Outcome State Fault Refusal :=
  .next (checked (.prepare bs fs) s fun s => prepareFinish bs fs s.p s)

/-- The channels among 0 and 1 with `lo ≤ ch < hi`, in increasing order. -/
def channels (lo hi : Nat) : List (Fin 2) := ([0, 1] : List (Fin 2)).filter fun ch => decide (lo ≤ ch.val ∧ ch.val < hi)

/-- BLOCK's step 1: the outputs without an input are cleared (44_audio_loop R224, R226). -/
def clearOutputs (nin nout count : Nat) (s : State) : State :=
  s.setSmp ((channels nin nout).foldl (fun m ch => clearSamples ch count m) s.smp)

/-- BLOCK's step 4: each channel of the buffer through its own chain (44_audio_loop R224). -/
def runChannels (nin nout count : Nat) (s : State) : State :=
  (channels 0 (max nin nout)).foldl (fun s ch => runChannel ch count s) s

/-- The last step of BLOCK, after the seven reads (44_audio_loop R224). -/
def blockFinish (nin nout : BitVec 4) (count : BitVec 16) (r : Vector Word 7) (s : State) : State :=
  if designsFinite (snapshot r) s.fs then
    ((runChannels nin.toNat nout.toNat count.toNat
      (commit (snapshot r) s.fs (clearOutputs nin.toNat nout.toNat count.toNat s))).setLifecycle .processing).done 0#32
  else s.raise .invalidParameter

/-- BLOCK nin, nout, count (44_audio_loop R224), with no step of another port between its reads. -/
def execBlock (nin nout : BitVec 4) (count : BitVec 16) (s : State) : Host.Outcome State Fault Refusal :=
  .next (checked (.block nin nout count) s fun s => blockFinish nin nout count s.p s)

/-- RELEASE (44_audio_loop R227). -/
def execRelease (s : State) : Host.Outcome State Fault Refusal :=
  .next (checked .release s fun s => (s.setLifecycle .released).done 0#32)

end Sys2Proof.Machine
end

