-- ==== Sys2Proof/Machine/Renderer.lean ====
section
/-! DEFINITION. The response curve renderer (45_renderer R240 to R251) and the magnitude it evaluates (40_numerics R135 to
R137): SETVIEW, TICK, RDCRV. -/

namespace Sys2Proof.Machine

open F32 Numeric

/-- `MAG(c, f, fs)` (40_numerics R136), each operation rounded in the order written there. -/
def mag (c : Block) (f fs : Word) : Word :=
  let w := fdiv (fmul Config.twoPi f) fs
  let w2 := fmul two w
  let c1 := cos w
  let s1 := sin w
  let c2 := cos w2
  let s2 := sin w2
  let nr := fadd (fadd c.b0 (fmul c.b1 c1)) (fmul c.b2 c2)
  let ni := fadd (fmul c.b1 s1) (fmul c.b2 s2)
  let dr := fadd (fadd one (fmul c.a1 c1)) (fmul c.a2 c2)
  let di := fadd (fmul c.a1 s1) (fmul c.a2 s2)
  let num := fadd (fmul nr nr) (fmul ni ni)
  let den := fadd (fmul dr dr) (fmul di di)
  fsqrt (fdiv num den)

/-- `DB(m)` (40_numerics R137). -/
def db (m : Word) : Word := fmul 0x41A00000#32 (log10 m)

/-- `CurveFreq(p, W)` (45_renderer R241). -/
def curveFreq (p w : Nat) : Word :=
  let l20 := log10 0x41A00000#32
  let l20k := log10 0x469C4000#32
  let x := fdiv (F32.ofNat p) (F32.ofNat w)
  pow10 (fadd l20 (fmul x (fsub l20k l20)))

/-- Does a slot contribute to the curve (45_renderer R242): a cut slot that is not bypassed, or a peak that is not neutral. -/
def contributes (pub : Published) (s : Fin 9) : Bool :=
  match flagOfSlot s with
  | some k => !pub.byp[k]
  | none => !peakNeutral pub.coef[s]

/-- `CurveMag(pub, f)` (45_renderer R244): the product in slot order from 1.0. -/
def curveMag (pub : Published) (f : Word) : Word :=
  slotsInOrder.foldl (fun m s => if contributes pub s then fmul m (mag pub.coef[s] f pub.fs) else m) one

/-- -24.0 and 12.0, the ends of the vertical range (00_scope R6). -/
def dbLo : Word := 0xC1C00000#32
def dbHi : Word := 0x41400000#32

/-- `ClampDb(d)` (45_renderer R246): only non-finite values are touched. -/
def clampDb (d : Word) : Word :=
  if isNaN d then dbLo else if d = posInf then dbHi else if d = negInf then dbLo else d

/-- `CurveY(d, H)` (45_renderer R247). -/
def curveY (d : Word) (h : Nat) : Word :=
  let hf := F32.ofNat h
  let t := fdiv (fsub (clampDb d) dbLo) (fsub dbHi dbLo)
  fadd hf (fmul t (fsub zero hf))

/-- The vertical coordinate of point `p` (45_renderer R245, R248). -/
def curvePoint (pub : Published) (w h p : Nat) : Word := curveY (db (curveMag pub (curveFreq p w))) h

/-- CRV with points 0 to `w - 1` written (45_renderer R248). A coordinate is never a NaN (the statement
CurvePointNeverNaN), so no free NaN is stored here. -/
def drawCurve (pub : Published) (w h : Nat) (m : Memory) : Memory :=
  (List.range w).foldl (fun m p => m.writeWord p (curvePoint pub w h p)) m

/-- SETVIEW width, height (45_renderer R240). -/
def execSetview (width height : BitVec 16) (s : State) : Host.Outcome State Fault Refusal :=
  .next (checked (.setview width height) s fun s => (s.setView width height).done 0#32)

/-- The last step of a recomputing TICK, after the seven reads (45_renderer R248). -/
def tickFinish (r : Vector Word 7) (s : State) : State :=
  ((s.setRsnap (snapshot r)).setCurve (drawCurve s.pub s.viewW.toNat s.viewH.toNat s.crv) s.viewW
    (s.recomputes + 1#32)).done 1#32

/-- TICK (45_renderer R248), with no step of another port between its test-and-clear, its reads and its drawing. -/
def execTick (s : State) : Host.Outcome State Fault Refusal :=
  .next (checked .tick s fun s => if s.dirty then tickFinish s.p (s.setDirty false) else (s.setDirty false).done 0#32)

/-- RDCRV index (45_renderer R251); the operand check has refused an index at or above CRV_LEN. -/
def execRdcrv (index : BitVec 16) (s : State) : Host.Outcome State Fault Refusal :=
  .next (checked (.rdcrv index) s fun s => s.done (s.readCrv index.toNat))

end Sys2Proof.Machine
end

