-- ==== Sys2Proof/Machine/Dispatch.lean ====
section
/-! DEFINITION. One arm per command: the whole command, on the port whose turn it is. -/

namespace Sys2Proof.Machine

def exec (i : Instr) (s : State) : Host.Outcome State Fault Refusal :=
  match i with
  | .rdreg addr => Sys2Proof.Machine.execRdreg addr s
  | .pwrite idx value => Sys2Proof.Machine.execPwrite idx value s
  | .pread idx => Sys2Proof.Machine.execPread idx s
  | .pdefault => Sys2Proof.Machine.execPdefault s
  | .prepare bs fs => Sys2Proof.Machine.execPrepare bs fs s
  | .block nin nout count => Sys2Proof.Machine.execBlock nin nout count s
  | .release => Sys2Proof.Machine.execRelease s
  | .wrsmp ch index value => Sys2Proof.Machine.execWrsmp ch index value s
  | .rdsmp ch index => Sys2Proof.Machine.execRdsmp ch index s
  | .clrch ch count => Sys2Proof.Machine.execClrch ch count s
  | .proc ch count => Sys2Proof.Machine.execProc ch count s
  | .snap => Sys2Proof.Machine.execSnap s
  | .despk => Sys2Proof.Machine.execDespk s
  | .descut side => Sys2Proof.Machine.execDescut side s
  | .ldstg slot k value => Sys2Proof.Machine.execLdstg slot k value s
  | .setpk ch => Sys2Proof.Machine.execSetpk ch s
  | .setcut ch side slope => Sys2Proof.Machine.execSetcut ch side slope s
  | .publish => Sys2Proof.Machine.execPublish s
  | .tick => Sys2Proof.Machine.execTick s
  | .setview width height => Sys2Proof.Machine.execSetview width height s
  | .rdcrv index => Sys2Proof.Machine.execRdcrv index s

end Sys2Proof.Machine
end

