-- ==== Sys2Proof/Machine/Atomic.lean ====
section
/-! DEFINITION. Turns: which port steps next and how far (20_memory R66 to R69, 10_state R45). Every command is one atomic step
but SNAP, PREPARE, BLOCK and a recomputing TICK (seven reads of P in any order, then the rest; TICK's test-and-clear is a step
before them) and PDEFAULT (seven writes, then the set of DIRTY). Between two atomic steps any port may step. -/

namespace Sys2Proof.Machine

/-- No parameter read yet. -/
def noReads : Vector (Option Word) 7 := #v[none, none, none, none, none, none, none]

/-- The parameters a snapshot has not read yet. -/
def unread (got : Vector (Option Word) 7) : List (Fin 7) :=
  ([0, 1, 2, 3, 4, 5, 6] : List (Fin 7)).filter fun i => got[i].isNone

/-- The seven values of a snapshot whose missing reads are made now. -/
def fillReads (got : Vector (Option Word) 7) (p : Vector Word 7) : Vector Word 7 :=
  #v[got[0].getD p[0], got[1].getD p[1], got[2].getD p[2], got[3].getD p[3], got[4].getD p[4], got[5].getD p[5],
    got[6].getD p[6]]

/-- The step after the seventh read (20_memory R67). -/
def SnapshotCmd.finish (c : SnapshotCmd) (r : Vector Word 7) (s : State) : State :=
  match c with
  | .snap => snapFinish r s
  | .prepare bs fs => prepareFinish bs fs r s
  | .block nin nout count => blockFinish nin nout count r s
  | .tick => tickFinish r s

/-- The port whose turn it is has a command under way. -/
def State.setBusy (s : State) (f : InFlight) : State := s.setPort s.active { s.port s.active with busy := some f }

/-- One atomic step of a snapshot: the read of one P[i], chosen by `c` among those left in any order (20_memory R68), or, with
all seven read, the rest of the command. -/
def readStep (cmd : SnapshotCmd) (got : Vector (Option Word) 7) (c : Nat) (s : State) : State :=
  match unread got with
  | [] => cmd.finish (fillReads got s.p) s
  | i :: rest =>
    let j := ((i :: rest)[c % (rest.length + 1)]?).getD i
    s.setBusy (.reading cmd (got.set j (some s.p[j])))

/-- TICK's first step: the test-and-clear of DIRTY (20_memory R71, 45_renderer R248). -/
def tickStart (s : State) : State :=
  if s.dirty then (s.setDirty false).setBusy (.reading .tick noReads) else (s.setDirty false).done 0#32

/-- One atomic step of a command under way. -/
def advance (f : InFlight) (c : Nat) (s : State) : State :=
  match f with
  | .reading cmd got => readStep cmd got c s
  | .defaulting n => defaultStep n s

/-- All the steps left of a command under way, with no step of another port between. -/
def complete (f : InFlight) (s : State) : State :=
  match f with
  | .reading cmd got => cmd.finish (fillReads got s.p) s
  | .defaulting n => defaultSteps 8 n.val s

/-- The first atomic step of a command: its checks, and with them the first read or write of a command of several steps. -/
def startAtomic (i : Instr) (c : Nat) (s : State) : Host.Outcome State Fault Refusal :=
  match i with
  | .snap => .next (checked i s (readStep .snap noReads c))
  | .prepare bs fs => .next (checked i s (readStep (.prepare bs fs) noReads c))
  | .block nin nout count => .next (checked i s (readStep (.block nin nout count) noReads c))
  | .tick => .next (checked i s tickStart)
  | .pdefault => .next (checked i s (defaultStep 0))
  | .rdreg _ | .pwrite _ _ | .pread _ | .release | .wrsmp _ _ _ | .rdsmp _ _ | .clrch _ _ | .proc _ _ | .despk | .descut _
  | .ldstg _ _ _ | .setpk _ | .setcut _ _ _ | .publish | .setview _ _ | .rdcrv _ => exec i s

/-- A word that is no command ends with the decoder's fault; the port of a known opcode is checked first
(60_exceptions R274, R275). -/
def refuseWord (d : Decoded) (s : State) : State :=
  match d with
  | .illegalOperand o => if portAdmits o s.active then s.raise .illegalOperand else s.raise .wrongPort
  | .illegalOpcode => s.raise .illegalOpcode
  | .ok _ => s

/-- A command word runs: `go` on the command it decodes to, or the decoder's fault. -/
def runWord (go : Instr → State → Host.Outcome State Fault Refusal) (w : CommandWord) (s : State) :
    Host.Outcome State Fault Refusal :=
  match decode w with
  | .ok i => go i s
  | .illegalOpcode => .next (refuseWord .illegalOpcode s)
  | .illegalOperand o => .next (refuseWord (.illegalOperand o) s)

/-- Port `p` takes its oldest command off its queue; `q` is what is left. -/
def State.take (s : State) (p : Port) (q : List CommandWord) : State :=
  (s.setActive p).setPort p { s.port p with queue := q }

/-- Port `p` goes on with the command under way, or takes its next one; a port with neither is idle (20_memory R66). -/
def portTurn (onBusy : InFlight → State → State) (go : Instr → State → Host.Outcome State Fault Refusal) (p : Port)
    (s : State) : Host.Outcome State Fault Refusal :=
  match (s.port p).busy with
  | some f => .next (onBusy f (s.setActive p))
  | none =>
    match (s.port p).queue with
    | [] => .next s
    | w :: q => runWord go w (s.take p q)

/-- A port after a reset: idle, its last response gone, the commands not yet begun still presented. -/
def PortState.afterReset (p : PortState) : PortState := { queue := p.queue, busy := none, resp := none }

/-- The external reset (70_reset R310, R311): a command under way ends without a response; every unwritten cell of the new epoch
has new free contents. The commands and turns still to come belong to the outside world and stay. -/
def State.afterReset (s : State) : State :=
  { State.reset with
    portA := s.portA.afterReset
    portR := s.portR.afterReset
    portH := s.portH.afterReset
    schedule := s.schedule
    draws := s.draws
    epoch := s.epoch + 1 }

/-- One turn. -/
def takeTurn (t : Turn) (s : State) : Host.Outcome State Fault Refusal :=
  match t with
  | .reset => .next s.afterReset
  | .whole p => portTurn complete exec p s
  | .atomic p c => portTurn (fun f s => advance f c s) (fun i s => startAtomic i c s) p s

/-- The port that a word's class admits (30_encoding R92); port A where the class names none. -/
def portOfWord (w : CommandWord) : Port :=
  match (fieldsOf w).opc.toNat / 16 with
  | 1 => .h
  | 3 => .r
  | _ => .a

/-- A state in which the next turn runs the command word `w` whole, on port `p`. -/
def State.present (s : State) (p : Port) (w : CommandWord) : State :=
  (s.setPort p { s.port p with queue := w :: (s.port p).queue, busy := none }).setSchedule (.whole p :: s.schedule)

end Sys2Proof.Machine
end

