-- ==== Sys2Proof/Machine/Step.lean ====
section
/-! DEFINITION. One step: the next turn of the schedule (10_state R45). With no turn to come nothing happens. -/

namespace Sys2Proof.Machine

def step (s : State) : Host.Outcome State Fault Refusal :=
  match s.schedule with
  | [] => .next s
  | t :: rest => takeTurn t (s.setSchedule rest)

/-- `s` with the command word of the `nbits` low bits of `w` presented on the port its class admits, that port idle, and that
port's turn next (log entry 12). -/
def State.withFetchWord (s : State) (nbits w : Nat) : State :=
  s.present (portOfWord (BitVec.ofNat 64 (w % 2 ^ nbits))) (BitVec.ofNat 64 (w % 2 ^ nbits))

end Sys2Proof.Machine
end

