-- ==== Sys2Proof/Safety.lean ====
section
/-! DEFINITION. What holds of the engine between any two steps: the invariants the rules promise, each under its own name, and
their conjunction. -/

namespace Sys2Proof.Machine

/-- Both memories are in the canonical form and list nothing outside their address spaces: SMP has 2 x 65536 cells, CRV has
WMAX, four bytes each (10_state R41, R42). -/
def State.MemoriesCanonical (s : State) : Prop :=
  s.smp.wf ∧ s.crv.wf ∧ (∀ k ∈ s.smp.cells.map Prod.fst, k / 4 < 131072) ∧ ∀ k ∈ s.crv.cells.map Prod.fst, k / 4 < Config.wmax

/-- No non-finite word stands in COEF of either chain or in PUB.COEF (10_state R38). -/
def State.CoefficientsFinite (s : State) : Prop :=
  ∀ b : Fin 9, (∀ ch : Fin 2, (s.chain ch).coef[b].allFinite = true) ∧ s.pub.coef[b].allFinite = true

/-- The active stages of a side are its first ones (10_state R29, 90_conflicts C4). -/
def prefixFlags (byp : Vector Bool 8) : Prop :=
  ∀ (side : Side) (i j : Fin 4), i ≤ j → byp[cutFlag side j] = false → byp[cutFlag side i] = false

/-- In both chains and in PUB the active stages of each side are its first ones. -/
def State.FlagsPrefix (s : State) : Prop := (∀ ch : Fin 2, prefixFlags (s.chain ch).byp) ∧ prefixFlags s.pub.byp

/-- Every value in a snapshot lies in its declared range (10_state R36). -/
def State.SnapshotsInRange (s : State) : Prop := s.asnap.inRange = true ∧ s.rsnap.inRange = true

/-- Once prepared, the sample rate is one PREPARE accepts and the block size is not 0 (60_exceptions R277). -/
def State.RateKnown (s : State) : Prop :=
  s.lifecycle ≠ .uninitialized → rateValid s.fs = true ∧ s.blocksize ≠ 0#16

/-- VIEW_W and CRV_LEN are at most WMAX (10_state R33, R34). -/
def State.ViewBounded (s : State) : Prop := s.viewW.toNat ≤ Config.wmax ∧ s.crvLen.toNat ≤ Config.wmax

/-- Every point of the polyline below CRV_LEN has been written (10_state R42). -/
def State.CurveWritten (s : State) : Prop := ∀ c < s.crvLen.toNat, ∀ j < 4, (s.crv.lookup (4 * c + j)).isSome

/-- Bits 0 and 9 to 31 of FAULT read 0 (10_state R28). -/
def State.FaultBitsReserved (s : State) : Prop := s.fault &&& 0xFFFFFE01#32 = 0#32

/-- A command under way on port A is a snapshot command that its checks have admitted. -/
def audioBusyLegal (s : State) : Option InFlight → Prop
  | none => True
  | some (.reading .snap _) => s.lifecycle = .prepared ∨ s.lifecycle = .processing
  | some (.reading (.prepare bs fs) _) => s.lifecycle = .uninitialized ∧ rateValid fs = true ∧ bs ≠ 0#16
  | some (.reading (.block nin nout count) _) =>
    (s.lifecycle = .prepared ∨ s.lifecycle = .processing) ∧ nin.toNat ≤ 2 ∧ nout.toNat ≤ 2
      ∧ count.toNat ≤ s.blocksize.toNat
  | some (.reading .tick _) => False
  | some (.defaulting _) => False

/-- Only TICK can be under way on port R. -/
def renderBusyLegal : Option InFlight → Prop
  | none => True
  | some (.reading .tick _) => True
  | some (.reading .snap _) | some (.reading (.prepare _ _) _) | some (.reading (.block _ _ _) _) => False
  | some (.defaulting _) => False

/-- Only PDEFAULT can be under way on port H. -/
def hostBusyLegal : Option InFlight → Prop
  | none => True
  | some (.reading _ _) => False
  | some (.defaulting _) => True

/-- Each port has under way only what it may issue (60_exceptions R287), admitted by its checks. -/
def State.PortsLegal (s : State) : Prop :=
  audioBusyLegal s s.portA.busy ∧ renderBusyLegal s.portR.busy ∧ hostBusyLegal s.portH.busy

/-- The invariant of the engine. -/
structure State.Inv (s : State) : Prop where
  memories : s.MemoriesCanonical
  coefficients : s.CoefficientsFinite
  flags : s.FlagsPrefix
  snapshots : s.SnapshotsInRange
  rate : s.RateKnown
  view : s.ViewBounded
  curve : s.CurveWritten
  faultBits : s.FaultBitsReserved
  ports : s.PortsLegal

/-! ### Words the statements use -/

/-- A port whose command has ended with the response word `status`, `data` (30_encoding R93). -/
def PortState.answered (p : PortState) (status : BitVec 8) (data : Word) : PortState :=
  { p with busy := none, resp := some (status ++ data) }

/-- `s` after the command on the port whose turn it is has ended with a response, and nothing else has changed. -/
def State.ended (s : State) (status : BitVec 8) (data : Word) : State :=
  s.setPort s.active ((s.port s.active).answered status data)

/-- `s` after a fault: bit `code` of FAULT and the response, and nothing else (60_exceptions R271). -/
def State.faulted (s : State) (code : Nat) : State :=
  { s.ended (BitVec.ofNat 8 code) 0#32 with fault := s.fault ||| 1#32 <<< code }

/-- Class 0 is admitted on every port, class 1 on H, class 2 on A, class 3 on R (30_encoding R92, 60_exceptions R287). -/
def classAdmits (opc : BitVec 8) (p : Port) : Prop :=
  opc.extractLsb' 4 4 = 0#4 ∨ (opc.extractLsb' 4 4 = 1#4 ∧ p = .h) ∨ (opc.extractLsb' 4 4 = 2#4 ∧ p = .a) ∨
    (opc.extractLsb' 4 4 = 3#4 ∧ p = .r)

/-- The lifecycle states in which the chain commands are admitted (44_audio_loop R220). -/
def State.running (s : State) : Prop := s.lifecycle = .prepared ∨ s.lifecycle = .processing

/-- Section `i` of the cut cascade of a side designed from a snapshot (42_designer R177). -/
def cutDesign (v : Settings) (fs : Word) (side : Side) (i : Fin 4) : Block :=
  sectionBlock side (Numeric.tan (F32.fdiv (F32.fmul Config.pi (clampF (v.cutFreq side) fs)) fs))
    (sectionIq (v.cutSlope side) i.val)

/-- The commands one after the other on the port whose turn it is. -/
def runCommands : List Instr → State → Host.Outcome State Fault Refusal
  | [], s => .next s
  | i :: rest, s =>
    match exec i s with
    | .next t => runCommands rest t
    | .fault r => .fault r
    | .refused r => .refused r

/-- The atomic steps of a command that its checks admit (20_memory R67). -/
def atomicSteps (i : Instr) (s : State) : Nat :=
  match i with
  | .snap | .prepare _ _ | .block _ _ _ => 8
  | .tick => if s.dirty then 9 else 1
  | .pdefault => 8
  | .rdreg _ | .pwrite _ _ | .pread _ | .release | .wrsmp _ _ _ | .rdsmp _ _ | .clrch _ _ | .proc _ _ | .despk | .descut _
  | .ldstg _ _ _ | .setpk _ | .setcut _ _ _ | .publish | .setview _ _ | .rdcrv _ => 1

/-- The command that a snapshot belongs to. -/
def SnapshotCmd.opcode : SnapshotCmd → Opcode
  | .snap => .snap
  | .prepare _ _ => .prepare
  | .block _ _ _ => .block
  | .tick => .tick

/-- The command that the next turn of a port goes on with or takes up; none where the port has neither a command under way nor
a word that decodes. -/
def State.commandOf (s : State) (p : Port) : Option Opcode :=
  match (s.port p).busy, (s.port p).queue with
  | some (.reading c _), _ => some c.opcode
  | some (.defaulting _), _ => some .pdefault
  | none, [] => none
  | none, w :: _ =>
    match decode w with
    | .ok i => some i.opcode
    | .illegalOpcode | .illegalOperand _ => none

/-- The arrows of the lifecycle (44_audio_loop R220) that change LIFECYCLE: the command that makes each. -/
def lifecycleArrow (o : Opcode) (l l' : Lifecycle) : Prop :=
  (o = .prepare ∧ l = .uninitialized ∧ l' = .prepared) ∨ (o = .block ∧ l = .prepared ∧ l' = .processing) ∨
    (o = .release ∧ (l = .prepared ∨ l = .processing) ∧ l' = .released)

/-- The turn is not the external reset. -/
def Turn.notReset : Turn → Prop
  | .reset => False
  | .atomic _ _ | .whole _ => True

/-- The turn is one of port `p`. -/
def Turn.ofPort (p : Port) : Turn → Prop
  | .reset => False
  | .atomic q _ | .whole q => q = p

end Sys2Proof.Machine
end

