-- ==== Sys2Proof/Certificates/Slice0/Obligations.lean ====
section
/-! DEFINITION. The statements for the provers, from the numbered rules of the spec. OBLIGATIONS.json says of each which rules
it states. -/

open Sys2Proof Sys2Proof.Machine

/-! ### Encoding -/

/-- Decoding undoes encoding for every well-formed command, with every operand at every value its field admits. -/
def Obligations.DecodeUndoesEncode : Prop := ∀ i : Instr, i.wellFormed = true → decode (encode i) = .ok i

/-- No two words decode to one command, and what decodes is well formed: no bit of a word is ignored. -/
def Obligations.EncodeUndoesDecode : Prop :=
  ∀ (w : CommandWord) (i : Instr), decode w = .ok i → encode i = w ∧ i.wellFormed = true

/-- A word decodes to IllegalOpcode exactly when no command has its OPC, and to IllegalOperand exactly when its OPC is assigned
and it is the word of no well-formed command (30_encoding R97, R98). -/
def Obligations.DecoderRejectsExactly : Prop :=
  ∀ w : CommandWord,
    (decode w = .illegalOpcode ↔ ∀ o : Opcode, o.code ≠ w.extractLsb' 56 8) ∧
    ∀ o : Opcode, decode w = .illegalOperand o ↔
      o.code = w.extractLsb' 56 8 ∧ ∀ i : Instr, encode i = w → i.wellFormed = false

/-- The worked encodings of 30_encoding section 6, and words of the other families built from its R90 and R96. -/
def Obligations.WrittenWordsDecode : Prop :=
  decode 0x20000200472C4400#64 = .ok (.prepare 512#16 0x472C4400#32) ∧
  decode 0x1005000041400000#64 = .ok (.pwrite 5#8 0x41400000#32) ∧
  decode 0x2122020000000000#64 = .ok (.block 2#4 2#4 512#16) ∧
  decode 0x2D02000300000000#64 = .ok (.setcut 0 .high 3#16) ∧
  decode 0x3100032000000168#64 = .ok (.setview 800#16 360#16) ∧
  decode 0x3000000000000000#64 = .ok .tick ∧
  decode 0x0100000600000000#64 = .ok (.rdreg 6#16) ∧
  decode 0x23010003BF000000#64 = .ok (.wrsmp 1 3#16 0xBF000000#32) ∧
  decode 0x0000000000000000#64 = .illegalOpcode ∧
  decode 0x2701000000000000#64 = .illegalOpcode ∧
  decode 0x2D04000300000000#64 = .illegalOperand .setcut ∧
  decode 0x1007000041400000#64 = .illegalOperand .pwrite

/-! ### Steps -/

/-- When the next turn is a whole turn of an idle port whose oldest word decodes, the step is that command on that port; the turn
is taken off the schedule and the word off the queue. An atomic turn does the same for a command of one atomic step. On a port
with a snapshot under way an atomic turn reads one parameter not read yet, any of them by its number `c`, or, with all seven
read, makes the finishing step from the values read (20_memory R67, R68; log entry 11). -/
def Obligations.StepRunsDecodedCommand : Prop :=
  (∀ (s : State) (p : Port) (u : Turn) (rest : List Turn) (w : CommandWord) (q : List CommandWord) (i : Instr),
    s.schedule = u :: rest → (s.port p).busy = none → (s.port p).queue = w :: q → decode w = .ok i →
    (u = .whole p ∨ ∃ c, u = .atomic p c ∧ atomicSteps i s = 1) →
    step s = exec i (({ s with schedule := rest, active := p } : State).setPort p { s.port p with queue := q })) ∧
  ∀ (s : State) (p : Port) (rest : List Turn) (cmd : SnapshotCmd) (got : Vector (Option Word) 7),
    (s.port p).busy = some (.reading cmd got) →
    let s' : State := { s with schedule := rest, active := p }
    let read : Fin 7 → State := fun j => s'.setPort p { s.port p with busy := some (.reading cmd (got.set j (some s.p[j]))) }
    (∀ (c : Nat) (r : Vector Word 7), (∀ j : Fin 7, got[j] = some r[j]) →
      step { s with schedule := .atomic p c :: rest } = .next (cmd.finish r s')) ∧
    (∀ c : Nat, (∃ j : Fin 7, got[j] = none) →
      ∃ j : Fin 7, got[j] = none ∧ step { s with schedule := .atomic p c :: rest } = .next (read j)) ∧
    ∀ j : Fin 7, got[j] = none → ∃ c : Nat, step { s with schedule := .atomic p c :: rest } = .next (read j)

/-- A word presented by `withFetchWord` is the next step's command, on the port its class admits. -/
def Obligations.StepRunsPresentedWord : Prop :=
  ∀ (s : State) (w : CommandWord) (i : Instr) (p : Port), decode w = .ok i → classAdmits (w.extractLsb' 56 8) p →
    (w.extractLsb' 60 4 = 0#4 → p = .a) →
    step (s.withFetchWord 64 w.toNat) = exec i (({ s with active := p } : State).setPort p { s.port p with busy := none })

/-- A word that is no command ends with the decoder's fault and changes no state but FAULT: IllegalOpcode on every port; for an
assigned opcode WrongPort on a port that its class does not admit, else IllegalOperand, also for an RDCRV whose index is not below
CRV_LEN (30_encoding R97, 60_exceptions R274). A command whose checks fail ends with the fault of the first that does. All of
them are one step, whether the turn is a whole or an atomic one (log entry 10). -/
def Obligations.IllegalWordIsFaulted : Prop :=
  ∀ (s : State) (p : Port) (u : Turn) (rest : List Turn) (w : CommandWord) (q : List CommandWord),
    s.schedule = u :: rest → (u = .whole p ∨ ∃ c, u = .atomic p c) → (s.port p).busy = none → (s.port p).queue = w :: q →
    let s' := ({ s with schedule := rest, active := p } : State).setPort p { s.port p with queue := q }
    ((∀ o : Opcode, o.code ≠ w.extractLsb' 56 8) → step s = .next (s'.faulted 1)) ∧
    (∀ o : Opcode, o.code = w.extractLsb' 56 8 → (∀ i : Instr, encode i = w → i.wellFormed = false) →
      (¬ classAdmits o.code p → step s = .next (s'.faulted 3)) ∧ (classAdmits o.code p → step s = .next (s'.faulted 2))) ∧
    (∀ index : BitVec 16, decode w = .ok (.rdcrv index) → p = .r → s.crvLen.toNat ≤ index.toNat →
      step s = .next (s'.faulted 2)) ∧
    ∀ (i : Instr) (f : FaultCode), decode w = .ok i → checks i s' = some f → step s = .next (s'.faulted f.code)

/-- A whole turn is an interleaving of atomic steps with no other port between: the steps of 20_memory R67, the seven reads of
P in ANY order (the numbers in `cs` choose it), end in the same state as the whole turn. -/
def Obligations.WholeTurnIsItsAtomicTurns : Prop :=
  ∀ (s : State) (p : Port) (rest : List Turn) (w : CommandWord) (q : List CommandWord) (i : Instr) (cs : List Nat),
    (s.port p).busy = none → (s.port p).queue = w :: q → decode w = .ok i →
    checks i { s with active := p } = none → cs.length = atomicSteps i s →
    Sys2Proof.core.run cs.length ({ s with schedule := cs.map (Turn.atomic p) ++ rest } : State) =
      Sys2Proof.core.run 1 ({ s with schedule := .whole p :: rest } : State)

/-! ### Faults -/

/-- The checks in the order port, operands, lifecycle, the command's own; the first that fails is the one reported, and nothing
but FAULT and the response changes (60_exceptions R271, R274, R277, R278, R287; 44_audio_loop R220). -/
def Obligations.FirstFailingCheckIsReported : Prop :=
  ∀ (i : Instr) (s : State),
    let port := classAdmits i.opcode.code s.active
    let operands := i.wellFormed = true ∧ ∀ index, i = .rdcrv index → index.toNat < s.crvLen.toNat
    let prepared := i.opcode = .prepare → s.lifecycle = .uninitialized
    let chain := i.opcode ∈ [.block, .release, .snap, .despk, .descut, .ldstg, .setpk, .setcut, .publish, .proc, .clrch] →
      s.lifecycle = .prepared ∨ s.lifecycle = .processing
    (¬ port → exec i s = .next (s.faulted 3)) ∧
    (port → ¬ operands → exec i s = .next (s.faulted 2)) ∧
    (port → operands → ¬ (prepared ∧ chain) → exec i s = .next (s.faulted 4)) ∧
    (∀ bs fs, i = .prepare bs fs → port → prepared →
      (bs = 0#16 ∨ F32.isFinite fs = false ∨ F32.flt fs 0x3F800000#32 = true) → exec i s = .next (s.faulted 5)) ∧
    (∀ ch count, (i = .proc ch count ∨ i = .clrch ch count) → port → chain → s.blocksize.toNat < count.toNat →
      exec i s = .next (s.faulted 6)) ∧
    ∀ nin nout count, i = .block nin nout count → port → operands → chain → s.blocksize.toNat < count.toNat →
      exec i s = .next (s.faulted 6)

/-- Faults are precise: a command that answers a status other than 0 leaves the state it found plus the bit of that status in
FAULT and the response, whatever it had computed; only a SETCUT that meets a non-finite block also leaves writes in the chains
(60_exceptions R271; 44_audio_loop R223). -/
def Obligations.FaultsArePrecise : Prop :=
  ∀ (i : Instr) (s t : State) (r : BitVec 40), exec i s = .next t → (t.port s.active).resp = some r →
    r.extractLsb' 32 8 ≠ 0#8 →
    ∃ code : Nat, 1 ≤ code ∧ code ≤ 8 ∧ r = BitVec.ofNat 8 code ++ 0#32 ∧ t = { s.faulted code with chains := t.chains } ∧
      (t.chains = s.chains ∨ (code = 8 ∧ i.opcode = .setcut))

/-- A FAULT bit once set stays set until the external reset (10_state R28). -/
def Obligations.FaultBitsStick : Prop :=
  ∀ (s t : State), step s = .next t → (∀ u rest, s.schedule = u :: rest → u.notReset) → s.fault &&& t.fault = s.fault

/-- No step sets bit 7 of FAULT from a state that the invariant admits: no command reports InvalidParameter. It rests on the
finite designs of every admitted instance of NUM (60_exceptions R279, which names 42_designer R175 and R179; log entry 4). -/
def Obligations.InvalidParameterNeverRaised : Prop :=
  ∀ (s t : State), s.Inv → step s = .next t → t.fault.getLsbD 7 = true → s.fault.getLsbD 7 = true

/-- CoefficientFault comes from SETPK and SETCUT only, and only when a staging block of theirs has a non-finite word
(60_exceptions R280). -/
def Obligations.CoefficientFaultOnlyFromAssignment : Prop :=
  ∀ (i : Instr) (s t : State), exec i s = .next t → t.fault.getLsbD 8 = true → s.fault.getLsbD 8 = false →
    (∃ ch, i = .setpk ch ∧ s.stg[(4 : Fin 9)].allFinite = false) ∨
      ∃ ch side slope, i = .setcut ch side slope ∧ ∃ j : Fin 4, j.val ≤ slope.toNat ∧ s.stg[cutSlot side j].allFinite = false

/-! ### Reset, the invariant, the whole machine -/

/-- The external reset gives the table of 10_state R46 from every state, and every port is idle. -/
def Obligations.ResetGivesTheTable : Prop :=
  ∀ (s : State) (rest : List Turn), s.schedule = .reset :: rest → ∃ t, step s = .next t ∧
    t.p = defP ∧ t.lifecycle = .uninitialized ∧ t.dirty = true ∧ t.fault = 0#32 ∧ t.fs = 0x00000000#32 ∧
    t.blocksize = 0#16 ∧ t.viewW = 0#16 ∧ t.viewH = 0#16 ∧ t.recomputes = 0#32 ∧ t.crvLen = 0#16 ∧
    t.asnap = snapshot defP ∧ t.rsnap = snapshot defP ∧
    (∀ b : Fin 9, t.stg[b] = { b0 := 0x3F800000#32, b1 := 0#32, b2 := 0#32, a1 := 0#32, a2 := 0#32 } ∧
      t.pub.coef[b] = t.stg[b] ∧ ∀ ch : Fin 2, (t.chain ch).coef[b] = t.stg[b] ∧
        (t.chain ch).z[b] = { z1 := 0#32, z2 := 0#32 }) ∧
    (∀ k : Fin 8, t.pub.byp[k] = true ∧ ∀ ch : Fin 2, (t.chain ch).byp[k] = true) ∧
    t.pub.fs = 0x00000000#32 ∧ t.pub.seq = 0#32 ∧ t.readReg .id = 0x56450207#32 ∧ ∀ p : Port, (t.port p).busy = none

/-- The invariant holds after reset. -/
def Obligations.InvariantHoldsAtReset : Prop := State.reset.Inv

/-- Every step keeps the invariant: the canonical form and the bounds of the memories, finite coefficients in both chains and in
PUB (10_state R38), the active stages of a side its first ones, snapshots in their ranges (R36), a valid sample rate once
prepared, VIEW_W and CRV_LEN at most WMAX (R33), every curve point below CRV_LEN written (R42), the reserved FAULT bits 0 (R28),
and on each port only a command that it may issue. -/
def Obligations.InvariantKeptByStep : Prop := ∀ (s t : State), s.Inv → step s = .next t → t.Inv

/-- Each piece of state has the writers of 20_memory R72 and no others. -/
def Obligations.WritersByPort : Prop :=
  ∀ (s t : State) (u : Turn) (rest : List Turn), s.Inv → s.schedule = u :: rest → step s = .next t → u.notReset →
    (¬ u.ofPort .h → t.p = s.p ∧ (t.dirty = true → s.dirty = true)) ∧
    (¬ u.ofPort .r → t.viewW = s.viewW ∧ t.viewH = s.viewH ∧ t.rsnap = s.rsnap ∧ t.crv = s.crv ∧ t.crvLen = s.crvLen ∧
      t.recomputes = s.recomputes ∧ (s.dirty = true → t.dirty = true)) ∧
    (¬ u.ofPort .a → t.lifecycle = s.lifecycle ∧ t.fs = s.fs ∧ t.blocksize = s.blocksize ∧ t.asnap = s.asnap ∧
      t.stg = s.stg ∧ t.chains = s.chains ∧ t.smp = s.smp ∧ t.pub = s.pub)

/-- LIFECYCLE moves only as 44_audio_loop R220 lists: PREPARE from Uninitialized, BLOCK from Prepared, RELEASE from Prepared and
Processing; in particular only reset leads out of Released. That is so of a whole command and, from a state that the invariant
admits, of every step that is no reset, the finishing step of a PREPARE or BLOCK under way among them (log entry 11). -/
def Obligations.LifecycleMovesForward : Prop :=
  (∀ (i : Instr) (s t : State), exec i s = .next t → t.lifecycle ≠ s.lifecycle →
    lifecycleArrow i.opcode s.lifecycle t.lifecycle) ∧
  ∀ (s t : State), s.Inv → (∀ u rest, s.schedule = u :: rest → u.notReset) → step s = .next t →
    t.lifecycle ≠ s.lifecycle → (∃ u rest, s.schedule = u :: rest ∧ u.ofPort .a) ∧
      ∃ o, s.commandOf .a = some o ∧ lifecycleArrow o s.lifecycle t.lifecycle

/-! ### Parameters -/

/-- PWRITE stores the pattern as given and sets DIRTY; nothing else changes (41_parameters R151). -/
def Obligations.PwriteStoresAndNotifies : Prop :=
  ∀ (s : State) (idx : BitVec 8) (v : Word), s.active = .h → idx.toNat ≤ 6 →
    ∃ t, exec (.pwrite idx v) s = .next t ∧
      t = { s with p := t.p, dirty := true, portH := s.portH.answered 0#8 0#32 } ∧
      ∀ i : Fin 7, t.p[i] = if i.val = idx.toNat then v else s.p[i]

/-- PREAD answers the raw pattern and changes nothing (41_parameters R152). -/
def Obligations.PreadAnswersRawPattern : Prop :=
  ∀ (s : State) (idx : BitVec 8) (i : Fin 7), s.active = .h → idx.toNat = i.val →
    exec (.pread idx) s = .next { s with portH := s.portH.answered 0#8 s.p[i] }

/-- PDEFAULT stores every default and sets DIRTY; nothing else changes (41_parameters R153). Every default is legal: in its
declared range, a slope one of 0.0, 1.0, 2.0, 3.0 (93_implementation_defined U11, log entry 3). -/
def Obligations.PdefaultStoresLegalDefaults : Prop :=
  (∀ s : State, s.active = .h →
    exec .pdefault s = .next { s with p := defP, dirty := true, portH := s.portH.answered 0#8 0#32 }) ∧
  ∀ i : Fin 7, inRange i defP[i] = true ∧ ((i = 1 ∨ i = 3) →
    defP[i] = 0x00000000#32 ∨ defP[i] = 0x3F800000#32 ∨ defP[i] = 0x40000000#32 ∨ defP[i] = 0x40400000#32)

/-- SNAP replaces ASNAP whole by the snapshot of the store and changes nothing else; DIRTY stays (41_parameters R154). So does
its finishing step, whatever values `r` its seven reads have found while other ports stepped between (log entry 11). -/
def Obligations.SnapReplacesAsnap : Prop :=
  ∀ s : State, s.active = .a → s.running →
    exec .snap s = .next { s with asnap := snapshot s.p, portA := s.portA.answered 0#8 0#32 } ∧
    ∀ r : Vector Word 7, SnapshotCmd.snap.finish r s = { s with asnap := snapshot r, portA := s.portA.answered 0#8 0#32 }

/-- What a snapshot holds of any store: a NaN gives the default, a value below the range its low end, one above its high end, one
inside itself bit for bit; so every field is in its declared range (41_parameters R155, R156; 40_numerics R133). -/
def Obligations.SnapshotClampsEachField : Prop :=
  ∀ (r : Vector Word 7) (i : Fin 7), (i ≠ 1 ∧ i ≠ 3) →
    let v := (snapshot r).word i
    inRange i v = true ∧
    (F32.isNaN r[i] = true → v = defP[i]) ∧
    (F32.flt r[i] paramLow[i] = true → v = paramLow[i]) ∧
    (F32.flt paramHigh[i] r[i] = true → v = paramHigh[i]) ∧
    (inRange i r[i] = true → v = r[i])

/-- The slope of a snapshot is the integer part of the parameter, held to 0 to 3; a NaN gives the default's (40_numerics R134,
41_parameters R155). -/
def Obligations.SnapshotSlopeTruncates : Prop :=
  ∀ (r : Vector Word 7) (i : Fin 7), (i = 1 ∨ i = 3) →
    (∀ k : Fin 4, F32.isNaN r[i] = false → (k = 0 ∨ F32.flt r[i] (F32.ofNat k.val) = false) →
      (k = 3 ∨ F32.flt r[i] (F32.ofNat (k.val + 1)) = true) → (snapshot r).word i = BitVec.ofNat 32 k.val) ∧
    (F32.isNaN r[i] = true → ∀ k : Fin 4, defP[i] = F32.ofNat k.val → (snapshot r).word i = BitVec.ofNat 32 k.val)

/-! ### Registers and memories -/

/-- RDREG on any port, in any lifecycle state, answers the register at a mapped address and changes nothing (46_access R260). -/
def Obligations.RdregAnswersRegister : Prop :=
  ∀ (s : State) (addr : BitVec 16) (r : Reg), regAt addr.toNat = some r →
    exec (.rdreg addr) s = .next (s.ended 0#8 (s.readReg r))

/-- The address map: each register is at the address of 10_state R30 and at no other, and the unmapped addresses are those that
46_access R260 lists. -/
def Obligations.RegisterMapIsExact : Prop :=
  (∀ r : Reg, r ≠ .unused → regAt r.addr = some r) ∧
  (∀ (a : Nat) (r : Reg), r ≠ .unused → regAt a = some r → a = r.addr) ∧
  ∀ a : Nat, regAt a = none ↔
    (0x000C ≤ a ∧ a ≤ 0x000F) ∨ a = 0x0017 ∨ a = 0x001F ∨ (0x0027 ≤ a ∧ a ≤ 0x003F) ∨ (0x0088 ≤ a ∧ a ≤ 0x00FF) ∨
      (0x0148 ≤ a ∧ a ≤ 0x017F) ∨ (0x01C8 ≤ a ∧ a ≤ 0x01FF) ∨ 0x0248 ≤ a

/-- WRSMP stores the pattern in one cell, in every lifecycle state: the four bytes of the cell hold it, least significant byte
first (20_memory R61, a convention of the model: log entry 7), every other byte is as before, and nothing else changes. -/
def Obligations.WrsmpStoresOneCell : Prop :=
  ∀ (s : State) (ch : Fin 2) (index : BitVec 16) (v : Word), s.active = .a →
    ∃ t, exec (.wrsmp ch index v) s = .next t ∧
      t = { s with smp := t.smp, portA := s.portA.answered 0#8 0#32 } ∧
      (∀ j : Fin 4, t.smpByte (4 * smpCell ch index.toNat + j.val) = v.extractLsb' (8 * j.val) 8) ∧
      ∀ a : Nat, a / 4 ≠ smpCell ch index.toNat → t.smpByte a = s.smpByte a

/-- RDSMP answers the cell and changes nothing; what WRSMP stored is what RDSMP answers, and a WRSMP to another cell does not
change it (46_access R261, R262). -/
def Obligations.RdsmpAnswersLastWrite : Prop :=
  ∀ (s : State) (ch : Fin 2) (index : BitVec 16), s.active = .a →
    exec (.rdsmp ch index) s = .next { s with portA := s.portA.answered 0#8 (s.readSmp ch index.toNat) } ∧
    ∀ (ch' : Fin 2) (index' : BitVec 16) (v : Word) (t : State), exec (.wrsmp ch' index' v) s = .next t →
      t.readSmp ch index.toNat = if ch' = ch ∧ index' = index then v else s.readSmp ch index.toNat

/-- CLRCH writes +0.0 into the first `count` samples of a channel; every other byte is as before and nothing else changes
(43_chain R201). -/
def Obligations.ClrchSilencesSamples : Prop :=
  ∀ (s : State) (ch : Fin 2) (count : BitVec 16), s.active = .a → s.running → count.toNat ≤ s.blocksize.toNat →
    ∃ t, exec (.clrch ch count) s = .next t ∧
      t = { s with smp := t.smp, portA := s.portA.answered 0#8 0#32 } ∧
      (∀ n < count.toNat, t.readSmp ch n = 0x00000000#32) ∧
      ∀ a : Nat, (∀ n < count.toNat, a / 4 ≠ smpCell ch n) → t.smpByte a = s.smpByte a

/-! ### The designer -/

/-- DESPK puts the peak design of ASNAP at FS into STG[4]; no other staging block and nothing else changes. It completes for
every snapshot in range and every valid sample rate (42_designer R173, R175(c), 60_exceptions R279; log entry 4). -/
def Obligations.DespkStagesPeak : Prop :=
  ∀ s : State, s.active = .a → s.running → s.asnap.inRange = true → rateValid s.fs = true →
    ∃ t, exec .despk s = .next t ∧
      t = { s with stg := t.stg, portA := s.portA.answered 0#8 0#32 } ∧
      t.stg[(4 : Fin 9)] = designPeak s.asnap.peakFreq s.asnap.peakQ s.asnap.peakGain s.fs ∧
      ∀ b : Fin 9, b ≠ 4 → t.stg[b] = s.stg[b]

/-- DESCUT puts slope + 1 sections into the staging blocks of its side, in order; the other staging blocks and everything else
are as before. It completes for every snapshot in range and every valid sample rate (42_designer R176, R179(a), (d),
60_exceptions R279; log entry 4). -/
def Obligations.DescutStagesCascade : Prop :=
  ∀ (s : State) (side : Side), s.active = .a → s.running → s.asnap.inRange = true → rateValid s.fs = true →
    ∃ t, exec (.descut side) s = .next t ∧
      t = { s with stg := t.stg, portA := s.portA.answered 0#8 0#32 } ∧
      (∀ i : Fin 4, t.stg[cutSlot side i] =
        if i ≤ s.asnap.cutSlope side then cutDesign s.asnap s.fs side i else s.stg[cutSlot side i]) ∧
      ∀ b : Fin 9, (∀ i : Fin 4, b ≠ cutSlot side i) → t.stg[b] = s.stg[b]

/-- LDSTG loads one word of one staging block, any pattern; nothing else changes (42_designer R178). -/
def Obligations.LdstgLoadsOneWord : Prop :=
  ∀ (s : State) (slot : BitVec 8) (k : BitVec 16) (v : Word), s.active = .a → s.running → slot.toNat ≤ 8 → k.toNat ≤ 4 →
    ∃ t, exec (.ldstg slot k v) s = .next t ∧
      t = { s with stg := t.stg, portA := s.portA.answered 0#8 0#32 } ∧
      ∀ (b : Fin 9) (j : Fin 5), t.stg[b].word j = if b.val = slot.toNat ∧ j.val = k.toNat then v else s.stg[b].word j

/-- At 0 dB of either sign the peak design is neutral: (1.0, a1, a2, a1, a2), for every snapshot, sample rate and instance of
NUM (42_designer R175(a), (b)). -/
def Obligations.PeakIsNeutralAtZeroGain : Prop :=
  ∀ (v : Settings) (fs : Word), v.inRange = true → rateValid fs = true → F32.isZero v.peakGain = true →
    let c := designPeak v.peakFreq v.peakQ v.peakGain fs
    c.b0 = 0x3F800000#32 ∧ c.b1 = c.a1 ∧ c.b2 = c.a2 ∧ peakNeutral c = true

/-- The engine's NUM has the properties of 40_numerics R128 for its NUM_ULP, at least 0.5. So has the reference instance NUM_CR
with NUM_ULP = 0.5 (R129). Every instance that has them for a NUM_ULP below 2^22 has finite designs (42_designer R175(c),
R179(d)), and every instance that has them and finite designs is one that the free value can be, so none is shut out but one
that 60_exceptions R279 says does not exist (log entry 4). -/
def Obligations.EveryNumericsInstanceAdmitted : Prop :=
  (1 / 2 ≤ Numeric.numUlp ∧ Numeric.num.Required Numeric.numUlp) ∧
  numCR.Required (1 / 2) ∧
  (∀ (n : Numerics) (ulp : ℚ), n.Required ulp → ulp < 2 ^ 22 → n.DesignsFinite) ∧
  ∀ (n : Numerics) (ulp : ℚ), 1 / 2 ≤ ulp → n.Required ulp → n.DesignsFinite →
    ∃ h : n.Admitted ulp, Numeric.pairOf (some ⟨(ulp, n), h⟩) = (ulp, n)

/-! ### The chain -/

/-- SETPK assigns a finite staged peak block to slot 4 of one chain and changes nothing else, Z included; a block with a
non-finite word is refused with CoefficientFault and nothing is assigned (43_chain R191, R200). -/
def Obligations.SetpkAssignsPeak : Prop :=
  ∀ (s : State) (ch : Fin 2), s.active = .a → s.running →
    (s.stg[(4 : Fin 9)].allFinite = false → exec (.setpk ch) s = .next (s.faulted 8)) ∧
    (s.stg[(4 : Fin 9)].allFinite = true → ∃ t, exec (.setpk ch) s = .next t ∧
      t = { s with chains := t.chains, portA := s.portA.answered 0#8 0#32 } ∧
      (t.chain ch).z = (s.chain ch).z ∧ (t.chain ch).byp = (s.chain ch).byp ∧
      (∀ b : Fin 9, (t.chain ch).coef[b] = if b = 4 then s.stg[(4 : Fin 9)] else (s.chain ch).coef[b]) ∧
      ∀ c : Fin 2, c ≠ ch → t.chain c = s.chain c)

/-- SETCUT with finite staged blocks: stages 0 to the slope hold them and are active, the later stages keep their blocks and are
bypassed; the other side, the peak slot, Z, the other chain and everything else are as before (43_chain R192, R193, R200). -/
def Obligations.SetcutAssignsSide : Prop :=
  ∀ (s : State) (ch : Fin 2) (side : Side) (slope : BitVec 16), s.active = .a → s.running → slope.toNat ≤ 3 →
    (∀ i : Fin 4, i.val ≤ slope.toNat → s.stg[cutSlot side i].allFinite = true) →
    ∃ t, exec (.setcut ch side slope) s = .next t ∧
      t = { s with chains := t.chains, portA := s.portA.answered 0#8 0#32 } ∧
      (t.chain ch).z = (s.chain ch).z ∧
      (∀ i : Fin 4, (t.chain ch).byp[cutFlag side i] = decide (slope.toNat < i.val) ∧
        (t.chain ch).coef[cutSlot side i] =
          if i.val ≤ slope.toNat then s.stg[cutSlot side i] else (s.chain ch).coef[cutSlot side i]) ∧
      (∀ k : Fin 8, (∀ i, k ≠ cutFlag side i) → (t.chain ch).byp[k] = (s.chain ch).byp[k]) ∧
      (∀ b : Fin 9, (∀ i, b ≠ cutSlot side i) → (t.chain ch).coef[b] = (s.chain ch).coef[b]) ∧
      ∀ c : Fin 2, c ≠ ch → t.chain c = s.chain c

/-- SETCUT that meets a non-finite block at stage `j`: CoefficientFault; the stages before `j` hold their new blocks, `j` and the
later ones their old ones, and all four stages of the side are bypassed; nothing else changes but FAULT (43_chain R192, R193). -/
def Obligations.SetcutFailsMidwayBypassed : Prop :=
  ∀ (s : State) (ch : Fin 2) (side : Side) (slope : BitVec 16) (j : Fin 4), s.active = .a → s.running →
    slope.toNat ≤ 3 → j.val ≤ slope.toNat → s.stg[cutSlot side j].allFinite = false →
    (∀ i : Fin 4, i < j → s.stg[cutSlot side i].allFinite = true) →
    ∃ t, exec (.setcut ch side slope) s = .next t ∧
      t = { s with chains := t.chains, fault := s.fault ||| 1#32 <<< 8, portA := s.portA.answered 8#8 0#32 } ∧
      (t.chain ch).z = (s.chain ch).z ∧
      (∀ i : Fin 4, (t.chain ch).byp[cutFlag side i] = true ∧
        (t.chain ch).coef[cutSlot side i] = if i < j then s.stg[cutSlot side i] else (s.chain ch).coef[cutSlot side i]) ∧
      (∀ k : Fin 8, (∀ i, k ≠ cutFlag side i) → (t.chain ch).byp[k] = (s.chain ch).byp[k]) ∧
      (∀ b : Fin 9, (∀ i, b ≠ cutSlot side i) → (t.chain ch).coef[b] = (s.chain ch).coef[b]) ∧
      ∀ c : Fin 2, c ≠ ch → t.chain c = s.chain c

/-- The coefficient update of a chain, SETPK then SETCUT of both sides, done a second time leaves the state it left the first
time, whatever the staging blocks hold: with a non-finite one both times end in the same fault (43_chain R202). -/
def Obligations.CoefficientUpdateIdempotent : Prop :=
  ∀ (s t : State) (ch : Fin 2) (kl kh : BitVec 16),
    let update := [.setpk ch, .setcut ch .low kl, .setcut ch .high kh]
    s.active = .a → s.running → kl.toNat ≤ 3 → kh.toNat ≤ 3 →
    runCommands update s = .next t → runCommands update t = .next t

/-- PUBLISH copies chain 0's blocks and flags with FS into PUB and counts it; nothing else changes, DIRTY included
(43_chain R195). -/
def Obligations.PublishCopiesChainZero : Prop :=
  ∀ s : State, s.active = .a → s.running →
    exec .publish s = .next { s with
      pub := { coef := (s.chain 0).coef, byp := (s.chain 0).byp, fs := s.fs, seq := s.pub.seq + 1#32 }
      portA := s.portA.answered 0#8 0#32 }

/-- PROC runs the first `count` samples of a channel, in increasing index, through its chain: each sample enters slot 0 with the
delay words the sample before left, and is replaced by what leaves slot 8. A bypassed slot keeps its delay words. Coefficients,
flags, the other chain, every other byte of SMP and everything else are as before (43_chain R196, R198, R199). -/
def Obligations.ProcFiltersInPlace : Prop :=
  ∀ (s : State) (ch : Fin 2) (count : BitVec 16), s.active = .a → s.running → count.toNat ≤ s.blocksize.toNat →
    ∃ (t : State) (lane : Nat → Lane), exec (.proc ch count) s = .next t ∧
      t = { s with smp := t.smp, chains := t.chains, draws := t.draws, portA := s.portA.answered 0#8 0#32 } ∧
      (lane 0).z = (s.chain ch).z ∧ (lane 0).draws = s.draws ∧
      (∀ n < count.toNat, lane (n + 1) =
          runSample (s.chain ch) { v := s.readSmp ch n, z := (lane n).z, draws := (lane n).draws } ∧
        t.readSmp ch n = (lane (n + 1)).v) ∧
      (t.chain ch).z = (lane count.toNat).z ∧ (t.chain ch).coef = (s.chain ch).coef ∧ (t.chain ch).byp = (s.chain ch).byp ∧
      (∀ b : Fin 9, bypassed (s.chain ch).byp b = true → (t.chain ch).z[b] = (s.chain ch).z[b]) ∧
      (∀ c : Fin 2, c ≠ ch → t.chain c = s.chain c) ∧
      ∀ a : Nat, (∀ n < count.toNat, a / 4 ≠ smpCell ch n) → t.smpByte a = s.smpByte a

/-- A neutral chain passes every finite sample but -0.0 through bit for bit and stays neutral (10_state R47). -/
def Obligations.NeutralChainPassesSamples : Prop :=
  ∀ (s t : State) (ch : Fin 2) (count : BitVec 16), s.active = .a → s.running → count.toNat ≤ s.blocksize.toNat →
    s.chain ch = Chain.neutral →
    (∀ n < count.toNat, F32.isFinite (s.readSmp ch n) = true ∧ s.readSmp ch n ≠ 0x80000000#32) →
    exec (.proc ch count) s = .next t → t.chains = s.chains ∧ ∀ (c : Fin 2) (n : Nat), t.readSmp c n = s.readSmp c n

/-- Once the first delay word of a stage is a NaN, its output is a NaN and both delay words stay NaN, whatever comes in and
whatever the coefficients (70_reset_and_hazards R321). -/
def Obligations.NanPoisonsTheStage : Prop :=
  ∀ (c : Block) (z : Delay) (v : Word) (n : Nat), F32.isNaN z.z1 = true →
    F32.isNaN (stage c z v n).1 = true ∧ F32.isNaN (stage c z v n).2.z1 = true ∧ F32.isNaN (stage c z v n).2.z2 = true

/-! ### The processing loop -/

/-- PREPARE from Uninitialized with a valid rate and a block size: the rate and size are kept, both chains get clear delay
words, the designs of the snapshot, and the first slope + 1 stages of each side active, the blocks of the later stages the
identity; PUB holds the same and is counted; ASNAP is the snapshot; nothing else changes (44_audio_loop R221, R222). The whole
command is its finishing step at the store; the finishing step does this at every seven values `r` read (log entry 11). That it
never fails rests on the finite designs of every admitted NUM (60_exceptions R279, log entry 4). -/
def Obligations.PrepareInitialisesChains : Prop :=
  ∀ (s : State) (bs : BitVec 16) (fs : Word), s.active = .a → s.lifecycle = .uninitialized → bs ≠ 0#16 →
    F32.isFinite fs = true → F32.flt fs 0x3F800000#32 = false →
    exec (.prepare bs fs) s = .next ((SnapshotCmd.prepare bs fs).finish s.p s) ∧
    ∀ r : Vector Word 7,
      let v := snapshot r
      let t := (SnapshotCmd.prepare bs fs).finish r s
      t = { s with
        fs := fs, blocksize := bs, lifecycle := .prepared, asnap := v, stg := t.stg, chains := t.chains
        pub := { coef := (t.chain 0).coef, byp := (t.chain 0).byp, fs := fs, seq := s.pub.seq + 1#32 }
        portA := s.portA.answered 0#8 0#32 } ∧
      (∀ ch : Fin 2, (∀ b : Fin 9, (t.chain ch).z[b] = { z1 := 0#32, z2 := 0#32 }) ∧
        (t.chain ch).coef[(4 : Fin 9)] = designPeak v.peakFreq v.peakQ v.peakGain fs ∧
        ∀ (side : Side) (i : Fin 4), (t.chain ch).byp[cutFlag side i] = decide (v.cutSlope side < i) ∧
          (t.chain ch).coef[cutSlot side i] = if i ≤ v.cutSlope side then cutDesign v fs side i else Block.identity) ∧
      t.stg[(4 : Fin 9)] = designPeak v.peakFreq v.peakQ v.peakGain fs ∧
      ∀ (side : Side) (i : Fin 4), t.stg[cutSlot side i] =
        if i ≤ v.cutSlope side then cutDesign v fs side i else s.stg[cutSlot side i]

/-- BLOCK: Processing; both chains get the designs of a fresh snapshot whatever the channel counts, PUB holds them and is
counted. Each channel of the buffer, channel 0 first, runs its first `count` samples in order through its own new chain: a lane
starts with the delay words the chain held and the samples of the buffer, +0.0 for an output without an input; each sample is
replaced by what the chain gives and the chain keeps the delay words at the end. The delay words of a chain whose channel is not
in the buffer and every byte of SMP outside the buffer's first `count` samples are as before; nothing else changes, DIRTY
included (44_audio_loop R224, R225, R226). The whole command is its finishing step at the store; the finishing step does this at
every seven values `r` read (log entry 11). That it never fails rests on the finite designs of every admitted NUM (60_exceptions
R279, log entry 4). -/
def Obligations.BlockRedesignsAndRuns : Prop :=
  ∀ (s : State) (nin nout : BitVec 4) (count : BitVec 16), s.active = .a → s.running → nin.toNat ≤ 2 → nout.toNat ≤ 2 →
    count.toNat ≤ s.blocksize.toNat → rateValid s.fs = true →
    exec (.block nin nout count) s = .next ((SnapshotCmd.block nin nout count).finish s.p s) ∧
    ∀ r : Vector Word 7,
      let v := snapshot r
      let t := (SnapshotCmd.block nin nout count).finish r s
      t = { s with
        lifecycle := .processing, asnap := v, stg := t.stg, chains := t.chains, smp := t.smp, draws := t.draws
        pub := { coef := (t.chain 0).coef, byp := (t.chain 0).byp, fs := s.fs, seq := s.pub.seq + 1#32 }
        portA := s.portA.answered 0#8 0#32 } ∧
      (∀ ch : Fin 2, (max nin.toNat nout.toNat ≤ ch.val → (t.chain ch).z = (s.chain ch).z) ∧
        (t.chain ch).coef[(4 : Fin 9)] = designPeak v.peakFreq v.peakQ v.peakGain s.fs ∧
        ∀ (side : Side) (i : Fin 4), (t.chain ch).byp[cutFlag side i] = decide (v.cutSlope side < i) ∧
          (t.chain ch).coef[cutSlot side i] =
            if i ≤ v.cutSlope side then cutDesign v s.fs side i else (s.chain ch).coef[cutSlot side i]) ∧
      t.stg[(4 : Fin 9)] = designPeak v.peakFreq v.peakQ v.peakGain s.fs ∧
      (∀ (side : Side) (i : Fin 4), t.stg[cutSlot side i] =
        if i ≤ v.cutSlope side then cutDesign v s.fs side i else s.stg[cutSlot side i]) ∧
      (∃ lane : Fin 2 → Nat → Lane, ∀ ch : Fin 2, ch.val < max nin.toNat nout.toNat →
        (lane ch 0).z = (s.chain ch).z ∧ (lane ch 0).draws = (if ch = 0 then s.draws else (lane 0 count.toNat).draws) ∧
        (∀ n < count.toNat, lane ch (n + 1) = runSample (t.chain ch)
            { v := if nin.toNat ≤ ch.val then 0x00000000#32 else s.readSmp ch n, z := (lane ch n).z
              draws := (lane ch n).draws } ∧
          t.readSmp ch n = (lane ch (n + 1)).v) ∧
        (t.chain ch).z = (lane ch count.toNat).z) ∧
      ∀ a : Nat, (∀ ch : Fin 2, ch.val < max nin.toNat nout.toNat → ∀ n < count.toNat, a / 4 ≠ smpCell ch n) →
        t.smpByte a = s.smpByte a

/-- A whole BLOCK leaves the state that its primitive commands leave one after the other, but for LIFECYCLE (60_exceptions R292):
CLRCH of each output-only channel, SNAP, DESPK, DESCUT of both sides, SETPK and SETCUT of both sides for each chain, PUBLISH,
PROC of each channel of the buffer. That none of them faults rests on the finite designs of every admitted NUM (R279, log
entry 4). -/
def Obligations.BlockIsItsPrimitives : Prop :=
  ∀ (s : State) (nin nout : BitVec 4) (count : BitVec 16), s.active = .a → s.running → nin.toNat ≤ 2 → nout.toNat ≤ 2 →
    count.toNat ≤ s.blocksize.toNat → rateValid s.fs = true →
    let kl := BitVec.ofNat 16 ((snapshot s.p).cutSlope .low).val
    let kh := BitVec.ofNat 16 ((snapshot s.p).cutSlope .high).val
    let both : List (Fin 2) := [0, 1]
    let primitives : List Instr :=
      (both.filter fun ch => decide (nin.toNat ≤ ch.val ∧ ch.val < nout.toNat)).map (fun ch => .clrch ch count) ++
      [.snap, .despk, .descut .low, .descut .high] ++
      [.setpk 0, .setcut 0 .low kl, .setcut 0 .high kh, .setpk 1, .setcut 1 .low kl, .setcut 1 .high kh, .publish] ++
      (both.filter fun ch => decide (ch.val < max nin.toNat nout.toNat)).map (fun ch => .proc ch count)
    ∃ t u, exec (.block nin nout count) s = .next t ∧ runCommands primitives s = .next u ∧
      t = { u with lifecycle := .processing }

/-- RELEASE ends the lifecycle and changes nothing else (44_audio_loop R227). -/
def Obligations.ReleaseEndsLifecycle : Prop :=
  ∀ s : State, s.active = .a → s.running →
    exec .release s = .next { s with lifecycle := .released, portA := s.portA.answered 0#8 0#32 }

/-! ### The renderer -/

/-- SETVIEW stores the view; DIRTY, CRV and CRV_LEN stay (45_renderer R240). -/
def Obligations.SetviewStoresView : Prop :=
  ∀ (s : State) (width height : BitVec 16), s.active = .r → width.toNat ≤ 4096 →
    exec (.setview width height) s =
      .next { s with viewW := width, viewH := height, portR := s.portR.answered 0#8 0#32 }

/-- TICK with DIRTY clear answers 0 and changes nothing. With DIRTY set it clears it and goes on; its finishing step, at every
seven values `r` read (log entry 11), takes RSNAP, draws every point of the polyline from PUB, sets CRV_LEN, counts, answers 1,
and changes nothing else, DIRTY as it then is included (45_renderer R248). The whole command is the clear and the finishing step
at the store. -/
def Obligations.TickRedrawsWhenDirty : Prop :=
  ∀ s : State, s.active = .r →
    (s.dirty = false → exec .tick s = .next { s with portR := s.portR.answered 0#8 0#32 }) ∧
    (s.dirty = true → exec .tick s = .next (SnapshotCmd.tick.finish s.p { s with dirty := false })) ∧
    ∀ r : Vector Word 7,
      let t := SnapshotCmd.tick.finish r s
      t = { s with
        rsnap := snapshot r, crv := t.crv, crvLen := s.viewW, recomputes := s.recomputes + 1#32
        portR := s.portR.answered 0#8 1#32 } ∧
      (∀ p < s.viewW.toNat, t.readCrv p =
        curveY (db (curveMag s.pub (curveFreq p s.viewW.toNat))) s.viewH.toNat) ∧
      ∀ a : Nat, s.viewW.toNat ≤ a / 4 → t.crvByte a = s.crvByte a

/-- RDCRV answers a point of the polyline and changes nothing; at CRV_LEN and above it is an IllegalOperand
(45_renderer R251). -/
def Obligations.RdcrvAnswersPoint : Prop :=
  ∀ (s : State) (index : BitVec 16), s.active = .r →
    (index.toNat < s.crvLen.toNat →
      exec (.rdcrv index) s = .next { s with portR := s.portR.answered 0#8 (s.readCrv index.toNat) }) ∧
    (s.crvLen.toNat ≤ index.toNat → exec (.rdcrv index) s = .next (s.faulted 2))

/-- No point of the curve is a NaN, for every published copy, view and instance of NUM (45_renderer R246, R247). -/
def Obligations.CurvePointNeverNaN : Prop :=
  ∀ (pub : Published) (w h p : Nat), h < 65536 → F32.isNaN (curveY (db (curveMag pub (curveFreq p w))) h) = false

/-- With every cut stage bypassed and a neutral peak the curve is flat: every point is CurveY(+0.0, H), whatever the blocks of
the bypassed stages and the sample rate (45_renderer R244, R247). -/
def Obligations.NeutralCurveIsFlat : Prop :=
  ∀ (pub : Published), (∀ k : Fin 8, pub.byp[k] = true) → peakNeutral pub.coef[(4 : Fin 9)] = true → ∀ (w h p : Nat),
    curveY (db (curveMag pub (curveFreq p w))) h = curveY 0x00000000#32 h

/-- A magnitude is never negative and never -0.0 (40_numerics R136). -/
def Obligations.MagnitudeNeverNegative : Prop :=
  ∀ (c : Block) (f fs : Word), F32.isNaN (mag c f fs) = true ∨ F32.sign (mag c f fs) = false

/-! ### Interleavings -/

/-- If no step of a PWRITE or PDEFAULT and no reset falls among them, any turns whatever after DIRTY was cleared leave DIRTY
clear and RECOMPUTES, the curve and its length as they are; other commands of port H may fall among them (45_renderer
R250(a)). -/
def Obligations.NoChangeNoRecompute : Prop :=
  ∀ (n : Nat) (s t : State), s.Inv → s.dirty = false → s.portR.busy = none → (∀ u ∈ s.schedule.take n, u.notReset) →
    (∀ k < n, ∀ x u rest, Sys2Proof.core.run k s = .next x → x.schedule = u :: rest → u.ofPort .h →
      x.commandOf .h ≠ some .pwrite ∧ x.commandOf .h ≠ some .pdefault) →
    Sys2Proof.core.run n s = .next t →
    t.dirty = false ∧ t.recomputes = s.recomputes ∧ t.crv = s.crv ∧ t.crvLen = s.crvLen ∧ t.rsnap = s.rsnap

/-- A snapshot is not an atomic picture of the store: while a SNAP reads, port H writes P[0] and then P[2], and some order of the
steps leaves in ASNAP the old value of the first and the new value of the second (20_memory R68). -/
def Obligations.MixedSnapshotPossible : Prop :=
  ∀ (s : State) (v0 v2 : Word), s.running → s.portA = { queue := [encode .snap], busy := none, resp := none } →
    s.portH = { queue := [encode (.pwrite 0#8 v0), encode (.pwrite 2#8 v2)], busy := none, resp := none } →
    ∃ (turns : List Turn) (t : State), Sys2Proof.core.run turns.length ({ s with schedule := turns } : State) = .next t ∧
      t.p = (s.p.set 0 v0).set 2 v2 ∧ t.asnap.lowCutFreq = clampParam s.p 0 ∧ t.asnap.highCutFreq = clampParam t.p 2 ∧
      t.portA.busy = none ∧ t.portA.resp = some 0#40

/-- A TICK that falls between PDEFAULT's seventh write and its set of DIRTY is not told of the change: with DIRTY clear before,
some order of the steps leaves the defaults stored, DIRTY set and no recomputation (41_parameters R153, 70_reset R317). -/
def Obligations.PdefaultWindowMissesTick : Prop :=
  ∀ s : State, s.dirty = false → s.portH = { queue := [encode .pdefault], busy := none, resp := none } →
    s.portR = { queue := [encode .tick], busy := none, resp := none } →
    ∃ (turns : List Turn) (t : State), Sys2Proof.core.run turns.length ({ s with schedule := turns } : State) = .next t ∧
      t.p = defP ∧ t.dirty = true ∧ t.recomputes = s.recomputes ∧ t.crv = s.crv ∧
      t.portR.resp = some 0#40 ∧ t.portH.resp = some 0#40

/-! ### Arithmetic -/

/-- Rounding is to nearest, ties to even: no magnitude bits below infinity stand for a number nearer to `num / den` than the
result does, and one as near is the result itself or the result is even (40_numerics R121). -/
def Obligations.RoundingIsToNearestEven : Prop :=
  ∀ num den : Nat, 0 < den → F32.roundBits num den < F32.infBits → ∀ m < F32.infBits,
    let err : Nat → Int := fun k => |((F32.bitsUnits k * den : Nat) : Int) - (num : Int)|
    err (F32.roundBits num den) ≤ err m ∧
      (err m = err (F32.roundBits num den) → m = F32.roundBits num den ∨ F32.roundBits num den % 2 = 0)

/-- A result is an infinity exactly when the exact value reaches the largest finite number and half its quantum
(40_numerics R121). -/
def Obligations.OverflowGivesInfinity : Prop :=
  ∀ num den : Nat, 0 < den → (F32.roundBits num den = F32.infBits ↔ (2 ^ 25 - 1) * 2 ^ 252 * den ≤ num)

/-- The sum is the exact sum rounded once (`v` is the value of a finite pattern in units of 2^-149), the difference is the sum
with the sign of the second operand flipped, and the special values, and commutativity (40_numerics R122, R123). -/
def Obligations.SumIsRoundedOnce : Prop :=
  let v : Word → Int := fun w => if F32.sign w = true then -(F32.units w : Int) else (F32.units w : Int)
  ∀ x y : Word,
    (F32.isFinite x = true → F32.isFinite y = true → v x + v y ≠ 0 →
      F32.sign (F32.fadd x y) = decide (v x + v y < 0) ∧
      F32.magBits (F32.fadd x y) = F32.roundBits (v x + v y).natAbs 1) ∧
    F32.fadd x y = F32.fadd y x ∧
    F32.fsub x y = F32.fadd x (F32.neg y) ∧
    (F32.isFinite x = true → F32.fadd x (F32.neg x) = 0x00000000#32 ∧ F32.fsub x x = 0x00000000#32) ∧
    F32.fadd 0x80000000#32 0x80000000#32 = 0x80000000#32 ∧
    F32.fadd 0x00000000#32 0x80000000#32 = 0x00000000#32 ∧
    (F32.isInf x = true → F32.isNaN (F32.fadd x (F32.neg x)) = true ∧ F32.isNaN (F32.fsub x x) = true) ∧
    ((F32.isNaN x = true ∨ F32.isNaN y = true) → F32.isNaN (F32.fadd x y) = true) ∧
    (F32.isFinite x = true → F32.isZero x = false → F32.fadd x 0x00000000#32 = x)

/-- The product and the quotient are the exact ones rounded once, with the exclusive-or of the signs, and the special values
(40_numerics R124, R125). -/
def Obligations.ProductAndQuotientAreRoundedOnce : Prop :=
  ∀ x y : Word,
    (F32.isFinite x = true → F32.isFinite y = true →
      F32.magBits (F32.fmul x y) = F32.roundBits (F32.units x * F32.units y) (2 ^ 149)) ∧
    (F32.isFinite x = true → F32.isFinite y = true → F32.isZero y = false →
      F32.magBits (F32.fdiv x y) = F32.roundBits (F32.units x * 2 ^ 149) (F32.units y)) ∧
    F32.fmul x y = F32.fmul y x ∧
    (F32.isNaN (F32.fmul x y) = false → F32.sign (F32.fmul x y) = (F32.sign x != F32.sign y)) ∧
    (F32.isNaN (F32.fdiv x y) = false → F32.sign (F32.fdiv x y) = (F32.sign x != F32.sign y)) ∧
    (F32.isZero x = true → F32.isInf y = true → F32.isNaN (F32.fmul x y) = true) ∧
    ((F32.isNaN x = true ∨ F32.isNaN y = true) → F32.isNaN (F32.fmul x y) = true ∧ F32.isNaN (F32.fdiv x y) = true) ∧
    (F32.isNaN x = false → F32.fmul x 0x3F800000#32 = x ∧ F32.fdiv x 0x3F800000#32 = x) ∧
    (F32.isFinite x = true → F32.isZero x = false → F32.isZero y = true → F32.isInf (F32.fdiv x y) = true) ∧
    (F32.isZero x = true → F32.isZero y = true → F32.isNaN (F32.fdiv x y) = true) ∧
    (F32.isInf x = true → F32.isInf y = true → F32.isNaN (F32.fdiv x y) = true) ∧
    (F32.isFinite x = true → F32.isZero x = false → F32.fdiv x x = 0x3F800000#32) ∧
    (F32.isFinite x = true → F32.isInf y = true → F32.isZero (F32.fdiv x y) = true)

/-- The square root is correctly rounded: of the exact root of a positive finite number, no magnitude bits stand for a nearer
number (the midpoint with any smaller neighbour is not above the root, with any larger one not below), and the special values
(40_numerics R126). -/
def Obligations.SquareRootIsNearest : Prop :=
  (∀ x : Word, F32.isFinite x = true → F32.sign x = false → F32.isZero x = false →
    F32.sign (F32.fsqrt x) = false ∧ F32.isFinite (F32.fsqrt x) = true ∧
    ∀ m < F32.infBits,
      (m < F32.magBits (F32.fsqrt x) →
        (F32.bitsUnits m + F32.units (F32.fsqrt x)) ^ 2 ≤ 4 * (F32.units x * 2 ^ 149)) ∧
      (F32.magBits (F32.fsqrt x) < m →
        4 * (F32.units x * 2 ^ 149) ≤ (F32.bitsUnits m + F32.units (F32.fsqrt x)) ^ 2)) ∧
  F32.fsqrt 0x00000000#32 = 0x00000000#32 ∧ F32.fsqrt 0x80000000#32 = 0x80000000#32 ∧
  F32.fsqrt 0x7F800000#32 = 0x7F800000#32 ∧
  ∀ x : Word, (F32.isNaN x = true ∨ F32.flt x 0x00000000#32 = true) → F32.isNaN (F32.fsqrt x) = true
end

