-- ==== Sys2Proof/Laws/Checks.lean ====
section
/-! SUPPORT. What the checks of a command let through, what a fault and a response leave, and what a command is once its checks
have passed. -/

namespace Sys2Proof.Laws

open Machine

theorem raise_eq_faulted (s : State) (f : FaultCode) : s.raise f = s.faulted f.code := by
  unfold State.raise State.faulted State.ended State.respond State.setPort State.port PortState.answered response withFaultBit
    State.setFault
  cases h : s.active <;> simp

theorem done_eq_ended (s : State) (d : Word) : s.done d = s.ended 0#8 d := by
  unfold State.done State.ended State.respond PortState.answered response
  rfl

theorem ended_a {s : State} (h : s.active = .a) (st : BitVec 8) (d : Word) :
    s.ended st d = { s with portA := s.portA.answered st d } := by
  cases s; cases h; rfl

theorem ended_r {s : State} (h : s.active = .r) (st : BitVec 8) (d : Word) :
    s.ended st d = { s with portR := s.portR.answered st d } := by
  cases s; cases h; rfl

theorem ended_h {s : State} (h : s.active = .h) (st : BitVec 8) (d : Word) :
    s.ended st d = { s with portH := s.portH.answered st d } := by
  cases s; cases h; rfl

/-! ### What a fault leaves -/

section
variable (s : State) (n : Nat)

@[simp] theorem faulted_fault : (s.faulted n).fault = s.fault ||| 1#32 <<< n := rfl
@[simp] theorem faulted_p : (s.faulted n).p = s.p := by
  cases h : s.active <;> simp only [State.faulted, State.ended, State.setPort, h]
@[simp] theorem faulted_lifecycle : (s.faulted n).lifecycle = s.lifecycle := by
  cases h : s.active <;> simp only [State.faulted, State.ended, State.setPort, h]
@[simp] theorem faulted_fs : (s.faulted n).fs = s.fs := by
  cases h : s.active <;> simp only [State.faulted, State.ended, State.setPort, h]
@[simp] theorem faulted_blocksize : (s.faulted n).blocksize = s.blocksize := by
  cases h : s.active <;> simp only [State.faulted, State.ended, State.setPort, h]
@[simp] theorem faulted_dirty : (s.faulted n).dirty = s.dirty := by
  cases h : s.active <;> simp only [State.faulted, State.ended, State.setPort, h]
@[simp] theorem faulted_recomputes : (s.faulted n).recomputes = s.recomputes := by
  cases h : s.active <;> simp only [State.faulted, State.ended, State.setPort, h]
@[simp] theorem faulted_viewW : (s.faulted n).viewW = s.viewW := by
  cases h : s.active <;> simp only [State.faulted, State.ended, State.setPort, h]
@[simp] theorem faulted_viewH : (s.faulted n).viewH = s.viewH := by
  cases h : s.active <;> simp only [State.faulted, State.ended, State.setPort, h]
@[simp] theorem faulted_crvLen : (s.faulted n).crvLen = s.crvLen := by
  cases h : s.active <;> simp only [State.faulted, State.ended, State.setPort, h]
@[simp] theorem faulted_asnap : (s.faulted n).asnap = s.asnap := by
  cases h : s.active <;> simp only [State.faulted, State.ended, State.setPort, h]
@[simp] theorem faulted_rsnap : (s.faulted n).rsnap = s.rsnap := by
  cases h : s.active <;> simp only [State.faulted, State.ended, State.setPort, h]
@[simp] theorem faulted_stg : (s.faulted n).stg = s.stg := by
  cases h : s.active <;> simp only [State.faulted, State.ended, State.setPort, h]
@[simp] theorem faulted_chains : (s.faulted n).chains = s.chains := by
  cases h : s.active <;> simp only [State.faulted, State.ended, State.setPort, h]
@[simp] theorem faulted_pub : (s.faulted n).pub = s.pub := by
  cases h : s.active <;> simp only [State.faulted, State.ended, State.setPort, h]
@[simp] theorem faulted_smp : (s.faulted n).smp = s.smp := by
  cases h : s.active <;> simp only [State.faulted, State.ended, State.setPort, h]
@[simp] theorem faulted_crv : (s.faulted n).crv = s.crv := by
  cases h : s.active <;> simp only [State.faulted, State.ended, State.setPort, h]
@[simp] theorem faulted_active : (s.faulted n).active = s.active := by
  cases h : s.active <;> simp only [State.faulted, State.ended, State.setPort, h]
@[simp] theorem faulted_schedule : (s.faulted n).schedule = s.schedule := by
  cases h : s.active <;> simp only [State.faulted, State.ended, State.setPort, h]
@[simp] theorem faulted_draws : (s.faulted n).draws = s.draws := by
  cases h : s.active <;> simp only [State.faulted, State.ended, State.setPort, h]
@[simp] theorem faulted_epoch : (s.faulted n).epoch = s.epoch := by
  cases h : s.active <;> simp only [State.faulted, State.ended, State.setPort, h]

end

theorem classAdmits_iff (o : Opcode) (p : Port) : classAdmits o.code p ↔ portAdmits o p = true := by
  cases o <;> cases p <;> simp [classAdmits, portAdmits, Opcode.code]

theorem checked_of_none {i : Instr} {s : State} {f : State → State} (h : checks i s = none) : checked i s f = f s := by
  simp [checked, h]

theorem checked_of_some {i : Instr} {s : State} {f : State → State} {c : FaultCode} (h : checks i s = some c) :
    checked i s f = s.faulted c.code := by
  simp [checked, h, raise_eq_faulted]

theorem checks_eq_none {i : Instr} {s : State} : checks i s = none ↔
    portAdmits i.opcode s.active = true ∧ operandsLegal i = true ∧ indexLegal i s = true ∧
      lifecycleAdmits i.opcode s.lifecycle = true ∧ ownCheck i s = none := by
  unfold checks
  cases portAdmits i.opcode s.active <;> cases operandsLegal i <;> cases indexLegal i s <;>
    cases lifecycleAdmits i.opcode s.lifecycle <;> simp

/-- What is left of a command once its checks have passed (the effect of each meaning). -/
def effect (i : Instr) (s : State) : State :=
  match i with
  | .rdreg addr => s.done (rdregData addr s)
  | .pwrite idx value => ((s.setParam (paramIx idx) value).setDirty true).done 0#32
  | .pread idx => s.done s.p[paramIx idx]
  | .pdefault => defaultSteps 8 0 s
  | .prepare bs fs => prepareFinish bs fs s.p s
  | .block nin nout count => blockFinish nin nout count s.p s
  | .release => (s.setLifecycle .released).done 0#32
  | .wrsmp ch index value => (s.setSmp (s.smp.writeWord (smpCell ch index.toNat) value)).done 0#32
  | .rdsmp ch index => s.done (s.readSmp ch index.toNat)
  | .clrch ch count => (s.setSmp (clearSamples ch count.toNat s.smp)).done 0#32
  | .proc ch count => (runChannel ch count.toNat s).done 0#32
  | .snap => snapFinish s.p s
  | .despk =>
    if (peakOf s.asnap s.fs).allFinite then (s.setStaging (s.stg.set peakSlot (peakOf s.asnap s.fs))).done 0#32
    else s.raise .invalidParameter
  | .descut side =>
    if (cutOf s.asnap s.fs side).all Block.allFinite then
      (s.setStaging (stageCut s.stg side (cutOf s.asnap s.fs side))).done 0#32
    else s.raise .invalidParameter
  | .ldstg slot k value =>
    (s.setStaging (s.stg.set (Fin.ofNat 9 slot.toNat)
      (s.stg[Fin.ofNat 9 slot.toNat].setWord (Fin.ofNat 5 k.toNat) value))).done 0#32
  | .setpk ch =>
    if s.stg[peakSlot].allFinite then
      (s.setChain ch { s.chain ch with coef := (s.chain ch).coef.set peakSlot s.stg[peakSlot] }).done 0#32
    else s.raise .coefficientFault
  | .setcut ch side slope =>
    if (setCut s.stg side (slopeIx slope) (s.chain ch)).1 then
      (s.setChain ch (setCut s.stg side (slopeIx slope) (s.chain ch)).2).done 0#32
    else (s.setChain ch (setCut s.stg side (slopeIx slope) (s.chain ch)).2).raise .coefficientFault
  | .publish => (publishStep s).done 0#32
  | .tick => if s.dirty then tickFinish s.p (s.setDirty false) else (s.setDirty false).done 0#32
  | .setview width height => (s.setView width height).done 0#32
  | .rdcrv index => s.done (s.readCrv index.toNat)

/-- Every meaning is its checks and then its effect; none stops with a fault or a refusal. -/
theorem exec_eq (i : Instr) (s : State) : exec i s = .next (checked i s (effect i)) := by
  cases i <;> rfl

theorem exec_of_checks {i : Instr} {s : State} (h : checks i s = none) : exec i s = .next (effect i s) := by
  rw [exec_eq, checked_of_none h]

theorem exec_of_fault {i : Instr} {s : State} {c : FaultCode} (h : checks i s = some c) :
    exec i s = .next (s.faulted c.code) := by
  rw [exec_eq, checked_of_some h]

theorem exec_next (i : Instr) (s : State) : ∃ t, exec i s = .next t := ⟨_, exec_eq i s⟩

theorem runCommands_next (l : List Instr) (s : State) : ∃ t, runCommands l s = .next t := by
  induction l generalizing s with
  | nil => exact ⟨s, rfl⟩
  | cons i l ih =>
    obtain ⟨u, hu⟩ := exec_next i s
    obtain ⟨t, ht⟩ := ih u
    exact ⟨t, by simp only [runCommands, hu, ht]⟩

/-- The two ways a command goes. -/
theorem exec_cases {i : Instr} {s t : State} (h : exec i s = .next t) :
    (∃ c, checks i s = some c ∧ t = s.faulted c.code) ∨ (checks i s = none ∧ t = effect i s) := by
  cases hc : checks i s with
  | some c => left; rw [exec_of_fault hc] at h; exact ⟨c, rfl, by cases h; rfl⟩
  | none => right; rw [exec_of_checks hc] at h; exact ⟨rfl, by cases h; rfl⟩

theorem lifecycleAdmits_of_running {s : State} (h : s.running) (o : Opcode) (ho : o ≠ .prepare) :
    lifecycleAdmits o s.lifecycle = true := by
  rcases h with h | h <;> rw [h] <;> cases o <;> simp_all [lifecycleAdmits]

theorem checks_ok {i : Instr} {s : State} (h1 : portAdmits i.opcode s.active = true) (h2 : operandsLegal i = true)
    (h3 : indexLegal i s = true) (h4 : lifecycleAdmits i.opcode s.lifecycle = true) (h5 : ownCheck i s = none) :
    checks i s = none :=
  checks_eq_none.mpr ⟨h1, h2, h3, h4, h5⟩

theorem portAdmits_iff (o : Opcode) (p : Port) : portAdmits o p = true ↔ match o with
    | .rdreg => True
    | .pwrite | .pread | .pdefault => p = .h
    | .prepare | .block | .release | .wrsmp | .rdsmp | .clrch | .proc | .snap | .despk | .descut | .ldstg | .setpk | .setcut
    | .publish => p = .a
    | .tick | .setview | .rdcrv => p = .r := by
  cases o <;> simp [portAdmits, Opcode.code]

end Sys2Proof.Laws
end

