-- ==== Sys2Proof/Laws/Memory.lean ====
section
/-! SUPPORT. The memory: reading back what was written, leaving every other byte alone, keeping the canonical form. -/

namespace Sys2Proof.Laws

open Machine

theorem putCell_lookup (l : List Host.Cell) (a b : Nat) (v : Byte) :
    (putCell l a v).lookup b = if b = a then some v else l.lookup b := by
  induction l with
  | nil =>
    rcases eq_or_ne b a with hb | hb
    · simp [putCell, hb]
    · have e : (b == a) = false := by simpa using hb
      simp [putCell, List.lookup, hb, e]
  | cons x rest ih =>
    obtain ⟨k, w⟩ := x
    simp only [putCell]
    rcases eq_or_ne b a with hb | hb
    · subst hb
      split
      · simp [List.lookup]
      · split
        · simp [List.lookup]
        · have e : (b == k) = false := by simpa using ‹¬b = k›
          simp [List.lookup, e, ih]
    · have e : (b == a) = false := by simpa using hb
      split
      · simp [List.lookup, e]
      · split
        · have e' : (b == k) = false := by simpa [← ‹a = k›] using hb
          simp [List.lookup, e, e']
        · simp [List.lookup, hb, ih]

theorem putCell_mem_keys (l : List Host.Cell) (a k : Nat) (v : Byte) (hk : k ∈ (putCell l a v).map Prod.fst) :
    k = a ∨ k ∈ l.map Prod.fst := by
  induction l with
  | nil => simpa [putCell] using hk
  | cons x rest ih =>
    obtain ⟨k', w⟩ := x
    simp only [putCell] at hk
    split at hk
    · simpa using hk
    · split at hk
      · simp only [List.map_cons, List.mem_cons] at hk ⊢
        tauto
      · simp only [List.map_cons, List.mem_cons] at hk ⊢
        rcases hk with h | h
        · tauto
        · rcases ih h with h | h <;> tauto

theorem putCell_pairwise (l : List Host.Cell) (a : Nat) (v : Byte) (h : (l.map Prod.fst).Pairwise (· < ·)) :
    ((putCell l a v).map Prod.fst).Pairwise (· < ·) := by
  induction l with
  | nil => simp [putCell]
  | cons x rest ih =>
    obtain ⟨k, w⟩ := x
    simp only [List.map_cons, List.pairwise_cons] at h
    simp only [putCell]
    split
    · rename_i hlt
      simp only [List.map_cons, List.pairwise_cons, List.mem_cons]
      exact ⟨fun y hy => hy.elim (fun e => e ▸ hlt) (fun hm => hlt.trans (h.1 y hm)), h.1, h.2⟩
    · split
      · subst_vars
        simpa using h
      · simp only [List.map_cons, List.pairwise_cons]
        refine ⟨fun y hy => ?_, ih h.2⟩
        rcases putCell_mem_keys rest a y v hy with e | hm
        · omega
        · exact h.1 y hm

/-- A write of one byte keeps the canonical form. -/
theorem put_wf {m : Memory} (h : m.wf) (a : Nat) (v : Byte) : (m.put a v).wf := putCell_pairwise m.cells a v h

theorem put_lookup (m : Memory) (a b : Nat) (v : Byte) :
    (m.put a v).lookup b = if b = a then some v else m.lookup b := putCell_lookup m.cells a b v

/-- A write of one cell keeps the canonical form. -/
theorem writeWord_wf {m : Memory} (h : m.wf) (c : Nat) (v : Word) : (m.writeWord c v).wf := by
  simp only [Memory.writeWord]
  exact put_wf (put_wf (put_wf (put_wf h _ _) _ _) _ _) _ _

/-- The bytes of a written cell, and every other byte as before. -/
theorem writeWord_lookup (m : Memory) (c : Nat) (v : Word) (b : Nat) :
    (m.writeWord c v).lookup b =
      if b = 4 * c + 3 then some (v.extractLsb' 24 8) else if b = 4 * c + 2 then some (v.extractLsb' 16 8)
      else if b = 4 * c + 1 then some (v.extractLsb' 8 8) else if b = 4 * c then some (v.extractLsb' 0 8)
      else m.lookup b := by
  simp only [Memory.writeWord, put_lookup]

/-- Every byte outside a written cell reads as before. -/
theorem writeWord_byteAt_ne (m : Memory) (free : Nat → Byte) (c : Nat) (v : Word) {b : Nat} (hb : b / 4 ≠ c) :
    (m.writeWord c v).byteAt free b = m.byteAt free b := by
  have h3 : b ≠ 4 * c + 3 := by omega
  have h2 : b ≠ 4 * c + 2 := by omega
  have h1 : b ≠ 4 * c + 1 := by omega
  have h0 : b ≠ 4 * c := by omega
  simp [Memory.byteAt, writeWord_lookup, h3, h2, h1, h0]

theorem bytes_append (v : Word) :
    (v.extractLsb' 24 8 ++ (v.extractLsb' 16 8 ++ (v.extractLsb' 8 8 ++ v.extractLsb' 0 8)) : Word) = v := by
  apply BitVec.eq_of_getLsbD_eq
  intro i hi
  simp only [BitVec.getLsbD_append, BitVec.getLsbD_extractLsb']
  interval_cases i <;> simp

/-- A cell reads back as written. -/
theorem readWord_writeWord_self (m : Memory) (free : Nat → Byte) (c : Nat) (v : Word) :
    (m.writeWord c v).readWord free c = v := by
  simp only [Memory.readWord, Memory.byteAt, writeWord_lookup]
  simpa using bytes_append v

/-- Every other cell reads as before. -/
theorem readWord_writeWord_ne (m : Memory) (free : Nat → Byte) {c d : Nat} (v : Word) (hd : d ≠ c) :
    (m.writeWord c v).readWord free d = m.readWord free d := by
  simp only [Memory.readWord]
  rw [writeWord_byteAt_ne m free c v (b := 4 * d + 3) (by omega), writeWord_byteAt_ne m free c v (b := 4 * d + 2) (by omega),
    writeWord_byteAt_ne m free c v (b := 4 * d + 1) (by omega), writeWord_byteAt_ne m free c v (b := 4 * d) (by omega)]

/-- The addresses listed after a write of a cell. -/
theorem writeWord_mem_keys (m : Memory) (c k : Nat) (v : Word) (hk : k ∈ (m.writeWord c v).cells.map Prod.fst) :
    k / 4 = c ∨ k ∈ m.cells.map Prod.fst := by
  simp only [Memory.writeWord, Memory.put] at hk
  rcases putCell_mem_keys _ _ _ _ hk with h | h
  · left; omega
  rcases putCell_mem_keys _ _ _ _ h with h | h
  · left; omega
  rcases putCell_mem_keys _ _ _ _ h with h | h
  · left; omega
  rcases putCell_mem_keys _ _ _ _ h with h | h
  · left; omega
  exact Or.inr h

/-! ### Writing a run of cells -/

/-- What a fold of cell writes does: it keeps the canonical form, every byte outside the written cells, and lists nothing else.
`at'` gives the cell of the n-th write and `val` its value, which may depend on the memory so far. -/
theorem foldl_writeWord_wf {α : Type} (l : List α) (f : Memory → α → Memory) (m : Memory) (h : m.wf)
    (hf : ∀ m x, m.wf → (f m x).wf) : (l.foldl f m).wf := by
  induction l generalizing m with
  | nil => exact h
  | cons x rest ih => exact ih (f m x) (hf m x h)

/-- A cell is written: all four of its bytes are listed (10_state R41). -/
def cellWritten (m : Memory) (c : Nat) : Prop := ∀ j < 4, (m.lookup (4 * c + j)).isSome

theorem cellWritten_writeWord_self (m : Memory) (c : Nat) (v : Word) : cellWritten (m.writeWord c v) c := by
  intro j hj
  rw [writeWord_lookup]
  interval_cases j <;> simp

theorem cellWritten_writeWord (m : Memory) (c d : Nat) (v : Word) (hd : cellWritten m d) :
    cellWritten (m.writeWord c v) d := by
  intro j hj
  rw [writeWord_lookup]
  repeat' split
  all_goals first | rfl | exact hd j hj

/-- A written cell reads the same whatever the free contents are. -/
theorem readWord_of_cellWritten {m : Memory} {c : Nat} (h : cellWritten m c) (f g : Nat → Byte) :
    m.readWord f c = m.readWord g c := by
  have e : ∀ j < 4, m.byteAt f (4 * c + j) = m.byteAt g (4 * c + j) := by
    intro j hj
    obtain ⟨x, hx⟩ := Option.isSome_iff_exists.mp (h j hj)
    simp [Memory.byteAt, hx]
  simp only [Memory.readWord, e 3 (by decide), e 2 (by decide), e 1 (by decide)]
  rw [show m.byteAt f (4 * c) = m.byteAt g (4 * c) from e 0 (by decide)]

theorem byte_of_writeWord (m : Memory) (free : Nat → Byte) (c : Nat) (v : Word) (j : Fin 4) :
    (m.writeWord c v).byteAt free (4 * c + j.val) = v.extractLsb' (8 * j.val) 8 := by
  simp only [Memory.byteAt, writeWord_lookup]
  match j with
  | 0 => simp
  | 1 => simp
  | 2 => simp
  | 3 => simp

/-- A run of `n` cells from cell `base` on, each written once, in order: the values may depend on the memory so far (`f`), as
long as each step writes one cell. -/
theorem range_writes (f : Memory → Nat → Memory) (val : Memory → Nat → Word) (base : Nat)
    (hf : ∀ m i, f m i = m.writeWord (base + i) (val m i)) (free : Nat → Byte) (n : Nat) (m : Memory) :
    (∀ i < n, ((List.range n).foldl f m).readWord free (base + i) = val ((List.range i).foldl f m) i) ∧
      (∀ c, (c < base ∨ base + n ≤ c) → ((List.range n).foldl f m).readWord free c = m.readWord free c) ∧
      ∀ a, (∀ i < n, a / 4 ≠ base + i) → ((List.range n).foldl f m).byteAt free a = m.byteAt free a := by
  induction n with
  | zero => exact ⟨fun i hi => absurd hi (Nat.not_lt_zero i), fun c _ => rfl, fun a _ => rfl⟩
  | succ n ih =>
    obtain ⟨h1, h2, h3⟩ := ih
    simp only [List.range_succ, List.foldl_append, List.foldl_cons, List.foldl_nil, hf]
    refine ⟨?_, ?_, ?_⟩
    · intro i hi
      rcases Nat.lt_or_ge i n with h | h
      · rw [readWord_writeWord_ne _ _ _ (by omega), h1 i h]
      · have e : i = n := by omega
        subst e
        rw [readWord_writeWord_self]
    · intro c hc
      rw [readWord_writeWord_ne _ _ _ (by omega), h2 c (by omega)]
    · intro a ha
      rw [writeWord_byteAt_ne _ _ _ _ (ha n (by omega)), h3 a (fun i hi => ha i (by omega))]

end Sys2Proof.Laws
end

