-- ==== Sys2Proof/Laws/Chain.lean ====
section
/-! SUPPORT. The coefficient scheduler on one chain (43_chain R192): what SetCut leaves when every staged block is finite, and
when one is not; the staging blocks a cut design leaves; a delay pair that a bypassed slot keeps. -/

namespace Sys2Proof.Laws

open Machine

/-! ### Vectors written one entry at a time -/

theorem getElem_set_fin {α : Type} {n : Nat} (v : Vector α n) (i j : Fin n) (x : α) :
    (v.set i x)[j] = if j = i then x else v[j] := by
  rw [Fin.getElem_fin, Vector.getElem_set]
  by_cases h : j = i
  · subst h; simp
  · have h2 : ¬ i.val = j.val := fun e => h (Fin.ext e.symm)
    rw [if_neg h, if_neg h2]; rfl

theorem foldl_set_own {α ι : Type} [DecidableEq ι] {n : Nat} (f : ι → Fin n) (hf : ∀ i j, f i = f j → i = j) (g : ι → α)
    (l : List ι) (v : Vector α n) (i : ι) :
    (l.foldl (fun v j => v.set (f j) (g j)) v)[f i] = if i ∈ l then g i else v[f i] := by
  induction l generalizing v with
  | nil => simp
  | cons j l ih =>
    rw [List.foldl_cons, ih, getElem_set_fin]
    by_cases h1 : i ∈ l
    · simp [h1]
    · by_cases h2 : i = j
      · subst h2; simp [h1]
      · have h3 : f i ≠ f j := fun e => h2 (hf _ _ e)
        simp [h1, h2, h3]

theorem foldl_set_other {α ι : Type} {n : Nat} (f : ι → Fin n) (g : ι → α) (l : List ι) (v : Vector α n) (b : Fin n)
    (hb : ∀ i, b ≠ f i) : (l.foldl (fun v j => v.set (f j) (g j)) v)[b] = v[b] := by
  induction l generalizing v with
  | nil => rfl
  | cons j l ih => rw [List.foldl_cons, ih, getElem_set_fin, if_neg (hb j)]

theorem cutSlot_inj (side : Side) (i j : Fin 4) (h : cutSlot side i = cutSlot side j) : i = j := by
  cases side <;> simp [cutSlot, Fin.ext_iff] at h <;> exact Fin.ext h

theorem cutFlag_inj (side : Side) (i j : Fin 4) (h : cutFlag side i = cutFlag side j) : i = j := by
  cases side <;> simp [cutFlag, Fin.ext_iff] at h <;> exact Fin.ext h

theorem mem_stagesUpTo (k i : Fin 4) : i ∈ stagesUpTo k ↔ i ≤ k := by revert k i; decide

theorem mem_all_stages (i : Fin 4) : i ∈ ([0, 1, 2, 3] : List (Fin 4)) := by revert i; decide

theorem peakSlot_ne_cutSlot (side : Side) (i : Fin 4) : peakSlot ≠ cutSlot side i := by cases side <;> revert i <;> decide

theorem cutSlot_ne_of_side (i j : Fin 4) : cutSlot .low i ≠ cutSlot .high j := by revert i j; decide

theorem cutFlag_ne_of_side (i j : Fin 4) : cutFlag .low i ≠ cutFlag .high j := by revert i j; decide

/-- One chain replaced, the other as before (43_chain R190). -/
theorem chain_setChain (s : State) (ch c : Fin 2) (v : Chain) :
    (s.setChain ch v).chain c = if c = ch then v else s.chain c := by
  unfold State.setChain State.chain State.setChains
  exact getElem_set_fin _ _ _ _

/-! ### Flags -/

theorem setFlags_own (side : Side) (b : Bool) (l : List (Fin 4)) (byp : Vector Bool 8) (i : Fin 4) :
    (setFlags side b l byp)[cutFlag side i] = if i ∈ l then b else byp[cutFlag side i] :=
  foldl_set_own (cutFlag side) (cutFlag_inj side) (fun _ => b) l byp i

theorem setFlags_other (side : Side) (b : Bool) (l : List (Fin 4)) (byp : Vector Bool 8) (k : Fin 8)
    (h : ∀ i, k ≠ cutFlag side i) : (setFlags side b l byp)[k] = byp[k] :=
  foldl_set_other (cutFlag side) (fun _ => b) l byp k h

/-! ### SetCut -/

/-- The blocks of a chain with the staged blocks of the listed stages assigned. -/
def assignStages (stg : Vector Block 9) (side : Side) (l : List (Fin 4)) (coef : Vector Block 9) : Vector Block 9 :=
  l.foldl (fun v i => v.set (cutSlot side i) stg[cutSlot side i]) coef

theorem assignStages_own (stg : Vector Block 9) (side : Side) (l : List (Fin 4)) (coef : Vector Block 9) (i : Fin 4) :
    (assignStages stg side l coef)[cutSlot side i] = if i ∈ l then stg[cutSlot side i] else coef[cutSlot side i] :=
  foldl_set_own (cutSlot side) (cutSlot_inj side) (fun i => stg[cutSlot side i]) l coef i

theorem assignStages_other (stg : Vector Block 9) (side : Side) (l : List (Fin 4)) (coef : Vector Block 9) (b : Fin 9)
    (h : ∀ i, b ≠ cutSlot side i) : (assignStages stg side l coef)[b] = coef[b] :=
  foldl_set_other (cutSlot side) (fun i => stg[cutSlot side i]) l coef b h

theorem fillStages_finite (stg : Vector Block 9) (side : Side) (l : List (Fin 4)) (c : Chain)
    (h : ∀ i ∈ l, stg[cutSlot side i].allFinite = true) :
    fillStages stg side l c = (true, { c with coef := assignStages stg side l c.coef }) := by
  induction l generalizing c with
  | nil => rfl
  | cons i l ih =>
    rw [fillStages, if_pos (h i (by simp)), ih _ (fun j hj => h j (by simp [hj]))]
    rfl

theorem fillStages_stops (stg : Vector Block 9) (side : Side) (l r : List (Fin 4)) (j : Fin 4) (c : Chain)
    (h : ∀ i ∈ l, stg[cutSlot side i].allFinite = true) (hj : stg[cutSlot side j].allFinite = false) :
    fillStages stg side (l ++ j :: r) c = (false, { c with coef := assignStages stg side l c.coef }) := by
  induction l generalizing c with
  | nil => rw [List.nil_append, fillStages, if_neg (by rw [hj]; exact Bool.false_ne_true)]; rfl
  | cons i l ih =>
    rw [List.cons_append, fillStages, if_pos (h i (by simp)), ih _ (fun j hj => h j (by simp [hj]))]
    rfl

/-- SetCut with every staged block it assigns finite. -/
theorem setCut_finite (stg : Vector Block 9) (side : Side) (k : Fin 4) (c : Chain)
    (h : ∀ i ≤ k, stg[cutSlot side i].allFinite = true) :
    setCut stg side k c = (true,
      { coef := assignStages stg side (stagesUpTo k) c.coef, z := c.z
        byp := setFlags side false (stagesUpTo k) (setFlags side true [0, 1, 2, 3] c.byp) }) := by
  unfold setCut
  rw [fillStages_finite _ _ _ _ (fun i hi => h i ((mem_stagesUpTo k i).mp hi))]
  rfl

/-- The stages before stage `j`. -/
def stagesBelow (j : Fin 4) : List (Fin 4) := ([0, 1, 2, 3] : List (Fin 4)).take j.val

theorem mem_stagesBelow (j i : Fin 4) : i ∈ stagesBelow j ↔ i < j := by revert j i; decide

theorem stagesUpTo_split (k j : Fin 4) (h : j ≤ k) : ∃ r, stagesUpTo k = stagesBelow j ++ j :: r := by
  have : ∀ k j : Fin 4, j ≤ k → stagesUpTo k = stagesBelow j ++ j :: (stagesUpTo k).drop (j.val + 1) := by decide
  exact ⟨_, this k j h⟩

/-- SetCut that meets its first non-finite block at stage `j`. -/
theorem setCut_stops (stg : Vector Block 9) (side : Side) (k j : Fin 4) (c : Chain) (hjk : j ≤ k)
    (h : ∀ i < j, stg[cutSlot side i].allFinite = true) (hj : stg[cutSlot side j].allFinite = false) :
    setCut stg side k c = (false,
      { coef := assignStages stg side (stagesBelow j) c.coef, z := c.z, byp := setFlags side true [0, 1, 2, 3] c.byp }) := by
  obtain ⟨r, hr⟩ := stagesUpTo_split k j hjk
  unfold setCut
  rw [hr, fillStages_stops _ _ _ _ _ _ (fun i hi => h i ((mem_stagesBelow j i).mp hi)) hj]
  rfl

/-- A slope ordinal, all staged blocks finite up to it or a first one that is not. -/
theorem first_nonfinite (stg : Vector Block 9) (side : Side) (k : Fin 4) :
    (∀ i ≤ k, stg[cutSlot side i].allFinite = true) ∨
      ∃ j ≤ k, stg[cutSlot side j].allFinite = false ∧ ∀ i < j, stg[cutSlot side i].allFinite = true := by
  have key : ∀ (p : Fin 4 → Bool) (k : Fin 4), (∀ i ≤ k, p i = true) ∨ ∃ j ≤ k, p j = false ∧ ∀ i < j, p i = true := by
    decide +kernel
  exact key (fun i => stg[cutSlot side i].allFinite) k

/-- SetCut writes neither Z nor anything of the other side, whatever it meets. -/
theorem setCut_frame (stg : Vector Block 9) (side : Side) (k : Fin 4) (c : Chain) :
    (setCut stg side k c).2.z = c.z ∧ (∀ b, (∀ i, b ≠ cutSlot side i) → (setCut stg side k c).2.coef[b] = c.coef[b]) ∧
      ∀ f, (∀ i, f ≠ cutFlag side i) → (setCut stg side k c).2.byp[f] = c.byp[f] := by
  rcases first_nonfinite stg side k with h | ⟨j, hjk, hj, h⟩
  · rw [setCut_finite _ _ _ _ h]
    exact ⟨rfl, fun b hb => assignStages_other _ _ _ _ _ hb,
      fun f hf => by rw [setFlags_other _ _ _ _ _ hf, setFlags_other _ _ _ _ _ hf]⟩
  · rw [setCut_stops _ _ _ _ _ hjk h hj]
    exact ⟨rfl, fun b hb => assignStages_other _ _ _ _ _ hb, fun f hf => setFlags_other _ _ _ _ _ hf⟩

/-! ### Staging -/

theorem stageCut_eq (stg : Vector Block 9) (side : Side) (k : Fin 4) (g : Fin 4 → Block) :
    stageCut stg side ((stagesUpTo k).map g) = (stagesUpTo k).foldl (fun v i => v.set (cutSlot side i) (g i)) stg := by
  match k with
  | 0 => rfl
  | 1 => rfl
  | 2 => rfl
  | 3 => rfl

theorem cutOf_eq (v : Settings) (fs : Word) (side : Side) :
    cutOf v fs side = (stagesUpTo (v.cutSlope side)).map (cutDesign v fs side) := rfl

theorem stageCut_own (stg : Vector Block 9) (v : Settings) (fs : Word) (side : Side) (i : Fin 4) :
    (stageCut stg side (cutOf v fs side))[cutSlot side i] =
      if i ≤ v.cutSlope side then cutDesign v fs side i else stg[cutSlot side i] := by
  rw [cutOf_eq, stageCut_eq, foldl_set_own _ (cutSlot_inj side)]
  simp only [mem_stagesUpTo]

theorem stageCut_other (stg : Vector Block 9) (v : Settings) (fs : Word) (side : Side) (b : Fin 9)
    (h : ∀ i, b ≠ cutSlot side i) : (stageCut stg side (cutOf v fs side))[b] = stg[b] := by
  rw [cutOf_eq, stageCut_eq, foldl_set_other _ _ _ _ _ h]

theorem cutDesign_finite {v : Settings} {fs : Word} {side : Side} (h : (cutOf v fs side).all Block.allFinite = true)
    (i : Fin 4) (hi : i ≤ v.cutSlope side) : (cutDesign v fs side i).allFinite = true := by
  rw [List.all_eq_true] at h
  exact h _ (by rw [cutOf_eq]; exact List.mem_map_of_mem ((mem_stagesUpTo _ _).mpr hi))

/-! ### The state update -/

/-- What a sample run carries after `n` samples, when the samples are the values `x`. -/
def laneAfter (c : Chain) (x : Nat → Word) (z : Vector Delay 9) (draws : Nat) : Nat → Lane
  | 0 => { v := F32.zero, z := z, draws := draws }
  | n + 1 => runSample c { v := x n, z := (laneAfter c x z draws n).z, draws := (laneAfter c x z draws n).draws }

/-- PROC's loop: sample `n` is replaced by what the chain makes of it, every other byte is as before (43_chain R196). -/
theorem procSamples_spec (c : Chain) (free : Nat → Byte) (ch : Fin 2) (n : Nat) (r : Run) :
    let x := fun i => r.smp.readWord free (smpCell ch i)
    let r' := procSamples c free ch n r
    r'.z = (laneAfter c x r.z r.draws n).z ∧ r'.draws = (laneAfter c x r.z r.draws n).draws ∧
      (∀ i < n, r'.smp.readWord free (smpCell ch i) = (laneAfter c x r.z r.draws (i + 1)).v) ∧
      (∀ d, (∀ i < n, d ≠ smpCell ch i) → r'.smp.readWord free d = r.smp.readWord free d) ∧
      ∀ a, (∀ i < n, a / 4 ≠ smpCell ch i) → r'.smp.byteAt free a = r.smp.byteAt free a := by
  induction n with
  | zero =>
    exact ⟨rfl, rfl, fun i hi => absurd hi (Nat.not_lt_zero i), fun d _ => rfl, fun a _ => rfl⟩
  | succ n ih =>
    obtain ⟨h1, h2, h3, h4, h5⟩ := ih
    have hx : (procSamples c free ch n r).smp.readWord free (smpCell ch n) = r.smp.readWord free (smpCell ch n) :=
      h4 _ (fun i hi => by unfold smpCell; omega)
    have hs : procSamples c free ch (n + 1) r = procSample c free ch (procSamples c free ch n r) n := by
      simp [procSamples, List.range_succ]
    have hl : procSample c free ch (procSamples c free ch n r) n =
        { smp := (procSamples c free ch n r).smp.writeWord (smpCell ch n)
            (laneAfter c (fun i => r.smp.readWord free (smpCell ch i)) r.z r.draws (n + 1)).v
          z := (laneAfter c (fun i => r.smp.readWord free (smpCell ch i)) r.z r.draws (n + 1)).z
          draws := (laneAfter c (fun i => r.smp.readWord free (smpCell ch i)) r.z r.draws (n + 1)).draws } := by
      simp only [procSample, laneAfter, hx, h1, h2]
    simp only [hs, hl, true_and]
    refine ⟨?_, ?_, ?_⟩
    · intro i hi
      rcases Nat.lt_or_ge i n with h | h
      · rw [readWord_writeWord_ne _ _ _ (by unfold smpCell; omega), h3 i h]
      · have e : i = n := by omega
        subst e
        rw [readWord_writeWord_self]
    · intro d hd
      rw [readWord_writeWord_ne _ _ _ (hd n (by omega)), h4 d (fun i hi => hd i (by omega))]
    · intro a ha
      rw [writeWord_byteAt_ne _ _ _ _ (ha n (by omega)), h5 a (fun i hi => ha i (by omega))]

/-- A bypassed slot keeps its delay pair through a sample (43_chain R199). -/
theorem runSlot_frozen (c : Chain) (l : Lane) (s b : Fin 9) (hb : bypassed c.byp b = true) : (runSlot c l s).z[b] = l.z[b] := by
  unfold runSlot
  split
  · rfl
  · rename_i h
    have hne : b ≠ s := fun e => h (e ▸ hb)
    simp only [getElem_set_fin, if_neg hne]

theorem runSample_frozen (c : Chain) (l : Lane) (b : Fin 9) (hb : bypassed c.byp b = true) : (runSample c l).z[b] = l.z[b] := by
  unfold runSample
  generalize slotsInOrder = ss
  induction ss generalizing l with
  | nil => rfl
  | cons s rest ih => rw [List.foldl_cons, ih, runSlot_frozen c l s b hb]

theorem laneAfter_frozen (c : Chain) (x : Nat → Word) (z : Vector Delay 9) (d n : Nat) (b : Fin 9)
    (hb : bypassed c.byp b = true) : (laneAfter c x z d n).z[b] = z[b] := by
  induction n with
  | zero => rfl
  | succ n ih => rw [laneAfter, runSample_frozen c _ b hb]; exact ih

/-- A chain's delay words play no part in what its slots do to a lane. -/
theorem runSlot_congr {c c' : Chain} (h1 : c.coef = c'.coef) (h2 : c.byp = c'.byp) (l : Lane) (s : Fin 9) :
    runSlot c l s = runSlot c' l s := by
  unfold runSlot; rw [h1, h2]

theorem runSample_congr {c c' : Chain} (h1 : c.coef = c'.coef) (h2 : c.byp = c'.byp) (l : Lane) :
    runSample c l = runSample c' l := by
  unfold runSample; congr 1; funext l s; exact runSlot_congr h1 h2 l s

/-- Everything PROC's loop does, in terms of its lanes (43_chain R196, R198): the samples and delay words of its channel; the
other chain and every sample of the other channel are as before. -/
theorem runChannel_lane (ch : Fin 2) {n : Nat} (hn : n ≤ 65536) (s : State) :
    let lane := laneAfter (s.chain ch) (fun i => s.readSmp ch i) (s.chain ch).z s.draws
    let t := runChannel ch n s
    t.draws = (lane n).draws ∧ (t.chain ch).z = (lane n).z ∧ (∀ i < n, t.readSmp ch i = (lane (i + 1)).v) ∧
      ∀ c, c ≠ ch → t.chain c = s.chain c ∧ ∀ i < 65536, t.readSmp c i = s.readSmp c i := by
  obtain ⟨h1, h2, h3, h4, -⟩ := procSamples_spec (s.chain ch) (Config.unwrittenSmp s.epoch) ch n
    { smp := s.smp, z := (s.chain ch).z, draws := s.draws }
  have hc := fun c => chain_setChain s ch c { s.chain ch with
    z := (procSamples (s.chain ch) (Config.unwrittenSmp s.epoch) ch n { smp := s.smp, z := (s.chain ch).z, draws := s.draws }).z }
  refine ⟨h2, (congrArg Chain.z ((hc ch).trans (if_pos rfl))).trans h1, h3, fun c hcc => ⟨(hc c).trans (if_neg hcc), fun i hi => ?_⟩⟩
  refine h4 _ fun j hj => ?_
  have : c.val ≠ ch.val := fun e => hcc (Fin.ext e)
  unfold smpCell; omega

/-- What CLRCH's loop leaves in any cell (43_chain R201). -/
theorem clearSamples_read (ch : Fin 2) (n : Nat) (free : Nat → Byte) (m : Memory) :
    (∀ i < n, (clearSamples ch n m).readWord free (smpCell ch i) = F32.zero) ∧
      ∀ d, (∀ i < n, d ≠ smpCell ch i) → (clearSamples ch n m).readWord free d = m.readWord free d := by
  have h := range_writes (fun m n => m.writeWord (smpCell ch n) F32.zero) (fun _ _ => F32.zero) (smpCell ch 0)
    (fun m i => by simp [smpCell]) free n m
  refine ⟨fun i hi => by simpa [smpCell, clearSamples] using h.1 i hi, fun d hd => h.2.1 d ?_⟩
  by_contra hc
  exact hd (d - smpCell ch 0) (by omega) (by unfold smpCell at *; omega)

end Sys2Proof.Laws
end

