-- ==== Sys2Proof/Laws/Float32.lean ====
section
/-! SUPPORT. Rounding and the four operations: rounding is monotone, exact on what is representable, and close; each operation's
magnitude is one rounding; bounds of a result from bounds of its operands. -/

namespace Sys2Proof.Laws

open Machine.F32

/-! ### Rounding to an integer -/

theorem roundEven_mono {a b c d : Nat} (hb : 0 < b) (hd : 0 < d) (h : a * d ≤ c * b) : roundEven a b ≤ roundEven c d := by
  have hn : a / b ≤ c / d := by
    rw [Nat.le_div_iff_mul_le hd]
    have h1 : a / b * b ≤ a := Nat.div_mul_le_self a b
    have h2 : a / b * d * b ≤ c * b := by
      calc a / b * d * b = a / b * b * d := by ring
        _ ≤ a * d := Nat.mul_le_mul_right d h1
        _ ≤ c * b := h
    exact Nat.le_of_mul_le_mul_right h2 hb
  rcases Nat.lt_or_ge (a / b) (c / d) with hlt | hge
  · have h1 : roundEven a b ≤ a / b + 1 := by unfold roundEven; split <;> omega
    have h2 : c / d ≤ roundEven c d := by unfold roundEven; split <;> omega
    omega
  · have he : a / b = c / d := le_antisymm hn hge
    have hr : (a % b) * d ≤ (c % d) * b := by
      have h1 := Nat.div_add_mod a b
      have h2 := Nat.div_add_mod c d
      have e1 : a * d = b * d * (a / b) + (a % b) * d := by
        calc a * d = (b * (a / b) + a % b) * d := by rw [h1]
          _ = _ := by ring
      have e2 : c * b = b * d * (a / b) + (c % d) * b := by
        calc c * b = (d * (c / d) + c % d) * b := by rw [h2]
          _ = _ := by rw [he]; ring
      omega
    unfold roundEven
    rw [← he]
    split
    · rename_i hc
      rw [if_pos]
      rcases hc with hc | ⟨hc, ho⟩
      · left
        have h3 : d * b < 2 * (c % d) * b := by
          calc d * b = b * d := by ring
            _ < 2 * (a % b) * d := Nat.mul_lt_mul_of_pos_right hc hd
            _ = 2 * ((a % b) * d) := by ring
            _ ≤ 2 * ((c % d) * b) := Nat.mul_le_mul_left 2 hr
            _ = 2 * (c % d) * b := by ring
        exact Nat.lt_of_mul_lt_mul_right h3
      · have h3 : d * b ≤ 2 * (c % d) * b := by
          calc d * b = b * d := by ring
            _ = 2 * (a % b) * d := by rw [hc]
            _ = 2 * ((a % b) * d) := by ring
            _ ≤ 2 * ((c % d) * b) := Nat.mul_le_mul_left 2 hr
            _ = 2 * (c % d) * b := by ring
        have h4 : d ≤ 2 * (c % d) := Nat.le_of_mul_le_mul_right h3 hb
        rcases Nat.lt_or_ge d (2 * (c % d)) with h5 | h5
        · exact Or.inl h5
        · exact Or.inr ⟨le_antisymm h5 h4, ho⟩
    · split <;> omega

theorem roundEven_le (a b : Nat) : 2 * (b * roundEven a b) ≤ 2 * a + b := by
  have h1 := Nat.div_add_mod a b
  unfold roundEven
  split
  · rename_i hc
    have : 2 * (b * (a / b + 1)) = 2 * (b * (a / b)) + 2 * b := by ring
    omega
  · omega

theorem le_roundEven (a b : Nat) (hb : 0 < b) : 2 * a ≤ 2 * (b * roundEven a b) + b := by
  have h1 := Nat.div_add_mod a b
  have h2 := Nat.mod_lt a hb
  unfold roundEven
  split
  · have : 2 * (b * (a / b + 1)) = 2 * (b * (a / b)) + 2 * b := by ring
    omega
  · omega

theorem roundEven_mul_self (n b : Nat) (hb : 0 < b) : roundEven (n * b) b = n := by
  unfold roundEven
  rw [Nat.mul_mod_left, Nat.mul_div_cancel _ hb]
  split
  · omega
  · rfl

/-! ### Rounding to magnitude bits -/

/-- The exponent of the quantum. -/
theorem shift_spec (k : Nat) : (k.log2 - 23 = 0 ∧ k < 2 ^ 24) ∨
    (0 < k.log2 - 23 ∧ 2 ^ 23 * 2 ^ (k.log2 - 23) ≤ k ∧ k < 2 ^ 24 * 2 ^ (k.log2 - 23)) := by
  rcases Nat.lt_or_ge k (2 ^ 24) with h | h
  · left
    refine ⟨?_, h⟩
    rcases Nat.eq_zero_or_pos k with h0 | h0
    · subst h0; decide
    · have := (Nat.log2_lt (by omega)).mpr h
      omega
  · right
    have hk : k ≠ 0 := by have : 0 < 2 ^ 24 := by norm_num
                          omega
    have h24 : 24 ≤ k.log2 := (Nat.le_log2 hk).mpr h
    have hlo : 2 ^ k.log2 ≤ k := Nat.log2_self_le hk
    have hhi : k < 2 ^ (k.log2 + 1) := Nat.lt_log2_self
    have e1 : 2 ^ k.log2 = 2 ^ 23 * 2 ^ (k.log2 - 23) := by rw [← pow_add]; congr 1; omega
    have e2 : 2 ^ (k.log2 + 1) = 2 ^ 24 * 2 ^ (k.log2 - 23) := by rw [← pow_add]; congr 1; omega
    rw [e1] at hlo
    rw [e2] at hhi
    exact ⟨by omega, hlo, hhi⟩

theorem roundBits_eq (num den : Nat) : roundBits num den =
    min (((num / den).log2 - 23) * 2 ^ 23 + roundEven num (den * 2 ^ ((num / den).log2 - 23))) infBits := rfl

theorem roundEven_lt_bound (num den : Nat) :
    roundEven num (den * 2 ^ ((num / den).log2 - 23)) ≤ 2 ^ 24 := by
  have hlt : num / (den * 2 ^ ((num / den).log2 - 23)) < 2 ^ 24 := by
    rw [← Nat.div_div_eq_div_mul, Nat.div_lt_iff_lt_mul (by positivity)]
    rcases shift_spec (num / den) with ⟨h0, h⟩ | ⟨_, _, h⟩
    · rw [h0]; simpa using h
    · exact h
  unfold roundEven
  split <;> omega

theorem roundEven_ge_bound (num den : Nat) (hs : 0 < (num / den).log2 - 23) :
    2 ^ 23 ≤ roundEven num (den * 2 ^ ((num / den).log2 - 23)) := by
  have hge : 2 ^ 23 ≤ num / (den * 2 ^ ((num / den).log2 - 23)) := by
    rw [← Nat.div_div_eq_div_mul, Nat.le_div_iff_mul_le (by positivity)]
    rcases shift_spec (num / den) with ⟨h0, _⟩ | ⟨_, h, _⟩
    · omega
    · exact h
  unfold roundEven
  split <;> omega

theorem roundBits_le_inf (num den : Nat) : roundBits num den ≤ infBits := by
  rw [roundBits_eq]; exact min_le_right _ _

/-- Rounding is monotone. -/
theorem roundBits_mono {a b c d : Nat} (hb : 0 < b) (hd : 0 < d) (h : a * d ≤ c * b) : roundBits a b ≤ roundBits c d := by
  rw [roundBits_eq, roundBits_eq]
  apply min_le_min_right
  have hk : a / b ≤ c / d := by
    rw [Nat.le_div_iff_mul_le hd]
    have h1 : a / b * b ≤ a := Nat.div_mul_le_self a b
    have h2 : a / b * d * b ≤ c * b := by
      calc a / b * d * b = a / b * b * d := by ring
        _ ≤ a * d := Nat.mul_le_mul_right d h1
        _ ≤ c * b := h
    exact Nat.le_of_mul_le_mul_right h2 hb
  have hlog : (a / b).log2 ≤ (c / d).log2 := by
    rw [Nat.log2_eq_log_two, Nat.log2_eq_log_two]; exact Nat.log_mono_right hk
  rcases Nat.lt_or_ge ((a / b).log2 - 23) ((c / d).log2 - 23) with hlt | hge
  · have h1 := roundEven_lt_bound a b
    have h2 := roundEven_ge_bound c d (by omega)
    have : ((a / b).log2 - 23) + 1 ≤ (c / d).log2 - 23 := hlt
    have h3 : (((a / b).log2 - 23) + 1) * 2 ^ 23 ≤ ((c / d).log2 - 23) * 2 ^ 23 := Nat.mul_le_mul_right _ this
    omega
  · have he : (a / b).log2 - 23 = (c / d).log2 - 23 := by omega
    rw [he]
    apply Nat.add_le_add_left
    apply roundEven_mono (by positivity) (by positivity)
    calc a * (d * 2 ^ ((c / d).log2 - 23)) = a * d * 2 ^ ((c / d).log2 - 23) := by ring
      _ ≤ c * b * 2 ^ ((c / d).log2 - 23) := Nat.mul_le_mul_right _ h
      _ = c * (b * 2 ^ ((c / d).log2 - 23)) := by ring

/-- The magnitude bits `sh * 2^23 + n` stand for `n * 2^sh` units. -/
theorem bitsUnits_compose (sh n : Nat) (hn : n ≤ 2 ^ 24) (h : sh = 0 ∨ 2 ^ 23 ≤ n) :
    bitsUnits (sh * 2 ^ 23 + n) = n * 2 ^ sh := by
  unfold bitsUnits
  rcases Nat.lt_or_ge n (2 ^ 23) with h1 | h1
  · rcases h with h | h
    · subst h
      have e1 : (0 * 2 ^ 23 + n) / 2 ^ 23 = 0 := by omega
      have e2 : (0 * 2 ^ 23 + n) % 2 ^ 23 = n := by omega
      rw [e1, e2, if_pos rfl, pow_zero, Nat.mul_one]
    · omega
  · rcases Nat.lt_or_ge n (2 ^ 24) with h2 | h2
    · have e1 : (sh * 2 ^ 23 + n) / 2 ^ 23 = sh + 1 := by omega
      have e2 : (sh * 2 ^ 23 + n) % 2 ^ 23 = n - 2 ^ 23 := by omega
      rw [e1, e2, if_neg (by omega), Nat.add_sub_cancel, Nat.add_sub_cancel' h1]
    · have hn' : n = 2 ^ 24 := le_antisymm hn h2
      have e1 : (sh * 2 ^ 23 + n) / 2 ^ 23 = sh + 2 := by omega
      have e2 : (sh * 2 ^ 23 + n) % 2 ^ 23 = 0 := by omega
      have e3 : n = (2 ^ 23 + 0) * 2 := hn'
      rw [e1, e2, if_neg (by omega), e3]
      rw [show sh + 2 - 1 = sh + 1 by omega, pow_succ 2 sh, Nat.mul_comm (2 ^ sh) 2, ← Nat.mul_assoc]

/-- What a rounded result stands for, when it is no infinity. -/
theorem bitsUnits_roundBits {num den : Nat} (h : roundBits num den < infBits) :
    bitsUnits (roundBits num den) =
      roundEven num (den * 2 ^ ((num / den).log2 - 23)) * 2 ^ ((num / den).log2 - 23) := by
  rw [roundBits_eq] at h ⊢
  rw [min_eq_left (by omega)]
  apply bitsUnits_compose _ _ (roundEven_lt_bound num den)
  rcases Nat.eq_zero_or_pos ((num / den).log2 - 23) with h0 | h0
  · exact Or.inl h0
  · exact Or.inr (roundEven_ge_bound num den h0)

/-- A result at or above the least normal number exceeds the exact value by at most one part in 2^24. -/
theorem bitsUnits_roundBits_le {num den : Nat} (h : roundBits num den < infBits) (hn : den * 2 ^ 23 ≤ num) :
    bitsUnits (roundBits num den) * den * 2 ^ 24 ≤ num * (2 ^ 24 + 1) := by
  rw [bitsUnits_roundBits h]
  set sh := (num / den).log2 - 23 with hsh
  have h1 := roundEven_le num (den * 2 ^ sh)
  have h2 : den * 2 ^ sh * 2 ^ 23 ≤ num := by
    rcases shift_spec (num / den) with ⟨h0, _⟩ | ⟨_, h3, _⟩
    · rw [hsh, h0]; simpa using hn
    · have : 2 ^ 23 * 2 ^ sh * den ≤ num := by
        calc 2 ^ 23 * 2 ^ sh * den ≤ num / den * den := Nat.mul_le_mul_right den h3
          _ ≤ num := Nat.div_mul_le_self num den
      calc den * 2 ^ sh * 2 ^ 23 = 2 ^ 23 * 2 ^ sh * den := by ring
        _ ≤ num := this
  generalize roundEven num (den * 2 ^ sh) = n at *
  have h4 : 2 * (den * 2 ^ sh * n) * 2 ^ 23 ≤ (2 * num + den * 2 ^ sh) * 2 ^ 23 := Nat.mul_le_mul_right _ h1
  calc n * 2 ^ sh * den * 2 ^ 24 = 2 * (den * 2 ^ sh * n) * 2 ^ 23 := by ring
    _ ≤ (2 * num + den * 2 ^ sh) * 2 ^ 23 := h4
    _ = num * 2 ^ 24 + den * 2 ^ sh * 2 ^ 23 := by generalize den * 2 ^ sh = x; omega
    _ ≤ num * 2 ^ 24 + num := Nat.add_le_add_left h2 _
    _ = num * (2 ^ 24 + 1) := by rw [Nat.mul_add, Nat.mul_one]

theorem bitsUnits_mono {a b : Nat} (h : a ≤ b) : bitsUnits a ≤ bitsUnits b := by
  unfold bitsUnits
  have ha := Nat.mod_lt a (show 0 < 2 ^ 23 by norm_num)
  have hq : a / 2 ^ 23 ≤ b / 2 ^ 23 := Nat.div_le_div_right h
  split
  · split
    · omega
    · rename_i h1 h2
      calc a % 2 ^ 23 ≤ 2 ^ 23 := ha.le
        _ ≤ 2 ^ 23 + b % 2 ^ 23 := Nat.le_add_right _ _
        _ ≤ (2 ^ 23 + b % 2 ^ 23) * 2 ^ (b / 2 ^ 23 - 1) := Nat.le_mul_of_pos_right _ (by positivity)
  · rename_i h1
    rw [if_neg (by omega)]
    rcases Nat.lt_or_ge (a / 2 ^ 23) (b / 2 ^ 23) with hlt | hge
    · have e : 2 ^ (a / 2 ^ 23 - 1) * 2 ≤ 2 ^ (b / 2 ^ 23 - 1) := by
        rw [← pow_succ]
        exact Nat.pow_le_pow_right (by norm_num) (by omega)
      calc (2 ^ 23 + a % 2 ^ 23) * 2 ^ (a / 2 ^ 23 - 1) ≤ (2 ^ 23 * 2) * 2 ^ (a / 2 ^ 23 - 1) :=
            Nat.mul_le_mul_right _ (by omega)
        _ = 2 ^ 23 * (2 ^ (a / 2 ^ 23 - 1) * 2) := by ring
        _ ≤ 2 ^ 23 * 2 ^ (b / 2 ^ 23 - 1) := Nat.mul_le_mul_left _ e
        _ ≤ (2 ^ 23 + b % 2 ^ 23) * 2 ^ (b / 2 ^ 23 - 1) := Nat.mul_le_mul_right _ (by omega)
    · have he : a / 2 ^ 23 = b / 2 ^ 23 := le_antisymm hq hge
      rw [he]
      apply Nat.mul_le_mul_right
      omega

/-- Rounding is exact on what magnitude bits stand for. -/
theorem roundBits_exact {m d : Nat} (hm : m < infBits) (hd : 0 < d) : roundBits (bitsUnits m * d) d = m := by
  have key : ∀ sh n, n < 2 ^ 24 → (sh = 0 ∨ 2 ^ 23 ≤ n) → sh * 2 ^ 23 + n ≤ infBits →
      roundBits (n * 2 ^ sh * d) d = sh * 2 ^ 23 + n := by
    intro sh n hn h hle
    have hk : n * 2 ^ sh * d / d = n * 2 ^ sh := Nat.mul_div_cancel _ hd
    have hs : (n * 2 ^ sh).log2 - 23 = sh := by
      rcases h with h | h
      · subst h
        rcases shift_spec (n * 2 ^ 0) with ⟨h0, _⟩ | ⟨h1, h2, _⟩
        · exact h0
        · exfalso
          have : 2 ^ 1 ≤ 2 ^ ((n * 2 ^ 0).log2 - 23) := Nat.pow_le_pow_right (by norm_num) h1
          have h3 : 2 ^ 23 * 2 ^ 1 ≤ 2 ^ 23 * 2 ^ ((n * 2 ^ 0).log2 - 23) := Nat.mul_le_mul_left _ this
          simp only [pow_zero, mul_one] at h2 h3 hn
          omega
      · have h23 : (n * 2 ^ sh).log2 = 23 + sh := by
          rw [Nat.log2_eq_iff (by positivity)]
          constructor
          · rw [pow_add]; exact Nat.mul_le_mul_right _ h
          · calc n * 2 ^ sh < 2 ^ 24 * 2 ^ sh := Nat.mul_lt_mul_of_pos_right hn (by positivity)
              _ = 2 ^ (23 + sh + 1) := by rw [← pow_add]; congr 1; omega
        omega
    rw [roundBits_eq, hk, hs, show n * 2 ^ sh * d = n * (d * 2 ^ sh) by ring, roundEven_mul_self _ _ (by positivity),
      min_eq_left hle]
  unfold bitsUnits
  have hmod := Nat.mod_lt m (show 0 < 2 ^ 23 by norm_num)
  split
  · rename_i h0
    have := key 0 (m % 2 ^ 23) (by omega) (Or.inl rfl) (by omega)
    simp only [pow_zero, mul_one, zero_mul, zero_add] at this
    rw [this]
    omega
  · rename_i h0
    have e : (m / 2 ^ 23 - 1) * 2 ^ 23 + (2 ^ 23 + m % 2 ^ 23) = m := by omega
    rw [key (m / 2 ^ 23 - 1) (2 ^ 23 + m % 2 ^ 23) (by omega) (Or.inr (by omega)) (by omega), e]

/-! ### Patterns -/

theorem magBits_lt (w : Word) : magBits w < 2 ^ 31 := Nat.mod_lt _ (by norm_num)

theorem magBits_pack (s : Bool) {m : Nat} (h : m < 2 ^ 31) : magBits (pack s m) = m := by
  unfold magBits pack
  rw [BitVec.toNat_ofNat]
  cases s <;> simp <;> omega

theorem sign_eq (w : Word) : sign w = decide (2 ^ 31 ≤ w.toNat) := by
  unfold sign
  rw [BitVec.msb_eq_decide]

theorem sign_pack (s : Bool) {m : Nat} (h : m < 2 ^ 31) : sign (pack s m) = s := by
  rw [sign_eq]
  unfold pack
  rw [BitVec.toNat_ofNat]
  cases s <;> simp <;> omega

theorem pack_sign_magBits (w : Word) : pack (sign w) (magBits w) = w := by
  apply BitVec.eq_of_toNat_eq
  have hw := w.isLt
  unfold pack magBits
  rw [sign_eq, BitVec.toNat_ofNat]
  by_cases h : 2 ^ 31 ≤ w.toNat
  · rw [decide_eq_true h, if_pos rfl]; omega
  · rw [decide_eq_false h, if_neg Bool.false_ne_true]; omega

theorem pack_infBits_lt : infBits < 2 ^ 31 := by decide

@[simp] theorem magBits_pack_round (s : Bool) (n d : Nat) : magBits (pack s (roundBits n d)) = roundBits n d :=
  magBits_pack s (lt_of_le_of_lt (roundBits_le_inf n d) pack_infBits_lt)

@[simp] theorem sign_pack_round (s : Bool) (n d : Nat) : sign (pack s (roundBits n d)) = s :=
  sign_pack s (lt_of_le_of_lt (roundBits_le_inf n d) pack_infBits_lt)

@[simp] theorem magBits_neg (a : Word) : magBits (neg a) = magBits a := by
  unfold magBits neg
  rw [BitVec.toNat_xor, Nat.xor_mod_two_pow]
  exact Nat.xor_zero _

@[simp] theorem sign_neg (a : Word) : sign (neg a) = !sign a := by
  unfold sign neg
  rw [BitVec.msb_xor, show (0x80000000#32).msb = true by decide, Bool.xor_true]

theorem neg_eq_pack (a : Word) : neg a = pack (!sign a) (magBits a) := by
  rw [← pack_sign_magBits (neg a), sign_neg, magBits_neg]

/-! ### Kinds of pattern -/

theorem isFinite_iff {w : Word} : isFinite w = true ↔ magBits w < infBits := by simp [isFinite]

theorem isZero_iff {w : Word} : isZero w = true ↔ magBits w = 0 := by simp [isZero]

theorem isNaN_of_finite {w : Word} (h : isFinite w = true) : isNaN w = false := by
  rw [isFinite_iff] at h; simp [isNaN]; omega

theorem isInf_of_finite {w : Word} (h : isFinite w = true) : isInf w = false := by
  rw [isFinite_iff] at h; simp [isInf]; omega

@[simp] theorem isFinite_neg (a : Word) : isFinite (neg a) = isFinite a := by simp [isFinite]

@[simp] theorem isNaN_neg (a : Word) : isNaN (neg a) = isNaN a := by simp [isNaN]

@[simp] theorem isInf_neg (a : Word) : isInf (neg a) = isInf a := by simp [isInf]

@[simp] theorem units_neg (a : Word) : units (neg a) = units a := by simp [units]

theorem isNaN_of_isZero {w : Word} (h : isZero w = true) : isNaN w = false := by simp [isNaN, isZero_iff.mp h]

theorem isInf_of_isZero {w : Word} (h : isZero w = true) : isInf w = false := by
  simp [isInf, isZero_iff.mp h, infBits]

theorem inOpen_finite {x : Word} {n d : Nat} (h : inOpen x n d = true) : isFinite x = true := by
  simp only [inOpen, Bool.and_eq_true] at h
  exact h.1.1.1

/-- Below zero: a number of sign bit 1 that is no zero. -/
theorem flt_zero_iff {x : Word} : flt x zero = true ↔ isNaN x = false ∧ isZero x = false ∧ sign x = true := by
  have hn : isNaN zero = false := by decide
  have ho : order zero = 0 := by decide
  have hz : isZero x = false ↔ 0 < magBits x := by simp [isZero]
  rw [hz]
  unfold flt
  rw [hn, ho]
  unfold order
  cases sign x <;> simp

theorem bitsUnits_pos {m : Nat} (h : 0 < m) : 0 < bitsUnits m := by
  unfold bitsUnits
  split
  · omega
  · positivity

theorem units_pos {w : Word} (h : 0 < magBits w) : 0 < units w := bitsUnits_pos h

/-! ### The operations on finite operands: one rounding of the exact result -/

theorem fmul_finite {a b : Word} (ha : isFinite a = true) (hb : isFinite b = true) :
    fmul a b = pack (sign a != sign b) (roundBits (units a * units b) (2 ^ 149)) := by
  simp [fmul, isNaN_of_finite ha, isNaN_of_finite hb, isInf_of_finite ha, isInf_of_finite hb]

theorem fdiv_finite {a b : Word} (ha : isFinite a = true) (hb : isFinite b = true) (hz : 0 < magBits b) :
    fdiv a b = pack (sign a != sign b) (roundBits (units a * 2 ^ 149) (units b)) := by
  have hz' : isZero b = false := by simp [isZero]; omega
  simp [fdiv, isNaN_of_finite ha, isNaN_of_finite hb, isInf_of_finite ha, isInf_of_finite hb, hz']

theorem fadd_finite {a b : Word} (ha : isFinite a = true) (hb : isFinite b = true) :
    fadd a b = pack (exactSum a b).1 (roundBits (exactSum a b).2 1) := by
  simp [fadd, isNaN_of_finite ha, isNaN_of_finite hb, isInf_of_finite ha, isInf_of_finite hb]

theorem exactSum_le (a b : Word) : (exactSum a b).2 ≤ units a + units b := by
  unfold exactSum
  split
  · exact le_rfl
  · split
    · exact le_trans (Nat.sub_le _ _) (Nat.le_add_right _ _)
    · split
      · exact le_trans (Nat.sub_le _ _) (Nat.le_add_left _ _)
      · exact Nat.zero_le _

/-! ### Bounds of a result from bounds of its operands

`AtMost h w`: the magnitude bits of `w` are at most `h`. `Pos l h w`: `w` has sign bit 0 and magnitude bits from `l` to `h`.
The bounds are numerals, so each side condition is one evaluation. -/

def AtMost (h : Nat) (w : Word) : Prop := magBits w ≤ h

def Pos (l h : Nat) (w : Word) : Prop := sign w = false ∧ l ≤ magBits w ∧ magBits w ≤ h

theorem Pos.atMost {l h : Nat} {w : Word} (p : Pos l h w) : AtMost h w := p.2.2

theorem AtMost.finite {h : Nat} {w : Word} (p : AtMost h w) (hh : h < infBits) : isFinite w = true :=
  isFinite_iff.mpr (lt_of_le_of_lt p hh)

theorem Pos.finite {l h : Nat} {w : Word} (p : Pos l h w) (hh : h < infBits) : isFinite w = true := p.atMost.finite hh

theorem Pos.weaken {l h l' h' : Nat} {w : Word} (p : Pos l h w) (hl : l' ≤ l) (hh : h ≤ h') : Pos l' h' w :=
  ⟨p.1, le_trans hl p.2.1, le_trans p.2.2 hh⟩

theorem units_le {h : Nat} {w : Word} (p : AtMost h w) : units w ≤ bitsUnits h := bitsUnits_mono p

theorem le_units {l : Nat} {w : Word} (p : l ≤ magBits w) : bitsUnits l ≤ units w := bitsUnits_mono p

theorem AtMost.fmul {x y h : Nat} {a b : Word} (pa : AtMost x a) (pb : AtMost y b) (hx : x < infBits) (hy : y < infBits)
    (hh : roundBits (bitsUnits x * bitsUnits y) (2 ^ 149) ≤ h) : AtMost h (Machine.F32.fmul a b) := by
  unfold AtMost
  rw [fmul_finite (pa.finite hx) (pb.finite hy), magBits_pack_round]
  refine le_trans (roundBits_mono (by positivity) (by positivity) ?_) hh
  exact Nat.mul_le_mul_right _ (Nat.mul_le_mul (units_le pa) (units_le pb))

theorem Pos.fmul {k x l y m h : Nat} {a b : Word} (pa : Pos k x a) (pb : Pos l y b) (hx : x < infBits) (hy : y < infBits)
    (hm : m ≤ roundBits (bitsUnits k * bitsUnits l) (2 ^ 149))
    (hh : roundBits (bitsUnits x * bitsUnits y) (2 ^ 149) ≤ h) : Pos m h (Machine.F32.fmul a b) := by
  refine ⟨?_, ?_, pa.atMost.fmul pb.atMost hx hy hh⟩
  · rw [fmul_finite (pa.finite hx) (pb.finite hy), sign_pack_round, pa.1, pb.1]; rfl
  · rw [fmul_finite (pa.finite hx) (pb.finite hy), magBits_pack_round]
    refine le_trans hm (roundBits_mono (by positivity) (by positivity) ?_)
    exact Nat.mul_le_mul_right _ (Nat.mul_le_mul (le_units pa.2.1) (le_units pb.2.1))

theorem AtMost.fdiv {x l y h : Nat} {a b : Word} (pa : AtMost x a) (pb : Pos l y b) (hx : x < infBits) (hy : y < infBits)
    (hl : 0 < l) (hh : roundBits (bitsUnits x * 2 ^ 149) (bitsUnits l) ≤ h) : AtMost h (Machine.F32.fdiv a b) := by
  have hb : 0 < magBits b := lt_of_lt_of_le hl pb.2.1
  unfold AtMost
  rw [fdiv_finite (pa.finite hx) (pb.finite hy) hb, magBits_pack_round]
  refine le_trans (roundBits_mono (units_pos hb) (bitsUnits_pos hl) ?_) hh
  exact Nat.mul_le_mul (Nat.mul_le_mul_right _ (units_le pa)) (le_units pb.2.1)

theorem Pos.fdiv {k x l y m h : Nat} {a b : Word} (pa : Pos k x a) (pb : Pos l y b) (hx : x < infBits) (hy : y < infBits)
    (hl : 0 < l) (hm : m ≤ roundBits (bitsUnits k * 2 ^ 149) (bitsUnits y))
    (hh : roundBits (bitsUnits x * 2 ^ 149) (bitsUnits l) ≤ h) : Pos m h (Machine.F32.fdiv a b) := by
  have hb : 0 < magBits b := lt_of_lt_of_le hl pb.2.1
  refine ⟨?_, ?_, pa.atMost.fdiv pb hx hy hl hh⟩
  · rw [fdiv_finite (pa.finite hx) (pb.finite hy) hb, sign_pack_round, pa.1, pb.1]; rfl
  · rw [fdiv_finite (pa.finite hx) (pb.finite hy) hb, magBits_pack_round]
    refine le_trans hm (roundBits_mono (bitsUnits_pos (lt_of_lt_of_le hb pb.2.2)) (units_pos hb) ?_)
    exact Nat.mul_le_mul (Nat.mul_le_mul_right _ (le_units pa.2.1)) (units_le pb.atMost)

theorem AtMost.fadd {x y h : Nat} {a b : Word} (pa : AtMost x a) (pb : AtMost y b) (hx : x < infBits) (hy : y < infBits)
    (hh : roundBits (bitsUnits x + bitsUnits y) 1 ≤ h) : AtMost h (Machine.F32.fadd a b) := by
  unfold AtMost
  rw [fadd_finite (pa.finite hx) (pb.finite hy), magBits_pack_round]
  refine le_trans (roundBits_mono Nat.one_pos Nat.one_pos ?_) hh
  exact Nat.mul_le_mul_right _ (le_trans (exactSum_le a b) (Nat.add_le_add (units_le pa) (units_le pb)))

theorem AtMost.neg {x : Nat} {a : Word} (pa : AtMost x a) : AtMost x (Machine.F32.neg a) := by
  unfold AtMost; rw [magBits_neg]; exact pa

theorem AtMost.fsub {x y h : Nat} {a b : Word} (pa : AtMost x a) (pb : AtMost y b) (hx : x < infBits) (hy : y < infBits)
    (hh : roundBits (bitsUnits x + bitsUnits y) 1 ≤ h) : AtMost h (Machine.F32.fsub a b) := pa.fadd pb.neg hx hy hh

theorem Pos.fadd {k x l y m h : Nat} {a b : Word} (pa : Pos k x a) (pb : Pos l y b) (hx : x < infBits) (hy : y < infBits)
    (hm : m ≤ roundBits (bitsUnits k + bitsUnits l) 1)
    (hh : roundBits (bitsUnits x + bitsUnits y) 1 ≤ h) : Pos m h (Machine.F32.fadd a b) := by
  have he : exactSum a b = (false, units a + units b) := by simp [exactSum, pa.1, pb.1]
  refine ⟨?_, ?_, pa.atMost.fadd pb.atMost hx hy hh⟩
  · rw [fadd_finite (pa.finite hx) (pb.finite hy), sign_pack_round, he]
  · rw [fadd_finite (pa.finite hx) (pb.finite hy), magBits_pack_round, he]
    refine le_trans hm (roundBits_mono Nat.one_pos Nat.one_pos ?_)
    exact Nat.mul_le_mul_right _ (Nat.add_le_add (le_units pa.2.1) (le_units pb.2.1))

end Sys2Proof.Laws
end

