-- ==== Sys2Proof/Laws/Reference.lean ====
section
/-! SUPPORT. The real numbers behind binary32: the value of a pattern, the unit in the last place, and what rounding a real
number once leaves (40_numerics R128, R129). -/

namespace Sys2Proof.Laws

open Machine Machine.F32

/-! ### Values -/

theorem abs_val (w : Word) : |val w| = units w / 2 ^ 149 := by
  unfold val
  split <;> simp [abs_div]

theorem val_of_pos {w : Word} (h : sign w = false) : val w = units w / 2 ^ 149 := by simp [val, h]

theorem units_lt_of_finite {w : Word} (h : isFinite w = true) : units w < 2 ^ 128 * 2 ^ 149 := by
  have h1 : magBits w ≤ 0x7F7FFFFF := by have := isFinite_iff.mp h; have : infBits = 0x7F800000 := rfl; omega
  exact lt_of_le_of_lt (bitsUnits_mono h1) (by decide)

theorem abs_val_lt {w : Word} (h : isFinite w = true) : |val w| < 2 ^ 128 := by
  rw [abs_val, div_lt_iff₀ (by positivity)]
  exact_mod_cast units_lt_of_finite h

theorem val_pos {w : Word} (h : flt zero w = true) : 0 < val w := by
  have ho : order zero = 0 := by decide
  simp only [flt, ho, Bool.and_eq_true, decide_eq_true_eq] at h
  have hs : sign w = false := by
    cases hs : sign w with
    | false => rfl
    | true => have := h.2; simp [order, hs] at this; omega
  have hm : 0 < magBits w := by have := h.2; simpa [order, hs] using this
  rw [val_of_pos hs]
  have := units_pos hm
  positivity

theorem val_of_zero {x : Word} (h : isZero x = true) : val x = 0 := by
  have : units x = 0 := by rw [units, isZero_iff.mp h]; decide
  simp [val, this]

/-- A pattern of positive value is no zero and has sign bit 0. -/
theorem kind_of_val_pos {x : Word} (h : 0 < val x) : isZero x = false ∧ sign x = false := by
  constructor
  · cases hz : isZero x with
    | false => rfl
    | true => rw [val_of_zero hz] at h; exact absurd h (lt_irrefl 0)
  · cases hs : sign x with
    | false => rfl
    | true =>
      rw [val, hs, if_pos rfl, neg_div] at h
      exact absurd h (not_lt.mpr (neg_nonpos.mpr (by positivity)))

/-! ### The unit in the last place -/

theorem two_zpow_le {a b : ℤ} (h : a ≤ b) : (2 : ℝ) ^ a ≤ 2 ^ b := zpow_le_zpow_right₀ one_le_two h

theorem le_ulpOf (r : ℝ) : 2 ^ (-149 : ℤ) ≤ ulpOf r := two_zpow_le (le_max_right _ _)

theorem ulpOf_pos (r : ℝ) : 0 < ulpOf r := lt_of_lt_of_le (by positivity) (le_ulpOf r)

theorem ulpOf_le {r : ℝ} (h : r ≠ 0) : ulpOf r ≤ max (|r| / 2 ^ 23) (2 ^ (-149 : ℤ)) := by
  unfold ulpOf
  rcases le_total (Int.log 2 |r| - 23) (-149) with h1 | h1
  · rw [max_eq_right h1]; exact le_max_right _ _
  · rw [max_eq_left h1]
    refine le_trans ?_ (le_max_left _ _)
    rw [zpow_sub₀ two_ne_zero]
    have := Int.zpow_log_le_self (b := 2) one_lt_two (abs_pos.mpr h)
    push_cast at this
    exact div_le_div_of_nonneg_right this (by norm_num)

/-! ### Rounding a real number once -/

theorem realBits_eq (u : ℝ) : realBits u = roundBits (quarters u) 4 := rfl

theorem le_quarters {u : ℝ} (hu : 0 ≤ u) (m : Nat) : 2 * m ≤ quarters u ↔ (m : ℝ) ≤ 2 * u := by
  rw [← Nat.le_floor_iff (by positivity)]
  unfold quarters
  split <;> omega

theorem quarters_le {u : ℝ} (hu : 0 ≤ u) (m : Nat) : quarters u ≤ 2 * m ↔ 2 * u ≤ m := by
  have hf := Nat.floor_le (show 0 ≤ 2 * u by positivity)
  unfold quarters
  split
  · rename_i h
    rw [h, Nat.floor_natCast, Nat.cast_le]
    omega
  · rename_i h
    constructor
    · intro h1
      have h2 : ⌊2 * u⌋₊ + 1 ≤ m := by omega
      have h3 := Nat.lt_floor_add_one (2 * u)
      have : ((⌊2 * u⌋₊ + 1 : ℕ) : ℝ) ≤ m := by exact_mod_cast h2
      push_cast at this
      linarith
    · intro h1
      have h2 : ⌊2 * u⌋₊ ≤ m := by exact_mod_cast hf.trans h1
      rcases h2.eq_or_lt with h3 | h3
      · exact absurd (le_antisymm (by rw [h3]; exact h1) hf) h
      · omega

theorem quarters_mono {u v : ℝ} (hu : 0 ≤ u) (h : u ≤ v) : quarters u ≤ quarters v := by
  have hv := hu.trans h
  rcases Nat.even_or_odd' (quarters u) with ⟨k, hk | hk⟩
  · rw [hk]
    refine (le_quarters hv k).mpr ?_
    have := (le_quarters hu k).mp hk.ge
    linarith
  · by_contra hc
    have h1 : quarters v ≤ 2 * k := by omega
    have := (quarters_le hv k).mp h1
    have h2 : quarters u ≤ 2 * k := (quarters_le hu k).mpr (by linarith)
    omega

theorem realBits_mono {u v : ℝ} (hu : 0 ≤ u) (h : u ≤ v) : realBits u ≤ realBits v := by
  rw [realBits_eq, realBits_eq]
  exact roundBits_mono (by norm_num) (by norm_num) (Nat.mul_le_mul_right _ (quarters_mono hu h))

theorem quarters_natCast (n : Nat) : quarters (n : ℝ) = n * 4 := by
  have h1 : quarters (n : ℝ) ≤ 2 * (2 * n) := (quarters_le (by positivity) _).mpr (by push_cast; rfl)
  have h2 : 2 * (2 * n) ≤ quarters (n : ℝ) := (le_quarters (by positivity) _).mpr (by push_cast; rfl)
  omega

/-- Rounding is exact on numbers. -/
theorem realBits_bitsUnits {m : Nat} (hm : m < infBits) : realBits (bitsUnits m) = m := by
  rw [realBits_eq, quarters_natCast]
  exact roundBits_exact hm (by norm_num)

theorem realBits_le {u : ℝ} {m : Nat} (hu : 0 ≤ u) (hm : m < infBits) (h : u ≤ bitsUnits m) : realBits u ≤ m :=
  (realBits_mono hu h).trans (realBits_bitsUnits hm).le

theorem realBits_finite {u : ℝ} (hu : 0 ≤ u) (h : u < (2 ^ 25 - 1) * 2 ^ 252) : realBits u < infBits := by
  rw [realBits_eq]
  have h1 : quarters u < 2 * (2 * ((2 ^ 25 - 1) * 2 ^ 252)) := by
    by_contra hc
    have := (le_quarters hu _).mp (not_lt.mp hc)
    push_cast at this
    linarith
  have h2 : quarters u ≤ 2 * (2 * ((2 ^ 25 - 1) * 2 ^ 252)) - 1 := by omega
  refine lt_of_le_of_lt (roundBits_mono (by norm_num) (by norm_num) (Nat.mul_le_mul_right 4 h2)) ?_
  decide

theorem realBits_pos {u : ℝ} (h : 1 / 2 < u) : 0 < realBits u := by
  rw [realBits_eq]
  have h1 : ¬ quarters u ≤ 2 * 1 := by
    rw [quarters_le (by linarith)]
    push_cast
    linarith
  have h2 : 3 ≤ quarters u := by omega
  exact lt_of_lt_of_le (by decide) (roundBits_mono (a := 3) (b := 4) (by norm_num) (by norm_num) (Nat.mul_le_mul_right 4 h2))

/-- The exponent of the quantum of `u` units. -/
noncomputable def shiftOf (u : ℝ) : Nat := ⌊u⌋₊.log2 - 23

theorem quarters_div (u : ℝ) (hu : 0 ≤ u) : quarters u / 4 = ⌊u⌋₊ := by
  apply le_antisymm
  · refine Nat.le_floor ?_
    have h1 : 2 * (2 * (quarters u / 4)) ≤ quarters u := by omega
    have := (le_quarters hu _).mp h1
    push_cast at this
    linarith
  · rw [Nat.le_div_iff_mul_le (by norm_num)]
    have h1 := (le_quarters hu (2 * ⌊u⌋₊)).mpr (by push_cast; linarith [Nat.floor_le hu])
    omega

/-- The error of one rounding is at most half a quantum. -/
theorem realBits_error {u : ℝ} (hu : 0 ≤ u) (h : realBits u < infBits) :
    |(bitsUnits (realBits u) : ℝ) - u| ≤ 2 ^ shiftOf u / 2 := by
  have hb := bitsUnits_roundBits (num := quarters u) (den := 4) (by rwa [← realBits_eq])
  rw [quarters_div u hu] at hb
  have h1 := roundEven_le (quarters u) (4 * 2 ^ (⌊u⌋₊.log2 - 23))
  have h2 := le_roundEven (quarters u) (4 * 2 ^ (⌊u⌋₊.log2 - 23)) (by positivity)
  rw [realBits_eq, hb]
  unfold shiftOf
  generalize roundEven (quarters u) (4 * 2 ^ (⌊u⌋₊.log2 - 23)) = n at *
  have hq : (2 : ℝ) ^ (⌊u⌋₊.log2 - 23) = (2 ^ (⌊u⌋₊.log2 - 23) : ℕ) := by push_cast; rfl
  rw [hq]
  generalize 2 ^ (⌊u⌋₊.log2 - 23) = q at *
  have e1 : 2 * (2 * (n * q)) ≤ quarters u + 2 * q := by
    have : 2 * (4 * q * n) = 4 * (2 * (n * q)) := by ring
    omega
  have e2 : quarters u ≤ 2 * (2 * (n * q)) + 2 * q := by
    have : 2 * (4 * q * n) = 4 * (2 * (n * q)) := by ring
    omega
  have e2' : quarters u ≤ 2 * (2 * (n * q) + q) := by omega
  have f2 := (quarters_le hu _).mp e2'
  have f1 : ((2 * (n * q) : ℕ) : ℝ) - q ≤ 2 * u := by
    rcases Nat.lt_or_ge (2 * (n * q)) q with hlt | hge
    · have : ((2 * (n * q) : ℕ) : ℝ) < q := by exact_mod_cast hlt
      linarith
    · have h3 : 2 * (2 * (n * q) - q) ≤ quarters u := by omega
      have := (le_quarters hu _).mp h3
      rw [Nat.cast_sub hge] at this
      exact this
  push_cast at f1 f2 ⊢
  rw [abs_le]
  constructor <;> linarith

/-- The quantum of `r` in units is one unit in its last place. -/
theorem ulpOf_eq {r : ℝ} (h : r ≠ 0) : (2 : ℝ) ^ shiftOf (|r| * 2 ^ 149) = ulpOf r * 2 ^ 149 := by
  have ha := abs_pos.mpr h
  set u := |r| * 2 ^ 149 with hu
  have hlog : Int.log 2 u = Int.log 2 |r| + 149 := by
    have h1 : Int.log 2 |r| + 149 ≤ Int.log 2 u := by
      rw [← Int.zpow_le_iff_le_log one_lt_two (by positivity), zpow_add₀ (by norm_num)]
      have := Int.zpow_log_le_self (b := 2) one_lt_two ha
      push_cast at this ⊢
      rw [hu]
      have e : (2 : ℝ) ^ (149 : ℤ) = 2 ^ 149 := by norm_cast
      rw [e]
      exact mul_le_mul_of_nonneg_right this (by positivity)
    have h2 : Int.log 2 u < Int.log 2 |r| + 1 + 149 := by
      rw [← Int.lt_zpow_iff_log_lt one_lt_two (by positivity), zpow_add₀ (by norm_num)]
      have := Int.lt_zpow_succ_log_self (b := 2) one_lt_two |r|
      push_cast at this ⊢
      rw [hu]
      have e : (2 : ℝ) ^ (149 : ℤ) = 2 ^ 149 := by norm_cast
      rw [e]
      exact mul_lt_mul_of_pos_right this (by positivity)
    omega
  unfold ulpOf shiftOf
  have e : (2 : ℝ) ^ 149 = 2 ^ (149 : ℤ) := by norm_cast
  rw [e, ← zpow_add₀ (by norm_num), ← zpow_natCast]
  congr 1
  rcases lt_or_ge u 1 with h1 | h1
  · have h2 : ⌊u⌋₊ = 0 := Nat.floor_eq_zero.mpr h1
    have h3 : Int.log 2 u < 0 := by
      rw [← Int.lt_zpow_iff_log_lt one_lt_two (by positivity)]
      simpa using h1
    rw [h2]
    simp
    omega
  · rw [Int.log_of_one_le_right _ h1] at hlog
    rw [Nat.log2_eq_log_two]
    omega

theorem magBits_roundReal (z : Bool) (r : ℝ) : magBits (roundReal z r) = realBits (|r| * 2 ^ 149) := by
  unfold roundReal realBits
  exact magBits_pack_round _ _ _

theorem sign_roundReal (z : Bool) {r : ℝ} (h : r ≠ 0) : sign (roundReal z r) = if r < 0 then true else false := by
  unfold roundReal realBits
  rw [sign_pack_round, if_neg h]

/-- A number rounded once is within half a unit in the last place. -/
theorem accurate_roundReal (z : Bool) (r : ℝ) : Accurate (1 / 2) r (roundReal z r) := by
  intro h hr
  have hfin : realBits (|r| * 2 ^ 149) < infBits := by
    apply realBits_finite (by positivity)
    unfold representable at hr
    calc |r| * 2 ^ 149 < (2 ^ 25 - 1) * 2 ^ 103 * 2 ^ 149 := mul_lt_mul_of_pos_right hr (by positivity)
      _ = _ := by ring
  refine ⟨by rw [isFinite_iff, magBits_roundReal]; exact hfin, ?_⟩
  have he := realBits_error (u := |r| * 2 ^ 149) (by positivity) hfin
  rw [ulpOf_eq h] at he
  have hu : units (roundReal z r) = bitsUnits (realBits (|r| * 2 ^ 149)) := by rw [units, magBits_roundReal]
  have hv : |val (roundReal z r) - r| = |(bitsUnits (realBits (|r| * 2 ^ 149)) : ℝ) - |r| * 2 ^ 149| / 2 ^ 149 := by
    unfold val
    rw [sign_roundReal z h, hu]
    rcases lt_or_gt_of_ne h with h1 | h1
    · simp only [h1, if_true, abs_of_neg h1]
      rw [← abs_neg, ← abs_of_pos (show (0 : ℝ) < 2 ^ 149 by positivity), ← abs_div, abs_of_pos (show (0 : ℝ) < 2 ^ 149 by positivity)]
      congr 1
      field_simp
      ring
    · simp only [not_lt.mpr h1.le, if_false, Bool.false_eq_true, abs_of_pos h1]
      rw [← abs_of_pos (show (0 : ℝ) < 2 ^ 149 by positivity), ← abs_div, abs_of_pos (show (0 : ℝ) < 2 ^ 149 by positivity)]
      congr 1
      field_simp
  rw [hv, div_le_iff₀ (by positivity)]
  push_cast
  linarith

theorem magBits_roundReal_le {z : Bool} {r : ℝ} {m : Nat} (hm : m < infBits) (h : |r| * 2 ^ 149 ≤ bitsUnits m) :
    magBits (roundReal z r) ≤ m := by
  rw [magBits_roundReal]
  exact realBits_le (by positivity) hm h

theorem isNaN_roundReal (z : Bool) (r : ℝ) : isNaN (roundReal z r) = false := by
  have := roundBits_le_inf (quarters (|r| * 2 ^ 149)) 4
  rw [← realBits_eq, ← magBits_roundReal z r] at this
  simpa [isNaN] using this

/-- A positive number above half the least one rounds to a positive number. -/
theorem roundReal_pos {z : Bool} {r : ℝ} (h : 1 / 2 < r * 2 ^ 149) : flt zero (roundReal z r) = true := by
  have hr : 0 < r := by
    by_contra hc
    have : r * 2 ^ 149 ≤ 0 := mul_nonpos_of_nonpos_of_nonneg (not_lt.mp hc) (by positivity)
    linarith
  have hs := sign_roundReal z hr.ne'
  simp only [not_lt.mpr hr.le, if_false] at hs
  have hm : 0 < magBits (roundReal z r) := by
    rw [magBits_roundReal, abs_of_pos hr]
    exact realBits_pos h
  have hn : isNaN zero = false := by decide
  have ho : order zero = 0 := by decide
  unfold flt
  rw [hn, ho, isNaN_roundReal]
  unfold order
  rw [hs]
  simpa using hm

theorem val_inOpen {x : Word} {n d : Nat} (h : inOpen x n d = true) (hd : 0 < d) :
    1 ≤ val x * 2 ^ 149 ∧ val x < n / d := by
  simp only [inOpen, Bool.and_eq_true, Bool.not_eq_true', magBelow, decide_eq_true_eq] at h
  obtain ⟨⟨⟨_, hs⟩, hz⟩, hb⟩ := h
  have hm : 0 < magBits x := by
    have : ¬ magBits x = 0 := by simpa [isZero] using hz
    omega
  have hu : 1 ≤ units x := units_pos hm
  rw [val_of_pos hs]
  constructor
  · rw [div_mul_cancel₀ _ (by positivity)]; exact_mod_cast hu
  · rw [div_lt_div_iff₀ (by positivity) (by exact_mod_cast hd)]; exact_mod_cast hb

theorem pos_of_scaled {r : ℝ} (h : 1 ≤ r * 2 ^ 149) : 0 < r :=
  pos_of_mul_pos_left (lt_of_lt_of_le zero_lt_one h) (by positivity)

/-- Jordan's inequality on the operands of SIN for which N7 asks a positive result. -/
theorem half_le_sin {x : ℝ} (h0 : 0 < x) (h1 : x < 30788 / 10000) : min (x / 2) (1 / 50) < Real.sin x := by
  have hp := Real.pi_gt_d6
  have hp2 := Real.pi_lt_d6
  have key : ∀ y : ℝ, 0 < y → y ≤ Real.pi / 2 → y / 2 < Real.sin y := by
    intro y hy hy2
    refine lt_of_lt_of_le ?_ (Real.mul_le_sin hy.le hy2)
    rw [div_mul_eq_mul_div, div_lt_div_iff₀ (by norm_num) Real.pi_pos]
    nlinarith
  rcases le_or_gt x (Real.pi / 2) with h | h
  · exact lt_of_le_of_lt (min_le_left _ _) (key x h0 h)
  · have := key (Real.pi - x) (by norm_num at hp h1 ⊢; linarith) (by linarith)
    rw [Real.sin_pi_sub] at this
    refine lt_of_le_of_lt (min_le_right _ _) (lt_of_le_of_lt ?_ this)
    norm_num at hp h1 ⊢
    linarith

theorem cos_lower {x : ℝ} (h0 : 0 < x) {c : ℝ} (h1 : x < c) (hc : c < 1.57) : 1 - 2 * c / 3.141592 < Real.cos x := by
  have hp := Real.pi_gt_d6
  refine lt_of_lt_of_le ?_ (Real.one_sub_mul_le_cos h0.le (by norm_num at hp hc ⊢; linarith))
  have : 2 / Real.pi * x < 2 * c / 3.141592 := by
    rw [div_mul_eq_mul_div, div_lt_div_iff₀ Real.pi_pos (by norm_num)]
    norm_num at hp ⊢
    nlinarith
  linarith

/-- Rounding gives back a number. -/
theorem roundReal_val (z : Bool) {w : Word} (hf : isFinite w = true) (hz : isZero w = false) : roundReal z (val w) = w := by
  have hu : 0 < (units w : ℝ) := by
    have : ¬ magBits w = 0 := by simpa [isZero] using hz
    exact_mod_cast units_pos (by omega)
  have hm : magBits (roundReal z (val w)) = magBits w := by
    rw [magBits_roundReal, abs_val, div_mul_cancel₀ _ (by positivity)]
    exact realBits_bitsUnits (isFinite_iff.mp hf)
  have hs : sign (roundReal z (val w)) = sign w := by
    cases h : sign w with
    | false =>
      have hv : 0 < val w := by rw [val_of_pos h]; positivity
      simp [sign_roundReal z hv.ne', not_lt.mpr hv.le]
    | true =>
      have hv : val w < 0 := by rw [val, h, if_pos rfl, neg_div]; exact neg_neg_of_pos (by positivity)
      simp [sign_roundReal z hv.ne, hv]
  rw [← pack_sign_magBits (roundReal z (val w)), hm, hs, pack_sign_magBits]

theorem val_natUnits {w : Word} {n : Nat} (h : sign w = false) (hu : units w = n * 2 ^ 149) : val w = n := by
  rw [val_of_pos h, hu, Nat.cast_mul, Nat.cast_pow]
  exact mul_div_cancel_right₀ _ (pow_ne_zero 149 two_ne_zero)

theorem val_one : val one = 1 := by rw [val_natUnits (n := 1) (by decide) (by decide)]; exact Nat.cast_one

theorem roundReal_zero : roundReal false 0 = zero := by
  have hb : realBits (|0| * 2 ^ 149) = 0 := by
    have := realBits_bitsUnits (m := 0) (by decide)
    rw [show bitsUnits 0 = 0 by decide] at this
    simpa using this
  unfold roundReal
  rw [hb, if_pos rfl]
  decide

theorem magBits_roundReal_le_one {z : Bool} {r : ℝ} (h : |r| ≤ 1) : magBits (roundReal z r) ≤ magBits one := by
  apply magBits_roundReal_le (by decide)
  have h1 : bitsUnits (magBits one) = 2 ^ 149 := by decide
  rw [h1]
  push_cast
  nlinarith [show (0 : ℝ) < 2 ^ 149 by positivity]

/-! ### NUM_CR -/

/-- The reference instance has the properties of 40_numerics R128 with NUM_ULP = 0.5 (R129). -/
theorem numCR_required : numCR.Required (1 / 2) := by
  have hk : ∀ {x}, isFinite x = true → isNaN x = false ∧ isInf x = false := fun h => ⟨isNaN_of_finite h, isInf_of_finite h⟩
  refine ⟨fun x h => ?_, ?_, ⟨fun x h => ?_, fun x h => ?_, by simp [numCR]; decide⟩,
    ⟨by simp [numCR]; decide, by simp [numCR]; decide, fun x h => ?_, fun x h => ?_⟩, fun x h => ?_, fun x h => ?_,
    ⟨fun x h => ?_, fun x h => ?_, fun x h => ?_⟩⟩
  · simp only [numCR, isNaN_of_isZero h, isInf_of_isZero h, Bool.false_eq_true, if_false]
    rw [val_of_zero h, Real.rpow_zero, ← val_one]
    exact roundReal_val _ (by decide) (by decide)
  · have h1 : isNaN one = false := by decide
    have h2 : isZero one = false := by decide
    have h3 : sign one = false := by decide
    have h4 : isInf one = false := by decide
    simp only [numCR, h1, h2, h3, h4, val_one, Bool.false_eq_true, if_false, Real.logb_one, roundReal_zero]
  · simp only [numCR, isNaN_of_isZero h, h, Bool.false_eq_true, if_false, if_true]
  · rcases h with h | h
    · simp [numCR, h]; decide
    · obtain ⟨ha, hb, hc⟩ := flt_zero_iff.mp h
      simp [numCR, ha, hb, hc]; decide
  · simp [numCR, h]; decide
  · simp [numCR, h]; decide
  · obtain ⟨ha, hb⟩ := hk h
    simp only [numCR, h, ha, hb, Bool.false_eq_true, if_false, if_true, isNaN_roundReal, and_true]
    refine ⟨magBits_roundReal_le_one (Real.abs_sin_le_one _), magBits_roundReal_le_one (Real.abs_cos_le_one _), ?_⟩
    have : (0 : ℝ) < (10 : ℝ) ^ val x := Real.rpow_pos_of_pos (by norm_num) _
    simp [sign_roundReal _ this.ne', not_lt.mpr this.le]
  · obtain ⟨ha, hb⟩ := hk h
    simp only [numCR, h, ha, hb, Bool.false_eq_true, if_false, if_true]
    refine ⟨accurate_roundReal _ _, accurate_roundReal _ _, accurate_roundReal _ _, accurate_roundReal _ _, fun hv => ?_⟩
    obtain ⟨hz, hs⟩ := kind_of_val_pos hv
    rw [hz, hs]
    exact accurate_roundReal _ _
  · obtain ⟨h1, h2⟩ := val_inOpen h (by norm_num)
    simp only [numCR, inOpen_finite h, if_true]
    apply roundReal_pos
    have hx := pos_of_scaled h1
    have := Real.le_tan hx.le (by have := Real.pi_gt_d6; norm_num at h2 this ⊢; linarith)
    nlinarith [show (0 : ℝ) < 2 ^ 149 by positivity]
  · obtain ⟨h1, h2⟩ := val_inOpen h (by norm_num)
    simp only [numCR, inOpen_finite h, if_true]
    apply roundReal_pos
    have := half_le_sin (pos_of_scaled h1) (by exact_mod_cast h2)
    rcases min_lt_iff.mp this with h3 | h3 <;> nlinarith [show (25 : ℝ) < 2 ^ 149 by norm_num]
  · obtain ⟨h1, h2⟩ := val_inOpen h (by norm_num)
    simp only [numCR, inOpen_finite h, if_true]
    apply roundReal_pos
    have := cos_lower (pos_of_scaled h1) h2 (by norm_num)
    norm_num at this ⊢
    linarith
end Sys2Proof.Laws
end

