-- ==== Sys2Proof/Laws/Designer.lean ====
section
/-! SUPPORT. Every value of a snapshot lies in its declared range; bounds on the functions of NUM that make every design of such
a snapshot finite at a sample rate that PREPARE accepts (42_designer R175, R179); the engine's NUM is an admitted instance. -/

namespace Sys2Proof.Laws

open Machine Machine.F32 Machine.Numeric

/-! ### Ranges -/

theorem inRange_order {i : Fin 7} {v : Word} (h : Machine.inRange i v = true) :
    isNaN v = false ∧ order paramLow[i] ≤ order v ∧ order v ≤ order paramHigh[i] := by
  have hl : ∀ i : Fin 7, isNaN paramLow[i] = false := by decide
  have hh : ∀ i : Fin 7, isNaN paramHigh[i] = false := by decide
  have h1 := hl i
  have h2 := hh i
  simp only [Machine.inRange, flt, fgt, Bool.and_eq_true, Bool.not_eq_true', Bool.and_eq_false_iff, Bool.not_eq_false',
    decide_eq_false_iff_not, not_lt] at h
  obtain ⟨⟨hn, hlo⟩, hhi⟩ := h
  simp only [hn, h1, h2, Bool.false_eq_true, false_or] at hlo hhi
  exact ⟨hn, hlo, hhi⟩

theorem pos_of_order {v : Word} {l h : Nat} (hl : 0 < l) (h1 : (l : Int) ≤ order v) (h2 : order v ≤ (h : Int)) : Pos l h v := by
  unfold order at h1 h2
  split at h1
  · omega
  · rename_i hs
    rw [if_neg hs] at h2
    exact ⟨by simpa using hs, by omega, by omega⟩

theorem atMost_of_order {v : Word} {h : Nat} (h1 : -(h : Int) ≤ order v) (h2 : order v ≤ (h : Int)) : AtMost h v := by
  unfold order at h1 h2
  unfold AtMost
  split at h1 <;> rename_i hs <;> simp only [hs] at h2 <;> simp at h2 <;> omega

theorem inRange_of_clamp {i : Fin 7} {v d : Word} (hd : Machine.inRange i d = true) :
    Machine.inRange i (clampRange v paramLow[i] paramHigh[i] d) = true := by
  have hl : ∀ i : Fin 7, Machine.inRange i paramLow[i] = true := by decide
  have hh : ∀ i : Fin 7, Machine.inRange i paramHigh[i] = true := by decide
  unfold clampRange
  split
  · exact hd
  · split
    · exact hl i
    · split
      · exact hh i
      · rename_i h1 h2 h3
        simp only [Machine.inRange, Bool.and_eq_true, Bool.not_eq_true']
        exact ⟨⟨by simpa using h1, by simpa using h2⟩, by simpa using h3⟩

theorem defaultLegal_of_default (raw : Nat → Word) (i : Fin 7) : defaultLegal i (defaultOf raw i) = true := by
  have h : ∀ i : Fin 7, defaultLegal i paramSuggested[i] = true := by decide
  unfold defaultOf
  split
  · assumption
  · exact h i

/-- Every default is legal (93_implementation_defined U11). -/
theorem defP_legal (i : Fin 7) : defaultLegal i defP[i] = true := by
  have h : ∀ j : Fin 7, defaultLegal j (defaultOf Config.defPFree j) = true := defaultLegal_of_default _
  match i with
  | 0 => exact h 0
  | 1 => exact h 1
  | 2 => exact h 2
  | 3 => exact h 3
  | 4 => exact h 4
  | 5 => exact h 5
  | 6 => exact h 6

theorem defP_inRange (i : Fin 7) : Machine.inRange i defP[i] = true := by
  have h := defP_legal i
  unfold defaultLegal at h
  exact (Bool.and_eq_true_iff.mp h).1

theorem clampParam_inRange (r : Vector Word 7) (i : Fin 7) : Machine.inRange i (clampParam r i) = true :=
  inRange_of_clamp (defP_inRange i)

/-- Every snapshot is in range (41_parameters R155, 10_state R36). -/
theorem snapshot_inRange (r : Vector Word 7) : (snapshot r).inRange = true := by
  simp [Settings.inRange, snapshot, clampParam_inRange]

/-! ### Bounds of the operands of a design -/

theorem rateValid_pos {fs : Word} (h : rateValid fs = true) : Pos 0x3F800000 0x7F7FFFFF fs := by
  simp only [rateValid, Bool.and_eq_true, Bool.not_eq_true'] at h
  have hf := isFinite_iff.mp h.1
  have h2 := h.2
  simp only [flt, isNaN_of_finite h.1, Bool.and_eq_false_iff, Bool.not_eq_false', decide_eq_false_iff_not, not_lt] at h2
  have h3 : isNaN Config.fsMin = false := by decide
  simp only [h3, Bool.false_eq_true, false_or] at h2
  have h4 : order Config.fsMin = (0x3F800000 : Nat) := by decide
  have h5 : infBits = 0x7F800000 := rfl
  have h6 : order fs ≤ (0x7F7FFFFF : Nat) := by unfold order; split <;> omega
  exact pos_of_order (by norm_num) (by rw [← h4]; simpa using h2) h6

theorem pos_self {w : Word} (h : sign w = false) : Pos (magBits w) (magBits w) w := ⟨h, le_rfl, le_rfl⟩

theorem one_pos : Pos 0x3F800000 0x3F800000 one := pos_self (by decide)
theorem two_pos : Pos 0x40000000 0x40000000 two := pos_self (by decide)
theorem nyq_pos : Pos 0x3EFAE148 0x3EFAE148 Config.nyqFrac := pos_self (by decide)
theorem pi_pos : Pos 0x40490FDB 0x40490FDB Config.pi := pos_self (by decide)
theorem twoPi_pos : Pos 0x40C90FDB 0x40C90FDB Config.twoPi := pos_self (by decide)

theorem not_isZero {w : Word} (h : 0 < magBits w) : isZero w = false := by simp [isZero]; omega

theorem inOpen_of {l h n d : Nat} {w : Word} (p : Pos l h w) (hl : 0 < l) (hh : h < infBits)
    (hb : units w * d < n * 2 ^ 149) : inOpen w n d = true := by
  simp only [inOpen, p.finite hh, p.1, not_isZero (lt_of_lt_of_le hl p.2.1), magBelow, hb, decide_true, Bool.not_false,
    Bool.and_true]

theorem pos_of_inOpen {w : Word} {n d k : Nat} (h : inOpen w n d = true) (hk : n * 2 ^ 149 ≤ bitsUnits k * d) :
    Pos 1 k w := by
  simp only [inOpen, Bool.and_eq_true, Bool.not_eq_true', magBelow, decide_eq_true_eq] at h
  obtain ⟨⟨⟨_, hs⟩, hz⟩, hb⟩ := h
  refine ⟨hs, ?_, ?_⟩
  · have : ¬ magBits w = 0 := by simpa [isZero] using hz
    omega
  · by_contra hc
    have h1 : bitsUnits k ≤ units w := bitsUnits_mono (by omega)
    have h2 : bitsUnits k * d ≤ units w * d := Nat.mul_le_mul_right d h1
    omega

/-- A positive result, as a bound on its bits. -/
theorem pos_of_flt {k : Nat} {y : Word} (h : flt zero y = true) (hk : magBits y ≤ k) : Pos 1 k y := by
  have ho : order zero = 0 := by decide
  simp only [flt, ho, Bool.and_eq_true, decide_eq_true_eq] at h
  cases hs : sign y with
  | true => have := h.2; simp [order, hs] at this; omega
  | false => have := h.2; simp only [order, hs, Bool.false_eq_true, if_false] at this; exact ⟨hs, by omega, hk⟩

/-- Bounds on an instance of NUM under which every design is finite. -/
structure DesignBounds (n : Numerics) : Prop where
  sin_atMost : ∀ {x}, isFinite x = true → AtMost 0x3F800000 (n.sin x)
  cos_atMost : ∀ {x}, isFinite x = true → AtMost 0x3F800000 (n.cos x)
  sin_pos : ∀ {x}, inOpen x 30788 10000 = true → flt zero (n.sin x) = true
  cos_pos : ∀ {x}, inOpen x 15 10 = true → flt zero (n.cos x) = true
  tan_pos : ∀ {x}, inOpen x 15394 10000 = true → Pos 1 0x43000000 (n.tan x)
  pow10_pos : ∀ {x}, AtMost 0x3F800000 x → Pos 0x3D000000 0x41800000 (n.pow10 x)

/-! ### The Nyquist guard and the angle -/

theorem clampF_bound {f fs : Word} {h : Nat} (hf : Pos 0x41A00000 h f) (hh : h ≤ 0x469C4000) (hfs : rateValid fs = true) :
    Pos 0x3EFAE148 0x469C4000 (clampF f fs) ∧ magBits (clampF f fs) ≤ magBits (fmul Config.nyqFrac fs) := by
  have hm : Pos 0x3EFAE148 0x7F7FFFFF (fmul Config.nyqFrac fs) :=
    nyq_pos.fmul (rateValid_pos hfs) (by decide) (by decide) (by decide) (by decide)
  have hnf := isNaN_of_finite (hf.finite (lt_of_le_of_lt hh (by decide)))
  have hnm := isNaN_of_finite (hm.finite (by decide))
  have ho : fgt f (fmul Config.nyqFrac fs) = decide (magBits (fmul Config.nyqFrac fs) < magBits f) := by
    simp [fgt, flt, hnf, hnm, order, hf.1, hm.1]
  unfold clampF
  simp only [ho]
  split
  · rename_i hc
    simp only [decide_eq_true_eq] at hc
    exact ⟨⟨hm.1, hm.2.1, by have := hf.2.2; omega⟩, le_rfl⟩
  · rename_i hc
    simp only [decide_eq_true_eq, not_lt] at hc
    exact ⟨hf.weaken (by norm_num) hh, hc⟩

/-- Three roundings in a row, each within the factor `(b + 1) / b`. -/
theorem three_roundings {m c p w k y s a b n d : Nat} (hs : 0 < s) (e0 : c ≤ m)
    (e1 : m * a * b ≤ y * s * (b + 1)) (e2 : p * a * b ≤ k * c * (b + 1)) (e3 : w * s * b ≤ p * a * (b + 1))
    (hn : k * y * (b + 1) ^ 3 * d < n * a * (a * (b * b * b))) : w * d < n * a := by
  have h1 : w * (a * (b * b * b)) * s ≤ k * y * (b + 1) ^ 3 * s := by
    calc w * (a * (b * b * b)) * s = w * s * b * (a * b * b) := by ring
      _ ≤ p * a * (b + 1) * (a * b * b) := Nat.mul_le_mul_right _ e3
      _ = p * a * b * ((b + 1) * (a * b)) := by ring
      _ ≤ k * c * (b + 1) * ((b + 1) * (a * b)) := Nat.mul_le_mul_right _ e2
      _ = k * (b + 1) * (b + 1) * (c * a * b) := by ring
      _ ≤ k * (b + 1) * (b + 1) * (m * a * b) :=
        Nat.mul_le_mul_left _ (Nat.mul_le_mul_right _ (Nat.mul_le_mul_right _ e0))
      _ ≤ k * (b + 1) * (b + 1) * (y * s * (b + 1)) := Nat.mul_le_mul_left _ e1
      _ = k * y * (b + 1) ^ 3 * s := by ring
  have h2 : w * (a * (b * b * b)) ≤ k * y * (b + 1) ^ 3 := Nat.le_of_mul_le_mul_right h1 hs
  have h3 : w * d * (a * (b * b * b)) < n * a * (a * (b * b * b)) := by
    calc w * d * (a * (b * b * b)) = w * (a * (b * b * b)) * d := by ring
      _ ≤ k * y * (b + 1) ^ 3 * d := Nat.mul_le_mul_right d h2
      _ < _ := hn
  exact Nat.lt_of_mul_lt_mul_right h3

/-- `(k * ClampF(f)) / fs` is below `n / d` when `k * NYQ_FRAC`, with room for three roundings, is. -/
theorem angle_lt {k f fs : Word} {kb h n d : Nat} (hk : Pos kb kb k) (hk1 : 0x3F800000 ≤ kb) (hk2 : kb ≤ 0x41000000)
    (hf : Pos 0x41A00000 h f) (hh : h ≤ 0x469C4000) (hfs : rateValid fs = true)
    (hd : 2 ^ 23 * d < n * 2 ^ 149)
    (hn : bitsUnits kb * bitsUnits 0x3EFAE148 * (2 ^ 24 + 1) ^ 3 * d < n * 2 ^ 149 * 2 ^ 149 * 2 ^ 72) :
    inOpen (fdiv (fmul k (clampF f fs)) fs) n d = true := by
  obtain ⟨hc, hcm⟩ := clampF_bound hf hh hfs
  have hs := rateValid_pos hfs
  have hk' : Pos 0x3F800000 0x41000000 k := hk.weaken hk1 hk2
  have hm : Pos 0x3EFAE148 0x7F7FFFFF (fmul Config.nyqFrac fs) :=
    nyq_pos.fmul hs (by decide) (by decide) (by decide) (by decide)
  have hp : Pos 0x3EFAE148 0x481C4000 (fmul k (clampF f fs)) :=
    hk'.fmul hc (by decide) (by decide) (by decide) (by decide)
  have hw : Pos 1 0x481C4000 (fdiv (fmul k (clampF f fs)) fs) :=
    hp.fdiv hs (by decide) (by decide) (by decide) (by decide) (by decide)
  refine inOpen_of hw (by norm_num) (by decide) ?_
  -- the three roundings
  have e1 : units (fmul Config.nyqFrac fs) * 2 ^ 149 * 2 ^ 24 ≤ bitsUnits 0x3EFAE148 * units fs * (2 ^ 24 + 1) := by
    have hb := fmul_finite (nyq_pos.finite (by decide)) (hs.finite (by decide))
    have hu : units Config.nyqFrac = bitsUnits 0x3EFAE148 := by decide
    have hlt : roundBits (units Config.nyqFrac * units fs) (2 ^ 149) < infBits := by
      have := isFinite_iff.mp (hm.finite (by decide))
      rwa [hb, magBits_pack_round] at this
    have h0 : bitsUnits 0x3F800000 ≤ units fs := le_units hs.2.1
    have := bitsUnits_roundBits_le hlt (by
      rw [hu]
      calc 2 ^ 149 * 2 ^ 23 ≤ bitsUnits 0x3EFAE148 * bitsUnits 0x3F800000 := by decide
        _ ≤ _ := Nat.mul_le_mul_left _ h0)
    rw [hu] at this
    rw [hb, units, magBits_pack_round, hu]
    exact this
  have e2 : units (fmul k (clampF f fs)) * 2 ^ 149 * 2 ^ 24 ≤ bitsUnits kb * units (clampF f fs) * (2 ^ 24 + 1) := by
    have hb := fmul_finite (hk'.finite (by decide)) (hc.finite (by decide))
    have hu : units k = bitsUnits kb := by unfold units; rw [le_antisymm hk.2.2 hk.2.1]
    have hlt : roundBits (units k * units (clampF f fs)) (2 ^ 149) < infBits := by
      have := isFinite_iff.mp (hp.finite (by decide))
      rwa [hb, magBits_pack_round] at this
    have h0 : bitsUnits 0x3EFAE148 ≤ units (clampF f fs) := le_units hc.2.1
    have h1 : bitsUnits 0x3F800000 ≤ units k := le_units hk'.2.1
    have := bitsUnits_roundBits_le hlt (by
      calc 2 ^ 149 * 2 ^ 23 ≤ bitsUnits 0x3F800000 * bitsUnits 0x3EFAE148 := by decide
        _ ≤ _ := Nat.mul_le_mul h1 h0)
    rw [hu] at this
    rw [hb, units, magBits_pack_round, hu]
    exact this
  have hsb : 0 < magBits fs := lt_of_lt_of_le (by norm_num) hs.2.1
  have hb := fdiv_finite (hp.finite (by decide)) (hs.finite (by decide)) hsb
  have hlt : roundBits (units (fmul k (clampF f fs)) * 2 ^ 149) (units fs) < infBits := by
    have := isFinite_iff.mp (hw.finite (by decide))
    rwa [hb, magBits_pack_round] at this
  have hu : units (fdiv (fmul k (clampF f fs)) fs) =
      bitsUnits (roundBits (units (fmul k (clampF f fs)) * 2 ^ 149) (units fs)) := by
    rw [hb, units, magBits_pack_round]
  have hfsp : 0 < units fs := units_pos hsb
  have e0 : units (clampF f fs) ≤ units (fmul Config.nyqFrac fs) := bitsUnits_mono hcm
  rcases Nat.lt_or_ge (units (fmul k (clampF f fs)) * 2 ^ 149) (units fs * 2 ^ 23) with hsm | hbig
  · have h1 : roundBits (units (fmul k (clampF f fs)) * 2 ^ 149) (units fs) ≤ roundBits (2 ^ 23) 1 :=
      roundBits_mono hfsp Nat.one_pos (by rw [Nat.mul_one, Nat.mul_comm (2 ^ 23)]; exact hsm.le)
    have h2 : bitsUnits (roundBits (2 ^ 23) 1) = 2 ^ 23 := by decide
    have h3 := bitsUnits_mono h1
    rw [h2] at h3
    rw [hu]
    exact lt_of_le_of_lt (Nat.mul_le_mul_right d h3) hd
  · have e3 := bitsUnits_roundBits_le hlt hbig
    rw [← hu] at e3
    exact three_roundings hfsp e0 e1 e2 e3 (by
      rw [show 2 ^ 149 * (2 ^ 24 * 2 ^ 24 * 2 ^ 24) = 2 ^ 149 * 2 ^ 72 by norm_num, ← Nat.mul_assoc]
      exact hn)

/-! ### The designs -/

theorem DesignBounds.peakOf_allFinite {n : Numerics} (B : DesignBounds n) {v : Settings} {fs : Word} (hv : v.inRange = true)
    (hfs : rateValid fs = true) : (n.peakOf v fs).allFinite = true := by
  simp only [Settings.inRange, Bool.and_eq_true] at hv
  obtain ⟨⟨⟨⟨_, _⟩, h4⟩, h5⟩, h6⟩ := hv
  have hf : Pos 0x41A00000 0x469C4000 v.peakFreq := by
    obtain ⟨_, h1, h2⟩ := inRange_order h4
    exact (pos_of_order (l := 0x43480000) (h := 0x469C4000) (by norm_num) h1 h2).weaken (by norm_num) le_rfl
  have hg : AtMost 0x41C00000 v.peakGain := by
    obtain ⟨_, h1, h2⟩ := inRange_order h5
    exact atMost_of_order h1 (le_trans h2 (by decide))
  have hq : Pos 0x3DCCCCCD 0x41200000 v.peakQ := by
    obtain ⟨_, h1, h2⟩ := inRange_order h6
    exact pos_of_order (by norm_num) h1 h2
  have hw := angle_lt (n := 30788) (d := 10000) twoPi_pos (by norm_num) (by norm_num) hf le_rfl hfs (by decide) (by decide)
  unfold Numerics.peakOf Numerics.designPeak
  dsimp only
  have hwf := inOpen_finite hw
  generalize fdiv (fmul Config.twoPi (clampF v.peakFreq fs)) fs = w0 at hw hwf
  have hx : AtMost 0x3F800000 (fdiv v.peakGain 0x42200000#32) :=
    hg.fdiv (pos_self (w := 0x42200000#32) (by decide)) (by decide) (by decide) (by decide) (by decide)
  have hA := B.pow10_pos hx
  generalize n.pow10 (fdiv v.peakGain 0x42200000#32) = aa at hA
  have hsn := (pos_of_flt (B.sin_pos hw) (B.sin_atMost hwf)).weaken (Nat.zero_le 1) le_rfl
  have hcs := B.cos_atMost hwf
  have h2q : Pos 0x3E4CCCCC 0x41A00000 (fmul two v.peakQ) :=
    two_pos.fmul hq (by decide) (by decide) (by decide) (by decide)
  have hal : Pos 0 0x40C00000 (fdiv (n.sin w0) (fmul two v.peakQ)) :=
    hsn.fdiv h2q (by decide) (by decide) (by decide) (by decide) (by decide)
  have hc1 : AtMost 0x40000000 (fmul negTwo (n.cos w0)) :=
    (show AtMost 0x40000000 negTwo by unfold AtMost; decide).fmul hcs (by decide) (by decide) (by decide)
  generalize fdiv (n.sin w0) (fmul two v.peakQ) = al at hal
  have haA : AtMost 0x42C00000 (fmul al aa) := hal.atMost.fmul hA.atMost (by decide) (by decide) (by decide)
  have haO : Pos 0 0x43400000 (fdiv al aa) := hal.fdiv hA (by decide) (by decide) (by decide) (by decide) (by decide)
  have ha0 : Pos 0x3F800000 0x43480000 (fadd one (fdiv al aa)) :=
    one_pos.fadd haO (by decide) (by decide) (by decide) (by decide)
  have hb0 : AtMost 0x43480000 (fadd one (fmul al aa)) := one_pos.atMost.fadd haA (by decide) (by decide) (by decide)
  have hb2 : AtMost 0x43480000 (fsub one (fmul al aa)) := one_pos.atMost.fsub haA (by decide) (by decide) (by decide)
  have ha2 : AtMost 0x43480000 (fsub one (fdiv al aa)) :=
    one_pos.atMost.fsub haO.atMost (by decide) (by decide) (by decide)
  have hdiv : ∀ {x : Word}, AtMost 0x43480000 x → isFinite (fdiv x (fadd one (fdiv al aa))) = true := fun hx =>
    (hx.fdiv ha0 (h := 0x43480000) (by decide) (by decide) (by decide) (by decide)).finite (by decide)
  have hc1' : AtMost 0x43480000 (fmul negTwo (n.cos w0)) := le_trans hc1 (by decide)
  simp only [Block.allFinite, hdiv hb0, hdiv hc1', hdiv hb2, hdiv ha2, Bool.and_self]

theorem DesignBounds.section_iq_pos {n : Numerics} (B : DesignBounds n) (k i : Fin 4) (h : i ≤ k) :
    Pos 0 0x40000000 (n.sectionIq k i.val) := by
  have ha : ∀ k i : Fin 4, i ≤ k →
      inOpen (fdiv (fmul (F32.ofNat (2 * i.val + 1)) Config.pi) (F32.ofNat (2 * (2 * (k.val + 1))))) 15 10 = true := by
    decide
  have hc := pos_of_flt (B.cos_pos (ha k i h)) (B.cos_atMost (inOpen_finite (ha k i h)))
  exact two_pos.fmul (hc.weaken (Nat.zero_le 1) le_rfl) (by decide) (by decide) (by decide) (by decide)

theorem sectionBlock_allFinite (side : Side) {t iq : Word} (ht : Pos 1 0x43000000 t) (hq : Pos 0 0x40000000 iq) :
    (sectionBlock side t iq).allFinite = true := by
  have ht2 : Pos 0 0x46800000 (fmul t t) := ht.fmul ht (by decide) (by decide) (by decide) (by decide)
  have htq : Pos 0 0x43800000 (fmul t iq) := ht.fmul hq (by decide) (by decide) (by decide) (by decide)
  unfold sectionBlock
  dsimp only
  generalize fmul t t = t2 at ht2
  generalize fmul t iq = tq at htq
  have h1q : Pos 0x3F800000 0x43808000 (fadd one tq) := one_pos.fadd htq (by decide) (by decide) (by decide) (by decide)
  have hden : Pos 0x3F800000 0x46900000 (fadd (fadd one tq) t2) :=
    h1q.fadd ht2 (by decide) (by decide) (by decide) (by decide)
  have hnm : AtMost 0x3F800000 (fdiv one (fadd (fadd one tq) t2)) :=
    one_pos.atMost.fdiv hden (by decide) (by decide) (by decide) (by decide)
  generalize fdiv one (fadd (fadd one tq) t2) = nm at hnm
  have h1 : AtMost 0x46900000 (fsub t2 one) := ht2.atMost.fsub one_pos.atMost (by decide) (by decide) (by decide)
  have h2 : AtMost 0x47100000 (fmul two (fsub t2 one)) := two_pos.atMost.fmul h1 (by decide) (by decide) (by decide)
  have h3 : AtMost 0x43808000 (fsub one tq) := one_pos.atMost.fsub htq.atMost (by decide) (by decide) (by decide)
  have h4 : AtMost 0x46900000 (fadd (fsub one tq) t2) := h3.fadd ht2.atMost (by decide) (by decide) (by decide)
  have h4' : AtMost 0x47100000 (fadd (fsub one tq) t2) := le_trans h4 (by decide)
  have h5 : AtMost 0x40000000 (fmul negTwo nm) :=
    (show AtMost 0x40000000 negTwo by unfold AtMost; decide).fmul hnm (by decide) (by decide) (by decide)
  have h6 : AtMost 0x46800000 (fmul t2 nm) := ht2.atMost.fmul hnm (by decide) (by decide) (by decide)
  have h7 : AtMost 0x47100000 (fmul two (fmul t2 nm)) := two_pos.atMost.fmul h6 (by decide) (by decide) (by decide)
  have hmul : ∀ {x : Word}, AtMost 0x47100000 x → isFinite (fmul x nm) = true := fun hx =>
    (hx.fmul hnm (h := 0x47100000) (by decide) (by decide) (by decide)).finite (by decide)
  cases side <;>
    simp only [Block.allFinite, hmul h2, hmul h4', hnm.finite (by decide), h5.finite (by decide), h6.finite (by decide),
      h7.finite (by decide), Bool.and_self]

theorem stagesUpTo_le (k i : Fin 4) (h : i ∈ stagesUpTo k) : i ≤ k := by
  revert k i; decide

theorem DesignBounds.designCut_allFinite {n : Numerics} (B : DesignBounds n) (side : Side) {f fs : Word} {h : Nat} (k : Fin 4)
    (hf : Pos 0x41A00000 h f) (hh : h ≤ 0x469C4000) (hfs : rateValid fs = true) :
    (n.designCut side f fs k).all Block.allFinite = true := by
  have hw := angle_lt (n := 15394) (d := 10000) pi_pos (by norm_num) (by norm_num) hf hh hfs (by decide) (by decide)
  unfold Numerics.designCut
  rw [List.all_eq_true]
  intro b hb
  simp only [List.mem_map] at hb
  obtain ⟨i, hi, rfl⟩ := hb
  exact sectionBlock_allFinite side (B.tan_pos hw) (B.section_iq_pos k i (stagesUpTo_le k i hi))

theorem DesignBounds.cutOf_allFinite {n : Numerics} (B : DesignBounds n) {v : Settings} {fs : Word} (side : Side)
    (hv : v.inRange = true) (hfs : rateValid fs = true) : (n.cutOf v fs side).all Block.allFinite = true := by
  simp only [Settings.inRange, Bool.and_eq_true] at hv
  obtain ⟨⟨⟨⟨h0, h2⟩, _⟩, _⟩, _⟩ := hv
  unfold Numerics.cutOf
  cases side
  · obtain ⟨_, h1, h3⟩ := inRange_order h0
    exact B.designCut_allFinite .low _ (pos_of_order (l := 0x41A00000) (h := 0x44FA0000) (by norm_num) h1 h3) (by norm_num) hfs
  · obtain ⟨_, h1, h3⟩ := inRange_order h2
    exact B.designCut_allFinite .high _
      ((pos_of_order (l := 0x43480000) (h := 0x469C4000) (by norm_num) h1 h3).weaken (by norm_num) le_rfl) le_rfl hfs

theorem DesignBounds.designsFinite {n : Numerics} (B : DesignBounds n) : n.DesignsFinite := fun _ _ hv hfs => by
  simp only [Numerics.finiteAt, B.peakOf_allFinite hv hfs, B.cutOf_allFinite _ hv hfs, Bool.and_self]

/-! ### The engine's NUM -/

theorem spare_finite {x : Word} (h : isFinite x = true) :
    spare.sin x = one ∧ spare.cos x = one ∧ spare.tan x = one ∧ spare.pow10 x = one := by
  simp [spare, h, isNaN_of_finite h, isInf_of_finite h]

theorem spare_bounds : DesignBounds spare where
  sin_atMost h := by rw [(spare_finite h).1]; unfold AtMost; decide
  cos_atMost h := by rw [(spare_finite h).2.1]; unfold AtMost; decide
  sin_pos h := by rw [(spare_finite (inOpen_finite h)).1]; decide
  cos_pos h := by rw [(spare_finite (inOpen_finite h)).2.1]; decide
  tan_pos h := by rw [(spare_finite (inOpen_finite h)).2.2.1]; exact one_pos.weaken (by norm_num) (by norm_num)
  pow10_pos h := by rw [(spare_finite (h.finite (by decide))).2.2.2]; exact one_pos.weaken (by norm_num) (by norm_num)

/-- For a NUM_ULP of 2^300 every finite number is an accurate result. -/
theorem accurate_spare {r : ℝ} {y : Word} (hy : isFinite y = true) : Accurate spareUlp r y := by
  intro h hr
  refine ⟨hy, ?_⟩
  have h1 := abs_val_lt hy
  have h2 : |r| < (2 ^ 25 - 1) * 2 ^ 103 := hr
  calc |val y - r| ≤ |val y| + |r| := abs_sub _ _
    _ ≤ (2 : ℝ) ^ 151 := by norm_num at h1 h2 ⊢; linarith
    _ = 2 ^ 300 * 2 ^ (-149 : ℤ) := by
      rw [← zpow_natCast, ← zpow_natCast, ← zpow_add₀ (by norm_num)]; norm_num
    _ ≤ spareUlp * ulpOf r := by
      rw [show (spareUlp : ℝ) = 2 ^ 300 by unfold spareUlp; push_cast; rfl]
      exact mul_le_mul_of_nonneg_left (le_ulpOf r) (by positivity)

theorem spare_required : spare.Required spareUlp := by
  have h1 : isFinite one = true := by decide
  have h0 : isFinite zero = true := by decide
  refine ⟨fun x h => ?_, by decide, ⟨fun x h => ?_, fun x h => ?_, by decide⟩, ⟨by decide, by decide, fun x h => ?_, fun x h => ?_⟩,
    fun x h => ?_, fun x h => ?_, ⟨fun x h => ?_, fun x h => spare_bounds.sin_pos h, fun x h => spare_bounds.cos_pos h⟩⟩
  · simp [spare, isNaN_of_isZero h, isInf_of_isZero h]
  · simp [spare, isNaN_of_isZero h, h]
  · rcases h with h | h
    · simp [spare, h]; decide
    · obtain ⟨ha, hb, hc⟩ := flt_zero_iff.mp h
      simp [spare, ha, hb, hc]; decide
  · simp [spare, h]; decide
  · simp [spare, h]; decide
  · obtain ⟨h2, h3, _, h4⟩ := spare_finite h
    rw [h2, h3, h4]; decide
  · have ha := isNaN_of_finite h
    have hb := isInf_of_finite h
    obtain ⟨h2, h3, h4, h5⟩ := spare_finite h
    rw [h2, h3, h4, h5]
    refine ⟨accurate_spare h1, accurate_spare h1, accurate_spare h1, accurate_spare h1, fun hv => ?_⟩
    obtain ⟨hz, hs⟩ := kind_of_val_pos hv
    simp only [spare, ha, hb, hz, hs, Bool.false_eq_true, if_false]
    exact accurate_spare h0
  · rw [(spare_finite (inOpen_finite h)).2.2.1]; decide

theorem spare_admitted : spare.Admitted spareUlp :=
  ⟨le_trans (by norm_num) (one_le_pow₀ one_le_two), spare_required, spare_bounds.designsFinite⟩

/-- The engine's NUM, whatever the free value, is an admitted instance. -/
theorem num_admitted : num.Admitted numUlp := by
  unfold num numUlp pairOf
  cases Config.numFree with
  | some x => exact x.2
  | none => exact spare_admitted

/-- No design of a snapshot fails (60_exceptions R279). -/
theorem designsFinite_of_valid {v : Settings} {fs : Word} (hv : v.inRange = true) (hfs : rateValid fs = true) :
    designsFinite v fs = true := num_admitted.designs v fs hv hfs

theorem finiteAt_parts {n : Numerics} {v : Settings} {fs : Word} (h : n.finiteAt v fs = true) :
    (n.peakOf v fs).allFinite = true ∧ ∀ side, (n.cutOf v fs side).all Block.allFinite = true := by
  simp only [Numerics.finiteAt, Bool.and_eq_true] at h
  exact ⟨h.1.1, fun side => by cases side; exacts [h.1.2, h.2]⟩

theorem peakOf_allFinite {v : Settings} {fs : Word} (hv : v.inRange = true) (hfs : rateValid fs = true) :
    (peakOf v fs).allFinite = true := (finiteAt_parts (designsFinite_of_valid hv hfs)).1

theorem cutOf_allFinite {v : Settings} {fs : Word} (side : Side) (hv : v.inRange = true) (hfs : rateValid fs = true) :
    (cutOf v fs side).all Block.allFinite = true := (finiteAt_parts (designsFinite_of_valid hv hfs)).2 side

end Sys2Proof.Laws
end

