-- ==== Sys2Proof/Laws/Loop.lean ====
section
/-! SUPPORT. Commit (44_audio_loop R222): what it leaves in the staging blocks and in a chain, when every design is finite.
Clearing and running channels: what they leave of SMP and of the chains. -/

namespace Sys2Proof.Laws

open Machine

theorem stageAll_peak (v : Settings) (fs : Word) (stg : Vector Block 9) : (stageAll v fs stg)[peakSlot] = peakOf v fs := by
  unfold stageAll
  rw [stageCut_other _ _ _ _ _ (peakSlot_ne_cutSlot .high), stageCut_other _ _ _ _ _ (peakSlot_ne_cutSlot .low),
    getElem_set_fin, if_pos rfl]

theorem stageAll_cut (v : Settings) (fs : Word) (stg : Vector Block 9) (side : Side) (i : Fin 4) :
    (stageAll v fs stg)[cutSlot side i] =
      if i ≤ v.cutSlope side then cutDesign v fs side i else stg[cutSlot side i] := by
  have hp : ∀ side, cutSlot side i ≠ peakSlot := fun side e => peakSlot_ne_cutSlot side i e.symm
  unfold stageAll
  cases side
  · rw [stageCut_other _ _ _ _ _ (fun j => cutSlot_ne_of_side i j), stageCut_own, getElem_set_fin,
      if_neg (hp .low)]
  · rw [stageCut_own, stageCut_other _ _ _ _ _ (fun j e => cutSlot_ne_of_side j i e.symm), getElem_set_fin,
      if_neg (hp .high)]

theorem stageAll_finite {v : Settings} {fs : Word} (h : designsFinite v fs = true) (stg : Vector Block 9) (side : Side)
    (i : Fin 4) (hi : i ≤ v.cutSlope side) : (stageAll v fs stg)[cutSlot side i].allFinite = true := by
  have e := stageAll_cut v fs stg side i
  rw [if_pos hi] at e
  rw [e]
  exact cutDesign_finite ((finiteAt_parts h).2 side) i hi

/-- A chain after Commit. -/
theorem commitChain_eq {v : Settings} {fs : Word} (h : designsFinite v fs = true) (stg : Vector Block 9) (c : Chain) :
    commitChain (stageAll v fs stg) v c =
      { coef := assignStages (stageAll v fs stg) .high (stagesUpTo (v.cutSlope .high))
          (assignStages (stageAll v fs stg) .low (stagesUpTo (v.cutSlope .low))
            (c.coef.set peakSlot (stageAll v fs stg)[peakSlot]))
        z := c.z
        byp := setFlags .high false (stagesUpTo (v.cutSlope .high)) (setFlags .high true [0, 1, 2, 3]
          (setFlags .low false (stagesUpTo (v.cutSlope .low)) (setFlags .low true [0, 1, 2, 3] c.byp))) } := by
  show (setCut _ .high (v.cutSlope .high) (setCut _ .low (v.cutSlope .low) _).2).2 = _
  rw [setCut_finite _ .low (v.cutSlope .low) _ (fun i hi => stageAll_finite h stg .low i hi),
    setCut_finite _ .high (v.cutSlope .high) _ (fun i hi => stageAll_finite h stg .high i hi)]

theorem commitChain_z {v : Settings} {fs : Word} (h : designsFinite v fs = true) (stg : Vector Block 9) (c : Chain) :
    (commitChain (stageAll v fs stg) v c).z = c.z := by rw [commitChain_eq h]

theorem commitChain_peak {v : Settings} {fs : Word} (h : designsFinite v fs = true) (stg : Vector Block 9) (c : Chain) :
    (commitChain (stageAll v fs stg) v c).coef[peakSlot] = peakOf v fs := by
  rw [commitChain_eq h]
  simp only [assignStages_other _ _ _ _ _ (peakSlot_ne_cutSlot _), getElem_set_fin, if_true, stageAll_peak]

theorem commitChain_coef {v : Settings} {fs : Word} (h : designsFinite v fs = true) (stg : Vector Block 9) (c : Chain)
    (side : Side) (i : Fin 4) : (commitChain (stageAll v fs stg) v c).coef[cutSlot side i] =
      if i ≤ v.cutSlope side then cutDesign v fs side i else c.coef[cutSlot side i] := by
  have hp : cutSlot side i ≠ peakSlot := fun e => peakSlot_ne_cutSlot side i e.symm
  rw [commitChain_eq h]
  cases side
  · simp only [assignStages_other _ _ _ _ _ (fun j => cutSlot_ne_of_side i j), assignStages_own, mem_stagesUpTo,
      getElem_set_fin, if_neg hp, stageAll_cut]
    split <;> rfl
  · simp only [assignStages_other _ .low _ _ _ (fun j e => cutSlot_ne_of_side j i e.symm), assignStages_own, mem_stagesUpTo,
      getElem_set_fin, if_neg hp, stageAll_cut]
    split <;> rfl

theorem commitChain_flags {v : Settings} {fs : Word} (h : designsFinite v fs = true) (stg : Vector Block 9) (c : Chain)
    (side : Side) (i : Fin 4) :
    (commitChain (stageAll v fs stg) v c).byp[cutFlag side i] = decide (v.cutSlope side < i) := by
  have hle : ∀ k i : Fin 4, (if i ≤ k then false else true) = decide (k < i) := by decide
  rw [commitChain_eq h]
  cases side
  · simp only [setFlags_other .high _ _ _ _ (fun j => cutFlag_ne_of_side i j), setFlags_own, mem_stagesUpTo, mem_all_stages,
      if_true, hle]
  · simp only [setFlags_own, mem_stagesUpTo, mem_all_stages, if_true, hle]

/-- Everything Commit changes. -/
theorem commit_spec (v : Settings) (fs : Word) (s : State) :
    ∃ (cs : Vector Chain 2) (pub : Published),
      commit v fs s = { s with asnap := v, stg := stageAll v fs s.stg, chains := cs, pub := pub } ∧
      (∀ ch : Fin 2, cs[ch] = commitChain (stageAll v fs s.stg) v (s.chain ch)) ∧
      pub = { coef := cs[(0 : Fin 2)].coef, byp := cs[(0 : Fin 2)].byp, fs := s.fs, seq := s.pub.seq + 1#32 } := by
  refine ⟨#v[commitChain (stageAll v fs s.stg) v (s.chain 0), commitChain (stageAll v fs s.stg) v (s.chain 1)], _, rfl, ?_,
    rfl⟩
  intro ch
  match ch with
  | 0 => rfl
  | 1 => rfl

section
variable (v : Settings) (fs : Word) (s : State)

@[simp] theorem commit_p : (commit v fs s).p = s.p := rfl
@[simp] theorem commit_lifecycle : (commit v fs s).lifecycle = s.lifecycle := rfl
@[simp] theorem commit_fault : (commit v fs s).fault = s.fault := rfl
@[simp] theorem commit_fs : (commit v fs s).fs = s.fs := rfl
@[simp] theorem commit_blocksize : (commit v fs s).blocksize = s.blocksize := rfl
@[simp] theorem commit_dirty : (commit v fs s).dirty = s.dirty := rfl
@[simp] theorem commit_recomputes : (commit v fs s).recomputes = s.recomputes := rfl
@[simp] theorem commit_viewW : (commit v fs s).viewW = s.viewW := rfl
@[simp] theorem commit_viewH : (commit v fs s).viewH = s.viewH := rfl
@[simp] theorem commit_crvLen : (commit v fs s).crvLen = s.crvLen := rfl
@[simp] theorem commit_rsnap : (commit v fs s).rsnap = s.rsnap := rfl
@[simp] theorem commit_smp : (commit v fs s).smp = s.smp := rfl
@[simp] theorem commit_crv : (commit v fs s).crv = s.crv := rfl
@[simp] theorem commit_portA : (commit v fs s).portA = s.portA := rfl
@[simp] theorem commit_portR : (commit v fs s).portR = s.portR := rfl
@[simp] theorem commit_portH : (commit v fs s).portH = s.portH := rfl
@[simp] theorem commit_active : (commit v fs s).active = s.active := rfl
@[simp] theorem commit_schedule : (commit v fs s).schedule = s.schedule := rfl
@[simp] theorem commit_draws : (commit v fs s).draws = s.draws := rfl
@[simp] theorem commit_epoch : (commit v fs s).epoch = s.epoch := rfl
@[simp] theorem commit_asnap : (commit v fs s).asnap = v := rfl
@[simp] theorem commit_stg : (commit v fs s).stg = stageAll v fs s.stg := rfl

end

/-! ### Channels -/

theorem mem_channels (lo hi : Nat) (ch : Fin 2) : ch ∈ channels lo hi ↔ lo ≤ ch.val ∧ ch.val < hi := by
  have h : ch ∈ ([0, 1] : List (Fin 2)) := by revert ch; decide
  simp [channels, List.mem_filter, h]

/-- Clearing channels leaves every byte outside the cleared samples. -/
theorem clear_bytes (l : List (Fin 2)) (n : Nat) (free : Nat → Byte) (m : Memory) (a : Nat)
    (ha : ∀ ch ∈ l, ∀ i < n, a / 4 ≠ smpCell ch i) :
    (l.foldl (fun m ch => clearSamples ch n m) m).byteAt free a = m.byteAt free a := by
  induction l generalizing m with
  | nil => rfl
  | cons ch l ih =>
    rw [List.foldl_cons, ih _ (fun c hc => ha c (by simp [hc]))]
    exact (range_writes (fun m n => m.writeWord (smpCell ch n) F32.zero) (fun _ _ => F32.zero) (smpCell ch 0)
      (fun m i => by simp [smpCell]) free n m).2.2 a (fun i hi => ha ch (by simp) i hi)

/-- What running a channel changes. -/
theorem runChannel_spec (ch : Fin 2) (n : Nat) (s : State) : ∃ (z : Vector Delay 9) (m : Memory) (d : Nat),
    runChannel ch n s = ((s.setChain ch { s.chain ch with z := z }).setSmp m).setDraws d ∧
      ∀ a, (∀ i < n, a / 4 ≠ smpCell ch i) → m.byteAt (Config.unwrittenSmp s.epoch) a = s.smpByte a := by
  obtain ⟨-, -, -, -, h⟩ := procSamples_spec (s.chain ch) (Config.unwrittenSmp s.epoch) ch n
    { smp := s.smp, z := (s.chain ch).z, draws := s.draws }
  exact ⟨_, _, _, rfl, h⟩

/-- What running the channels of `l` one after the other leaves: SMP outside their samples, the coefficients and flags of every
chain, the delay words of the chains not run. -/
structure RanChannels (l : List (Fin 2)) (n : Nat) (s t : State) : Prop where
  rest : ∃ (cs : Vector Chain 2) (m : Memory) (d : Nat), t = ((s.setChains cs).setSmp m).setDraws d
  coef : ∀ c, (t.chain c).coef = (s.chain c).coef ∧ (t.chain c).byp = (s.chain c).byp
  z : ∀ c, c ∉ l → (t.chain c).z = (s.chain c).z
  bytes : ∀ a, (∀ ch ∈ l, ∀ i < n, a / 4 ≠ smpCell ch i) → t.smpByte a = s.smpByte a

theorem ranChannels (l : List (Fin 2)) (n : Nat) (s : State) :
    RanChannels l n s (l.foldl (fun s ch => runChannel ch n s) s) := by
  induction l generalizing s with
  | nil => exact ⟨⟨s.chains, s.smp, s.draws, rfl⟩, fun c => ⟨rfl, rfl⟩, fun c _ => rfl, fun a _ => rfl⟩
  | cons ch l ih =>
    rw [List.foldl_cons]
    obtain ⟨z, m, d, he, hb⟩ := runChannel_spec ch n s
    obtain ⟨⟨cs, m', d', ht⟩, h2, h3, h4⟩ := ih (runChannel ch n s)
    have hcc : ∀ c, (runChannel ch n s).chain c = if c = ch then { s.chain ch with z := z } else s.chain c := by
      intro c; rw [he]; exact chain_setChain s ch c _
    refine ⟨⟨cs, m', d', by rw [ht, he]; rfl⟩, ?_, ?_, ?_⟩
    · intro c
      rw [(h2 c).1, (h2 c).2, hcc]
      split
      · rename_i e; subst e; exact ⟨rfl, rfl⟩
      · exact ⟨rfl, rfl⟩
    · intro c hc
      rw [h3 c (fun h => hc (by simp [h])), hcc, if_neg (fun e => hc (by simp [e]))]
    · intro a ha
      rw [h4 a (fun c hc => ha c (by simp [hc]))]
      have e : (runChannel ch n s).smpByte a = m.byteAt (Config.unwrittenSmp s.epoch) a := by rw [he]; rfl
      rw [e, hb a (ha ch (by simp))]

section
variable (nin nout n : Nat) (s : State)

theorem runChannels_eq : RanChannels (channels 0 (max nin nout)) n s (runChannels nin nout n s) :=
  ranChannels _ _ _

@[simp] theorem runChannels_p : (runChannels nin nout n s).p = s.p := by
  obtain ⟨⟨cs, m, d, h⟩, -, -, -⟩ := runChannels_eq nin nout n s; rw [h]; rfl
@[simp] theorem runChannels_lifecycle : (runChannels nin nout n s).lifecycle = s.lifecycle := by
  obtain ⟨⟨cs, m, d, h⟩, -, -, -⟩ := runChannels_eq nin nout n s; rw [h]; rfl
@[simp] theorem runChannels_fault : (runChannels nin nout n s).fault = s.fault := by
  obtain ⟨⟨cs, m, d, h⟩, -, -, -⟩ := runChannels_eq nin nout n s; rw [h]; rfl
@[simp] theorem runChannels_fs : (runChannels nin nout n s).fs = s.fs := by
  obtain ⟨⟨cs, m, d, h⟩, -, -, -⟩ := runChannels_eq nin nout n s; rw [h]; rfl
@[simp] theorem runChannels_blocksize : (runChannels nin nout n s).blocksize = s.blocksize := by
  obtain ⟨⟨cs, m, d, h⟩, -, -, -⟩ := runChannels_eq nin nout n s; rw [h]; rfl
@[simp] theorem runChannels_dirty : (runChannels nin nout n s).dirty = s.dirty := by
  obtain ⟨⟨cs, m, d, h⟩, -, -, -⟩ := runChannels_eq nin nout n s; rw [h]; rfl
@[simp] theorem runChannels_recomputes : (runChannels nin nout n s).recomputes = s.recomputes := by
  obtain ⟨⟨cs, m, d, h⟩, -, -, -⟩ := runChannels_eq nin nout n s; rw [h]; rfl
@[simp] theorem runChannels_viewW : (runChannels nin nout n s).viewW = s.viewW := by
  obtain ⟨⟨cs, m, d, h⟩, -, -, -⟩ := runChannels_eq nin nout n s; rw [h]; rfl
@[simp] theorem runChannels_viewH : (runChannels nin nout n s).viewH = s.viewH := by
  obtain ⟨⟨cs, m, d, h⟩, -, -, -⟩ := runChannels_eq nin nout n s; rw [h]; rfl
@[simp] theorem runChannels_crvLen : (runChannels nin nout n s).crvLen = s.crvLen := by
  obtain ⟨⟨cs, m, d, h⟩, -, -, -⟩ := runChannels_eq nin nout n s; rw [h]; rfl
@[simp] theorem runChannels_asnap : (runChannels nin nout n s).asnap = s.asnap := by
  obtain ⟨⟨cs, m, d, h⟩, -, -, -⟩ := runChannels_eq nin nout n s; rw [h]; rfl
@[simp] theorem runChannels_rsnap : (runChannels nin nout n s).rsnap = s.rsnap := by
  obtain ⟨⟨cs, m, d, h⟩, -, -, -⟩ := runChannels_eq nin nout n s; rw [h]; rfl
@[simp] theorem runChannels_stg : (runChannels nin nout n s).stg = s.stg := by
  obtain ⟨⟨cs, m, d, h⟩, -, -, -⟩ := runChannels_eq nin nout n s; rw [h]; rfl
@[simp] theorem runChannels_pub : (runChannels nin nout n s).pub = s.pub := by
  obtain ⟨⟨cs, m, d, h⟩, -, -, -⟩ := runChannels_eq nin nout n s; rw [h]; rfl
@[simp] theorem runChannels_crv : (runChannels nin nout n s).crv = s.crv := by
  obtain ⟨⟨cs, m, d, h⟩, -, -, -⟩ := runChannels_eq nin nout n s; rw [h]; rfl
@[simp] theorem runChannels_portA : (runChannels nin nout n s).portA = s.portA := by
  obtain ⟨⟨cs, m, d, h⟩, -, -, -⟩ := runChannels_eq nin nout n s; rw [h]; rfl
@[simp] theorem runChannels_portR : (runChannels nin nout n s).portR = s.portR := by
  obtain ⟨⟨cs, m, d, h⟩, -, -, -⟩ := runChannels_eq nin nout n s; rw [h]; rfl
@[simp] theorem runChannels_portH : (runChannels nin nout n s).portH = s.portH := by
  obtain ⟨⟨cs, m, d, h⟩, -, -, -⟩ := runChannels_eq nin nout n s; rw [h]; rfl
@[simp] theorem runChannels_active : (runChannels nin nout n s).active = s.active := by
  obtain ⟨⟨cs, m, d, h⟩, -, -, -⟩ := runChannels_eq nin nout n s; rw [h]; rfl
@[simp] theorem runChannels_schedule : (runChannels nin nout n s).schedule = s.schedule := by
  obtain ⟨⟨cs, m, d, h⟩, -, -, -⟩ := runChannels_eq nin nout n s; rw [h]; rfl
@[simp] theorem runChannels_epoch : (runChannels nin nout n s).epoch = s.epoch := by
  obtain ⟨⟨cs, m, d, h⟩, -, -, -⟩ := runChannels_eq nin nout n s; rw [h]; rfl

end

/-! ### The lanes of a BLOCK -/

/-- A sample of the buffer after BLOCK's first step (44_audio_loop R224, R226). -/
theorem clearOutputs_read {nin nout n : Nat} (hn : n ≤ 65536) (s : State) {ch : Fin 2} (hm : ch.val < max nin nout) {i : Nat}
    (hi : i < n) : (clearOutputs nin nout n s).readSmp ch i = if nin ≤ ch.val then F32.zero else s.readSmp ch i := by
  have hother : ∀ (c : Fin 2) (m : Memory), c ≠ ch → (clearSamples c n m).readWord (Config.unwrittenSmp s.epoch) (smpCell ch i) =
      m.readWord (Config.unwrittenSmp s.epoch) (smpCell ch i) := by
    intro c m hc
    refine (clearSamples_read c n _ m).2 _ fun j hj => ?_
    have : c.val ≠ ch.val := fun e => hc (Fin.ext e)
    unfold smpCell; omega
  have hfold : ∀ (l : List (Fin 2)) (m : Memory),
      (l.foldl (fun m ch => clearSamples ch n m) m).readWord (Config.unwrittenSmp s.epoch) (smpCell ch i) =
        if ch ∈ l then F32.zero else m.readWord (Config.unwrittenSmp s.epoch) (smpCell ch i) := by
    intro l
    induction l with
    | nil => intro m; simp
    | cons c l ih =>
      intro m
      rw [List.foldl_cons, ih]
      by_cases h1 : ch ∈ l
      · simp [h1]
      · by_cases h2 : ch = c
        · subst h2; simp [h1, (clearSamples_read ch n _ m).1 i hi]
        · simp [h1, h2, hother c m fun e => h2 e.symm]
  refine (hfold (channels nin nout) s.smp).trans ?_
  by_cases h : nin ≤ ch.val
  · rw [if_pos h, if_pos ((mem_channels _ _ _).mpr ⟨h, by omega⟩)]
  · rw [if_neg h, if_neg fun e => h ((mem_channels _ _ _).mp e).1]; rfl

/-- What BLOCK's last step does to the samples and delay words of each channel of the buffer, channel 0 first
(44_audio_loop R224). -/
theorem runChannels_lanes (nin nout : Nat) {n : Nat} (hn : n ≤ 65536) (s : State) :
    ∃ lane : Fin 2 → Nat → Lane, ∀ ch : Fin 2, ch.val < max nin nout →
      (lane ch 0).z = (s.chain ch).z ∧ (lane ch 0).draws = (if ch = 0 then s.draws else (lane 0 n).draws) ∧
      (∀ i < n, lane ch (i + 1) =
          runSample (s.chain ch) { v := s.readSmp ch i, z := (lane ch i).z, draws := (lane ch i).draws } ∧
        (runChannels nin nout n s).readSmp ch i = (lane ch (i + 1)).v) ∧
      ((runChannels nin nout n s).chain ch).z = (lane ch n).z := by
  let s1 := runChannel 0 n s
  obtain ⟨a1, a2, a3, a4⟩ := runChannel_lane 0 hn s
  obtain ⟨-, b2, b3, b4⟩ := runChannel_lane 1 hn s1
  have c1 := a4 1 (by decide)
  have c0 := b4 0 (by decide)
  rcases Nat.lt_or_ge (max nin nout) 2 with hm | hm
  · refine ⟨fun ch => laneAfter (s.chain ch) (fun i => s.readSmp ch i) (s.chain ch).z s.draws, fun ch hch => ?_⟩
    have e0 : ch = 0 := Fin.ext (by show ch.val = 0; omega)
    subst e0
    have h1 : max nin nout = 1 := by change 0 < _ at hch; omega
    have hr : runChannels nin nout n s = s1 := by unfold runChannels; rw [h1]; rfl
    rw [hr]
    exact ⟨rfl, rfl, fun i hi => ⟨rfl, a3 i hi⟩, a2⟩
  · have hl : channels 0 (max nin nout) = [0, 1] := by
      have h0 : decide (0 ≤ (0 : Fin 2).val ∧ (0 : Fin 2).val < max nin nout) = true :=
        decide_eq_true ⟨Nat.zero_le _, by show 0 < _; omega⟩
      have h1 : decide (0 ≤ (1 : Fin 2).val ∧ (1 : Fin 2).val < max nin nout) = true :=
        decide_eq_true ⟨Nat.zero_le _, by show 1 < _; omega⟩
      simp only [channels, List.filter, h0, h1]
    have hr : runChannels nin nout n s = runChannel 1 n s1 := by unfold runChannels; rw [hl]; rfl
    rw [hr]
    refine ⟨fun ch => if ch = 0 then laneAfter (s.chain 0) (fun i => s.readSmp 0 i) (s.chain 0).z s.draws
      else laneAfter (s1.chain 1) (fun i => s1.readSmp 1 i) (s1.chain 1).z s1.draws, fun ch hch => ?_⟩
    match ch with
    | 0 =>
      simp only [if_true]
      exact ⟨rfl, rfl, fun i hi => ⟨rfl, (c0.2 i (by omega)).trans (a3 i hi)⟩, (congrArg Chain.z c0.1).trans a2⟩
    | 1 =>
      simp only [show ((1 : Fin 2) = 0) = False from by simp, if_false, if_true]
      refine ⟨by rw [laneAfter, c1.1], a1, fun i hi => ⟨?_, b3 i hi⟩, b2⟩
      conv_lhs => rw [laneAfter]
      rw [c1.2 i (by omega), runSample_congr (congrArg Chain.coef c1.1) (congrArg Chain.byp c1.1)]

/-- Everything BLOCK's channels change, with the lanes that give the samples and delay words (44_audio_loop R224). -/
theorem runChannels_spec (nin nout : Nat) {n : Nat} (hn : n ≤ 65536) (s : State) :
    ∃ (cs : Vector Chain 2) (m : Memory) (d : Nat) (lane : Fin 2 → Nat → Lane),
      runChannels nin nout n s = ((s.setChains cs).setSmp m).setDraws d ∧
      (∀ c : Fin 2, cs[c].coef = (s.chain c).coef ∧ cs[c].byp = (s.chain c).byp) ∧
      (∀ c : Fin 2, max nin nout ≤ c.val → cs[c].z = (s.chain c).z) ∧
      (∀ ch : Fin 2, ch.val < max nin nout →
        (lane ch 0).z = (s.chain ch).z ∧ (lane ch 0).draws = (if ch = 0 then s.draws else (lane 0 n).draws) ∧
        (∀ i < n, lane ch (i + 1) =
            runSample cs[ch] { v := s.readSmp ch i, z := (lane ch i).z, draws := (lane ch i).draws } ∧
          m.readWord (Config.unwrittenSmp s.epoch) (smpCell ch i) = (lane ch (i + 1)).v) ∧
        cs[ch].z = (lane ch n).z) ∧
      ∀ a, (∀ ch : Fin 2, ch.val < max nin nout → ∀ i < n, a / 4 ≠ smpCell ch i) →
        m.byteAt (Config.unwrittenSmp s.epoch) a = s.smpByte a := by
  obtain ⟨lane, hl⟩ := runChannels_lanes nin nout hn s
  obtain ⟨⟨cs, m, d, ht⟩, hco, hz, hby⟩ := runChannels_eq nin nout n s
  rw [ht] at hco hz hby
  simp only [ht] at hl
  refine ⟨cs, m, d, lane, ht, hco, fun c hc => hz c (by rw [mem_channels]; omega), fun ch hch => ?_,
    fun a ha => hby a fun ch hch i hi => ha ch ((mem_channels _ _ _).mp hch).2 i hi⟩
  obtain ⟨l1, l2, l3, l4⟩ := hl ch hch
  refine ⟨l1, l2, fun i hi => ⟨?_, (l3 i hi).2⟩, l4⟩
  rw [(l3 i hi).1]; exact (runSample_congr (hco ch).1 (hco ch).2 _).symm

/-- Commit on a state whose output-only channels BLOCK has just cleared (44_audio_loop R224, R226). -/
theorem commit_cleared_spec (nin nout : Nat) {n : Nat} (hn : n ≤ 65536) (v : Settings) (s : State) :
    ∃ (m : Memory) (cs : Vector Chain 2) (pub : Published),
      commit v s.fs (clearOutputs nin nout n s) =
        { s.setSmp m with asnap := v, stg := stageAll v s.fs s.stg, chains := cs, pub := pub } ∧
      pub = { coef := cs[(0 : Fin 2)].coef, byp := cs[(0 : Fin 2)].byp, fs := s.fs, seq := s.pub.seq + 1#32 } ∧
      (∀ c : Fin 2, cs[c] = commitChain (stageAll v s.fs s.stg) v (s.chain c)) ∧
      (∀ ch : Fin 2, ch.val < max nin nout → ∀ i < n, m.readWord (Config.unwrittenSmp s.epoch) (smpCell ch i) =
        if nin ≤ ch.val then F32.zero else s.readSmp ch i) ∧
      ∀ a, (∀ ch : Fin 2, ch.val < max nin nout → ∀ i < n, a / 4 ≠ smpCell ch i) →
        m.byteAt (Config.unwrittenSmp s.epoch) a = s.smpByte a := by
  obtain ⟨cs, pub, hu, hcs, hpub⟩ := commit_spec v s.fs (clearOutputs nin nout n s)
  exact ⟨_, cs, pub, hu, hpub, hcs, fun ch hm i hi => clearOutputs_read hn s hm hi, fun a ha =>
    clear_bytes (channels nin nout) n _ s.smp a fun ch hch i hi =>
      ha ch (by have := ((mem_channels _ _ _).mp hch).2; omega) i hi⟩

/-! ### The canonical form -/

/-- A memory in the canonical form that lists nothing at or above cell `bound`. -/
def Bounded (bound : Nat) (m : Memory) : Prop := m.wf ∧ ∀ k ∈ m.cells.map Prod.fst, k / 4 < bound

theorem bounded_writeWord {bound : Nat} {m : Memory} (h : Bounded bound m) {c : Nat} (hc : c < bound) (v : Word) :
    Bounded bound (m.writeWord c v) := by
  refine ⟨writeWord_wf h.1 c v, fun k hk => ?_⟩
  rcases writeWord_mem_keys m c k v hk with e | e
  · omega
  · exact h.2 k e

theorem smpCell_lt (ch : Fin 2) {i : Nat} (hi : i < 65536) : smpCell ch i < 131072 := by unfold smpCell; omega

theorem bounded_clearSamples (ch : Fin 2) {n : Nat} (hn : n ≤ 65536) {m : Memory} (h : Bounded 131072 m) :
    Bounded 131072 (clearSamples ch n m) := by
  induction n with
  | zero => exact h
  | succ n ih =>
    rw [clearSamples, List.range_succ, List.foldl_append]
    exact bounded_writeWord (ih (by omega)) (smpCell_lt ch (by omega)) _

theorem bounded_procSamples (c : Chain) (free : Nat → Byte) (ch : Fin 2) {n : Nat} (hn : n ≤ 65536) (r : Run)
    (h : Bounded 131072 r.smp) : Bounded 131072 (procSamples c free ch n r).smp := by
  induction n with
  | zero => exact h
  | succ n ih =>
    rw [procSamples, List.range_succ, List.foldl_append]
    exact bounded_writeWord (ih (by omega)) (smpCell_lt ch (by omega)) _

theorem bounded_runChannels (l : List (Fin 2)) {n : Nat} (hn : n ≤ 65536) (s : State) (h : Bounded 131072 s.smp) :
    Bounded 131072 (l.foldl (fun s ch => runChannel ch n s) s).smp := by
  induction l generalizing s with
  | nil => exact h
  | cons ch l ih => exact ih _ (bounded_procSamples _ _ ch hn _ h)

theorem bounded_clearOutputs (l : List (Fin 2)) {n : Nat} (hn : n ≤ 65536) (m : Memory) (h : Bounded 131072 m) :
    Bounded 131072 (l.foldl (fun m ch => clearSamples ch n m) m) := by
  induction l generalizing m with
  | nil => exact h
  | cons ch l ih => exact ih _ (bounded_clearSamples ch hn h)

end Sys2Proof.Laws
end

