-- ==== Sys2Proof/Laws/Curve.lean ====
section
/-! SUPPORT. What drawing the polyline leaves in CRV (45_renderer R248). -/

namespace Sys2Proof.Laws

open Machine

theorem drawCurve_succ (pub : Published) (w h n : Nat) (m : Memory) :
    (List.range (n + 1)).foldl (fun m p => m.writeWord p (curvePoint pub w h p)) m =
      ((List.range n).foldl (fun m p => m.writeWord p (curvePoint pub w h p)) m).writeWord n (curvePoint pub w h n) := by
  rw [List.range_succ, List.foldl_append]; rfl

/-- Each point drawn reads as its coordinate, and every byte from point `w` on is as before. -/
theorem drawCurve_spec (pub : Published) (w h : Nat) (free : Nat → Byte) (m : Memory) :
    (∀ p < w, (drawCurve pub w h m).readWord free p = curvePoint pub w h p) ∧
      ∀ a, w ≤ a / 4 → (drawCurve pub w h m).byteAt free a = m.byteAt free a := by
  have hr := range_writes (fun m p => m.writeWord p (curvePoint pub w h p)) (fun _ p => curvePoint pub w h p) 0
    (fun m i => by simp) free w m
  refine ⟨fun p hp => by simpa [drawCurve] using hr.1 p hp, fun a ha => hr.2.2 a (fun i hi => by omega)⟩

/-- The points drawn are written, and what was written stays so. -/
theorem drawCurve_written (pub : Published) (w h c : Nat) (m : Memory) (hc : c < w ∨ cellWritten m c) :
    cellWritten (drawCurve pub w h m) c := by
  unfold drawCurve
  suffices H : ∀ n, (c < n ∨ cellWritten m c) →
      cellWritten ((List.range n).foldl (fun m p => m.writeWord p (curvePoint pub w h p)) m) c from H w hc
  intro n hn
  induction n with
  | zero => exact hn.resolve_left (Nat.not_lt_zero c)
  | succ n ih =>
    rw [drawCurve_succ]
    by_cases e : c = n
    · subst e; exact cellWritten_writeWord_self _ _ _
    · refine cellWritten_writeWord _ _ _ _ (ih ?_)
      rcases hn with h1 | h1
      · left; omega
      · exact .inr h1

theorem bounded_drawCurve (pub : Published) (w h : Nat) {m : Memory} (hw : w ≤ Config.wmax) (hm : Bounded Config.wmax m) :
    Bounded Config.wmax (drawCurve pub w h m) := by
  unfold drawCurve
  suffices H : ∀ n ≤ Config.wmax,
      Bounded Config.wmax ((List.range n).foldl (fun m p => m.writeWord p (curvePoint pub w h p)) m) from H w hw
  intro n hn
  induction n with
  | zero => exact hm
  | succ n ih =>
    rw [drawCurve_succ]
    exact bounded_writeWord (ih (by omega)) (by omega) _

end Sys2Proof.Laws
end

