-- ==== Sys2Proof/Laws/Decode.lean ====
section
/-! SUPPORT. The fields of a command word, its must-be-zero bits field by field, and the decoder's three answers. -/

namespace Sys2Proof.Laws

open Machine (operandsLegal sideBit)

/-! ### Fields -/

@[simp] theorem fieldsOf_wordOf (f : Fields) : fieldsOf (wordOf f) = f := by
  obtain ⟨o, a, b, m⟩ := f
  simp only [fieldsOf, wordOf, Fields.mk.injEq]
  refine ⟨?_, ?_, ?_, ?_⟩ <;> ext i hi <;> simp [BitVec.getElem_extractLsb'] <;> grind

@[simp] theorem wordOf_fieldsOf (w : CommandWord) : wordOf (fieldsOf w) = w := by
  simp only [fieldsOf, wordOf]
  ext i hi
  simp
  grind

theorem and_append {m n : Nat} (x u : BitVec m) (y v : BitVec n) : (x ++ y) &&& (u ++ v) = (x &&& u) ++ (y &&& v) := by
  ext i hi
  simp only [BitVec.getElem_and, BitVec.getElem_append]
  split <;> rfl

theorem wordOf_and (f g : Fields) : wordOf f &&& wordOf g =
    wordOf { opc := f.opc &&& g.opc, a := f.a &&& g.a, b := f.b &&& g.b, imm := f.imm &&& g.imm } := by
  exact (and_append ..).trans (congrArg ((f.opc &&& g.opc) ++ ·)
    ((and_append ..).trans (congrArg ((f.a &&& g.a) ++ ·) (and_append ..))))

theorem wordOf_eq_zero (f : Fields) : wordOf f = 0#64 ↔ f.opc = 0#8 ∧ f.a = 0#8 ∧ f.b = 0#16 ∧ f.imm = 0#32 := by
  constructor
  · intro h
    have h1 : f = fieldsOf 0#64 := by rw [← h, fieldsOf_wordOf]
    rw [h1]
    decide
  · rintro ⟨h1, h2, h3, h4⟩
    obtain ⟨o, a, b, m⟩ := f
    simp only at h1 h2 h3 h4
    subst h1 h2 h3 h4
    decide

/-! ### Opcodes -/

theorem opcodeOf_code (o : Opcode) : opcodeOf o.code = some o := by cases o <;> decide

theorem opcodeOf_some {c : BitVec 8} {o : Opcode} (h : opcodeOf c = some o) : o.code = c := by
  have := List.find?_some h
  simpa using this

theorem opcodeOf_none {c : BitVec 8} : opcodeOf c = none ↔ ∀ o : Opcode, o.code ≠ c := by
  unfold opcodeOf
  rw [List.find?_eq_none]
  constructor
  · intro h o
    have := h o (by cases o <;> simp [Opcode.all])
    simpa using this
  · intro h o _
    simpa using h o

/-! ### Must-be-zero bits -/

/-- The must-be-zero bits of a command, field by field. -/
def zeroFields : Opcode → Fields
  | .rdreg => { opc := 0#8, a := 0xFF#8, b := 0#16, imm := 0xFFFFFFFF#32 }
  | .pwrite => { opc := 0#8, a := 0#8, b := 0xFFFF#16, imm := 0#32 }
  | .pread => { opc := 0#8, a := 0#8, b := 0xFFFF#16, imm := 0xFFFFFFFF#32 }
  | .pdefault => { opc := 0#8, a := 0xFF#8, b := 0xFFFF#16, imm := 0xFFFFFFFF#32 }
  | .prepare => { opc := 0#8, a := 0xFF#8, b := 0#16, imm := 0#32 }
  | .block => { opc := 0#8, a := 0#8, b := 0#16, imm := 0xFFFFFFFF#32 }
  | .release => { opc := 0#8, a := 0xFF#8, b := 0xFFFF#16, imm := 0xFFFFFFFF#32 }
  | .wrsmp => { opc := 0#8, a := 0xFE#8, b := 0#16, imm := 0#32 }
  | .rdsmp => { opc := 0#8, a := 0xFE#8, b := 0#16, imm := 0xFFFFFFFF#32 }
  | .clrch => { opc := 0#8, a := 0xFE#8, b := 0#16, imm := 0xFFFFFFFF#32 }
  | .proc => { opc := 0#8, a := 0xFE#8, b := 0#16, imm := 0xFFFFFFFF#32 }
  | .snap => { opc := 0#8, a := 0xFF#8, b := 0xFFFF#16, imm := 0xFFFFFFFF#32 }
  | .despk => { opc := 0#8, a := 0xFF#8, b := 0xFFFF#16, imm := 0xFFFFFFFF#32 }
  | .descut => { opc := 0#8, a := 0xFE#8, b := 0xFFFF#16, imm := 0xFFFFFFFF#32 }
  | .ldstg => { opc := 0#8, a := 0#8, b := 0#16, imm := 0#32 }
  | .setpk => { opc := 0#8, a := 0xFE#8, b := 0xFFFF#16, imm := 0xFFFFFFFF#32 }
  | .setcut => { opc := 0#8, a := 0xFC#8, b := 0#16, imm := 0xFFFFFFFF#32 }
  | .publish => { opc := 0#8, a := 0xFF#8, b := 0xFFFF#16, imm := 0xFFFFFFFF#32 }
  | .tick => { opc := 0#8, a := 0xFF#8, b := 0xFFFF#16, imm := 0xFFFFFFFF#32 }
  | .setview => { opc := 0#8, a := 0xFF#8, b := 0#16, imm := 0xFFFF0000#32 }
  | .rdcrv => { opc := 0#8, a := 0xFF#8, b := 0#16, imm := 0xFFFFFFFF#32 }

theorem zeroMask_eq (o : Opcode) : o.zeroMask = wordOf (zeroFields o) := by cases o <;> decide

theorem zeroMask_iff (o : Opcode) (w : CommandWord) : w &&& o.zeroMask = 0#64 ↔
    (fieldsOf w).a &&& (zeroFields o).a = 0#8 ∧ (fieldsOf w).b &&& (zeroFields o).b = 0#16 ∧
      (fieldsOf w).imm &&& (zeroFields o).imm = 0#32 := by
  have h : (zeroFields o).opc = 0#8 := by cases o <;> rfl
  conv_lhs => rw [zeroMask_eq, ← wordOf_fieldsOf w, wordOf_and, wordOf_eq_zero]
  simp [h]

theorem and_ff (a : BitVec 8) : a &&& 0xFF#8 = a := BitVec.and_allOnes
theorem and_ffff (b : BitVec 16) : b &&& 0xFFFF#16 = b := BitVec.and_allOnes
theorem and_ffffffff (m : BitVec 32) : m &&& 0xFFFFFFFF#32 = m := BitVec.and_allOnes

theorem channel_bits : ∀ a : BitVec 8, a &&& 0xFE#8 = 0#8 → BitVec.ofNat 8 (a.toNat % 2) = a := by decide +kernel

theorem side_bits : ∀ a : BitVec 8, a &&& 0xFE#8 = 0#8 → BitVec.ofNat 8 (sideBit (sideOf a.toNat)) = a := by decide +kernel

theorem channel_side_bits : ∀ a : BitVec 8, a &&& 0xFC#8 = 0#8 →
    BitVec.ofNat 8 (a.toNat % 2 + 2 * sideBit (sideOf (a.toNat / 2))) = a := by decide +kernel

theorem nibbles (a : BitVec 8) : a.extractLsb' 4 4 ++ a.extractLsb' 0 4 = a := by revert a; decide +kernel

theorem low_half (m : BitVec 32) (h : m &&& 0xFFFF0000#32 = 0#32) : (0#16 ++ m.extractLsb' 0 16 : BitVec 32) = m := by
  have hm : ∀ i < 32, 16 ≤ i → (0xFFFF0000#32).getLsbD i = true := by decide
  have hb : ∀ i < 32, 16 ≤ i → m.getLsbD i = false := by
    intro i hi h16
    have h2 := congrArg (fun x : BitVec 32 => x.getLsbD i) h
    simp only [BitVec.getLsbD_and, hm i hi h16, Bool.and_true, BitVec.getLsbD_zero] at h2
    exact h2
  apply BitVec.eq_of_getLsbD_eq
  intro i hi
  simp only [BitVec.getLsbD_append, BitVec.getLsbD_extractLsb', BitVec.getLsbD_zero, Nat.zero_add]
  rcases Nat.lt_or_ge i 16 with h16 | h16
  · simp [h16]
  · simp [Nat.not_lt.mpr h16, hb i hi h16]

/-! ### The operands -/

/-- The opcode of the operands taken for an opcode is that opcode. -/
@[simp] theorem opcode_operandsOf (o : Opcode) (f : Fields) : (operandsOf o f).opcode = o := by cases o <;> rfl

/-- With the must-be-zero bits zero, encoding puts back the fields the operands came from. -/
theorem encode_operandsOf (o : Opcode) (w : CommandWord) (hc : o.code = (fieldsOf w).opc) (hz : w &&& o.zeroMask = 0#64) :
    encode (operandsOf o (fieldsOf w)) = w := by
  rw [zeroMask_iff] at hz
  unfold encode
  rw [opcode_operandsOf, hc]
  conv_rhs => rw [← wordOf_fieldsOf w]
  generalize fieldsOf w = f at *
  obtain ⟨opc, a, b, m⟩ := f
  obtain ⟨ha, hb, hm⟩ := hz
  cases o <;>
    simp only [zeroFields, and_ff, and_ffff, and_ffffffff] at ha hb hm <;>
    simp only [operandsOf, fieldA, fieldB, fieldImm, chOf, nibbles, channel_bits, side_bits, channel_side_bits, low_half,
      ha, hb, hm]

theorem chOf_ofNat (ch : Fin 2) (o : BitVec 8) (b : BitVec 16) (m : BitVec 32) :
    chOf { opc := o, a := BitVec.ofNat 8 ch.val, b := b, imm := m } = ch := by
  apply Fin.ext
  show (BitVec.ofNat 8 ch.val).toNat % 2 = ch.val
  clear o b m; revert ch; decide

theorem chOf_side (ch : Fin 2) (s : Side) (o : BitVec 8) (b : BitVec 16) (m : BitVec 32) :
    chOf { opc := o, a := BitVec.ofNat 8 (ch.val + 2 * sideBit s), b := b, imm := m } = ch := by
  apply Fin.ext
  show (BitVec.ofNat 8 (ch.val + 2 * sideBit s)).toNat % 2 = ch.val
  clear o b m; cases s <;> revert ch <;> decide

theorem sideOf_ofNat (s : Side) : sideOf (BitVec.ofNat 8 (sideBit s)).toNat = s := by cases s <;> decide

theorem sideOf_channel (ch : Fin 2) (s : Side) : sideOf ((BitVec.ofNat 8 (ch.val + 2 * sideBit s)).toNat / 2) = s := by
  cases s <;> revert ch <;> decide

theorem low_nibble (x y : BitVec 4) : (x ++ y : BitVec 8).extractLsb' 0 4 = y := by revert x y; decide +kernel
theorem high_nibble (x y : BitVec 4) : (x ++ y : BitVec 8).extractLsb' 4 4 = x := by revert x y; decide +kernel

theorem low_half_append (h : BitVec 16) : (0#16 ++ h : BitVec 32).extractLsb' 0 16 = h := by
  ext i hi; simp; grind

theorem high_half_zero (h : BitVec 16) : (0#16 ++ h : BitVec 32) &&& 0xFFFF0000#32 = 0#32 := by
  rw [show (0xFFFF0000#32 : BitVec 32) = 0xFFFF#16 ++ 0#16 by decide, and_append]
  simp

/-- The operands taken from an encoded command are its own. -/
theorem operandsOf_encode (i : Instr) : operandsOf i.opcode (fieldsOf (encode i)) = i := by
  unfold encode
  rw [fieldsOf_wordOf]
  cases i <;> simp only [Instr.opcode, operandsOf, fieldA, fieldB, fieldImm, chOf_ofNat, chOf_side, sideOf_ofNat,
    sideOf_channel, low_nibble, high_nibble, low_half_append]

theorem ch_mask (ch : Fin 2) : BitVec.ofNat 8 ch.val &&& 0xFE#8 = 0#8 := by revert ch; decide
theorem side_mask (s : Side) : BitVec.ofNat 8 (sideBit s) &&& 0xFE#8 = 0#8 := by cases s <;> decide
theorem ch_side_mask (ch : Fin 2) (s : Side) : BitVec.ofNat 8 (ch.val + 2 * sideBit s) &&& 0xFC#8 = 0#8 := by
  cases s <;> revert ch <;> decide

/-- An encoded command has its must-be-zero bits zero. -/
theorem encode_zeroMask (i : Instr) : encode i &&& i.opcode.zeroMask = 0#64 := by
  rw [zeroMask_iff]
  unfold encode
  rw [fieldsOf_wordOf]
  cases i <;> simp [Instr.opcode, zeroFields, fieldA, fieldB, fieldImm, ch_mask, side_mask, ch_side_mask, high_half_zero]

theorem opc_encode (i : Instr) : (fieldsOf (encode i)).opc = i.opcode.code := by
  unfold encode; rw [fieldsOf_wordOf]

/-! ### The decoder's three answers -/

theorem decode_ok_iff (w : CommandWord) (i : Instr) : decode w = .ok i ↔
    i.opcode.code = (fieldsOf w).opc ∧ w &&& i.opcode.zeroMask = 0#64 ∧ operandsLegal i = true ∧
      operandsOf i.opcode (fieldsOf w) = i := by
  unfold decode
  cases h : opcodeOf (fieldsOf w).opc with
  | none =>
    simp only [reduceCtorEq, false_iff]
    rintro ⟨hc, -⟩
    exact opcodeOf_none.mp h _ hc
  | some o =>
    have ho := opcodeOf_some h
    simp only
    split
    · rename_i hc
      simp only [Decoded.ok.injEq]
      constructor
      · intro he
        have : i.opcode = o := by rw [← he, opcode_operandsOf]
        rw [this]
        exact ⟨ho, hc.1, he ▸ hc.2, he⟩
      · rintro ⟨h1, _, _, h4⟩
        have : i.opcode = o := by
          have := opcodeOf_code i.opcode
          rw [h1, h] at this
          exact (Option.some.inj this).symm
        rw [← this]; exact h4
    · rename_i hc
      simp only [reduceCtorEq, false_iff]
      rintro ⟨h1, h2, h3, h4⟩
      have : i.opcode = o := by
        have := opcodeOf_code i.opcode
        rw [h1, h] at this
        exact (Option.some.inj this).symm
      rw [this] at h2 h4
      exact hc ⟨h2, by rw [h4]; exact h3⟩

theorem decode_illegalOpcode_iff (w : CommandWord) : decode w = .illegalOpcode ↔ ∀ o : Opcode, o.code ≠ (fieldsOf w).opc := by
  unfold decode
  cases h : opcodeOf (fieldsOf w).opc with
  | none => simpa using opcodeOf_none.mp h
  | some o =>
    have ho := opcodeOf_some h
    have : decode w ≠ .illegalOpcode := by unfold decode; rw [h]; simp only; split <;> simp
    unfold decode at this
    rw [h] at this
    simp only at this ⊢
    simp only [this, false_iff, not_forall, not_not]
    exact ⟨o, ho⟩

theorem decode_illegalOperand_iff (w : CommandWord) (o : Opcode) : decode w = .illegalOperand o ↔
    o.code = (fieldsOf w).opc ∧ ¬ (w &&& o.zeroMask = 0#64 ∧ operandsLegal (operandsOf o (fieldsOf w)) = true) := by
  unfold decode
  cases h : opcodeOf (fieldsOf w).opc with
  | none =>
    simp only [reduceCtorEq, false_iff]
    rintro ⟨hc, -⟩
    exact opcodeOf_none.mp h _ hc
  | some o' =>
    have ho := opcodeOf_some h
    have hu : ∀ o : Opcode, o.code = (fieldsOf w).opc → o = o' := by
      intro o hc
      have := opcodeOf_code o
      rw [hc, h] at this
      exact (Option.some.inj this).symm
    simp only
    split
    · rename_i hc
      simp only [reduceCtorEq, false_iff]
      rintro ⟨h1, h2⟩
      rw [hu o h1] at h2
      exact h2 hc
    · rename_i hc
      simp only [Decoded.illegalOperand.injEq]
      constructor
      · rintro rfl; exact ⟨ho, hc⟩
      · rintro ⟨h1, -⟩; exact (hu o h1).symm

end Sys2Proof.Laws
end

