-- ==== Sys2Proof/Laws/Parameters.lean ====
section
/-! SUPPORT. The eight steps of PDEFAULT end in one state, from wherever among them one starts (41_parameters R153). -/

namespace Sys2Proof.Laws

open Machine

/-- The store with the parameters from `n` on at their defaults. -/
def defaultsFrom (n : Nat) (p : Vector Word 7) : Vector Word 7 := Vector.ofFn fun i => if i.val < n then p[i] else defP[i]

theorem defaultsFrom_zero (p : Vector Word 7) : defaultsFrom 0 p = defP := by
  ext i hi; simp [defaultsFrom]

theorem defaultsFrom_seven (p : Vector Word 7) : defaultsFrom 7 p = p := by
  ext i hi; simp only [defaultsFrom, Vector.getElem_ofFn, if_pos hi]; rfl

theorem defaultsFrom_set (n : Nat) (h : n < 7) (p : Vector Word 7) :
    defaultsFrom (n + 1) (p.set n defP[n]) = defaultsFrom n p := by
  ext i hi
  simp only [defaultsFrom, Vector.getElem_ofFn, Fin.getElem_fin, Vector.getElem_set]
  split <;> split <;> (try split) <;> first | rfl | omega | (subst_vars; rfl)

/-- The last step of PDEFAULT with the remaining writes made. -/
def defaultFinish (n : Nat) (s : State) : State := ((s.setParams (defaultsFrom n s.p)).setDirty true).done 0#32

theorem defaultFinish_step (n : Nat) (h : n < 7) (s : State) :
    defaultFinish (n + 1) (defaultStep ⟨n, by omega⟩ s) = defaultFinish n s := by
  unfold defaultFinish defaultStep
  simp only [h, dif_pos]
  cases s with
  | mk p _ _ _ _ _ _ _ _ _ _ _ _ _ _ _ _ _ _ _ active =>
    cases active <;>
      simp only [State.setPort, State.port, State.setParam, State.setParams, State.setDirty, State.done, State.respond,
        defaultsFrom_set n h]

theorem defaultSteps_eq (k n : Nat) (s : State) (h : n + k = 7) : defaultSteps (k + 1) n s = defaultFinish n s := by
  induction k generalizing n s with
  | zero =>
    have hn : n = 7 := by omega
    subst hn
    simp [defaultSteps, defaultStep, defaultFinish, defaultsFrom_seven]
    rfl
  | succ k ih =>
    rw [defaultSteps, dif_pos (by omega), ih _ _ (by omega), defaultFinish_step n (by omega)]

theorem defaultSteps_more (k m n : Nat) (s : State) (h : n + k = 7) : defaultSteps (k + 1 + m) n s = defaultSteps (k + 1) n s := by
  induction k generalizing n s with
  | zero =>
    have hn : n = 7 := by omega
    subst hn
    rw [Nat.zero_add, Nat.add_comm, defaultSteps, defaultSteps, dif_pos (by omega), dif_pos (by omega)]
    cases m with
    | zero => rfl
    | succ m => simp [defaultSteps]
  | succ k ih =>
    rw [show k + 1 + 1 + m = (k + 1 + m) + 1 by omega, defaultSteps, defaultSteps, dif_pos (by omega), dif_pos (by omega),
      ih _ _ (by omega)]

/-- All the steps left of a PDEFAULT from step `n` on. -/
theorem defaultSteps_eight (n : Nat) (h : n ≤ 7) (s : State) : defaultSteps 8 n s = defaultFinish n s := by
  have h1 := defaultSteps_more (7 - n) n n s (by omega)
  rw [show 7 - n + 1 + n = 8 by omega] at h1
  rw [h1, defaultSteps_eq _ _ _ (by omega)]

theorem defaultSteps_all (s : State) : defaultSteps 8 0 s = ((s.setParams defP).setDirty true).done 0#32 := by
  rw [defaultSteps_eight 0 (by omega), defaultFinish, defaultsFrom_zero]

end Sys2Proof.Laws
end

