-- ==== Sys2Proof/Laws/PerInstr.lean ====
section
/-! SUPPORT. The family Encoding, command by command: the encoded word carries the command's opcode, its must-be-zero bits are
zero, and its operand fields are the command's operands (30_encoding R91, R94, R96). -/

namespace Sys2Proof.Laws.Encoding

/-- What the encoded word of a command is. -/
def Statement (i : Instr) : Prop :=
  (encode i).extractLsb' 56 8 = i.opcode.code ∧ encode i &&& i.opcode.zeroMask = 0#64 ∧
    operandsOf i.opcode (fieldsOf (encode i)) = i

theorem of_laws (i : Instr) : Statement i := ⟨opc_encode i, encode_zeroMask i, operandsOf_encode i⟩

theorem rdreg (addr : BitVec 16) : Statement (.rdreg addr) := of_laws _
theorem pwrite (idx : BitVec 8) (value : Word) : Statement (.pwrite idx value) := of_laws _
theorem pread (idx : BitVec 8) : Statement (.pread idx) := of_laws _
theorem pdefault : Statement .pdefault := of_laws _
theorem prepare (bs : BitVec 16) (fs : Word) : Statement (.prepare bs fs) := of_laws _
theorem block (nin nout : BitVec 4) (count : BitVec 16) : Statement (.block nin nout count) := of_laws _
theorem release : Statement .release := of_laws _
theorem wrsmp (ch : Fin 2) (index : BitVec 16) (value : Word) : Statement (.wrsmp ch index value) := of_laws _
theorem rdsmp (ch : Fin 2) (index : BitVec 16) : Statement (.rdsmp ch index) := of_laws _
theorem clrch (ch : Fin 2) (count : BitVec 16) : Statement (.clrch ch count) := of_laws _
theorem proc (ch : Fin 2) (count : BitVec 16) : Statement (.proc ch count) := of_laws _
theorem snap : Statement .snap := of_laws _
theorem despk : Statement .despk := of_laws _
theorem descut (side : Side) : Statement (.descut side) := of_laws _
theorem ldstg (slot : BitVec 8) (k : BitVec 16) (value : Word) : Statement (.ldstg slot k value) := of_laws _
theorem setpk (ch : Fin 2) : Statement (.setpk ch) := of_laws _
theorem setcut (ch : Fin 2) (side : Side) (slope : BitVec 16) : Statement (.setcut ch side slope) := of_laws _
theorem publish : Statement .publish := of_laws _
theorem tick : Statement .tick := of_laws _
theorem setview (width height : BitVec 16) : Statement (.setview width height) := of_laws _
theorem rdcrv (index : BitVec 16) : Statement (.rdcrv index) := of_laws _

end Sys2Proof.Laws.Encoding
end

