-- ==== Sys2Proof/Laws/State.lean ====
section
/-! SUPPORT. One lemma per field per named update of the state, and per field of the response, the fault and the other shared
updates, so that no proof unfolds a record update. -/

namespace Sys2Proof.Machine.State

variable (s : State)

/-! ### setParam -/

@[simp] theorem setParam_p (i : Fin 7) (v : Word) : (s.setParam i v).p = s.p.set i v := rfl
@[simp] theorem setParam_lifecycle (i : Fin 7) (v : Word) : (s.setParam i v).lifecycle = s.lifecycle := rfl
@[simp] theorem setParam_fault (i : Fin 7) (v : Word) : (s.setParam i v).fault = s.fault := rfl
@[simp] theorem setParam_fs (i : Fin 7) (v : Word) : (s.setParam i v).fs = s.fs := rfl
@[simp] theorem setParam_blocksize (i : Fin 7) (v : Word) : (s.setParam i v).blocksize = s.blocksize := rfl
@[simp] theorem setParam_dirty (i : Fin 7) (v : Word) : (s.setParam i v).dirty = s.dirty := rfl
@[simp] theorem setParam_recomputes (i : Fin 7) (v : Word) : (s.setParam i v).recomputes = s.recomputes := rfl
@[simp] theorem setParam_viewW (i : Fin 7) (v : Word) : (s.setParam i v).viewW = s.viewW := rfl
@[simp] theorem setParam_viewH (i : Fin 7) (v : Word) : (s.setParam i v).viewH = s.viewH := rfl
@[simp] theorem setParam_crvLen (i : Fin 7) (v : Word) : (s.setParam i v).crvLen = s.crvLen := rfl
@[simp] theorem setParam_asnap (i : Fin 7) (v : Word) : (s.setParam i v).asnap = s.asnap := rfl
@[simp] theorem setParam_rsnap (i : Fin 7) (v : Word) : (s.setParam i v).rsnap = s.rsnap := rfl
@[simp] theorem setParam_stg (i : Fin 7) (v : Word) : (s.setParam i v).stg = s.stg := rfl
@[simp] theorem setParam_chains (i : Fin 7) (v : Word) : (s.setParam i v).chains = s.chains := rfl
@[simp] theorem setParam_pub (i : Fin 7) (v : Word) : (s.setParam i v).pub = s.pub := rfl
@[simp] theorem setParam_smp (i : Fin 7) (v : Word) : (s.setParam i v).smp = s.smp := rfl
@[simp] theorem setParam_crv (i : Fin 7) (v : Word) : (s.setParam i v).crv = s.crv := rfl
@[simp] theorem setParam_portA (i : Fin 7) (v : Word) : (s.setParam i v).portA = s.portA := rfl
@[simp] theorem setParam_portR (i : Fin 7) (v : Word) : (s.setParam i v).portR = s.portR := rfl
@[simp] theorem setParam_portH (i : Fin 7) (v : Word) : (s.setParam i v).portH = s.portH := rfl
@[simp] theorem setParam_active (i : Fin 7) (v : Word) : (s.setParam i v).active = s.active := rfl
@[simp] theorem setParam_schedule (i : Fin 7) (v : Word) : (s.setParam i v).schedule = s.schedule := rfl
@[simp] theorem setParam_draws (i : Fin 7) (v : Word) : (s.setParam i v).draws = s.draws := rfl
@[simp] theorem setParam_epoch (i : Fin 7) (v : Word) : (s.setParam i v).epoch = s.epoch := rfl
@[simp] theorem setParam_port (i : Fin 7) (v : Word) (x : Port) : (s.setParam i v).port x = s.port x := by cases x <;> rfl
@[simp] theorem setParam_chain (i : Fin 7) (v : Word) (c' : Fin 2) : (s.setParam i v).chain c' = s.chain c' := rfl

/-! ### setParams -/

@[simp] theorem setParams_p (v : Vector Word 7) : (s.setParams v).p = v := rfl
@[simp] theorem setParams_lifecycle (v : Vector Word 7) : (s.setParams v).lifecycle = s.lifecycle := rfl
@[simp] theorem setParams_fault (v : Vector Word 7) : (s.setParams v).fault = s.fault := rfl
@[simp] theorem setParams_fs (v : Vector Word 7) : (s.setParams v).fs = s.fs := rfl
@[simp] theorem setParams_blocksize (v : Vector Word 7) : (s.setParams v).blocksize = s.blocksize := rfl
@[simp] theorem setParams_dirty (v : Vector Word 7) : (s.setParams v).dirty = s.dirty := rfl
@[simp] theorem setParams_recomputes (v : Vector Word 7) : (s.setParams v).recomputes = s.recomputes := rfl
@[simp] theorem setParams_viewW (v : Vector Word 7) : (s.setParams v).viewW = s.viewW := rfl
@[simp] theorem setParams_viewH (v : Vector Word 7) : (s.setParams v).viewH = s.viewH := rfl
@[simp] theorem setParams_crvLen (v : Vector Word 7) : (s.setParams v).crvLen = s.crvLen := rfl
@[simp] theorem setParams_asnap (v : Vector Word 7) : (s.setParams v).asnap = s.asnap := rfl
@[simp] theorem setParams_rsnap (v : Vector Word 7) : (s.setParams v).rsnap = s.rsnap := rfl
@[simp] theorem setParams_stg (v : Vector Word 7) : (s.setParams v).stg = s.stg := rfl
@[simp] theorem setParams_chains (v : Vector Word 7) : (s.setParams v).chains = s.chains := rfl
@[simp] theorem setParams_pub (v : Vector Word 7) : (s.setParams v).pub = s.pub := rfl
@[simp] theorem setParams_smp (v : Vector Word 7) : (s.setParams v).smp = s.smp := rfl
@[simp] theorem setParams_crv (v : Vector Word 7) : (s.setParams v).crv = s.crv := rfl
@[simp] theorem setParams_portA (v : Vector Word 7) : (s.setParams v).portA = s.portA := rfl
@[simp] theorem setParams_portR (v : Vector Word 7) : (s.setParams v).portR = s.portR := rfl
@[simp] theorem setParams_portH (v : Vector Word 7) : (s.setParams v).portH = s.portH := rfl
@[simp] theorem setParams_active (v : Vector Word 7) : (s.setParams v).active = s.active := rfl
@[simp] theorem setParams_schedule (v : Vector Word 7) : (s.setParams v).schedule = s.schedule := rfl
@[simp] theorem setParams_draws (v : Vector Word 7) : (s.setParams v).draws = s.draws := rfl
@[simp] theorem setParams_epoch (v : Vector Word 7) : (s.setParams v).epoch = s.epoch := rfl
@[simp] theorem setParams_port (v : Vector Word 7) (x : Port) : (s.setParams v).port x = s.port x := by cases x <;> rfl
@[simp] theorem setParams_chain (v : Vector Word 7) (c' : Fin 2) : (s.setParams v).chain c' = s.chain c' := rfl

/-! ### setDirty -/

@[simp] theorem setDirty_p (b : Bool) : (s.setDirty b).p = s.p := rfl
@[simp] theorem setDirty_lifecycle (b : Bool) : (s.setDirty b).lifecycle = s.lifecycle := rfl
@[simp] theorem setDirty_fault (b : Bool) : (s.setDirty b).fault = s.fault := rfl
@[simp] theorem setDirty_fs (b : Bool) : (s.setDirty b).fs = s.fs := rfl
@[simp] theorem setDirty_blocksize (b : Bool) : (s.setDirty b).blocksize = s.blocksize := rfl
@[simp] theorem setDirty_dirty (b : Bool) : (s.setDirty b).dirty = b := rfl
@[simp] theorem setDirty_recomputes (b : Bool) : (s.setDirty b).recomputes = s.recomputes := rfl
@[simp] theorem setDirty_viewW (b : Bool) : (s.setDirty b).viewW = s.viewW := rfl
@[simp] theorem setDirty_viewH (b : Bool) : (s.setDirty b).viewH = s.viewH := rfl
@[simp] theorem setDirty_crvLen (b : Bool) : (s.setDirty b).crvLen = s.crvLen := rfl
@[simp] theorem setDirty_asnap (b : Bool) : (s.setDirty b).asnap = s.asnap := rfl
@[simp] theorem setDirty_rsnap (b : Bool) : (s.setDirty b).rsnap = s.rsnap := rfl
@[simp] theorem setDirty_stg (b : Bool) : (s.setDirty b).stg = s.stg := rfl
@[simp] theorem setDirty_chains (b : Bool) : (s.setDirty b).chains = s.chains := rfl
@[simp] theorem setDirty_pub (b : Bool) : (s.setDirty b).pub = s.pub := rfl
@[simp] theorem setDirty_smp (b : Bool) : (s.setDirty b).smp = s.smp := rfl
@[simp] theorem setDirty_crv (b : Bool) : (s.setDirty b).crv = s.crv := rfl
@[simp] theorem setDirty_portA (b : Bool) : (s.setDirty b).portA = s.portA := rfl
@[simp] theorem setDirty_portR (b : Bool) : (s.setDirty b).portR = s.portR := rfl
@[simp] theorem setDirty_portH (b : Bool) : (s.setDirty b).portH = s.portH := rfl
@[simp] theorem setDirty_active (b : Bool) : (s.setDirty b).active = s.active := rfl
@[simp] theorem setDirty_schedule (b : Bool) : (s.setDirty b).schedule = s.schedule := rfl
@[simp] theorem setDirty_draws (b : Bool) : (s.setDirty b).draws = s.draws := rfl
@[simp] theorem setDirty_epoch (b : Bool) : (s.setDirty b).epoch = s.epoch := rfl
@[simp] theorem setDirty_port (b : Bool) (x : Port) : (s.setDirty b).port x = s.port x := by cases x <;> rfl
@[simp] theorem setDirty_chain (b : Bool) (c' : Fin 2) : (s.setDirty b).chain c' = s.chain c' := rfl

/-! ### setFault -/

@[simp] theorem setFault_p (w : Word) : (s.setFault w).p = s.p := rfl
@[simp] theorem setFault_lifecycle (w : Word) : (s.setFault w).lifecycle = s.lifecycle := rfl
@[simp] theorem setFault_fault (w : Word) : (s.setFault w).fault = w := rfl
@[simp] theorem setFault_fs (w : Word) : (s.setFault w).fs = s.fs := rfl
@[simp] theorem setFault_blocksize (w : Word) : (s.setFault w).blocksize = s.blocksize := rfl
@[simp] theorem setFault_dirty (w : Word) : (s.setFault w).dirty = s.dirty := rfl
@[simp] theorem setFault_recomputes (w : Word) : (s.setFault w).recomputes = s.recomputes := rfl
@[simp] theorem setFault_viewW (w : Word) : (s.setFault w).viewW = s.viewW := rfl
@[simp] theorem setFault_viewH (w : Word) : (s.setFault w).viewH = s.viewH := rfl
@[simp] theorem setFault_crvLen (w : Word) : (s.setFault w).crvLen = s.crvLen := rfl
@[simp] theorem setFault_asnap (w : Word) : (s.setFault w).asnap = s.asnap := rfl
@[simp] theorem setFault_rsnap (w : Word) : (s.setFault w).rsnap = s.rsnap := rfl
@[simp] theorem setFault_stg (w : Word) : (s.setFault w).stg = s.stg := rfl
@[simp] theorem setFault_chains (w : Word) : (s.setFault w).chains = s.chains := rfl
@[simp] theorem setFault_pub (w : Word) : (s.setFault w).pub = s.pub := rfl
@[simp] theorem setFault_smp (w : Word) : (s.setFault w).smp = s.smp := rfl
@[simp] theorem setFault_crv (w : Word) : (s.setFault w).crv = s.crv := rfl
@[simp] theorem setFault_portA (w : Word) : (s.setFault w).portA = s.portA := rfl
@[simp] theorem setFault_portR (w : Word) : (s.setFault w).portR = s.portR := rfl
@[simp] theorem setFault_portH (w : Word) : (s.setFault w).portH = s.portH := rfl
@[simp] theorem setFault_active (w : Word) : (s.setFault w).active = s.active := rfl
@[simp] theorem setFault_schedule (w : Word) : (s.setFault w).schedule = s.schedule := rfl
@[simp] theorem setFault_draws (w : Word) : (s.setFault w).draws = s.draws := rfl
@[simp] theorem setFault_epoch (w : Word) : (s.setFault w).epoch = s.epoch := rfl
@[simp] theorem setFault_port (w : Word) (x : Port) : (s.setFault w).port x = s.port x := by cases x <;> rfl
@[simp] theorem setFault_chain (w : Word) (c' : Fin 2) : (s.setFault w).chain c' = s.chain c' := rfl

/-! ### setLifecycle -/

@[simp] theorem setLifecycle_p (l : Lifecycle) : (s.setLifecycle l).p = s.p := rfl
@[simp] theorem setLifecycle_lifecycle (l : Lifecycle) : (s.setLifecycle l).lifecycle = l := rfl
@[simp] theorem setLifecycle_fault (l : Lifecycle) : (s.setLifecycle l).fault = s.fault := rfl
@[simp] theorem setLifecycle_fs (l : Lifecycle) : (s.setLifecycle l).fs = s.fs := rfl
@[simp] theorem setLifecycle_blocksize (l : Lifecycle) : (s.setLifecycle l).blocksize = s.blocksize := rfl
@[simp] theorem setLifecycle_dirty (l : Lifecycle) : (s.setLifecycle l).dirty = s.dirty := rfl
@[simp] theorem setLifecycle_recomputes (l : Lifecycle) : (s.setLifecycle l).recomputes = s.recomputes := rfl
@[simp] theorem setLifecycle_viewW (l : Lifecycle) : (s.setLifecycle l).viewW = s.viewW := rfl
@[simp] theorem setLifecycle_viewH (l : Lifecycle) : (s.setLifecycle l).viewH = s.viewH := rfl
@[simp] theorem setLifecycle_crvLen (l : Lifecycle) : (s.setLifecycle l).crvLen = s.crvLen := rfl
@[simp] theorem setLifecycle_asnap (l : Lifecycle) : (s.setLifecycle l).asnap = s.asnap := rfl
@[simp] theorem setLifecycle_rsnap (l : Lifecycle) : (s.setLifecycle l).rsnap = s.rsnap := rfl
@[simp] theorem setLifecycle_stg (l : Lifecycle) : (s.setLifecycle l).stg = s.stg := rfl
@[simp] theorem setLifecycle_chains (l : Lifecycle) : (s.setLifecycle l).chains = s.chains := rfl
@[simp] theorem setLifecycle_pub (l : Lifecycle) : (s.setLifecycle l).pub = s.pub := rfl
@[simp] theorem setLifecycle_smp (l : Lifecycle) : (s.setLifecycle l).smp = s.smp := rfl
@[simp] theorem setLifecycle_crv (l : Lifecycle) : (s.setLifecycle l).crv = s.crv := rfl
@[simp] theorem setLifecycle_portA (l : Lifecycle) : (s.setLifecycle l).portA = s.portA := rfl
@[simp] theorem setLifecycle_portR (l : Lifecycle) : (s.setLifecycle l).portR = s.portR := rfl
@[simp] theorem setLifecycle_portH (l : Lifecycle) : (s.setLifecycle l).portH = s.portH := rfl
@[simp] theorem setLifecycle_active (l : Lifecycle) : (s.setLifecycle l).active = s.active := rfl
@[simp] theorem setLifecycle_schedule (l : Lifecycle) : (s.setLifecycle l).schedule = s.schedule := rfl
@[simp] theorem setLifecycle_draws (l : Lifecycle) : (s.setLifecycle l).draws = s.draws := rfl
@[simp] theorem setLifecycle_epoch (l : Lifecycle) : (s.setLifecycle l).epoch = s.epoch := rfl
@[simp] theorem setLifecycle_port (l : Lifecycle) (x : Port) : (s.setLifecycle l).port x = s.port x := by cases x <;> rfl
@[simp] theorem setLifecycle_chain (l : Lifecycle) (c' : Fin 2) : (s.setLifecycle l).chain c' = s.chain c' := rfl

/-! ### setRate -/

@[simp] theorem setRate_p (f : Word) (b : BitVec 16) : (s.setRate f b).p = s.p := rfl
@[simp] theorem setRate_lifecycle (f : Word) (b : BitVec 16) : (s.setRate f b).lifecycle = s.lifecycle := rfl
@[simp] theorem setRate_fault (f : Word) (b : BitVec 16) : (s.setRate f b).fault = s.fault := rfl
@[simp] theorem setRate_fs (f : Word) (b : BitVec 16) : (s.setRate f b).fs = f := rfl
@[simp] theorem setRate_blocksize (f : Word) (b : BitVec 16) : (s.setRate f b).blocksize = b := rfl
@[simp] theorem setRate_dirty (f : Word) (b : BitVec 16) : (s.setRate f b).dirty = s.dirty := rfl
@[simp] theorem setRate_recomputes (f : Word) (b : BitVec 16) : (s.setRate f b).recomputes = s.recomputes := rfl
@[simp] theorem setRate_viewW (f : Word) (b : BitVec 16) : (s.setRate f b).viewW = s.viewW := rfl
@[simp] theorem setRate_viewH (f : Word) (b : BitVec 16) : (s.setRate f b).viewH = s.viewH := rfl
@[simp] theorem setRate_crvLen (f : Word) (b : BitVec 16) : (s.setRate f b).crvLen = s.crvLen := rfl
@[simp] theorem setRate_asnap (f : Word) (b : BitVec 16) : (s.setRate f b).asnap = s.asnap := rfl
@[simp] theorem setRate_rsnap (f : Word) (b : BitVec 16) : (s.setRate f b).rsnap = s.rsnap := rfl
@[simp] theorem setRate_stg (f : Word) (b : BitVec 16) : (s.setRate f b).stg = s.stg := rfl
@[simp] theorem setRate_chains (f : Word) (b : BitVec 16) : (s.setRate f b).chains = s.chains := rfl
@[simp] theorem setRate_pub (f : Word) (b : BitVec 16) : (s.setRate f b).pub = s.pub := rfl
@[simp] theorem setRate_smp (f : Word) (b : BitVec 16) : (s.setRate f b).smp = s.smp := rfl
@[simp] theorem setRate_crv (f : Word) (b : BitVec 16) : (s.setRate f b).crv = s.crv := rfl
@[simp] theorem setRate_portA (f : Word) (b : BitVec 16) : (s.setRate f b).portA = s.portA := rfl
@[simp] theorem setRate_portR (f : Word) (b : BitVec 16) : (s.setRate f b).portR = s.portR := rfl
@[simp] theorem setRate_portH (f : Word) (b : BitVec 16) : (s.setRate f b).portH = s.portH := rfl
@[simp] theorem setRate_active (f : Word) (b : BitVec 16) : (s.setRate f b).active = s.active := rfl
@[simp] theorem setRate_schedule (f : Word) (b : BitVec 16) : (s.setRate f b).schedule = s.schedule := rfl
@[simp] theorem setRate_draws (f : Word) (b : BitVec 16) : (s.setRate f b).draws = s.draws := rfl
@[simp] theorem setRate_epoch (f : Word) (b : BitVec 16) : (s.setRate f b).epoch = s.epoch := rfl
@[simp] theorem setRate_port (f : Word) (b : BitVec 16) (x : Port) : (s.setRate f b).port x = s.port x := by cases x <;> rfl
@[simp] theorem setRate_chain (f : Word) (b : BitVec 16) (c' : Fin 2) : (s.setRate f b).chain c' = s.chain c' := rfl

/-! ### setAsnap -/

@[simp] theorem setAsnap_p (v : Settings) : (s.setAsnap v).p = s.p := rfl
@[simp] theorem setAsnap_lifecycle (v : Settings) : (s.setAsnap v).lifecycle = s.lifecycle := rfl
@[simp] theorem setAsnap_fault (v : Settings) : (s.setAsnap v).fault = s.fault := rfl
@[simp] theorem setAsnap_fs (v : Settings) : (s.setAsnap v).fs = s.fs := rfl
@[simp] theorem setAsnap_blocksize (v : Settings) : (s.setAsnap v).blocksize = s.blocksize := rfl
@[simp] theorem setAsnap_dirty (v : Settings) : (s.setAsnap v).dirty = s.dirty := rfl
@[simp] theorem setAsnap_recomputes (v : Settings) : (s.setAsnap v).recomputes = s.recomputes := rfl
@[simp] theorem setAsnap_viewW (v : Settings) : (s.setAsnap v).viewW = s.viewW := rfl
@[simp] theorem setAsnap_viewH (v : Settings) : (s.setAsnap v).viewH = s.viewH := rfl
@[simp] theorem setAsnap_crvLen (v : Settings) : (s.setAsnap v).crvLen = s.crvLen := rfl
@[simp] theorem setAsnap_asnap (v : Settings) : (s.setAsnap v).asnap = v := rfl
@[simp] theorem setAsnap_rsnap (v : Settings) : (s.setAsnap v).rsnap = s.rsnap := rfl
@[simp] theorem setAsnap_stg (v : Settings) : (s.setAsnap v).stg = s.stg := rfl
@[simp] theorem setAsnap_chains (v : Settings) : (s.setAsnap v).chains = s.chains := rfl
@[simp] theorem setAsnap_pub (v : Settings) : (s.setAsnap v).pub = s.pub := rfl
@[simp] theorem setAsnap_smp (v : Settings) : (s.setAsnap v).smp = s.smp := rfl
@[simp] theorem setAsnap_crv (v : Settings) : (s.setAsnap v).crv = s.crv := rfl
@[simp] theorem setAsnap_portA (v : Settings) : (s.setAsnap v).portA = s.portA := rfl
@[simp] theorem setAsnap_portR (v : Settings) : (s.setAsnap v).portR = s.portR := rfl
@[simp] theorem setAsnap_portH (v : Settings) : (s.setAsnap v).portH = s.portH := rfl
@[simp] theorem setAsnap_active (v : Settings) : (s.setAsnap v).active = s.active := rfl
@[simp] theorem setAsnap_schedule (v : Settings) : (s.setAsnap v).schedule = s.schedule := rfl
@[simp] theorem setAsnap_draws (v : Settings) : (s.setAsnap v).draws = s.draws := rfl
@[simp] theorem setAsnap_epoch (v : Settings) : (s.setAsnap v).epoch = s.epoch := rfl
@[simp] theorem setAsnap_port (v : Settings) (x : Port) : (s.setAsnap v).port x = s.port x := by cases x <;> rfl
@[simp] theorem setAsnap_chain (v : Settings) (c' : Fin 2) : (s.setAsnap v).chain c' = s.chain c' := rfl

/-! ### setRsnap -/

@[simp] theorem setRsnap_p (v : Settings) : (s.setRsnap v).p = s.p := rfl
@[simp] theorem setRsnap_lifecycle (v : Settings) : (s.setRsnap v).lifecycle = s.lifecycle := rfl
@[simp] theorem setRsnap_fault (v : Settings) : (s.setRsnap v).fault = s.fault := rfl
@[simp] theorem setRsnap_fs (v : Settings) : (s.setRsnap v).fs = s.fs := rfl
@[simp] theorem setRsnap_blocksize (v : Settings) : (s.setRsnap v).blocksize = s.blocksize := rfl
@[simp] theorem setRsnap_dirty (v : Settings) : (s.setRsnap v).dirty = s.dirty := rfl
@[simp] theorem setRsnap_recomputes (v : Settings) : (s.setRsnap v).recomputes = s.recomputes := rfl
@[simp] theorem setRsnap_viewW (v : Settings) : (s.setRsnap v).viewW = s.viewW := rfl
@[simp] theorem setRsnap_viewH (v : Settings) : (s.setRsnap v).viewH = s.viewH := rfl
@[simp] theorem setRsnap_crvLen (v : Settings) : (s.setRsnap v).crvLen = s.crvLen := rfl
@[simp] theorem setRsnap_asnap (v : Settings) : (s.setRsnap v).asnap = s.asnap := rfl
@[simp] theorem setRsnap_rsnap (v : Settings) : (s.setRsnap v).rsnap = v := rfl
@[simp] theorem setRsnap_stg (v : Settings) : (s.setRsnap v).stg = s.stg := rfl
@[simp] theorem setRsnap_chains (v : Settings) : (s.setRsnap v).chains = s.chains := rfl
@[simp] theorem setRsnap_pub (v : Settings) : (s.setRsnap v).pub = s.pub := rfl
@[simp] theorem setRsnap_smp (v : Settings) : (s.setRsnap v).smp = s.smp := rfl
@[simp] theorem setRsnap_crv (v : Settings) : (s.setRsnap v).crv = s.crv := rfl
@[simp] theorem setRsnap_portA (v : Settings) : (s.setRsnap v).portA = s.portA := rfl
@[simp] theorem setRsnap_portR (v : Settings) : (s.setRsnap v).portR = s.portR := rfl
@[simp] theorem setRsnap_portH (v : Settings) : (s.setRsnap v).portH = s.portH := rfl
@[simp] theorem setRsnap_active (v : Settings) : (s.setRsnap v).active = s.active := rfl
@[simp] theorem setRsnap_schedule (v : Settings) : (s.setRsnap v).schedule = s.schedule := rfl
@[simp] theorem setRsnap_draws (v : Settings) : (s.setRsnap v).draws = s.draws := rfl
@[simp] theorem setRsnap_epoch (v : Settings) : (s.setRsnap v).epoch = s.epoch := rfl
@[simp] theorem setRsnap_port (v : Settings) (x : Port) : (s.setRsnap v).port x = s.port x := by cases x <;> rfl
@[simp] theorem setRsnap_chain (v : Settings) (c' : Fin 2) : (s.setRsnap v).chain c' = s.chain c' := rfl

/-! ### setStaging -/

@[simp] theorem setStaging_p (v : Vector Block 9) : (s.setStaging v).p = s.p := rfl
@[simp] theorem setStaging_lifecycle (v : Vector Block 9) : (s.setStaging v).lifecycle = s.lifecycle := rfl
@[simp] theorem setStaging_fault (v : Vector Block 9) : (s.setStaging v).fault = s.fault := rfl
@[simp] theorem setStaging_fs (v : Vector Block 9) : (s.setStaging v).fs = s.fs := rfl
@[simp] theorem setStaging_blocksize (v : Vector Block 9) : (s.setStaging v).blocksize = s.blocksize := rfl
@[simp] theorem setStaging_dirty (v : Vector Block 9) : (s.setStaging v).dirty = s.dirty := rfl
@[simp] theorem setStaging_recomputes (v : Vector Block 9) : (s.setStaging v).recomputes = s.recomputes := rfl
@[simp] theorem setStaging_viewW (v : Vector Block 9) : (s.setStaging v).viewW = s.viewW := rfl
@[simp] theorem setStaging_viewH (v : Vector Block 9) : (s.setStaging v).viewH = s.viewH := rfl
@[simp] theorem setStaging_crvLen (v : Vector Block 9) : (s.setStaging v).crvLen = s.crvLen := rfl
@[simp] theorem setStaging_asnap (v : Vector Block 9) : (s.setStaging v).asnap = s.asnap := rfl
@[simp] theorem setStaging_rsnap (v : Vector Block 9) : (s.setStaging v).rsnap = s.rsnap := rfl
@[simp] theorem setStaging_stg (v : Vector Block 9) : (s.setStaging v).stg = v := rfl
@[simp] theorem setStaging_chains (v : Vector Block 9) : (s.setStaging v).chains = s.chains := rfl
@[simp] theorem setStaging_pub (v : Vector Block 9) : (s.setStaging v).pub = s.pub := rfl
@[simp] theorem setStaging_smp (v : Vector Block 9) : (s.setStaging v).smp = s.smp := rfl
@[simp] theorem setStaging_crv (v : Vector Block 9) : (s.setStaging v).crv = s.crv := rfl
@[simp] theorem setStaging_portA (v : Vector Block 9) : (s.setStaging v).portA = s.portA := rfl
@[simp] theorem setStaging_portR (v : Vector Block 9) : (s.setStaging v).portR = s.portR := rfl
@[simp] theorem setStaging_portH (v : Vector Block 9) : (s.setStaging v).portH = s.portH := rfl
@[simp] theorem setStaging_active (v : Vector Block 9) : (s.setStaging v).active = s.active := rfl
@[simp] theorem setStaging_schedule (v : Vector Block 9) : (s.setStaging v).schedule = s.schedule := rfl
@[simp] theorem setStaging_draws (v : Vector Block 9) : (s.setStaging v).draws = s.draws := rfl
@[simp] theorem setStaging_epoch (v : Vector Block 9) : (s.setStaging v).epoch = s.epoch := rfl
@[simp] theorem setStaging_port (v : Vector Block 9) (x : Port) : (s.setStaging v).port x = s.port x := by cases x <;> rfl
@[simp] theorem setStaging_chain (v : Vector Block 9) (c' : Fin 2) : (s.setStaging v).chain c' = s.chain c' := rfl

/-! ### setChains -/

@[simp] theorem setChains_p (v : Vector Chain 2) : (s.setChains v).p = s.p := rfl
@[simp] theorem setChains_lifecycle (v : Vector Chain 2) : (s.setChains v).lifecycle = s.lifecycle := rfl
@[simp] theorem setChains_fault (v : Vector Chain 2) : (s.setChains v).fault = s.fault := rfl
@[simp] theorem setChains_fs (v : Vector Chain 2) : (s.setChains v).fs = s.fs := rfl
@[simp] theorem setChains_blocksize (v : Vector Chain 2) : (s.setChains v).blocksize = s.blocksize := rfl
@[simp] theorem setChains_dirty (v : Vector Chain 2) : (s.setChains v).dirty = s.dirty := rfl
@[simp] theorem setChains_recomputes (v : Vector Chain 2) : (s.setChains v).recomputes = s.recomputes := rfl
@[simp] theorem setChains_viewW (v : Vector Chain 2) : (s.setChains v).viewW = s.viewW := rfl
@[simp] theorem setChains_viewH (v : Vector Chain 2) : (s.setChains v).viewH = s.viewH := rfl
@[simp] theorem setChains_crvLen (v : Vector Chain 2) : (s.setChains v).crvLen = s.crvLen := rfl
@[simp] theorem setChains_asnap (v : Vector Chain 2) : (s.setChains v).asnap = s.asnap := rfl
@[simp] theorem setChains_rsnap (v : Vector Chain 2) : (s.setChains v).rsnap = s.rsnap := rfl
@[simp] theorem setChains_stg (v : Vector Chain 2) : (s.setChains v).stg = s.stg := rfl
@[simp] theorem setChains_chains (v : Vector Chain 2) : (s.setChains v).chains = v := rfl
@[simp] theorem setChains_pub (v : Vector Chain 2) : (s.setChains v).pub = s.pub := rfl
@[simp] theorem setChains_smp (v : Vector Chain 2) : (s.setChains v).smp = s.smp := rfl
@[simp] theorem setChains_crv (v : Vector Chain 2) : (s.setChains v).crv = s.crv := rfl
@[simp] theorem setChains_portA (v : Vector Chain 2) : (s.setChains v).portA = s.portA := rfl
@[simp] theorem setChains_portR (v : Vector Chain 2) : (s.setChains v).portR = s.portR := rfl
@[simp] theorem setChains_portH (v : Vector Chain 2) : (s.setChains v).portH = s.portH := rfl
@[simp] theorem setChains_active (v : Vector Chain 2) : (s.setChains v).active = s.active := rfl
@[simp] theorem setChains_schedule (v : Vector Chain 2) : (s.setChains v).schedule = s.schedule := rfl
@[simp] theorem setChains_draws (v : Vector Chain 2) : (s.setChains v).draws = s.draws := rfl
@[simp] theorem setChains_epoch (v : Vector Chain 2) : (s.setChains v).epoch = s.epoch := rfl
@[simp] theorem setChains_port (v : Vector Chain 2) (x : Port) : (s.setChains v).port x = s.port x := by cases x <;> rfl

/-! ### setChain -/

@[simp] theorem setChain_p (ch : Fin 2) (c : Chain) : (s.setChain ch c).p = s.p := rfl
@[simp] theorem setChain_lifecycle (ch : Fin 2) (c : Chain) : (s.setChain ch c).lifecycle = s.lifecycle := rfl
@[simp] theorem setChain_fault (ch : Fin 2) (c : Chain) : (s.setChain ch c).fault = s.fault := rfl
@[simp] theorem setChain_fs (ch : Fin 2) (c : Chain) : (s.setChain ch c).fs = s.fs := rfl
@[simp] theorem setChain_blocksize (ch : Fin 2) (c : Chain) : (s.setChain ch c).blocksize = s.blocksize := rfl
@[simp] theorem setChain_dirty (ch : Fin 2) (c : Chain) : (s.setChain ch c).dirty = s.dirty := rfl
@[simp] theorem setChain_recomputes (ch : Fin 2) (c : Chain) : (s.setChain ch c).recomputes = s.recomputes := rfl
@[simp] theorem setChain_viewW (ch : Fin 2) (c : Chain) : (s.setChain ch c).viewW = s.viewW := rfl
@[simp] theorem setChain_viewH (ch : Fin 2) (c : Chain) : (s.setChain ch c).viewH = s.viewH := rfl
@[simp] theorem setChain_crvLen (ch : Fin 2) (c : Chain) : (s.setChain ch c).crvLen = s.crvLen := rfl
@[simp] theorem setChain_asnap (ch : Fin 2) (c : Chain) : (s.setChain ch c).asnap = s.asnap := rfl
@[simp] theorem setChain_rsnap (ch : Fin 2) (c : Chain) : (s.setChain ch c).rsnap = s.rsnap := rfl
@[simp] theorem setChain_stg (ch : Fin 2) (c : Chain) : (s.setChain ch c).stg = s.stg := rfl
@[simp] theorem setChain_chains (ch : Fin 2) (c : Chain) : (s.setChain ch c).chains = s.chains.set ch c := rfl
@[simp] theorem setChain_pub (ch : Fin 2) (c : Chain) : (s.setChain ch c).pub = s.pub := rfl
@[simp] theorem setChain_smp (ch : Fin 2) (c : Chain) : (s.setChain ch c).smp = s.smp := rfl
@[simp] theorem setChain_crv (ch : Fin 2) (c : Chain) : (s.setChain ch c).crv = s.crv := rfl
@[simp] theorem setChain_portA (ch : Fin 2) (c : Chain) : (s.setChain ch c).portA = s.portA := rfl
@[simp] theorem setChain_portR (ch : Fin 2) (c : Chain) : (s.setChain ch c).portR = s.portR := rfl
@[simp] theorem setChain_portH (ch : Fin 2) (c : Chain) : (s.setChain ch c).portH = s.portH := rfl
@[simp] theorem setChain_active (ch : Fin 2) (c : Chain) : (s.setChain ch c).active = s.active := rfl
@[simp] theorem setChain_schedule (ch : Fin 2) (c : Chain) : (s.setChain ch c).schedule = s.schedule := rfl
@[simp] theorem setChain_draws (ch : Fin 2) (c : Chain) : (s.setChain ch c).draws = s.draws := rfl
@[simp] theorem setChain_epoch (ch : Fin 2) (c : Chain) : (s.setChain ch c).epoch = s.epoch := rfl
@[simp] theorem setChain_port (ch : Fin 2) (c : Chain) (x : Port) : (s.setChain ch c).port x = s.port x := by cases x <;> rfl

/-! ### setPub -/

@[simp] theorem setPub_p (v : Published) : (s.setPub v).p = s.p := rfl
@[simp] theorem setPub_lifecycle (v : Published) : (s.setPub v).lifecycle = s.lifecycle := rfl
@[simp] theorem setPub_fault (v : Published) : (s.setPub v).fault = s.fault := rfl
@[simp] theorem setPub_fs (v : Published) : (s.setPub v).fs = s.fs := rfl
@[simp] theorem setPub_blocksize (v : Published) : (s.setPub v).blocksize = s.blocksize := rfl
@[simp] theorem setPub_dirty (v : Published) : (s.setPub v).dirty = s.dirty := rfl
@[simp] theorem setPub_recomputes (v : Published) : (s.setPub v).recomputes = s.recomputes := rfl
@[simp] theorem setPub_viewW (v : Published) : (s.setPub v).viewW = s.viewW := rfl
@[simp] theorem setPub_viewH (v : Published) : (s.setPub v).viewH = s.viewH := rfl
@[simp] theorem setPub_crvLen (v : Published) : (s.setPub v).crvLen = s.crvLen := rfl
@[simp] theorem setPub_asnap (v : Published) : (s.setPub v).asnap = s.asnap := rfl
@[simp] theorem setPub_rsnap (v : Published) : (s.setPub v).rsnap = s.rsnap := rfl
@[simp] theorem setPub_stg (v : Published) : (s.setPub v).stg = s.stg := rfl
@[simp] theorem setPub_chains (v : Published) : (s.setPub v).chains = s.chains := rfl
@[simp] theorem setPub_pub (v : Published) : (s.setPub v).pub = v := rfl
@[simp] theorem setPub_smp (v : Published) : (s.setPub v).smp = s.smp := rfl
@[simp] theorem setPub_crv (v : Published) : (s.setPub v).crv = s.crv := rfl
@[simp] theorem setPub_portA (v : Published) : (s.setPub v).portA = s.portA := rfl
@[simp] theorem setPub_portR (v : Published) : (s.setPub v).portR = s.portR := rfl
@[simp] theorem setPub_portH (v : Published) : (s.setPub v).portH = s.portH := rfl
@[simp] theorem setPub_active (v : Published) : (s.setPub v).active = s.active := rfl
@[simp] theorem setPub_schedule (v : Published) : (s.setPub v).schedule = s.schedule := rfl
@[simp] theorem setPub_draws (v : Published) : (s.setPub v).draws = s.draws := rfl
@[simp] theorem setPub_epoch (v : Published) : (s.setPub v).epoch = s.epoch := rfl
@[simp] theorem setPub_port (v : Published) (x : Port) : (s.setPub v).port x = s.port x := by cases x <;> rfl
@[simp] theorem setPub_chain (v : Published) (c' : Fin 2) : (s.setPub v).chain c' = s.chain c' := rfl

/-! ### setSmp -/

@[simp] theorem setSmp_p (m : Memory) : (s.setSmp m).p = s.p := rfl
@[simp] theorem setSmp_lifecycle (m : Memory) : (s.setSmp m).lifecycle = s.lifecycle := rfl
@[simp] theorem setSmp_fault (m : Memory) : (s.setSmp m).fault = s.fault := rfl
@[simp] theorem setSmp_fs (m : Memory) : (s.setSmp m).fs = s.fs := rfl
@[simp] theorem setSmp_blocksize (m : Memory) : (s.setSmp m).blocksize = s.blocksize := rfl
@[simp] theorem setSmp_dirty (m : Memory) : (s.setSmp m).dirty = s.dirty := rfl
@[simp] theorem setSmp_recomputes (m : Memory) : (s.setSmp m).recomputes = s.recomputes := rfl
@[simp] theorem setSmp_viewW (m : Memory) : (s.setSmp m).viewW = s.viewW := rfl
@[simp] theorem setSmp_viewH (m : Memory) : (s.setSmp m).viewH = s.viewH := rfl
@[simp] theorem setSmp_crvLen (m : Memory) : (s.setSmp m).crvLen = s.crvLen := rfl
@[simp] theorem setSmp_asnap (m : Memory) : (s.setSmp m).asnap = s.asnap := rfl
@[simp] theorem setSmp_rsnap (m : Memory) : (s.setSmp m).rsnap = s.rsnap := rfl
@[simp] theorem setSmp_stg (m : Memory) : (s.setSmp m).stg = s.stg := rfl
@[simp] theorem setSmp_chains (m : Memory) : (s.setSmp m).chains = s.chains := rfl
@[simp] theorem setSmp_pub (m : Memory) : (s.setSmp m).pub = s.pub := rfl
@[simp] theorem setSmp_smp (m : Memory) : (s.setSmp m).smp = m := rfl
@[simp] theorem setSmp_crv (m : Memory) : (s.setSmp m).crv = s.crv := rfl
@[simp] theorem setSmp_portA (m : Memory) : (s.setSmp m).portA = s.portA := rfl
@[simp] theorem setSmp_portR (m : Memory) : (s.setSmp m).portR = s.portR := rfl
@[simp] theorem setSmp_portH (m : Memory) : (s.setSmp m).portH = s.portH := rfl
@[simp] theorem setSmp_active (m : Memory) : (s.setSmp m).active = s.active := rfl
@[simp] theorem setSmp_schedule (m : Memory) : (s.setSmp m).schedule = s.schedule := rfl
@[simp] theorem setSmp_draws (m : Memory) : (s.setSmp m).draws = s.draws := rfl
@[simp] theorem setSmp_epoch (m : Memory) : (s.setSmp m).epoch = s.epoch := rfl
@[simp] theorem setSmp_port (m : Memory) (x : Port) : (s.setSmp m).port x = s.port x := by cases x <;> rfl
@[simp] theorem setSmp_chain (m : Memory) (c' : Fin 2) : (s.setSmp m).chain c' = s.chain c' := rfl

/-! ### setCurve -/

@[simp] theorem setCurve_p (m : Memory) (l : BitVec 16) (n : Word) : (s.setCurve m l n).p = s.p := rfl
@[simp] theorem setCurve_lifecycle (m : Memory) (l : BitVec 16) (n : Word) : (s.setCurve m l n).lifecycle = s.lifecycle := rfl
@[simp] theorem setCurve_fault (m : Memory) (l : BitVec 16) (n : Word) : (s.setCurve m l n).fault = s.fault := rfl
@[simp] theorem setCurve_fs (m : Memory) (l : BitVec 16) (n : Word) : (s.setCurve m l n).fs = s.fs := rfl
@[simp] theorem setCurve_blocksize (m : Memory) (l : BitVec 16) (n : Word) : (s.setCurve m l n).blocksize = s.blocksize := rfl
@[simp] theorem setCurve_dirty (m : Memory) (l : BitVec 16) (n : Word) : (s.setCurve m l n).dirty = s.dirty := rfl
@[simp] theorem setCurve_recomputes (m : Memory) (l : BitVec 16) (n : Word) : (s.setCurve m l n).recomputes = n := rfl
@[simp] theorem setCurve_viewW (m : Memory) (l : BitVec 16) (n : Word) : (s.setCurve m l n).viewW = s.viewW := rfl
@[simp] theorem setCurve_viewH (m : Memory) (l : BitVec 16) (n : Word) : (s.setCurve m l n).viewH = s.viewH := rfl
@[simp] theorem setCurve_crvLen (m : Memory) (l : BitVec 16) (n : Word) : (s.setCurve m l n).crvLen = l := rfl
@[simp] theorem setCurve_asnap (m : Memory) (l : BitVec 16) (n : Word) : (s.setCurve m l n).asnap = s.asnap := rfl
@[simp] theorem setCurve_rsnap (m : Memory) (l : BitVec 16) (n : Word) : (s.setCurve m l n).rsnap = s.rsnap := rfl
@[simp] theorem setCurve_stg (m : Memory) (l : BitVec 16) (n : Word) : (s.setCurve m l n).stg = s.stg := rfl
@[simp] theorem setCurve_chains (m : Memory) (l : BitVec 16) (n : Word) : (s.setCurve m l n).chains = s.chains := rfl
@[simp] theorem setCurve_pub (m : Memory) (l : BitVec 16) (n : Word) : (s.setCurve m l n).pub = s.pub := rfl
@[simp] theorem setCurve_smp (m : Memory) (l : BitVec 16) (n : Word) : (s.setCurve m l n).smp = s.smp := rfl
@[simp] theorem setCurve_crv (m : Memory) (l : BitVec 16) (n : Word) : (s.setCurve m l n).crv = m := rfl
@[simp] theorem setCurve_portA (m : Memory) (l : BitVec 16) (n : Word) : (s.setCurve m l n).portA = s.portA := rfl
@[simp] theorem setCurve_portR (m : Memory) (l : BitVec 16) (n : Word) : (s.setCurve m l n).portR = s.portR := rfl
@[simp] theorem setCurve_portH (m : Memory) (l : BitVec 16) (n : Word) : (s.setCurve m l n).portH = s.portH := rfl
@[simp] theorem setCurve_active (m : Memory) (l : BitVec 16) (n : Word) : (s.setCurve m l n).active = s.active := rfl
@[simp] theorem setCurve_schedule (m : Memory) (l : BitVec 16) (n : Word) : (s.setCurve m l n).schedule = s.schedule := rfl
@[simp] theorem setCurve_draws (m : Memory) (l : BitVec 16) (n : Word) : (s.setCurve m l n).draws = s.draws := rfl
@[simp] theorem setCurve_epoch (m : Memory) (l : BitVec 16) (n : Word) : (s.setCurve m l n).epoch = s.epoch := rfl
@[simp] theorem setCurve_port (m : Memory) (l : BitVec 16) (n : Word) (x : Port) : (s.setCurve m l n).port x = s.port x := by cases x <;> rfl
@[simp] theorem setCurve_chain (m : Memory) (l : BitVec 16) (n : Word) (c' : Fin 2) : (s.setCurve m l n).chain c' = s.chain c' := rfl

/-! ### setView -/

@[simp] theorem setView_p (w h : BitVec 16) : (s.setView w h).p = s.p := rfl
@[simp] theorem setView_lifecycle (w h : BitVec 16) : (s.setView w h).lifecycle = s.lifecycle := rfl
@[simp] theorem setView_fault (w h : BitVec 16) : (s.setView w h).fault = s.fault := rfl
@[simp] theorem setView_fs (w h : BitVec 16) : (s.setView w h).fs = s.fs := rfl
@[simp] theorem setView_blocksize (w h : BitVec 16) : (s.setView w h).blocksize = s.blocksize := rfl
@[simp] theorem setView_dirty (w h : BitVec 16) : (s.setView w h).dirty = s.dirty := rfl
@[simp] theorem setView_recomputes (w h : BitVec 16) : (s.setView w h).recomputes = s.recomputes := rfl
@[simp] theorem setView_viewW (w h : BitVec 16) : (s.setView w h).viewW = w := rfl
@[simp] theorem setView_viewH (w h : BitVec 16) : (s.setView w h).viewH = h := rfl
@[simp] theorem setView_crvLen (w h : BitVec 16) : (s.setView w h).crvLen = s.crvLen := rfl
@[simp] theorem setView_asnap (w h : BitVec 16) : (s.setView w h).asnap = s.asnap := rfl
@[simp] theorem setView_rsnap (w h : BitVec 16) : (s.setView w h).rsnap = s.rsnap := rfl
@[simp] theorem setView_stg (w h : BitVec 16) : (s.setView w h).stg = s.stg := rfl
@[simp] theorem setView_chains (w h : BitVec 16) : (s.setView w h).chains = s.chains := rfl
@[simp] theorem setView_pub (w h : BitVec 16) : (s.setView w h).pub = s.pub := rfl
@[simp] theorem setView_smp (w h : BitVec 16) : (s.setView w h).smp = s.smp := rfl
@[simp] theorem setView_crv (w h : BitVec 16) : (s.setView w h).crv = s.crv := rfl
@[simp] theorem setView_portA (w h : BitVec 16) : (s.setView w h).portA = s.portA := rfl
@[simp] theorem setView_portR (w h : BitVec 16) : (s.setView w h).portR = s.portR := rfl
@[simp] theorem setView_portH (w h : BitVec 16) : (s.setView w h).portH = s.portH := rfl
@[simp] theorem setView_active (w h : BitVec 16) : (s.setView w h).active = s.active := rfl
@[simp] theorem setView_schedule (w h : BitVec 16) : (s.setView w h).schedule = s.schedule := rfl
@[simp] theorem setView_draws (w h : BitVec 16) : (s.setView w h).draws = s.draws := rfl
@[simp] theorem setView_epoch (w h : BitVec 16) : (s.setView w h).epoch = s.epoch := rfl
@[simp] theorem setView_port (w h : BitVec 16) (x : Port) : (s.setView w h).port x = s.port x := by cases x <;> rfl
@[simp] theorem setView_chain (w h : BitVec 16) (c' : Fin 2) : (s.setView w h).chain c' = s.chain c' := rfl

/-! ### setDraws -/

@[simp] theorem setDraws_p (n : Nat) : (s.setDraws n).p = s.p := rfl
@[simp] theorem setDraws_lifecycle (n : Nat) : (s.setDraws n).lifecycle = s.lifecycle := rfl
@[simp] theorem setDraws_fault (n : Nat) : (s.setDraws n).fault = s.fault := rfl
@[simp] theorem setDraws_fs (n : Nat) : (s.setDraws n).fs = s.fs := rfl
@[simp] theorem setDraws_blocksize (n : Nat) : (s.setDraws n).blocksize = s.blocksize := rfl
@[simp] theorem setDraws_dirty (n : Nat) : (s.setDraws n).dirty = s.dirty := rfl
@[simp] theorem setDraws_recomputes (n : Nat) : (s.setDraws n).recomputes = s.recomputes := rfl
@[simp] theorem setDraws_viewW (n : Nat) : (s.setDraws n).viewW = s.viewW := rfl
@[simp] theorem setDraws_viewH (n : Nat) : (s.setDraws n).viewH = s.viewH := rfl
@[simp] theorem setDraws_crvLen (n : Nat) : (s.setDraws n).crvLen = s.crvLen := rfl
@[simp] theorem setDraws_asnap (n : Nat) : (s.setDraws n).asnap = s.asnap := rfl
@[simp] theorem setDraws_rsnap (n : Nat) : (s.setDraws n).rsnap = s.rsnap := rfl
@[simp] theorem setDraws_stg (n : Nat) : (s.setDraws n).stg = s.stg := rfl
@[simp] theorem setDraws_chains (n : Nat) : (s.setDraws n).chains = s.chains := rfl
@[simp] theorem setDraws_pub (n : Nat) : (s.setDraws n).pub = s.pub := rfl
@[simp] theorem setDraws_smp (n : Nat) : (s.setDraws n).smp = s.smp := rfl
@[simp] theorem setDraws_crv (n : Nat) : (s.setDraws n).crv = s.crv := rfl
@[simp] theorem setDraws_portA (n : Nat) : (s.setDraws n).portA = s.portA := rfl
@[simp] theorem setDraws_portR (n : Nat) : (s.setDraws n).portR = s.portR := rfl
@[simp] theorem setDraws_portH (n : Nat) : (s.setDraws n).portH = s.portH := rfl
@[simp] theorem setDraws_active (n : Nat) : (s.setDraws n).active = s.active := rfl
@[simp] theorem setDraws_schedule (n : Nat) : (s.setDraws n).schedule = s.schedule := rfl
@[simp] theorem setDraws_draws (n : Nat) : (s.setDraws n).draws = n := rfl
@[simp] theorem setDraws_epoch (n : Nat) : (s.setDraws n).epoch = s.epoch := rfl
@[simp] theorem setDraws_port (n : Nat) (x : Port) : (s.setDraws n).port x = s.port x := by cases x <;> rfl
@[simp] theorem setDraws_chain (n : Nat) (c' : Fin 2) : (s.setDraws n).chain c' = s.chain c' := rfl

/-! ### setActive -/

@[simp] theorem setActive_p (q : Port) : (s.setActive q).p = s.p := rfl
@[simp] theorem setActive_lifecycle (q : Port) : (s.setActive q).lifecycle = s.lifecycle := rfl
@[simp] theorem setActive_fault (q : Port) : (s.setActive q).fault = s.fault := rfl
@[simp] theorem setActive_fs (q : Port) : (s.setActive q).fs = s.fs := rfl
@[simp] theorem setActive_blocksize (q : Port) : (s.setActive q).blocksize = s.blocksize := rfl
@[simp] theorem setActive_dirty (q : Port) : (s.setActive q).dirty = s.dirty := rfl
@[simp] theorem setActive_recomputes (q : Port) : (s.setActive q).recomputes = s.recomputes := rfl
@[simp] theorem setActive_viewW (q : Port) : (s.setActive q).viewW = s.viewW := rfl
@[simp] theorem setActive_viewH (q : Port) : (s.setActive q).viewH = s.viewH := rfl
@[simp] theorem setActive_crvLen (q : Port) : (s.setActive q).crvLen = s.crvLen := rfl
@[simp] theorem setActive_asnap (q : Port) : (s.setActive q).asnap = s.asnap := rfl
@[simp] theorem setActive_rsnap (q : Port) : (s.setActive q).rsnap = s.rsnap := rfl
@[simp] theorem setActive_stg (q : Port) : (s.setActive q).stg = s.stg := rfl
@[simp] theorem setActive_chains (q : Port) : (s.setActive q).chains = s.chains := rfl
@[simp] theorem setActive_pub (q : Port) : (s.setActive q).pub = s.pub := rfl
@[simp] theorem setActive_smp (q : Port) : (s.setActive q).smp = s.smp := rfl
@[simp] theorem setActive_crv (q : Port) : (s.setActive q).crv = s.crv := rfl
@[simp] theorem setActive_portA (q : Port) : (s.setActive q).portA = s.portA := rfl
@[simp] theorem setActive_portR (q : Port) : (s.setActive q).portR = s.portR := rfl
@[simp] theorem setActive_portH (q : Port) : (s.setActive q).portH = s.portH := rfl
@[simp] theorem setActive_active (q : Port) : (s.setActive q).active = q := rfl
@[simp] theorem setActive_schedule (q : Port) : (s.setActive q).schedule = s.schedule := rfl
@[simp] theorem setActive_draws (q : Port) : (s.setActive q).draws = s.draws := rfl
@[simp] theorem setActive_epoch (q : Port) : (s.setActive q).epoch = s.epoch := rfl
@[simp] theorem setActive_port (q : Port) (x : Port) : (s.setActive q).port x = s.port x := by cases x <;> rfl
@[simp] theorem setActive_chain (q : Port) (c' : Fin 2) : (s.setActive q).chain c' = s.chain c' := rfl

/-! ### setSchedule -/

@[simp] theorem setSchedule_p (l : List Turn) : (s.setSchedule l).p = s.p := rfl
@[simp] theorem setSchedule_lifecycle (l : List Turn) : (s.setSchedule l).lifecycle = s.lifecycle := rfl
@[simp] theorem setSchedule_fault (l : List Turn) : (s.setSchedule l).fault = s.fault := rfl
@[simp] theorem setSchedule_fs (l : List Turn) : (s.setSchedule l).fs = s.fs := rfl
@[simp] theorem setSchedule_blocksize (l : List Turn) : (s.setSchedule l).blocksize = s.blocksize := rfl
@[simp] theorem setSchedule_dirty (l : List Turn) : (s.setSchedule l).dirty = s.dirty := rfl
@[simp] theorem setSchedule_recomputes (l : List Turn) : (s.setSchedule l).recomputes = s.recomputes := rfl
@[simp] theorem setSchedule_viewW (l : List Turn) : (s.setSchedule l).viewW = s.viewW := rfl
@[simp] theorem setSchedule_viewH (l : List Turn) : (s.setSchedule l).viewH = s.viewH := rfl
@[simp] theorem setSchedule_crvLen (l : List Turn) : (s.setSchedule l).crvLen = s.crvLen := rfl
@[simp] theorem setSchedule_asnap (l : List Turn) : (s.setSchedule l).asnap = s.asnap := rfl
@[simp] theorem setSchedule_rsnap (l : List Turn) : (s.setSchedule l).rsnap = s.rsnap := rfl
@[simp] theorem setSchedule_stg (l : List Turn) : (s.setSchedule l).stg = s.stg := rfl
@[simp] theorem setSchedule_chains (l : List Turn) : (s.setSchedule l).chains = s.chains := rfl
@[simp] theorem setSchedule_pub (l : List Turn) : (s.setSchedule l).pub = s.pub := rfl
@[simp] theorem setSchedule_smp (l : List Turn) : (s.setSchedule l).smp = s.smp := rfl
@[simp] theorem setSchedule_crv (l : List Turn) : (s.setSchedule l).crv = s.crv := rfl
@[simp] theorem setSchedule_portA (l : List Turn) : (s.setSchedule l).portA = s.portA := rfl
@[simp] theorem setSchedule_portR (l : List Turn) : (s.setSchedule l).portR = s.portR := rfl
@[simp] theorem setSchedule_portH (l : List Turn) : (s.setSchedule l).portH = s.portH := rfl
@[simp] theorem setSchedule_active (l : List Turn) : (s.setSchedule l).active = s.active := rfl
@[simp] theorem setSchedule_schedule (l : List Turn) : (s.setSchedule l).schedule = l := rfl
@[simp] theorem setSchedule_draws (l : List Turn) : (s.setSchedule l).draws = s.draws := rfl
@[simp] theorem setSchedule_epoch (l : List Turn) : (s.setSchedule l).epoch = s.epoch := rfl
@[simp] theorem setSchedule_port (l : List Turn) (x : Port) : (s.setSchedule l).port x = s.port x := by cases x <;> rfl
@[simp] theorem setSchedule_chain (l : List Turn) (c' : Fin 2) : (s.setSchedule l).chain c' = s.chain c' := rfl

@[simp] theorem setChains_chain (v : Vector Chain 2) (c' : Fin 2) : (s.setChains v).chain c' = v[c'] := rfl
theorem setChain_chain (ch c' : Fin 2) (c : Chain) :
    (s.setChain ch c).chain c' = if c' = ch then c else s.chain c' := by
  simp only [State.chain, setChain_chains, Fin.getElem_fin, Vector.getElem_set, Fin.ext_iff, eq_comm]
@[simp] theorem setChain_chain_self (ch : Fin 2) (c : Chain) : (s.setChain ch c).chain ch = c := by
  simp [setChain_chain]
theorem setChain_chain_ne {ch c' : Fin 2} (h : c' ≠ ch) (c : Chain) : (s.setChain ch c).chain c' = s.chain c' := by
  simp [setChain_chain, h]

/-! ### setPort -/

@[simp] theorem setPort_p (q : Port) (v : PortState) : (s.setPort q v).p = s.p := by cases q <;> rfl
@[simp] theorem setPort_lifecycle (q : Port) (v : PortState) : (s.setPort q v).lifecycle = s.lifecycle := by cases q <;> rfl
@[simp] theorem setPort_fault (q : Port) (v : PortState) : (s.setPort q v).fault = s.fault := by cases q <;> rfl
@[simp] theorem setPort_fs (q : Port) (v : PortState) : (s.setPort q v).fs = s.fs := by cases q <;> rfl
@[simp] theorem setPort_blocksize (q : Port) (v : PortState) : (s.setPort q v).blocksize = s.blocksize := by cases q <;> rfl
@[simp] theorem setPort_dirty (q : Port) (v : PortState) : (s.setPort q v).dirty = s.dirty := by cases q <;> rfl
@[simp] theorem setPort_recomputes (q : Port) (v : PortState) : (s.setPort q v).recomputes = s.recomputes := by cases q <;> rfl
@[simp] theorem setPort_viewW (q : Port) (v : PortState) : (s.setPort q v).viewW = s.viewW := by cases q <;> rfl
@[simp] theorem setPort_viewH (q : Port) (v : PortState) : (s.setPort q v).viewH = s.viewH := by cases q <;> rfl
@[simp] theorem setPort_crvLen (q : Port) (v : PortState) : (s.setPort q v).crvLen = s.crvLen := by cases q <;> rfl
@[simp] theorem setPort_asnap (q : Port) (v : PortState) : (s.setPort q v).asnap = s.asnap := by cases q <;> rfl
@[simp] theorem setPort_rsnap (q : Port) (v : PortState) : (s.setPort q v).rsnap = s.rsnap := by cases q <;> rfl
@[simp] theorem setPort_stg (q : Port) (v : PortState) : (s.setPort q v).stg = s.stg := by cases q <;> rfl
@[simp] theorem setPort_chains (q : Port) (v : PortState) : (s.setPort q v).chains = s.chains := by cases q <;> rfl
@[simp] theorem setPort_pub (q : Port) (v : PortState) : (s.setPort q v).pub = s.pub := by cases q <;> rfl
@[simp] theorem setPort_smp (q : Port) (v : PortState) : (s.setPort q v).smp = s.smp := by cases q <;> rfl
@[simp] theorem setPort_crv (q : Port) (v : PortState) : (s.setPort q v).crv = s.crv := by cases q <;> rfl
@[simp] theorem setPort_active (q : Port) (v : PortState) : (s.setPort q v).active = s.active := by cases q <;> rfl
@[simp] theorem setPort_schedule (q : Port) (v : PortState) : (s.setPort q v).schedule = s.schedule := by cases q <;> rfl
@[simp] theorem setPort_draws (q : Port) (v : PortState) : (s.setPort q v).draws = s.draws := by cases q <;> rfl
@[simp] theorem setPort_epoch (q : Port) (v : PortState) : (s.setPort q v).epoch = s.epoch := by cases q <;> rfl
@[simp] theorem setPort_chain (q : Port) (v : PortState) (c' : Fin 2) : (s.setPort q v).chain c' = s.chain c' := by
  cases q <;> rfl
theorem setPort_port (q x : Port) (v : PortState) : (s.setPort q v).port x = if x = q then v else s.port x := by
  cases q <;> cases x <;> rfl
@[simp] theorem setPort_port_self (q : Port) (v : PortState) : (s.setPort q v).port q = v := by cases q <;> rfl
theorem setPort_port_ne {q x : Port} (h : x ≠ q) (v : PortState) : (s.setPort q v).port x = s.port x := by
  simp [setPort_port, h]
@[simp] theorem setPort_setPort (q : Port) (v w : PortState) : (s.setPort q v).setPort q w = s.setPort q w := by
  cases q <;> rfl

/-! ### respond -/

@[simp] theorem respond_p (c : Nat) (d : Word) : (s.respond c d).p = s.p := by simp [State.respond]
@[simp] theorem respond_lifecycle (c : Nat) (d : Word) : (s.respond c d).lifecycle = s.lifecycle := by simp [State.respond]
@[simp] theorem respond_fault (c : Nat) (d : Word) : (s.respond c d).fault = s.fault := by simp [State.respond]
@[simp] theorem respond_fs (c : Nat) (d : Word) : (s.respond c d).fs = s.fs := by simp [State.respond]
@[simp] theorem respond_blocksize (c : Nat) (d : Word) : (s.respond c d).blocksize = s.blocksize := by simp [State.respond]
@[simp] theorem respond_dirty (c : Nat) (d : Word) : (s.respond c d).dirty = s.dirty := by simp [State.respond]
@[simp] theorem respond_recomputes (c : Nat) (d : Word) : (s.respond c d).recomputes = s.recomputes := by simp [State.respond]
@[simp] theorem respond_viewW (c : Nat) (d : Word) : (s.respond c d).viewW = s.viewW := by simp [State.respond]
@[simp] theorem respond_viewH (c : Nat) (d : Word) : (s.respond c d).viewH = s.viewH := by simp [State.respond]
@[simp] theorem respond_crvLen (c : Nat) (d : Word) : (s.respond c d).crvLen = s.crvLen := by simp [State.respond]
@[simp] theorem respond_asnap (c : Nat) (d : Word) : (s.respond c d).asnap = s.asnap := by simp [State.respond]
@[simp] theorem respond_rsnap (c : Nat) (d : Word) : (s.respond c d).rsnap = s.rsnap := by simp [State.respond]
@[simp] theorem respond_stg (c : Nat) (d : Word) : (s.respond c d).stg = s.stg := by simp [State.respond]
@[simp] theorem respond_chains (c : Nat) (d : Word) : (s.respond c d).chains = s.chains := by simp [State.respond]
@[simp] theorem respond_pub (c : Nat) (d : Word) : (s.respond c d).pub = s.pub := by simp [State.respond]
@[simp] theorem respond_smp (c : Nat) (d : Word) : (s.respond c d).smp = s.smp := by simp [State.respond]
@[simp] theorem respond_crv (c : Nat) (d : Word) : (s.respond c d).crv = s.crv := by simp [State.respond]
@[simp] theorem respond_active (c : Nat) (d : Word) : (s.respond c d).active = s.active := by simp [State.respond]
@[simp] theorem respond_schedule (c : Nat) (d : Word) : (s.respond c d).schedule = s.schedule := by simp [State.respond]
@[simp] theorem respond_draws (c : Nat) (d : Word) : (s.respond c d).draws = s.draws := by simp [State.respond]
@[simp] theorem respond_epoch (c : Nat) (d : Word) : (s.respond c d).epoch = s.epoch := by simp [State.respond]
@[simp] theorem respond_chain (c : Nat) (d : Word) (c' : Fin 2) : (s.respond c d).chain c' = s.chain c' := by simp [State.respond]

/-! ### done -/

@[simp] theorem done_p (d : Word) : (s.done d).p = s.p := by simp [State.done]
@[simp] theorem done_lifecycle (d : Word) : (s.done d).lifecycle = s.lifecycle := by simp [State.done]
@[simp] theorem done_fault (d : Word) : (s.done d).fault = s.fault := by simp [State.done]
@[simp] theorem done_fs (d : Word) : (s.done d).fs = s.fs := by simp [State.done]
@[simp] theorem done_blocksize (d : Word) : (s.done d).blocksize = s.blocksize := by simp [State.done]
@[simp] theorem done_dirty (d : Word) : (s.done d).dirty = s.dirty := by simp [State.done]
@[simp] theorem done_recomputes (d : Word) : (s.done d).recomputes = s.recomputes := by simp [State.done]
@[simp] theorem done_viewW (d : Word) : (s.done d).viewW = s.viewW := by simp [State.done]
@[simp] theorem done_viewH (d : Word) : (s.done d).viewH = s.viewH := by simp [State.done]
@[simp] theorem done_crvLen (d : Word) : (s.done d).crvLen = s.crvLen := by simp [State.done]
@[simp] theorem done_asnap (d : Word) : (s.done d).asnap = s.asnap := by simp [State.done]
@[simp] theorem done_rsnap (d : Word) : (s.done d).rsnap = s.rsnap := by simp [State.done]
@[simp] theorem done_stg (d : Word) : (s.done d).stg = s.stg := by simp [State.done]
@[simp] theorem done_chains (d : Word) : (s.done d).chains = s.chains := by simp [State.done]
@[simp] theorem done_pub (d : Word) : (s.done d).pub = s.pub := by simp [State.done]
@[simp] theorem done_smp (d : Word) : (s.done d).smp = s.smp := by simp [State.done]
@[simp] theorem done_crv (d : Word) : (s.done d).crv = s.crv := by simp [State.done]
@[simp] theorem done_active (d : Word) : (s.done d).active = s.active := by simp [State.done]
@[simp] theorem done_schedule (d : Word) : (s.done d).schedule = s.schedule := by simp [State.done]
@[simp] theorem done_draws (d : Word) : (s.done d).draws = s.draws := by simp [State.done]
@[simp] theorem done_epoch (d : Word) : (s.done d).epoch = s.epoch := by simp [State.done]
@[simp] theorem done_chain (d : Word) (c' : Fin 2) : (s.done d).chain c' = s.chain c' := by simp [State.done]

/-! ### setBusy -/

@[simp] theorem setBusy_p (f : InFlight) : (s.setBusy f).p = s.p := by simp [State.setBusy]
@[simp] theorem setBusy_lifecycle (f : InFlight) : (s.setBusy f).lifecycle = s.lifecycle := by simp [State.setBusy]
@[simp] theorem setBusy_fault (f : InFlight) : (s.setBusy f).fault = s.fault := by simp [State.setBusy]
@[simp] theorem setBusy_fs (f : InFlight) : (s.setBusy f).fs = s.fs := by simp [State.setBusy]
@[simp] theorem setBusy_blocksize (f : InFlight) : (s.setBusy f).blocksize = s.blocksize := by simp [State.setBusy]
@[simp] theorem setBusy_dirty (f : InFlight) : (s.setBusy f).dirty = s.dirty := by simp [State.setBusy]
@[simp] theorem setBusy_recomputes (f : InFlight) : (s.setBusy f).recomputes = s.recomputes := by simp [State.setBusy]
@[simp] theorem setBusy_viewW (f : InFlight) : (s.setBusy f).viewW = s.viewW := by simp [State.setBusy]
@[simp] theorem setBusy_viewH (f : InFlight) : (s.setBusy f).viewH = s.viewH := by simp [State.setBusy]
@[simp] theorem setBusy_crvLen (f : InFlight) : (s.setBusy f).crvLen = s.crvLen := by simp [State.setBusy]
@[simp] theorem setBusy_asnap (f : InFlight) : (s.setBusy f).asnap = s.asnap := by simp [State.setBusy]
@[simp] theorem setBusy_rsnap (f : InFlight) : (s.setBusy f).rsnap = s.rsnap := by simp [State.setBusy]
@[simp] theorem setBusy_stg (f : InFlight) : (s.setBusy f).stg = s.stg := by simp [State.setBusy]
@[simp] theorem setBusy_chains (f : InFlight) : (s.setBusy f).chains = s.chains := by simp [State.setBusy]
@[simp] theorem setBusy_pub (f : InFlight) : (s.setBusy f).pub = s.pub := by simp [State.setBusy]
@[simp] theorem setBusy_smp (f : InFlight) : (s.setBusy f).smp = s.smp := by simp [State.setBusy]
@[simp] theorem setBusy_crv (f : InFlight) : (s.setBusy f).crv = s.crv := by simp [State.setBusy]
@[simp] theorem setBusy_active (f : InFlight) : (s.setBusy f).active = s.active := by simp [State.setBusy]
@[simp] theorem setBusy_schedule (f : InFlight) : (s.setBusy f).schedule = s.schedule := by simp [State.setBusy]
@[simp] theorem setBusy_draws (f : InFlight) : (s.setBusy f).draws = s.draws := by simp [State.setBusy]
@[simp] theorem setBusy_epoch (f : InFlight) : (s.setBusy f).epoch = s.epoch := by simp [State.setBusy]
@[simp] theorem setBusy_chain (f : InFlight) (c' : Fin 2) : (s.setBusy f).chain c' = s.chain c' := by simp [State.setBusy]

/-! ### raise -/

@[simp] theorem raise_p (e : FaultCode) : (s.raise e).p = s.p := by simp [State.raise]
@[simp] theorem raise_lifecycle (e : FaultCode) : (s.raise e).lifecycle = s.lifecycle := by simp [State.raise]
@[simp] theorem raise_fault (e : FaultCode) : (s.raise e).fault = withFaultBit s.fault e := by simp [State.raise]
@[simp] theorem raise_fs (e : FaultCode) : (s.raise e).fs = s.fs := by simp [State.raise]
@[simp] theorem raise_blocksize (e : FaultCode) : (s.raise e).blocksize = s.blocksize := by simp [State.raise]
@[simp] theorem raise_dirty (e : FaultCode) : (s.raise e).dirty = s.dirty := by simp [State.raise]
@[simp] theorem raise_recomputes (e : FaultCode) : (s.raise e).recomputes = s.recomputes := by simp [State.raise]
@[simp] theorem raise_viewW (e : FaultCode) : (s.raise e).viewW = s.viewW := by simp [State.raise]
@[simp] theorem raise_viewH (e : FaultCode) : (s.raise e).viewH = s.viewH := by simp [State.raise]
@[simp] theorem raise_crvLen (e : FaultCode) : (s.raise e).crvLen = s.crvLen := by simp [State.raise]
@[simp] theorem raise_asnap (e : FaultCode) : (s.raise e).asnap = s.asnap := by simp [State.raise]
@[simp] theorem raise_rsnap (e : FaultCode) : (s.raise e).rsnap = s.rsnap := by simp [State.raise]
@[simp] theorem raise_stg (e : FaultCode) : (s.raise e).stg = s.stg := by simp [State.raise]
@[simp] theorem raise_chains (e : FaultCode) : (s.raise e).chains = s.chains := by simp [State.raise]
@[simp] theorem raise_pub (e : FaultCode) : (s.raise e).pub = s.pub := by simp [State.raise]
@[simp] theorem raise_smp (e : FaultCode) : (s.raise e).smp = s.smp := by simp [State.raise]
@[simp] theorem raise_crv (e : FaultCode) : (s.raise e).crv = s.crv := by simp [State.raise]
@[simp] theorem raise_active (e : FaultCode) : (s.raise e).active = s.active := by simp [State.raise]
@[simp] theorem raise_schedule (e : FaultCode) : (s.raise e).schedule = s.schedule := by simp [State.raise]
@[simp] theorem raise_draws (e : FaultCode) : (s.raise e).draws = s.draws := by simp [State.raise]
@[simp] theorem raise_epoch (e : FaultCode) : (s.raise e).epoch = s.epoch := by simp [State.raise]
@[simp] theorem raise_chain (e : FaultCode) (c' : Fin 2) : (s.raise e).chain c' = s.chain c' := by simp [State.raise]

/-! ### take -/

@[simp] theorem take_p (q : Port) (l : List CommandWord) : (s.take q l).p = s.p := by simp [State.take]
@[simp] theorem take_lifecycle (q : Port) (l : List CommandWord) : (s.take q l).lifecycle = s.lifecycle := by simp [State.take]
@[simp] theorem take_fault (q : Port) (l : List CommandWord) : (s.take q l).fault = s.fault := by simp [State.take]
@[simp] theorem take_fs (q : Port) (l : List CommandWord) : (s.take q l).fs = s.fs := by simp [State.take]
@[simp] theorem take_blocksize (q : Port) (l : List CommandWord) : (s.take q l).blocksize = s.blocksize := by simp [State.take]
@[simp] theorem take_dirty (q : Port) (l : List CommandWord) : (s.take q l).dirty = s.dirty := by simp [State.take]
@[simp] theorem take_recomputes (q : Port) (l : List CommandWord) : (s.take q l).recomputes = s.recomputes := by simp [State.take]
@[simp] theorem take_viewW (q : Port) (l : List CommandWord) : (s.take q l).viewW = s.viewW := by simp [State.take]
@[simp] theorem take_viewH (q : Port) (l : List CommandWord) : (s.take q l).viewH = s.viewH := by simp [State.take]
@[simp] theorem take_crvLen (q : Port) (l : List CommandWord) : (s.take q l).crvLen = s.crvLen := by simp [State.take]
@[simp] theorem take_asnap (q : Port) (l : List CommandWord) : (s.take q l).asnap = s.asnap := by simp [State.take]
@[simp] theorem take_rsnap (q : Port) (l : List CommandWord) : (s.take q l).rsnap = s.rsnap := by simp [State.take]
@[simp] theorem take_stg (q : Port) (l : List CommandWord) : (s.take q l).stg = s.stg := by simp [State.take]
@[simp] theorem take_chains (q : Port) (l : List CommandWord) : (s.take q l).chains = s.chains := by simp [State.take]
@[simp] theorem take_pub (q : Port) (l : List CommandWord) : (s.take q l).pub = s.pub := by simp [State.take]
@[simp] theorem take_smp (q : Port) (l : List CommandWord) : (s.take q l).smp = s.smp := by simp [State.take]
@[simp] theorem take_crv (q : Port) (l : List CommandWord) : (s.take q l).crv = s.crv := by simp [State.take]
@[simp] theorem take_active (q : Port) (l : List CommandWord) : (s.take q l).active = q := by simp [State.take]
@[simp] theorem take_schedule (q : Port) (l : List CommandWord) : (s.take q l).schedule = s.schedule := by simp [State.take]
@[simp] theorem take_draws (q : Port) (l : List CommandWord) : (s.take q l).draws = s.draws := by simp [State.take]
@[simp] theorem take_epoch (q : Port) (l : List CommandWord) : (s.take q l).epoch = s.epoch := by simp [State.take]
@[simp] theorem take_chain (q : Port) (l : List CommandWord) (c' : Fin 2) : (s.take q l).chain c' = s.chain c' := by simp [State.take]

/-- The port whose turn it is has answered and is idle. -/
@[simp] theorem respond_port_active (c : Nat) (d : Word) :
    (s.respond c d).port s.active = { s.port s.active with busy := none, resp := some (response c d) } := by
  simp [State.respond]
theorem respond_port_ne (c : Nat) (d : Word) {x : Port} (h : x ≠ s.active) : (s.respond c d).port x = s.port x := by
  simp [State.respond, setPort_port, h]
@[simp] theorem done_port_active (d : Word) :
    (s.done d).port s.active = { s.port s.active with busy := none, resp := some (response 0 d) } := by
  simp [State.done]
theorem done_port_ne (d : Word) {x : Port} (h : x ≠ s.active) : (s.done d).port x = s.port x := by
  simp [State.done, respond_port_ne s 0 d h]
@[simp] theorem raise_port_active (e : FaultCode) :
    (s.raise e).port s.active = { s.port s.active with busy := none, resp := some (response e.code 0#32) } := by
  have h := respond_port_active (s.setFault (withFaultBit s.fault e)) e.code 0#32
  simpa [State.raise] using h
theorem raise_port_ne (e : FaultCode) {x : Port} (h : x ≠ s.active) : (s.raise e).port x = s.port x := by
  have h' := respond_port_ne (s.setFault (withFaultBit s.fault e)) e.code 0#32 (x := x) (by simpa using h)
  simpa [State.raise] using h'
@[simp] theorem setBusy_port_active (f : InFlight) :
    (s.setBusy f).port s.active = { s.port s.active with busy := some f } := by simp [State.setBusy]
theorem setBusy_port_ne (f : InFlight) {x : Port} (h : x ≠ s.active) : (s.setBusy f).port x = s.port x := by
  simp [State.setBusy, setPort_port, h]
@[simp] theorem take_port_self (q : Port) (l : List CommandWord) :
    (s.take q l).port q = { s.port q with queue := l } := by simp [State.take]
theorem take_port_ne {q x : Port} (h : x ≠ q) (l : List CommandWord) : (s.take q l).port x = s.port x := by
  simp [State.take, setPort_port, h]

end Sys2Proof.Machine.State
end

