-- ==== Sys2Proof/Laws/Steps.lean ====
section
/-! SUPPORT. Everything one step can do: which turn it takes, whether the port is idle, goes on, refuses a word or runs a
command, and the effect each of these has. -/

namespace Sys2Proof.Laws

open Machine

/-! ### The state a command starts from -/

theorem port_setSchedule (s : State) (rest : List Turn) (p : Port) : (s.setSchedule rest).port p = s.port p := by
  cases p <;> rfl

theorem port_setActive (s : State) (p q : Port) : (s.setActive p).port q = s.port q := by cases q <;> rfl

theorem take_eq (s : State) (rest : List Turn) (p : Port) (q : List CommandWord) : (s.setSchedule rest).take p q =
    ({ s with schedule := rest, active := p } : State).setPort p { s.port p with queue := q } := by
  cases p <;> rfl

theorem take_active (s : State) (p : Port) (q : List CommandWord) : (s.take p q).active = p := by cases p <;> rfl

/-- Taking a command changes a queue and the port whose turn it is, which no check of the command looks at but that port. -/
theorem checks_take (i : Instr) (s : State) (p : Port) (q : List CommandWord) :
    checks i (s.take p q) = checks i (s.setActive p) := by
  cases p <;> cases i <;> rfl

/-! ### The first atomic step -/

/-- What the first atomic step of a command does once its checks have passed. -/
def startEffect (i : Instr) (c : Nat) (s : State) : State :=
  match i with
  | .snap => readStep .snap noReads c s
  | .prepare bs fs => readStep (.prepare bs fs) noReads c s
  | .block nin nout count => readStep (.block nin nout count) noReads c s
  | .tick => tickStart s
  | .pdefault => defaultStep 0 s
  | .rdreg _ | .pwrite _ _ | .pread _ | .release | .wrsmp _ _ _ | .rdsmp _ _ | .clrch _ _ | .proc _ _ | .despk | .descut _
  | .ldstg _ _ _ | .setpk _ | .setcut _ _ _ | .publish | .setview _ _ | .rdcrv _ => effect i s

theorem startAtomic_eq (i : Instr) (c : Nat) (s : State) : startAtomic i c s = .next (checked i s (startEffect i c)) := by
  cases i <;> rfl

theorem take_dirty (s : State) (p : Port) (q : List CommandWord) : (s.take p q).dirty = s.dirty := by cases p <;> rfl

/-- The first step of a command of one atomic step is the whole command (20_memory R67). -/
theorem startAtomic_of_one {i : Instr} {s s0 : State} (h : atomicSteps i s0 = 1) (hd : s.dirty = s0.dirty) (c : Nat) :
    startAtomic i c s = exec i s := by
  rw [startAtomic_eq, exec_eq]
  cases i with
  | rdreg _ | pwrite _ _ | pread _ | release | wrsmp _ _ _ | rdsmp _ _ | clrch _ _ | proc _ _ | ldstg _ _ _ | publish
  | setview _ _ | rdcrv _ | despk | descut _ | setpk _ | setcut _ _ _ => rfl
  | snap | prepare _ _ | block _ _ _ | pdefault => cases h
  | tick =>
    have hf : s.dirty = false := by
      rw [hd, ← Bool.not_eq_true]
      intro hc
      rw [atomicSteps, if_pos hc] at h
      cases h
    simp [checked, startEffect, tickStart, effect, hf]

theorem checked_cases (i : Instr) (s : State) (f : State → State) :
    (∃ c, checks i s = some c ∧ checked i s f = s.faulted c.code) ∨ (checks i s = none ∧ checked i s f = f s) := by
  cases h : checks i s with
  | some c => exact .inl ⟨c, rfl, checked_of_some h⟩
  | none => exact .inr ⟨rfl, checked_of_none h⟩

theorem refuseWord_operand (o : Opcode) (s : State) :
    refuseWord (.illegalOperand o) s = s.faulted (if portAdmits o s.active then 2 else 3) := by
  simp only [refuseWord]
  split <;> exact raise_eq_faulted _ _

/-! ### A turn of a port -/

/-- What can become of a port that has its turn in state `s0`, its turn already taken off the schedule. -/
inductive Moved (p : Port) (s0 : State) : State → Prop
  | idle : Moved p s0 s0
  | completed (f : InFlight) : (s0.port p).busy = some f → Moved p s0 (complete f (s0.setActive p))
  | advanced (f : InFlight) (c : Nat) : (s0.port p).busy = some f → Moved p s0 (advance f c (s0.setActive p))
  | refusedWord (w : CommandWord) (q : List CommandWord) (n : Nat) : (s0.port p).busy = none → (s0.port p).queue = w :: q →
      n = 1 ∨ n = 2 ∨ n = 3 → Moved p s0 ((s0.take p q).faulted n)
  | checkFailed (w : CommandWord) (q : List CommandWord) (i : Instr) (f : FaultCode) : (s0.port p).busy = none →
      (s0.port p).queue = w :: q → decode w = .ok i → checks i (s0.take p q) = some f →
      Moved p s0 ((s0.take p q).faulted f.code)
  | ran (w : CommandWord) (q : List CommandWord) (i : Instr) : (s0.port p).busy = none → (s0.port p).queue = w :: q →
      decode w = .ok i → checks i (s0.take p q) = none → Moved p s0 (effect i (s0.take p q))
  | started (w : CommandWord) (q : List CommandWord) (i : Instr) (c : Nat) : (s0.port p).busy = none →
      (s0.port p).queue = w :: q → decode w = .ok i → checks i (s0.take p q) = none →
      Moved p s0 (startEffect i c (s0.take p q))

/-- A turn of a port, given that commands are run by `run` after their checks and a command under way goes on by `go`. -/
theorem portTurn_moved {go : InFlight → State → State} {exe : Instr → State → Host.Outcome State Fault Refusal}
    {run : Instr → State → State} (he : ∀ i s, exe i s = .next (checked i s (run i))) {p : Port} {s0 t : State}
    (hgo : ∀ f, (s0.port p).busy = some f → Moved p s0 (go f (s0.setActive p)))
    (hrun : ∀ w q i, (s0.port p).busy = none → (s0.port p).queue = w :: q → decode w = .ok i →
      checks i (s0.take p q) = none → Moved p s0 (run i (s0.take p q)))
    (h : portTurn go exe p s0 = .next t) : Moved p s0 t := by
  unfold portTurn at h
  cases hb : (s0.port p).busy with
  | some f => rw [hb] at h; cases h; exact hgo f hb
  | none =>
    rw [hb] at h
    cases hq : (s0.port p).queue with
    | nil => rw [hq] at h; cases h; exact .idle
    | cons w q =>
      rw [hq] at h
      simp only [runWord] at h
      cases hd : decode w with
      | ok i =>
        rw [hd] at h
        simp only [he] at h
        rcases checked_cases i (s0.take p q) (run i) with ⟨c, hc, e⟩ | ⟨hc, e⟩ <;> rw [e] at h <;> cases h
        · exact .checkFailed w q i c hb hq hd hc
        · exact hrun w q i hb hq hd hc
      | illegalOpcode =>
        rw [hd] at h; cases h
        rw [refuseWord, raise_eq_faulted]
        exact .refusedWord w q 1 hb hq (.inl rfl)
      | illegalOperand o =>
        rw [hd] at h; cases h
        rw [refuseWord_operand]
        exact .refusedWord w q _ hb hq (by split <;> simp)

/-- Everything a step can do: nothing, the external reset, or one turn of one port. -/
theorem step_cases {s t : State} (h : step s = .next t) :
    (s.schedule = [] ∧ t = s) ∨ (∃ rest, s.schedule = .reset :: rest ∧ t = (s.setSchedule rest).afterReset) ∨
      ∃ u rest p, s.schedule = u :: rest ∧ u.notReset ∧ u.ofPort p ∧ Moved p (s.setSchedule rest) t := by
  unfold step at h
  cases hs : s.schedule with
  | nil => rw [hs] at h; cases h; exact .inl ⟨rfl, rfl⟩
  | cons u rest =>
    rw [hs] at h
    right
    cases u with
    | reset => cases h; exact .inl ⟨rest, rfl, rfl⟩
    | whole p =>
      refine .inr ⟨_, rest, p, rfl, trivial, rfl, portTurn_moved exec_eq ?_ ?_ h⟩
      · exact fun f hb => .completed f hb
      · exact fun w q i hb hq hd hc => .ran w q i hb hq hd hc
    | atomic p c =>
      refine .inr ⟨_, rest, p, rfl, trivial, rfl, portTurn_moved (fun i s => startAtomic_eq i c s) ?_ ?_ h⟩
      · exact fun f hb => .advanced f c hb
      · exact fun w q i hb hq hd hc => .started w q i c hb hq hd hc

/-- A whole turn of an idle port with a word in its queue runs that word. -/
theorem step_whole {s : State} {p : Port} {rest : List Turn} {w : CommandWord} {q : List CommandWord}
    (hs : s.schedule = .whole p :: rest) (hb : (s.port p).busy = none) (hq : (s.port p).queue = w :: q) :
    step s = runWord exec w ((s.setSchedule rest).take p q) := by
  unfold step
  rw [hs]
  simp only [takeTurn, portTurn, port_setSchedule, hb, hq]

/-- An atomic turn of an idle port with a word in its queue makes that word's first step. -/
theorem step_atomic_idle {s : State} {p : Port} {c : Nat} {rest : List Turn} {w : CommandWord} {q : List CommandWord}
    (hs : s.schedule = .atomic p c :: rest) (hb : (s.port p).busy = none) (hq : (s.port p).queue = w :: q) :
    step s = runWord (fun i s => startAtomic i c s) w ((s.setSchedule rest).take p q) := by
  unfold step
  rw [hs]
  simp only [takeTurn, portTurn, port_setSchedule, hb, hq]

/-- An atomic turn of a port with a command under way makes that command's next step. -/
theorem step_atomic_busy {s : State} {p : Port} {c : Nat} {rest : List Turn} {f : InFlight}
    (hs : s.schedule = .atomic p c :: rest) (hb : (s.port p).busy = some f) :
    step s = .next (advance f c ((s.setSchedule rest).setActive p)) := by
  unfold step
  rw [hs]
  simp only [takeTurn, portTurn, port_setSchedule, hb]

/-- No turn stops the machine. -/
theorem step_next (s : State) : ∃ t, step s = .next t := by
  have hrun : ∀ (exe : Instr → State → Host.Outcome State Fault Refusal) (run : Instr → State → State),
      (∀ i s, exe i s = .next (checked i s (run i))) → ∀ w s, ∃ t, runWord exe w s = .next t := by
    intro exe run he w s
    unfold runWord
    cases decode w with
    | ok i => exact ⟨_, he i s⟩
    | illegalOpcode => exact ⟨_, rfl⟩
    | illegalOperand o => exact ⟨_, rfl⟩
  have hport : ∀ (go : InFlight → State → State) (exe : Instr → State → Host.Outcome State Fault Refusal)
      (run : Instr → State → State), (∀ i s, exe i s = .next (checked i s (run i))) →
      ∀ p s, ∃ t, portTurn go exe p s = .next t := by
    intro go exe run he p s
    unfold portTurn
    cases (s.port p).busy with
    | some f => exact ⟨_, rfl⟩
    | none =>
      cases (s.port p).queue with
      | nil => exact ⟨_, rfl⟩
      | cons w q => exact hrun exe run he w _
  unfold step
  cases s.schedule with
  | nil => exact ⟨_, rfl⟩
  | cons u rest =>
    cases u with
    | reset => exact ⟨_, rfl⟩
    | whole p => exact hport _ _ _ exec_eq p _
    | atomic p c => exact hport _ _ _ (fun i s => startAtomic_eq i c s) p _

theorem run_next (n : Nat) (s : State) : ∃ t, Sys2Proof.core.run n s = .next t := by
  induction n generalizing s with
  | zero => exact ⟨s, rfl⟩
  | succ n ih =>
    obtain ⟨u, hu⟩ := step_next s
    obtain ⟨t, ht⟩ := ih u
    refine ⟨t, ?_⟩
    simp only [Host.Core.run]
    rw [show Sys2Proof.core.step s = step s from rfl, hu]
    exact ht

end Sys2Proof.Laws
end

