-- ==== Sys2Proof/Laws/Ports.lean ====
section
/-! SUPPORT. What the commands leave of the ports: a command that ends idles its own port, one that goes on marks it busy, and
neither touches another port, the port whose turn it is, or the schedule. -/

namespace Sys2Proof.Laws

open Machine

/-- `t` is `s` as far as the ports go, but that the command of the port whose turn it is has ended. -/
structure PortsEnd (s t : State) : Prop where
  busy : (t.port s.active).busy = none
  queue : (t.port s.active).queue = (s.port s.active).queue
  others : ∀ q, q ≠ s.active → t.port q = s.port q
  active : t.active = s.active
  schedule : t.schedule = s.schedule

/-- The same ports, turn and schedule. -/
structure PortsSame (s t : State) : Prop where
  a : t.portA = s.portA
  r : t.portR = s.portR
  h : t.portH = s.portH
  active : t.active = s.active
  schedule : t.schedule = s.schedule

theorem PortsSame.refl (s : State) : PortsSame s s := ⟨rfl, rfl, rfl, rfl, rfl⟩

theorem PortsSame.port {s t : State} (h : PortsSame s t) (q : Port) : t.port q = s.port q := by
  cases q
  · exact h.a
  · exact h.r
  · exact h.h

theorem PortsSame.respond {s x : State} (h : PortsSame s x) (c : Nat) (d : Word) : PortsEnd s (x.respond c d) := by
  unfold State.respond
  rw [h.active]
  constructor
  · simp
  · simp [h.port]
  · intro q hq; rw [State.setPort_port_ne x hq, h.port]
  · simp [h.active]
  · simp [h.schedule]

theorem PortsSame.done {s x : State} (h : PortsSame s x) (d : Word) : PortsEnd s (x.done d) := h.respond 0 d

theorem PortsSame.raise {s x : State} (h : PortsSame s x) (f : FaultCode) : PortsEnd s (x.raise f) :=
  PortsSame.respond (s := s) (x := x.setFault (withFaultBit x.fault f)) ⟨h.a, h.r, h.h, h.active, h.schedule⟩ _ _

theorem PortsEnd.faulted (s : State) (f : FaultCode) : PortsEnd s (s.faulted f.code) := by
  rw [← raise_eq_faulted]; exact (PortsSame.refl s).raise f

theorem prepareFinish_ports (bs : BitVec 16) (fs : Word) (r : Vector Word 7) (s : State) :
    PortsEnd s (prepareFinish bs fs r s) := by
  unfold prepareFinish
  split
  · refine PortsSame.done ?_ _
    constructor <;> rfl
  · exact (PortsSame.refl s).raise _

theorem blockFinish_ports (nin nout : BitVec 4) (count : BitVec 16) (r : Vector Word 7) (s : State) :
    PortsEnd s (blockFinish nin nout count r s) := by
  unfold blockFinish
  split
  · refine PortsSame.done ?_ _
    constructor <;> simp [clearOutputs]
  · exact (PortsSame.refl s).raise _

theorem snapshotCmd_ports (c : SnapshotCmd) (r : Vector Word 7) (s : State) : PortsEnd s (c.finish r s) := by
  cases c with
  | snap =>
    refine PortsSame.done (x := s.setAsnap (snapshot r)) ?_ _
    constructor <;> rfl
  | prepare bs fs => exact prepareFinish_ports bs fs r s
  | block nin nout count => exact blockFinish_ports nin nout count r s
  | tick =>
    refine PortsSame.done ?_ _
    constructor <;> rfl

theorem defaultSteps_ports (n : Nat) (h : n ≤ 7) (s : State) : PortsEnd s (defaultSteps 8 n s) := by
  rw [defaultSteps_eight n h]
  refine PortsSame.done ?_ _
  constructor <;> rfl

theorem complete_ports (f : InFlight) (s : State) : PortsEnd s (complete f s) := by
  cases f with
  | reading c got => exact snapshotCmd_ports c _ s
  | defaulting n => exact defaultSteps_ports n.val (by omega) s

theorem effect_ports (i : Instr) (s : State) : PortsEnd s (effect i s) := by
  cases i with
  | rdreg _ | pwrite _ _ | pread _ | release | wrsmp _ _ _ | rdsmp _ _ | clrch _ _ | proc _ _ | ldstg _ _ _ | publish
  | setview _ _ | rdcrv _ =>
    refine PortsSame.done ?_ _
    constructor <;> rfl
  | snap => exact snapshotCmd_ports .snap s.p s
  | pdefault => exact defaultSteps_ports 0 (by omega) s
  | prepare bs fs => exact prepareFinish_ports bs fs _ s
  | block nin nout count => exact blockFinish_ports nin nout count _ s
  | despk | descut _ | setpk _ | setcut _ _ _ =>
    simp only [effect]
    split
    · refine PortsSame.done ?_ _
      constructor <;> rfl
    · refine PortsSame.raise ?_ _
      constructor <;> rfl
  | tick =>
    simp only [effect]
    split <;> refine PortsSame.done ?_ _ <;> constructor <;> rfl

/-- An atomic step of a snapshot command: one read, which only marks it on the port, or the rest of the command. -/
theorem readStep_cases (cmd : SnapshotCmd) (got : Vector (Option Word) 7) (c : Nat) (s : State) :
    (unread got = [] ∧ readStep cmd got c s = cmd.finish (fillReads got s.p) s) ∨
      ∃ j ∈ unread got, readStep cmd got c s = s.setBusy (.reading cmd (got.set j (some s.p[j]))) := by
  unfold readStep
  cases h : unread got with
  | nil => exact .inl ⟨rfl, rfl⟩
  | cons i rest =>
    right
    have hlt : c % (rest.length + 1) < (i :: rest).length := Nat.mod_lt _ (Nat.succ_pos _)
    refine ⟨(i :: rest)[c % (rest.length + 1)], List.getElem_mem hlt, ?_⟩
    simp only [List.getElem?_eq_getElem hlt, Option.getD_some]

theorem mem_unread (got : Vector (Option Word) 7) (j : Fin 7) : j ∈ unread got ↔ got[j] = none := by
  have h : j ∈ ([0, 1, 2, 3, 4, 5, 6] : List (Fin 7)) := by revert j; decide
  simp [unread, List.mem_filter, h]

/-- With every parameter read, the values of a snapshot are those read. -/
theorem fillReads_of_all {got : Vector (Option Word) 7} {r : Vector Word 7} (h : ∀ j : Fin 7, got[j] = some r[j])
    (p : Vector Word 7) : fillReads got p = r := by
  refine Vector.ext fun j hj => ?_
  match j, hj with
  | 0, _ => exact congrArg (Option.getD · p[0]) (h 0)
  | 1, _ => exact congrArg (Option.getD · p[1]) (h 1)
  | 2, _ => exact congrArg (Option.getD · p[2]) (h 2)
  | 3, _ => exact congrArg (Option.getD · p[3]) (h 3)
  | 4, _ => exact congrArg (Option.getD · p[4]) (h 4)
  | 5, _ => exact congrArg (Option.getD · p[5]) (h 5)
  | 6, _ => exact congrArg (Option.getD · p[6]) (h 6)

/-- Any parameter not read yet can be the next one (20_memory R68). -/
theorem readStep_any (cmd : SnapshotCmd) (got : Vector (Option Word) 7) (s : State) {j : Fin 7} (h : j ∈ unread got) :
    ∃ c, readStep cmd got c s = s.setBusy (.reading cmd (got.set j (some s.p[j]))) := by
  obtain ⟨c, hc, e⟩ := List.getElem_of_mem h
  refine ⟨c, ?_⟩
  unfold readStep
  cases hu : unread got with
  | nil => rw [hu] at h; cases h
  | cons i rest =>
    simp only [hu] at hc e
    simp only [Nat.mod_eq_of_lt (show c < rest.length + 1 from hc), List.getElem?_eq_getElem hc, Option.getD_some, e]

theorem setBusy_port_self (s : State) (f : InFlight) : ((s.setBusy f).port s.active).busy = some f := by
  simp [State.setBusy]

theorem setBusy_port_ne (s : State) (f : InFlight) {q : Port} (h : q ≠ s.active) : (s.setBusy f).port q = s.port q := by
  rw [State.setBusy, State.setPort_port_ne s h]

/-- `t` is `s` with the command of the port whose turn it is under way. -/
structure PortsGoOn (s t : State) (f : InFlight) : Prop where
  busy : (t.port s.active).busy = some f
  queue : (t.port s.active).queue = (s.port s.active).queue
  others : ∀ q, q ≠ s.active → t.port q = s.port q
  active : t.active = s.active
  schedule : t.schedule = s.schedule

theorem setBusy_ports (s : State) (f : InFlight) : PortsGoOn s (s.setBusy f) f := by
  constructor
  · exact setBusy_port_self s f
  · simp [State.setBusy]
  · exact fun q hq => setBusy_port_ne s f hq
  · simp
  · simp

/-- A step of PDEFAULT: the next one is due, or it has ended. -/
theorem defaultStep_ports (n : Fin 8) (s : State) :
    (∃ h : n.val < 7, PortsGoOn s (defaultStep n s) (.defaulting ⟨n.val + 1, by omega⟩)) ∨ PortsEnd s (defaultStep n s) := by
  unfold defaultStep
  split
  · rename_i h
    refine .inl ⟨h, ?_⟩
    constructor <;> simp +contextual [State.setPort_port]
  · right
    refine PortsSame.done ?_ _
    constructor <;> rfl

/-- The next atomic step of a command under way: the same command goes on, or it has ended. -/
theorem advance_ports (f : InFlight) (c : Nat) (s : State) :
    PortsEnd s (advance f c s) ∨
      (∃ cmd got got', f = .reading cmd got ∧ PortsGoOn s (advance f c s) (.reading cmd got')) ∨
      ∃ n m, f = .defaulting n ∧ PortsGoOn s (advance f c s) (.defaulting m) := by
  cases f with
  | reading cmd got =>
    rcases readStep_cases cmd got c s with ⟨_, h⟩ | ⟨j, _, h⟩
    · left; show PortsEnd s (readStep cmd got c s); rw [h]; exact snapshotCmd_ports _ _ _
    · right; left
      refine ⟨cmd, got, got.set j (some s.p[j]), rfl, ?_⟩
      show PortsGoOn s (readStep cmd got c s) _
      rw [h]
      exact setBusy_ports _ _
  | defaulting n =>
    rcases defaultStep_ports n s with ⟨_, h⟩ | h
    · exact .inr (.inr ⟨n, _, rfl, h⟩)
    · exact .inl h

/-- The first step of a command: a snapshot command or PDEFAULT goes on, any other has ended. -/
theorem startEffect_ports (i : Instr) (c : Nat) (s : State) :
    PortsEnd s (startEffect i c s) ∨
      ∃ f, PortsGoOn s (startEffect i c s) f ∧
        ((i = .snap ∧ ∃ g, f = .reading .snap g) ∨ (∃ bs fs, i = .prepare bs fs ∧ ∃ g, f = .reading (.prepare bs fs) g) ∨
          (∃ a b n, i = .block a b n ∧ ∃ g, f = .reading (.block a b n) g) ∨ (i = .tick ∧ ∃ g, f = .reading .tick g) ∨
          (i = .pdefault ∧ ∃ n, f = .defaulting n)) := by
  have hr : ∀ cmd, PortsEnd s (readStep cmd noReads c s) ∨ ∃ g, PortsGoOn s (readStep cmd noReads c s) (.reading cmd g) := by
    intro cmd
    rcases readStep_cases cmd noReads c s with ⟨_, h⟩ | ⟨j, _, h⟩ <;> rw [h]
    · exact .inl (snapshotCmd_ports _ _ _)
    · exact .inr ⟨_, setBusy_ports _ _⟩
  cases i with
  | rdreg _ | pwrite _ _ | pread _ | release | wrsmp _ _ _ | rdsmp _ _ | clrch _ _ | proc _ _ | ldstg _ _ _ | publish
  | setview _ _ | rdcrv _ | despk | descut _ | setpk _ | setcut _ _ _ =>
    left; simp only [startEffect]; exact effect_ports _ s
  | snap =>
    rcases hr .snap with h | ⟨g, h⟩
    · exact .inl h
    · exact .inr ⟨_, h, .inl ⟨rfl, g, rfl⟩⟩
  | prepare bs fs =>
    rcases hr (.prepare bs fs) with h | ⟨g, h⟩
    · exact .inl h
    · exact .inr ⟨_, h, .inr (.inl ⟨bs, fs, rfl, g, rfl⟩)⟩
  | block a b n =>
    rcases hr (.block a b n) with h | ⟨g, h⟩
    · exact .inl h
    · exact .inr ⟨_, h, .inr (.inr (.inl ⟨a, b, n, rfl, g, rfl⟩))⟩
  | tick =>
    rw [show startEffect .tick c s = tickStart s from rfl, tickStart]
    split
    · right
      have h := setBusy_ports (s.setDirty false) (.reading .tick noReads)
      refine ⟨_, ⟨h.busy, h.queue, fun q hq => ?_, h.active, h.schedule⟩,
        .inr (.inr (.inr (.inl ⟨rfl, _, rfl⟩)))⟩
      rw [h.others q hq]; simp
    · left
      refine PortsSame.done ?_ _
      constructor <;> rfl
  | pdefault =>
    rcases defaultStep_ports 0 s with ⟨_, h⟩ | h
    · exact .inr ⟨_, h, .inr (.inr (.inr (.inr ⟨rfl, _, rfl⟩)))⟩
    · exact .inl h

theorem take_port_ne (s : State) {p x : Port} (q : List CommandWord) (h : x ≠ p) : (s.take p q).port x = s.port x := by
  rw [State.take, State.setPort_port_ne _ h, port_setActive]

theorem take_schedule (s : State) (p : Port) (q : List CommandWord) : (s.take p q).schedule = s.schedule := by
  cases p <;> rfl

/-- A turn of a port leaves the schedule and the other two ports alone. -/
theorem moved_frame {p : Port} {s0 t : State} (h : Moved p s0 t) :
    t.schedule = s0.schedule ∧ ∀ x, x ≠ p → t.port x = s0.port x := by
  have hend : ∀ {s1 u : State}, s1.active = p → s1.schedule = s0.schedule → (∀ x, x ≠ p → s1.port x = s0.port x) →
      PortsEnd s1 u → u.schedule = s0.schedule ∧ ∀ x, x ≠ p → u.port x = s0.port x := by
    intro s1 u ha hs hp he
    exact ⟨he.schedule.trans hs, fun x hx => (he.others x (by rw [ha]; exact hx)).trans (hp x hx)⟩
  have hgo : ∀ {s1 u : State} {f : InFlight}, s1.active = p → s1.schedule = s0.schedule →
      (∀ x, x ≠ p → s1.port x = s0.port x) → PortsGoOn s1 u f →
      u.schedule = s0.schedule ∧ ∀ x, x ≠ p → u.port x = s0.port x := by
    intro s1 u f ha hs hp he
    exact ⟨he.schedule.trans hs, fun x hx => (he.others x (by rw [ha]; exact hx)).trans (hp x hx)⟩
  have hact : ∀ x, x ≠ p → (s0.setActive p).port x = s0.port x := fun x _ => port_setActive s0 p x
  have htake : ∀ q x, x ≠ p → (s0.take p q).port x = s0.port x := fun q x hx => take_port_ne s0 q hx
  cases h with
  | idle => exact ⟨rfl, fun _ _ => rfl⟩
  | completed f _ => exact hend (s1 := s0.setActive p) rfl rfl hact (complete_ports f _)
  | advanced f c _ =>
    rcases advance_ports f c (s0.setActive p) with he | ⟨_, _, _, _, hg⟩ | ⟨_, _, _, hg⟩
    · exact hend (s1 := s0.setActive p) rfl rfl hact he
    · exact hgo (s1 := s0.setActive p) rfl rfl hact hg
    · exact hgo (s1 := s0.setActive p) rfl rfl hact hg
  | refusedWord w q n _ _ hn =>
    rcases hn with rfl | rfl | rfl
    · exact hend (take_active s0 p q) (take_schedule s0 p q) (htake q) (PortsEnd.faulted _ .illegalOpcode)
    · exact hend (take_active s0 p q) (take_schedule s0 p q) (htake q) (PortsEnd.faulted _ .illegalOperand)
    · exact hend (take_active s0 p q) (take_schedule s0 p q) (htake q) (PortsEnd.faulted _ .wrongPort)
  | checkFailed w q i f _ _ _ _ =>
    exact hend (take_active s0 p q) (take_schedule s0 p q) (htake q) (PortsEnd.faulted _ f)
  | ran w q i _ _ _ _ => exact hend (take_active s0 p q) (take_schedule s0 p q) (htake q) (effect_ports i _)
  | started w q i c _ _ _ _ =>
    rcases startEffect_ports i c (s0.take p q) with he | ⟨f, hg, _⟩
    · exact hend (take_active s0 p q) (take_schedule s0 p q) (htake q) he
    · exact hgo (take_active s0 p q) (take_schedule s0 p q) (htake q) hg

end Sys2Proof.Laws
end

