-- ==== Sys2Proof/Tests/Slice0.lean ====
section
/-! SUPPORT. The model's own tests, and for each statement with hypotheses a concrete case that meets them. Expected values are
those of spec/95_test_vectors.md (named V-...) or hand calculation from the rule named. -/

namespace Sys2Proof.Tests

open Machine

-- The tests are checked one after the other, so that the many small kernel evaluations do not wait for one another in threads.
set_option Elab.async false

/-! ### The well-formedness check refuses an ill-formed term of each kind (30_encoding R96) -/

theorem test_wf_rdreg_unmapped : (Instr.rdreg 0x000C#16).wellFormed = false := by decide
theorem test_wf_pwrite_index : (Instr.pwrite 7#8 0#32).wellFormed = false := by decide
theorem test_wf_pread_index : (Instr.pread 7#8).wellFormed = false := by decide
theorem test_wf_block_inputs : (Instr.block 3#4 0#4 4#16).wellFormed = false := by decide
theorem test_wf_block_outputs : (Instr.block 0#4 3#4 4#16).wellFormed = false := by decide
theorem test_wf_ldstg_slot : (Instr.ldstg 9#8 0#16 0#32).wellFormed = false := by decide
theorem test_wf_ldstg_word : (Instr.ldstg 0#8 5#16 0#32).wellFormed = false := by decide
theorem test_wf_setcut_slope : (Instr.setcut 0 .low 4#16).wellFormed = false := by decide
theorem test_wf_setview_width : (Instr.setview 4097#16 10#16).wellFormed = false := by decide
theorem test_wf_limits : (Instr.rdreg 0x0247#16).wellFormed = true ∧ (Instr.pwrite 6#8 0#32).wellFormed = true ∧
    (Instr.block 2#4 2#4 4#16).wellFormed = true ∧ (Instr.ldstg 8#8 4#16 0#32).wellFormed = true ∧
    (Instr.setcut 1 .high 3#16).wellFormed = true ∧ (Instr.setview 4096#16 0#16).wellFormed = true := by decide

/-! ### Decoding: the words of V-E1 and V-E2, written out from 30_encoding R90 and R96 -/

theorem test_decode_rdreg : decode 0x0100000600000000#64 = .ok (.rdreg 6#16) := by decide +kernel
theorem test_decode_pwrite : decode 0x1005000041400000#64 = .ok (.pwrite 5#8 0x41400000#32) := by decide +kernel
theorem test_decode_pread : decode 0x1102000000000000#64 = .ok (.pread 2#8) := by decide +kernel
theorem test_decode_pdefault : decode 0x1200000000000000#64 = .ok .pdefault := by decide +kernel
theorem test_decode_prepare : decode 0x20000200472C4400#64 = .ok (.prepare 512#16 0x472C4400#32) := by decide +kernel
theorem test_decode_block : decode 0x2121000400000000#64 = .ok (.block 1#4 2#4 4#16) := by decide +kernel
theorem test_decode_release : decode 0x2200000000000000#64 = .ok .release := by decide +kernel
theorem test_decode_wrsmp : decode 0x23010003BF000000#64 = .ok (.wrsmp 1 3#16 0xBF000000#32) := by decide +kernel
theorem test_decode_rdsmp : decode 0x2401000300000000#64 = .ok (.rdsmp 1 3#16) := by decide +kernel
theorem test_decode_clrch : decode 0x2501000400000000#64 = .ok (.clrch 1 4#16) := by decide +kernel
theorem test_decode_proc : decode 0x2600020000000000#64 = .ok (.proc 0 512#16) := by decide +kernel
theorem test_decode_snap : decode 0x2800000000000000#64 = .ok .snap := by decide +kernel
theorem test_decode_despk : decode 0x2900000000000000#64 = .ok .despk := by decide +kernel
theorem test_decode_descut : decode 0x2A01000000000000#64 = .ok (.descut .high) := by decide +kernel
theorem test_decode_ldstg : decode 0x2B0500007FC00000#64 = .ok (.ldstg 5#8 0#16 0x7FC00000#32) := by decide +kernel
theorem test_decode_setpk : decode 0x2C01000000000000#64 = .ok (.setpk 1) := by decide +kernel
theorem test_decode_setcut : decode 0x2D02000300000000#64 = .ok (.setcut 0 .high 3#16) := by decide +kernel
theorem test_decode_setcut_low : decode 0x2D01000200000000#64 = .ok (.setcut 1 .low 2#16) := by decide +kernel
theorem test_decode_publish : decode 0x2E00000000000000#64 = .ok .publish := by decide +kernel
theorem test_decode_tick : decode 0x3000000000000000#64 = .ok .tick := by decide +kernel
theorem test_decode_setview : decode 0x3100032000000168#64 = .ok (.setview 800#16 360#16) := by decide +kernel
theorem test_decode_rdcrv : decode 0x320001C500000000#64 = .ok (.rdcrv 453#16) := by decide +kernel

/-- Must-be-zero bits: V-A1, V-R3, V-A2 and V-F1's A[2] of SETCUT. -/
theorem test_decode_must_be_zero : decode 0x0101000000000000#64 = .illegalOperand .rdreg ∧
    decode 0x3100100000010000#64 = .illegalOperand .setview ∧ decode 0x2302000000000000#64 = .illegalOperand .wrsmp ∧
    decode 0x2D04000000000000#64 = .illegalOperand .setcut ∧ decode 0x3000000000000001#64 = .illegalOperand .tick := by
  decide +kernel

theorem test_encode_words : encode (.setcut 1 .high 2#16) = 0x2D03000200000000#64 ∧
    encode (.block 2#4 2#4 512#16) = 0x2122020000000000#64 ∧ encode (.setview 800#16 360#16) = 0x3100032000000168#64 := by
  decide +kernel

theorem test_decodeTableWord : decodeTableWord 64 0x2800000000000000 = some .snap ∧
    decodeTableWord 64 0x2700000000000000 = none := by decide +kernel

/-- The ends of the ranges of the address map (10_state R30). -/
theorem test_regAt_ends : regAt 0x000B = some .pubFs ∧ regAt 0x000C = none ∧ regAt 0x000F = none ∧ regAt 0x0010 = some (.p 0) ∧
    regAt 0x0016 = some (.p 6) ∧ regAt 0x0017 = none ∧ regAt 0x0018 = some (.asnap 0) ∧ regAt 0x001F = none ∧
    regAt 0x0020 = some (.rsnap 0) ∧ regAt 0x0027 = none ∧ regAt 0x003F = none ∧ regAt 0x0040 = some (.stg 0 0) ∧
    regAt 0x0045 = some .unused ∧ regAt 0x0087 = some .unused ∧ regAt 0x0088 = none ∧ regAt 0x00FF = none ∧
    regAt 0x0100 = some (.coef 0 0 0) ∧ regAt 0x0127 = some (.byp 0 4) ∧ regAt 0x0147 = some (.byp 0 8) ∧
    regAt 0x0148 = none ∧ regAt 0x017F = none ∧ regAt 0x0180 = some (.coef 1 0 0) ∧ regAt 0x01C8 = none ∧
    regAt 0x01FF = none ∧ regAt 0x0200 = some (.pubCoef 0 0) ∧ regAt 0x0247 = some (.pubByp 8) ∧ regAt 0x0248 = none := by
  decide

/-! ### Numerics -/

/-- V-N1. -/
theorem test_arithmetic : F32.fadd 0x3F800000#32 0x33800000#32 = 0x3F800000#32 ∧
    F32.fadd 0x3F800000#32 0x33800001#32 = 0x3F800001#32 ∧ F32.fmul 0x7F7FFFFF#32 0x40000000#32 = 0x7F800000#32 ∧
    F32.fsub 0x3FC00000#32 0x3FC00000#32 = 0#32 ∧ F32.fdiv 0xBF800000#32 0#32 = 0xFF800000#32 ∧
    F32.isNaN (F32.fdiv 0#32 0#32) = true ∧ F32.fdiv 0x3F800000#32 0x40400000#32 = 0x3EAAAAAB#32 ∧
    F32.fdiv 0x41C00000#32 0x42100000#32 = 0x3F2AAAAB#32 ∧ F32.fsqrt 0x40000000#32 = 0x3FB504F3#32 ∧
    F32.isNaN (F32.fsqrt 0xBF800000#32) = true ∧ F32.fmul 0x00800000#32 0x3F000000#32 = 0x00400000#32 ∧
    F32.fmul 0x00000001#32 0x3F000000#32 = 0#32 ∧ F32.fmul 0x00000003#32 0x3F000000#32 = 0x00000002#32 := by
  decide +kernel

/-- V-N2: POW10(1.0) and LOG10(10.0) of NUM_CR. -/
theorem test_numCR : numCR.pow10 0x3F800000#32 = 0x41200000#32 ∧ numCR.log10 0x41200000#32 = 0x3F800000#32 := by
  have h1 : val 0x3F800000#32 = 1 := Laws.val_one
  have h10 : val 0x41200000#32 = 10 := by
    rw [Laws.val_natUnits (n := 10) (by decide) (by decide)]; norm_num
  have k : F32.isNaN 0x3F800000#32 = false ∧ F32.isInf 0x3F800000#32 = false ∧ F32.isNaN 0x41200000#32 = false ∧
      F32.isZero 0x41200000#32 = false ∧ F32.sign 0x41200000#32 = false ∧ F32.isInf 0x41200000#32 = false := by decide
  obtain ⟨k1, k2, k3, k4, k5, k6⟩ := k
  constructor
  · simp only [numCR, k1, k2, Bool.false_eq_true, if_false, h1, Real.rpow_one]
    rw [← h10]
    exact Laws.roundReal_val _ (by decide) (by decide)
  · simp only [numCR, k3, k4, k5, k6, Bool.false_eq_true, if_false, h10]
    rw [Real.logb_self_eq_one (by norm_num), ← h1]
    exact Laws.roundReal_val _ (by decide) (by decide)

/-- V-N3. -/
theorem test_constants : Config.pi = 0x40490FDB#32 ∧ Config.twoPi = 0x40C90FDB#32 ∧ Config.nyqFrac = 0x3EFAE148#32 := by decide

/-- V-N4. -/
theorem test_clampRange : Numeric.clampRange 0x40A00000#32 0x41A00000#32 0x44FA0000#32 0x41A00000#32 = 0x41A00000#32 ∧
    Numeric.clampRange 0x44FA1000#32 0x41A00000#32 0x44FA0000#32 0x41A00000#32 = 0x44FA0000#32 ∧
    Numeric.clampRange 0xFF800000#32 0xC1C00000#32 0x41400000#32 0#32 = 0xC1C00000#32 ∧
    Numeric.clampRange 0x7FC00000#32 0x43480000#32 0x469C4000#32 0x447A0000#32 = 0x447A0000#32 ∧
    Numeric.clampRange 0x80000000#32 0xC1C00000#32 0x41400000#32 0#32 = 0x80000000#32 := by decide +kernel

/-- V-N4: 1.5, 3.9, -1.0, 7.0, NaN, -0.0, 0.999. -/
theorem test_slopeOrdinal : Numeric.slopeOrdinal 0x3FC00000#32 0#32 = 1 ∧ Numeric.slopeOrdinal 0x4079999A#32 0#32 = 3 ∧
    Numeric.slopeOrdinal 0xBF800000#32 0#32 = 0 ∧ Numeric.slopeOrdinal 0x40E00000#32 0#32 = 3 ∧
    Numeric.slopeOrdinal 0x7FC00000#32 0#32 = 0 ∧ Numeric.slopeOrdinal 0x80000000#32 0#32 = 0 ∧
    Numeric.slopeOrdinal 0x3F7FBE77#32 0#32 = 0 := by decide +kernel

/-- V-N5. -/
theorem test_clampF : clampF 0x469C4000#32 0x472C4400#32 = 0x469C4000#32 ∧ clampF 0x469C4000#32 0x46FA0000#32 = 0x46750000#32 ∧
    clampF 0x469C4000#32 0x45FA0000#32 = 0x45750000#32 ∧ clampF 0x43480000#32 0x3F800000#32 = 0x3EFAE148#32 := by
  decide +kernel

/-- V-R2. -/
theorem test_curveY : curveY 0#32 360 = 0x42F00000#32 ∧ curveY 0x41400000#32 360 = 0#32 ∧
    curveY 0xC2700000#32 360 = 0x44340000#32 ∧ curveY 0x41C00000#32 360 = 0xC2F00000#32 ∧
    curveY 0x7FC00000#32 360 = 0x43B40000#32 ∧ curveY 0x7F800000#32 360 = 0#32 ∧ curveY 0xFF800000#32 360 = 0x43B40000#32 ∧
    curveY 0#32 100 = 0x42055554#32 ∧ curveY 0#32 65535 = 0x46AAAA00#32 ∧ curveY 0xC1C00000#32 65535 = 0x477FFF00#32 := by
  decide +kernel

/-- V-C1's block on its steps 1 and 2 (1.0, then 0.0). -/
theorem test_stage :
    let c : Block := { b0 := 0x3F000000#32, b1 := 0x3E800000#32, b2 := 0x3E000000#32, a1 := 0xBF000000#32, a2 := 0x3E800000#32 }
    stage c Delay.clear 0x3F800000#32 0 = (0x3F000000#32, { z1 := 0x3F000000#32, z2 := 0#32 }) ∧
      stage c { z1 := 0x3F000000#32, z2 := 0#32 } 0#32 3 = (0x3F000000#32, { z1 := 0x3E800000#32, z2 := 0xBE000000#32 }) := by
  decide +kernel

/-! ### Single steps -/

/-- A small prepared state: the suggested parameters, 48000 Hz, blocks of at most 8 samples, one point drawn. -/
def settings : Settings :=
  { lowCutFreq := 0x41A00000#32, lowCutSlope := 0, highCutFreq := 0x469C4000#32, highCutSlope := 0, peakFreq := 0x447A0000#32
    peakGain := 0#32, peakQ := 0x3F800000#32 }

def base : State :=
  { State.reset with
    p := paramSuggested, lifecycle := .prepared, fs := 0x473B8000#32, blocksize := 8#16, viewW := 1#16, viewH := 360#16
    crvLen := 1#16, crv := ({ cells := [] } : Memory).writeWord 0 0x42F00000#32, asnap := settings, rsnap := settings }

/-- The state after one step that runs a word. -/
def after (s : State) (w : CommandWord) : Option State :=
  match step (s.withFetchWord 64 w.toNat) with
  | .next t => some t
  | .fault _ => none
  | .refused _ => none

/-- Something about the state after one step. -/
def see {α : Type} (s : State) (w : CommandWord) (f : State → α) : Option α := (after s w).map f

/-- V-A1. -/
theorem test_rdreg_id : see base 0x0100000000000000#64 (fun t => t.portA.resp) = some (some 0x0056450207#40) := by decide +kernel
theorem test_rdreg_unmapped : see base 0x0100000C00000000#64 (fun t => (t.portA.resp, t.fault)) =
    some (some 0x0200000000#40, 0x4#32) := by decide +kernel

/-- V-P1. -/
theorem test_pwrite : see { base with dirty := false } 0x1005000041400000#64
    (fun t => (t.p[(5 : Fin 7)], t.p[(4 : Fin 7)], t.dirty, t.portH.resp)) =
    some (0x41400000#32, 0x447A0000#32, true, some 0#40) := by decide +kernel
theorem test_pread : see base 0x1104000000000000#64 (fun t => (t.portH.resp, t.dirty)) =
    some (some 0x00447A0000#40, true) := by decide +kernel

theorem test_pdefault : see { base with dirty := false } 0x1200000000000000#64 (fun t => (t.portH.resp, t.dirty)) =
    some (some 0#40, true) := by decide +kernel

/-- V-L2. -/
theorem test_prepare_refused :
    see { base with lifecycle := .uninitialized } 0x20000000472C4400#64 (fun t => (t.portA.resp, t.fault)) =
      some (some 0x0500000000#40, 0x20#32) ∧
    see { base with lifecycle := .uninitialized } 0x200002003F000000#64 (fun t => t.portA.resp) =
      some (some 0x0500000000#40) := by decide +kernel
theorem test_prepare_twice : see base 0x2000000000000000#64 (fun t => (t.portA.resp, t.lifecycle)) =
    some (some 0x0400000000#40, .prepared) := by decide +kernel

/-- V-L6. -/
theorem test_block_refused : see base 0x2122000900000000#64 (fun t => t.portA.resp) = some (some 0x0600000000#40) ∧
    see base 0x2103000400000000#64 (fun t => t.portA.resp) = some (some 0x0200000000#40) := by decide +kernel

/-- V-L7. -/
theorem test_release : see base 0x2200000000000000#64 (fun t => (t.portA.resp, t.lifecycle)) = some (some 0#40, .released) ∧
    see { base with lifecycle := .released } 0x2200000000000000#64 (fun t => t.portA.resp) = some (some 0x0400000000#40) := by
  decide +kernel

/-- V-A2, V-L7: the last cell of channel 1, in Released. -/
theorem test_wrsmp : see { base with lifecycle := .released } 0x2301FFFFBF000000#64
    (fun t => (t.portA.resp, t.readSmp 1 65535)) = some (some 0#40, 0xBF000000#32) := by decide +kernel
theorem test_rdsmp : see { base with smp := ({ cells := [] } : Memory).writeWord 65539 0xBF000000#32 } 0x2401000300000000#64
    (fun t => t.portA.resp) = some (some 0x00BF000000#40) := by decide +kernel

/-- Two samples of 1.0 in channel 0. -/
def twoSamples : Memory := (({ cells := [] } : Memory).writeWord 0 0x3F800000#32).writeWord 1 0x3F800000#32

/-- V-C9. -/
theorem test_clrch : see { base with smp := twoSamples } 0x2500000100000000#64
    (fun t => (t.portA.resp, t.readSmp 0 0, t.readSmp 0 1)) = some (some 0#40, 0#32, 0x3F800000#32) := by decide +kernel
theorem test_clrch_count : see base 0x2501000900000000#64 (fun t => (t.portA.resp, t.smp)) =
    some (some 0x0600000000#40, { cells := [] }) := by decide +kernel

/-- V-C6: -0.0 through a neutral chain comes out +0.0 and leaves Z[0][4] = (+0.0, -0.0). -/
theorem test_proc_negative_zero :
    see { base with smp := ({ cells := [] } : Memory).writeWord 0 0x80000000#32 } 0x2600000100000000#64
      (fun t => (t.readSmp 0 0, (t.chain 0).z[(4 : Fin 9)])) = some (0#32, { z1 := 0#32, z2 := 0x80000000#32 }) := by
  decide +kernel
/-- V-C2: the first two of its samples. -/
theorem test_proc_block :
    let c : Block := { b0 := 0x3F000000#32, b1 := 0x3E800000#32, b2 := 0x3E000000#32, a1 := 0xBF000000#32, a2 := 0x3E800000#32 }
    see ({ base with smp := (twoSamples.writeWord 1 0#32) }.setChain 0 { Chain.neutral with coef := Chain.neutral.coef.set 4 c })
      0x2600000200000000#64 (fun t => (t.readSmp 0 0, t.readSmp 0 1, (t.chain 0).z[(4 : Fin 9)])) =
      some (0x3F000000#32, 0x3F000000#32, { z1 := 0x3E800000#32, z2 := 0xBE000000#32 }) := by decide +kernel

/-- V-P3, and V-P2 but for its NaN. -/
theorem test_snap : see { base with p := #v[0x44FA1000#32, 0x4079999A#32, 0x43470000#32, 0x40E00000#32, 0x80000000#32,
      0xFF800000#32, 0x41300000#32] } 0x2800000000000000#64 (fun t => (t.asnap, t.rsnap)) =
    some ({ lowCutFreq := 0x44FA0000#32, lowCutSlope := 3, highCutFreq := 0x43480000#32, highCutSlope := 3
            peakFreq := 0x43480000#32, peakGain := 0xC1C00000#32, peakQ := 0x41200000#32 }, settings) := by decide +kernel
theorem test_snap_low : see { base with p := #v[0x40A00000#32, 0x3FC00000#32, 0x7F800000#32, 0xBF800000#32, 0x447A0000#32,
      0xC2C80000#32, 0#32] } 0x2800000000000000#64 (fun t => t.asnap) =
    some { lowCutFreq := 0x41A00000#32, lowCutSlope := 1, highCutFreq := 0x469C4000#32, highCutSlope := 0
           peakFreq := 0x447A0000#32, peakGain := 0xC1C00000#32, peakQ := 0x3DCCCCCD#32 } := by decide +kernel

/-- 44_audio_loop R220: the designer's commands are refused in Released. -/
theorem test_despk_released : see { base with lifecycle := .released } 0x2900000000000000#64
    (fun t => (t.portA.resp, t.stg)) = some (some 0x0400000000#40, base.stg) := by decide +kernel
theorem test_descut_port_lifecycle : see { base with lifecycle := .uninitialized } 0x2A01000000000000#64
    (fun t => t.portA.resp) = some (some 0x0400000000#40) := by decide +kernel

theorem test_ldstg : see base 0x2B0800047FC00000#64 (fun t => (t.stg[(8 : Fin 9)], t.stg[(7 : Fin 9)])) =
    some ({ Block.identity with a2 := 0x7FC00000#32 }, Block.identity) := by decide +kernel
/-- V-F1. -/
theorem test_ldstg_refused : see base 0x2B09000000000000#64 (fun t => t.portA.resp) = some (some 0x0200000000#40) ∧
    see base 0x2B00000500000000#64 (fun t => t.portA.resp) = some (some 0x0200000000#40) := by decide +kernel

/-- V-C3. -/
def vc3 : Block := { b0 := 0x3F000000#32, b1 := 0x3E800000#32, b2 := 0x3E000000#32, a1 := 0xBF000000#32, a2 := 0x3E800000#32 }
theorem test_setpk : see { base with stg := base.stg.set 4 vc3 } 0x2C01000000000000#64
    (fun t => ((t.chain 1).coef[(4 : Fin 9)], (t.chain 0).coef[(4 : Fin 9)])) = some (vc3, Block.identity) := by decide +kernel
theorem test_setpk_infinite : see { base with stg := base.stg.set 4 { vc3 with b2 := 0x7F800000#32 } } 0x2C01000000000000#64
    (fun t => (t.portA.resp, t.fault, (t.chain 1).coef[(4 : Fin 9)])) =
    some (some 0x0800000000#40, 0x100#32, Block.identity) := by decide +kernel

/-- V-C4. -/
theorem test_setcut : see base 0x2D00000200000000#64 (fun t => (t.chain 0).byp) =
    some #v[false, false, false, true, true, true, true, true] := by decide +kernel
/-- V-C5: a NaN in STG[7]. -/
theorem test_setcut_midway :
    see { base with stg := ((base.stg.set 5 vc3).set 6 vc3).set 7 { vc3 with a1 := 0x7FC00000#32 } } 0x2D02000300000000#64
      (fun t => (t.portA.resp, (t.chain 0).byp, (t.chain 0).coef[(5 : Fin 9)], (t.chain 0).coef[(6 : Fin 9)],
        (t.chain 0).coef[(7 : Fin 9)])) =
    some (some 0x0800000000#40, #v[true, true, true, true, true, true, true, true], vc3, vc3, Block.identity) := by
  decide +kernel

/-- V-C8. -/
theorem test_publish : see ({ base with pub := { Published.neutral with seq := 1#32 } }.setChain 0
      { Chain.neutral with byp := Chain.neutral.byp.set 0 false }) 0x2E00000000000000#64
    (fun t => (t.pub.byp[(0 : Fin 8)], t.pub.byp[(1 : Fin 8)], t.pub.seq, t.pub.fs, t.dirty)) =
    some (false, true, 2#32, 0x473B8000#32, true) := by decide +kernel

/-- V-R7. -/
theorem test_tick_empty_view : see { base with viewW := 0#16 } 0x3000000000000000#64
    (fun t => (t.portR.resp, t.recomputes, t.crvLen, t.dirty)) = some (some 1#40, 1#32, 0#16, false) := by decide +kernel
theorem test_tick_clean : see { base with dirty := false } 0x3000000000000000#64
    (fun t => (t.portR.resp, t.recomputes, t.crvLen, t.dirty)) = some (some 0#40, 0#32, 1#16, false) := by decide +kernel

/-- V-R3. -/
theorem test_setview : see base 0x3100032000000168#64 (fun t => (t.viewW, t.viewH, t.crvLen)) =
    some (800#16, 360#16, 1#16) := by decide +kernel
theorem test_setview_wide : see base 0x310010010000000A#64 (fun t => (t.portR.resp, t.viewW)) =
    some (some 0x0200000000#40, 1#16) := by decide +kernel

/-- V-R6. -/
theorem test_rdcrv : see base 0x3200000000000000#64 (fun t => t.portR.resp) = some (some 0x0042F00000#40) := by decide +kernel
theorem test_rdcrv_end : see base 0x3200000100000000#64 (fun t => t.portR.resp) = some (some 0x0200000000#40) := by decide +kernel

/-- V-F1: the gap in class 2. -/
theorem test_illegal_opcode : see base 0x2700000000000000#64 (fun t => (t.portA.resp, t.fault)) =
    some (some 0x0100000000#40, 0x2#32) := by decide +kernel

/-- V-F1: the port is checked before the operands, which are checked before the lifecycle. -/
def onPort (p : Port) (w : CommandWord) (s : State) : State := s.present p w
theorem test_check_order :
    (match step (onPort .h 0x2103000000000000#64 { base with lifecycle := .uninitialized }) with
      | .next t => t.portH.resp | .fault _ => none | .refused _ => none) = some 0x0300000000#40 ∧
    (match step (onPort .a 0x2103000000000000#64 { base with lifecycle := .uninitialized }) with
      | .next t => t.portA.resp | .fault _ => none | .refused _ => none) = some 0x0200000000#40 ∧
    (match step (onPort .a 0x2122025800000000#64 { base with lifecycle := .uninitialized }) with
      | .next t => t.portA.resp | .fault _ => none | .refused _ => none) = some 0x0400000000#40 := by decide +kernel

/-! ### Witnesses: for each statement with hypotheses a case that meets them all -/

theorem base_inv : base.Inv := by
  have hch : ∀ ch : Fin 2, base.chain ch = Chain.neutral := by intro ch; match ch with | 0 => rfl | 1 => rfl
  have hflags : prefixFlags Chain.neutral.byp := by intro side; cases side <;> decide
  refine ⟨⟨?_, ?_, ?_, ?_⟩, ?_, ⟨?_, hflags⟩, ⟨?_, ?_⟩, ?_, ⟨?_, ?_⟩, ?_, ?_, ⟨trivial, trivial, trivial⟩⟩
  · show List.Pairwise (· < ·) []; exact List.Pairwise.nil
  · show List.Pairwise (· < ·) [0, 1, 2, 3]; decide
  · show ∀ k ∈ ([] : List Nat), k / 4 < 131072; decide
  · show ∀ k ∈ [0, 1, 2, 3], k / 4 < 4096; decide
  · intro b
    refine ⟨fun ch => ?_, ?_⟩
    · rw [hch]; revert b; decide
    · revert b; decide
  · intro ch; rw [hch]; exact hflags
  · decide
  · decide
  · intro _; decide
  · decide
  · decide
  · show ∀ c < 1, ∀ j < 4, (base.crv.lookup (4 * c + j)).isSome; decide
  · show (0#32 : Word) &&& 0xFFFFFE01#32 = 0#32; decide

theorem reset_step : step { base with schedule := [.reset] } = .next ({ base with schedule := [] } : State).afterReset := rfl

theorem witness_DecodeUndoesEncode : (Instr.setcut 1 .high 3#16).wellFormed = true := by decide
theorem witness_EncodeUndoesDecode : decode 0x2D03000300000000#64 = .ok (.setcut 1 .high 3#16) := by decide +kernel

/-- A word waiting on port A. -/
def waitingA (w : CommandWord) (turns : List Turn) : State :=
  { base with portA := { queue := [w], busy := none, resp := none }, schedule := turns }

theorem witness_StepRunsDecodedCommand :
    (waitingA 0x2800000000000000#64 [.whole .a]).schedule = .whole .a :: [] ∧
    ((waitingA 0x2800000000000000#64 [.whole .a]).port .a).busy = none ∧
    ((waitingA 0x2800000000000000#64 [.whole .a]).port .a).queue = 0x2800000000000000#64 :: [] ∧
    decode 0x2800000000000000#64 = .ok .snap := by decide +kernel
/-- The same for an atomic turn. -/
theorem witness_StepRunsDecodedCommand_atomic :
    (waitingA 0x2E00000000000000#64 [.atomic .a 3]).schedule = .atomic .a 3 :: [] ∧
    ((waitingA 0x2E00000000000000#64 [.atomic .a 3]).port .a).busy = none ∧
    ((waitingA 0x2E00000000000000#64 [.atomic .a 3]).port .a).queue = 0x2E00000000000000#64 :: [] ∧
    decode 0x2E00000000000000#64 = .ok .publish ∧ atomicSteps .publish (waitingA 0x2E00000000000000#64 [.atomic .a 3]) = 1 := by
  decide +kernel
/-- A snapshot under way that has read all parameters, and one that has read none. -/
theorem witness_StepRunsDecodedCommand_reading :
    let got : Vector (Option Word) 7 := #v[some 0#32, some 1#32, some 2#32, some 3#32, some 4#32, some 5#32, some 6#32]
    (({ base with portA := { queue := [], busy := some (.reading .snap got), resp := none } } : State).port .a).busy =
      some (.reading .snap got) ∧
    (∀ j : Fin 7, got[j] = some (#v[0#32, 1#32, 2#32, 3#32, 4#32, 5#32, 6#32] : Vector Word 7)[j]) ∧
    (({ base with portA := { queue := [], busy := some (.reading .snap noReads), resp := none } } : State).port .a).busy =
      some (.reading .snap noReads) ∧
    ∀ j : Fin 7, noReads[j] = none := by decide +kernel

theorem witness_StepRunsPresentedWord :
    decode 0x3100032000000168#64 = .ok (.setview 800#16 360#16) ∧
    classAdmits ((0x3100032000000168#64 : CommandWord).extractLsb' 56 8) .r ∧
    ((0x3100032000000168#64 : CommandWord).extractLsb' 60 4 = 0#4 → Port.r = .a) := by
  refine ⟨by decide +kernel, .inr (.inr (.inr ⟨by decide, rfl⟩)), by decide⟩
/-- The same for class 0. -/
theorem witness_StepRunsPresentedWord_class0 :
    decode 0x0100000600000000#64 = .ok (.rdreg 6#16) ∧
    classAdmits ((0x0100000600000000#64 : CommandWord).extractLsb' 56 8) .a ∧
    ((0x0100000600000000#64 : CommandWord).extractLsb' 60 4 = 0#4 → Port.a = .a) := by
  refine ⟨by decide +kernel, .inl (by decide), fun _ => rfl⟩

/-- A word waiting on a port. -/
def waitingOn (p : Port) (w : CommandWord) (turns : List Turn) : State :=
  ({ base with schedule := turns } : State).setPort p { queue := [w], busy := none, resp := none }

theorem waitingOn_port (p : Port) (w : CommandWord) (turns : List Turn) : (waitingOn p w turns).schedule = turns ∧
    ((waitingOn p w turns).port p).busy = none ∧ ((waitingOn p w turns).port p).queue = [w] := by cases p <;> exact ⟨rfl, rfl, rfl⟩

theorem witness_IllegalWordIsFaulted_opcode :
    (waitingOn .a 0x2700000000000000#64 [.whole .a]).schedule = .whole .a :: [] ∧
    ((waitingOn .a 0x2700000000000000#64 [.whole .a]).port .a).busy = none ∧
    ((waitingOn .a 0x2700000000000000#64 [.whole .a]).port .a).queue = 0x2700000000000000#64 :: [] ∧
    ∀ o : Opcode, o.code ≠ (0x2700000000000000#64 : CommandWord).extractLsb' 56 8 := by
  refine ⟨rfl, rfl, rfl, fun o => ?_⟩
  cases o <;> decide

theorem witness_IllegalWordIsFaulted_index :
    let s := waitingOn .r 0x3200000100000000#64 [.atomic .r 0]
    s.schedule = .atomic .r 0 :: [] ∧ (s.port .r).busy = none ∧ (s.port .r).queue = 0x3200000100000000#64 :: [] ∧
    decode 0x3200000100000000#64 = .ok (.rdcrv 1#16) ∧ s.crvLen.toNat ≤ (1#16 : BitVec 16).toNat := by decide +kernel

/-- The word of SETCUT with A[2] set is no command's, on the right port and on a wrong one. -/
theorem witness_IllegalWordIsFaulted_operand :
    (∀ p, (waitingOn p 0x2D04000000000000#64 [.atomic p 0]).schedule = .atomic p 0 :: [] ∧
      ((waitingOn p 0x2D04000000000000#64 [.atomic p 0]).port p).busy = none ∧
      ((waitingOn p 0x2D04000000000000#64 [.atomic p 0]).port p).queue = 0x2D04000000000000#64 :: []) ∧
    Opcode.setcut.code = (0x2D04000000000000#64 : CommandWord).extractLsb' 56 8 ∧
    (∀ i : Instr, encode i = 0x2D04000000000000#64 → i.wellFormed = false) ∧
    classAdmits Opcode.setcut.code .a ∧ ¬ classAdmits Opcode.setcut.code .h := by
  refine ⟨fun p => waitingOn_port p _ _, by decide, fun i hi => ?_, .inr (.inr (.inl ⟨by decide, rfl⟩)), ?_⟩
  · cases hw : i.wellFormed with
    | false => rfl
    | true =>
      have h1 : decode (encode i) = .ok i :=
        (Laws.decode_ok_iff (encode i) i).mpr
          ⟨(Laws.opc_encode i).symm, Laws.encode_zeroMask i, hw, Laws.operandsOf_encode i⟩
      have h2 : decode 0x2D04000000000000#64 = .illegalOperand .setcut := by decide +kernel
      rw [hi, h2] at h1
      cases h1
  · rw [Laws.classAdmits_iff]; decide

/-- A PREPARE in Prepared, its turn an atomic one. -/
theorem witness_IllegalWordIsFaulted_check :
    let s := waitingOn .a 0x20000008473B8000#64 [.atomic .a 0]
    s.schedule = .atomic .a 0 :: [] ∧ (s.port .a).busy = none ∧ (s.port .a).queue = 0x20000008473B8000#64 :: [] ∧
    decode 0x20000008473B8000#64 = .ok (.prepare 8#16 0x473B8000#32) ∧
    checks (.prepare 8#16 0x473B8000#32) (({ s with schedule := [], active := .a } : State).setPort .a
      { s.port .a with queue := [] }) = some .lifecycleFault := by decide +kernel

theorem witness_WholeTurnIsItsAtomicTurns_block :
    let s := waitingA 0x2122000800000000#64 []
    (s.port .a).busy = none ∧ (s.port .a).queue = 0x2122000800000000#64 :: [] ∧
    decode 0x2122000800000000#64 = .ok (.block 2#4 2#4 8#16) ∧ checks (.block 2#4 2#4 8#16) { s with active := .a } = none ∧
    [6, 5, 4, 3, 2, 1, 0, 0].length = atomicSteps (.block 2#4 2#4 8#16) s := by decide +kernel
theorem witness_WholeTurnIsItsAtomicTurns_tick :
    let s : State := { base with portR := { queue := [0x3000000000000000#64], busy := none, resp := none } }
    (s.port .r).busy = none ∧ (s.port .r).queue = 0x3000000000000000#64 :: [] ∧
    decode 0x3000000000000000#64 = .ok .tick ∧ checks .tick { s with active := .r } = none ∧
    [0, 1, 2, 3, 4, 5, 6, 7, 8].length = atomicSteps .tick s := by decide +kernel
theorem witness_WholeTurnIsItsAtomicTurns_pdefault :
    let s : State := { base with portH := { queue := [0x1200000000000000#64], busy := none, resp := none } }
    (s.port .h).busy = none ∧ (s.port .h).queue = 0x1200000000000000#64 :: [] ∧
    decode 0x1200000000000000#64 = .ok .pdefault ∧ checks .pdefault { s with active := .h } = none ∧
    [0, 0, 0, 0, 0, 0, 0, 0].length = atomicSteps .pdefault s := by decide +kernel

/-- One case of each clause: the port, the operands (a bad constant, and RDCRV's index at CRV_LEN), the lifecycle, the
command's own check at its boundary. -/
theorem witness_FirstFailingCheckIsReported :
    ¬ classAdmits (Instr.tick).opcode.code .a ∧
    (classAdmits (Instr.setcut 0 .low 4#16).opcode.code .a ∧ (Instr.setcut 0 .low 4#16).wellFormed = false) ∧
    (classAdmits (Instr.rdcrv 1#16).opcode.code .r ∧ ¬ (1#16).toNat < base.crvLen.toNat) ∧
    (classAdmits (Instr.prepare 8#16 0x473B8000#32).opcode.code .a ∧ base.lifecycle ≠ .uninitialized) ∧
    (F32.flt 0x3F7FFFFF#32 0x3F800000#32 = true ∧ F32.isFinite 0x7F800000#32 = false ∧
      ({ base with lifecycle := .uninitialized } : State).lifecycle = .uninitialized) ∧
    (base.blocksize.toNat < (9#16).toNat ∧ ¬ base.blocksize.toNat < (8#16).toNat ∧ base.lifecycle = .prepared ∧
      (Instr.block 2#4 2#4 9#16).wellFormed = true) := by
  simp only [Laws.classAdmits_iff]
  decide +kernel

theorem witness_FaultBitsStick : step base = .next base ∧ ∀ u rest, base.schedule = u :: rest → u.notReset :=
  ⟨rfl, fun _ _ h => nomatch h⟩
theorem witness_FaultBitsStick_turn : (∃ t, step (waitingA 0x2800000000000000#64 [.whole .a]) = .next t) ∧
    ∀ u rest, (waitingA 0x2800000000000000#64 [.whole .a]).schedule = u :: rest → u.notReset := by
  refine ⟨Laws.step_next _, fun u rest h => ?_⟩
  cases h; trivial

theorem witness_InvalidParameterNeverRaised : ({ base with fault := 0x80#32 } : State).Inv ∧
    step { base with fault := 0x80#32 } = .next { base with fault := 0x80#32 } ∧
    ({ base with fault := 0x80#32 } : State).fault.getLsbD 7 = true := by
  obtain ⟨h1, h2, h3, h4, h5, h6, h7, _, h9⟩ := base_inv
  refine ⟨⟨h1, h2, h3, h4, h5, h6, h7, ?_, h9⟩, rfl, by decide⟩
  show (0x80#32 : Word) &&& 0xFFFFFE01#32 = 0#32; decide

/-- A NaN staged in slot 4 and in slot 7. -/
def badStaging : State := { base with stg := (base.stg.set 4 { vc3 with b2 := 0x7FC00000#32 }).set 7 { vc3 with a1 := 0x7FC00000#32 } }

theorem witness_CoefficientFaultOnlyFromAssignment :
    ∃ t, exec (.setpk 0) badStaging = .next t ∧ t.fault.getLsbD 8 = true ∧ badStaging.fault.getLsbD 8 = false :=
  ⟨_, Laws.exec_eq _ _, by decide +kernel, by decide⟩
theorem witness_CoefficientFaultOnlyFromAssignment_cut :
    ∃ t, exec (.setcut 0 .high 2#16) badStaging = .next t ∧ t.fault.getLsbD 8 = true ∧ badStaging.fault.getLsbD 8 = false :=
  ⟨_, Laws.exec_eq _ _, by decide +kernel, by decide⟩

/-- A fault of a check, and SETCUT's CoefficientFault with the writes in the chain. -/
theorem witness_FaultsArePrecise :
    (∃ (t : State) (r : BitVec 40), exec .tick base = .next t ∧ (t.port base.active).resp = some r ∧
      r.extractLsb' 32 8 ≠ 0#8) ∧
    ∃ (t : State) (r : BitVec 40), exec (.setcut 0 .high 2#16) badStaging = .next t ∧
      (t.port badStaging.active).resp = some r ∧ r.extractLsb' 32 8 ≠ 0#8 :=
  ⟨⟨_, 0x0300000000#40, Laws.exec_eq _ _, by decide +kernel, by decide⟩,
    ⟨_, 0x0800000000#40, Laws.exec_eq _ _, by decide +kernel, by decide⟩⟩

theorem witness_ResetGivesTheTable : ({ base with schedule := [.reset] } : State).schedule = .reset :: [] := rfl

theorem waiting_inv (w : CommandWord) (turns : List Turn) : (waitingA w turns).Inv := by
  obtain ⟨h1, h2, h3, h4, h5, h6, h7, h8, _⟩ := base_inv
  exact ⟨h1, h2, h3, h4, h5, h6, h7, h8, trivial, trivial, trivial⟩

theorem witness_InvariantKeptByStep : (waitingA 0x2122000800000000#64 [.whole .a]).Inv ∧
    ∃ t, step (waitingA 0x2122000800000000#64 [.whole .a]) = .next t := ⟨waiting_inv _ _, Laws.step_next _⟩

theorem witness_WritersByPort : (waitingA 0x2122000800000000#64 [.whole .a]).Inv ∧
    (waitingA 0x2122000800000000#64 [.whole .a]).schedule = .whole .a :: [] ∧
    (∃ t, step (waitingA 0x2122000800000000#64 [.whole .a]) = .next t) ∧ (Turn.whole .a).notReset ∧
    ¬ (Turn.whole .a).ofPort .h ∧ ¬ (Turn.whole .a).ofPort .r ∧ ¬ (Turn.atomic .r 0).ofPort .a :=
  ⟨waiting_inv _ _, rfl, Laws.step_next _, trivial, by simp [Turn.ofPort], by simp [Turn.ofPort], by simp [Turn.ofPort]⟩

theorem witness_LifecycleMovesForward : ∃ t, exec .release base = .next t ∧ t.lifecycle ≠ base.lifecycle :=
  ⟨_, Laws.exec_eq _ _, by decide +kernel⟩
/-- The step that ends a PREPARE under way, all its parameters read. -/
def preparing : State :=
  { base with
    lifecycle := .uninitialized, schedule := [.atomic .a 0]
    portA := { queue := [], busy := some (.reading (.prepare 8#16 0x473B8000#32)
      #v[some 0#32, some 0#32, some 0#32, some 0#32, some 0#32, some 0#32, some 0#32]), resp := none } }
theorem witness_LifecycleMovesForward_step : preparing.Inv ∧
    (∀ u rest, preparing.schedule = u :: rest → u.notReset) ∧
    ∃ t, step preparing = .next t ∧ t.lifecycle ≠ preparing.lifecycle := by
  refine ⟨?_, fun u rest h => by cases h; trivial, _, Laws.step_atomic_busy (c := 0) (rest := []) rfl rfl, ?_⟩
  · obtain ⟨h1, h2, h3, h4, _, h6, h7, h8, _⟩ := base_inv
    exact ⟨h1, h2, h3, h4, fun h => absurd rfl h, h6, h7, h8, ⟨rfl, by decide, by decide⟩, trivial, trivial⟩
  · have hd : designsFinite (snapshot #v[0#32, 0#32, 0#32, 0#32, 0#32, 0#32, 0#32]) 0x473B8000#32 = true :=
      Laws.designsFinite_of_valid (Laws.snapshot_inRange _) (by decide)
    show (prepareFinish 8#16 0x473B8000#32 #v[0#32, 0#32, 0#32, 0#32, 0#32, 0#32, 0#32]
      ((preparing.setSchedule []).setActive .a)).lifecycle ≠ .uninitialized
    rw [prepareFinish, if_pos hd]
    simp

def baseR : State := { base with active := .r }
def baseH : State := { base with active := .h }

theorem witness_PwriteStoresAndNotifies : baseH.active = .h ∧ (6#8).toNat ≤ 6 := by decide
theorem witness_PreadAnswersRawPattern : baseH.active = .h ∧ (6#8).toNat = (6 : Fin 7).val := by decide
theorem witness_PdefaultStoresLegalDefaults : baseH.active = .h ∧ ((3 : Fin 7) = 1 ∨ (3 : Fin 7) = 3) := by decide
theorem base_running : base.active = .a ∧ base.running := ⟨rfl, .inl rfl⟩
theorem witness_SnapReplacesAsnap : base.active = .a ∧ base.running := base_running

/-- Frequency 20 to 2000: a NaN, the numbers next to each end outside, and both ends. -/
theorem witness_SnapshotClampsEachField : ((0 : Fin 7) ≠ 1 ∧ (0 : Fin 7) ≠ 3) ∧ F32.isNaN 0x7FC00000#32 = true ∧
    F32.flt 0x419FFFFF#32 paramLow[(0 : Fin 7)] = true ∧ F32.flt paramHigh[(0 : Fin 7)] 0x44FA0001#32 = true ∧
    inRange 0 0x41A00000#32 = true ∧ inRange 0 0x44FA0000#32 = true := by decide +kernel

/-- For each k the least number with that integer part. -/
theorem witness_SnapshotSlopeTruncates : ((1 : Fin 7) = 1 ∨ (1 : Fin 7) = 3) ∧ F32.isNaN 0x7FC00000#32 = true ∧
    ∀ k : Fin 4, F32.isNaN (F32.ofNat k.val) = false ∧ (k = 0 ∨ F32.flt (F32.ofNat k.val) (F32.ofNat k.val) = false) ∧
      (k = 3 ∨ F32.flt (F32.ofNat k.val) (F32.ofNat (k.val + 1)) = true) := by decide +kernel

/-- The default of a slope is one of 0.0 to 3.0. -/
theorem witness_SnapshotSlopeTruncates_default : ∃ k : Fin 4, defP[(1 : Fin 7)] = F32.ofNat k.val := by
  have h := Laws.defP_legal 1
  simp only [defaultLegal, Bool.and_eq_true, Bool.or_eq_true, decide_eq_true_eq] at h
  rcases h.2.resolve_left (by decide) with h | h | h | h
  · exact ⟨0, h.trans (by decide)⟩
  · exact ⟨1, h.trans (by decide)⟩
  · exact ⟨2, h.trans (by decide)⟩
  · exact ⟨3, h.trans (by decide)⟩

theorem witness_RdregAnswersRegister : regAt (0x0247#16).toNat = some (.pubByp 8) ∧ regAt (0x0045#16).toNat = some .unused := by
  decide +kernel
theorem witness_RegisterMapIsExact : Reg.pubFs ≠ .unused ∧ regAt 0x000B = some .pubFs ∧ regAt 0x000C = none := by decide

theorem witness_WrsmpStoresOneCell : base.active = .a ∧ 0 / 4 ≠ smpCell 1 (65535#16).toNat := by decide
theorem witness_RdsmpAnswersLastWrite : base.active = .a ∧ ∃ t, exec (.wrsmp 1 65535#16 0#32) base = .next t :=
  ⟨rfl, Laws.exec_next _ _⟩
theorem witness_ClrchSilencesSamples : base.active = .a ∧ base.running ∧ (8#16).toNat ≤ base.blocksize.toNat :=
  ⟨rfl, .inl rfl, by decide⟩

theorem witness_DespkStagesPeak : base.active = .a ∧ base.running ∧ base.asnap.inRange = true ∧ rateValid base.fs = true :=
  ⟨rfl, .inl rfl, by decide, by decide⟩
/-- The least sample rate PREPARE accepts. -/
theorem witness_DescutStagesCascade : ({ base with fs := 0x3F800000#32 } : State).active = .a ∧
    ({ base with fs := 0x3F800000#32 } : State).running ∧ ({ base with fs := 0x3F800000#32 } : State).asnap.inRange = true ∧
    rateValid 0x3F800000#32 = true := ⟨rfl, .inl rfl, by decide, by decide⟩
theorem witness_LdstgLoadsOneWord : base.active = .a ∧ base.running ∧ (8#8).toNat ≤ 8 ∧ (4#16).toNat ≤ 4 :=
  ⟨rfl, .inl rfl, by decide, by decide⟩
theorem witness_PeakIsNeutralAtZeroGain : settings.inRange = true ∧ rateValid 0x3F800000#32 = true ∧
    F32.isZero settings.peakGain = true ∧ F32.isZero 0x80000000#32 = true := by decide

/-- NUM_CR for the clause on NUM_ULP below 2^22, the spare instance for the last. -/
theorem witness_EveryNumericsInstanceAdmitted : (numCR.Required (1 / 2) ∧ (1 / 2 : ℚ) < 2 ^ 22) ∧
    1 / 2 ≤ Numeric.spareUlp ∧ Numeric.spare.Required Numeric.spareUlp ∧ Numeric.spare.DesignsFinite :=
  ⟨⟨Laws.numCR_required, by norm_num⟩, Laws.spare_admitted.1, Laws.spare_admitted.2, Laws.spare_admitted.3⟩

theorem witness_SetpkAssignsPeak : base.active = .a ∧ base.running ∧ base.stg[(4 : Fin 9)].allFinite = true ∧
    badStaging.stg[(4 : Fin 9)].allFinite = false := ⟨rfl, .inl rfl, by decide, by decide⟩
theorem witness_SetcutAssignsSide : base.active = .a ∧ base.running ∧ (3#16).toNat ≤ 3 ∧
    ∀ i : Fin 4, i.val ≤ (3#16).toNat → base.stg[cutSlot .high i].allFinite = true :=
  ⟨rfl, .inl rfl, by decide, by decide⟩
/-- The first non-finite block at stage 2, and at stage 0. -/
theorem witness_SetcutFailsMidwayBypassed : badStaging.active = .a ∧ badStaging.running ∧ (2#16).toNat ≤ 3 ∧
    (2 : Fin 4).val ≤ (2#16).toNat ∧ badStaging.stg[cutSlot .high 2].allFinite = false ∧
    ∀ i : Fin 4, i < 2 → badStaging.stg[cutSlot .high i].allFinite = true :=
  ⟨rfl, .inl rfl, by decide, by decide, by decide, by decide⟩
theorem witness_CoefficientUpdateIdempotent : base.active = .a ∧ base.running ∧ (3#16).toNat ≤ 3 ∧ (0#16).toNat ≤ 3 ∧
    ∃ t, runCommands [.setpk 1, .setcut 1 .low 3#16, .setcut 1 .high 0#16] base = .next t :=
  ⟨rfl, .inl rfl, by decide, by decide, Laws.runCommands_next _ _⟩
theorem witness_PublishCopiesChainZero : base.active = .a ∧ base.running := base_running
theorem witness_ProcFiltersInPlace : base.active = .a ∧ base.running ∧ (8#16).toNat ≤ base.blocksize.toNat :=
  ⟨rfl, .inl rfl, by decide⟩
theorem witness_NeutralChainPassesSamples :
    let s : State := { base with smp := twoSamples }
    s.active = .a ∧ s.running ∧ (2#16).toNat ≤ s.blocksize.toNat ∧ s.chain 0 = Chain.neutral ∧
    (∀ n < (2#16).toNat, F32.isFinite (s.readSmp 0 n) = true ∧ s.readSmp 0 n ≠ 0x80000000#32) ∧
    ∃ t, exec (.proc 0 2#16) s = .next t :=
  ⟨rfl, .inl rfl, by decide, rfl, by decide +kernel, Laws.exec_next _ _⟩
theorem witness_NanPoisonsTheStage : F32.isNaN (Delay.mk 0x7FC00000#32 0#32).z1 = true := by decide

/-- The least block size and sample rate. -/
theorem witness_PrepareInitialisesChains : base.active = .a ∧
    ({ base with lifecycle := .uninitialized } : State).lifecycle = .uninitialized ∧ 1#16 ≠ 0#16 ∧
    F32.isFinite 0x3F800000#32 = true ∧ F32.flt 0x3F800000#32 0x3F800000#32 = false := by decide
theorem witness_BlockRedesignsAndRuns : base.active = .a ∧ base.running ∧ (2#4).toNat ≤ 2 ∧ (2#4).toNat ≤ 2 ∧
    (8#16).toNat ≤ base.blocksize.toNat ∧ rateValid base.fs = true :=
  ⟨rfl, .inl rfl, by decide, by decide, by decide, by decide⟩
theorem witness_BlockIsItsPrimitives : base.active = .a ∧ base.running ∧ (1#4).toNat ≤ 2 ∧ (2#4).toNat ≤ 2 ∧
    (8#16).toNat ≤ base.blocksize.toNat ∧ rateValid base.fs = true :=
  ⟨rfl, .inl rfl, by decide, by decide, by decide, by decide⟩
theorem witness_ReleaseEndsLifecycle : base.active = .a ∧ base.running := base_running

theorem witness_SetviewStoresView : baseR.active = .r ∧ (4096#16).toNat ≤ 4096 := by decide
theorem witness_TickRedrawsWhenDirty : baseR.active = .r ∧ baseR.dirty = true ∧
    ({ baseR with dirty := false } : State).dirty = false := by decide
/-- The last index below CRV_LEN and the first one not. -/
theorem witness_RdcrvAnswersPoint : baseR.active = .r ∧ (0#16).toNat < baseR.crvLen.toNat ∧
    baseR.crvLen.toNat ≤ (1#16).toNat := by decide
theorem witness_CurvePointNeverNaN : 65535 < 65536 := by decide
theorem witness_NeutralCurveIsFlat : (∀ k : Fin 8, Published.neutral.byp[k] = true) ∧
    peakNeutral Published.neutral.coef[(4 : Fin 9)] = true := by decide

/-- Turns of port H, a PREAD, and of port R. -/
def quiet : State := { waitingOn .h 0x1104000000000000#64 [.whole .h, .atomic .r 0] with dirty := false }
theorem witness_NoChangeNoRecompute :
    quiet.Inv ∧ quiet.dirty = false ∧ quiet.portR.busy = none ∧ (∀ u ∈ quiet.schedule.take 2, u.notReset) ∧
    (∀ k < 2, ∀ x u rest, Sys2Proof.core.run k quiet = .next x → x.schedule = u :: rest → u.ofPort .h →
      x.commandOf .h ≠ some .pwrite ∧ x.commandOf .h ≠ some .pdefault) ∧
    ∃ t, Sys2Proof.core.run 2 quiet = .next t := by
  refine ⟨?_, rfl, rfl, ?_, fun k hk x u rest hr hs hu => ?_, Laws.run_next _ _⟩
  · obtain ⟨h1, h2, h3, h4, h5, h6, h7, h8, _⟩ := base_inv
    exact ⟨h1, h2, h3, h4, h5, h6, h7, h8, trivial, trivial, trivial⟩
  · show ∀ u ∈ [Turn.whole .h, .atomic .r 0], u.notReset
    simp [Turn.notReset]
  · match k, hk with
    | 0, _ => cases hr; decide +kernel
    | 1, _ =>
      have h : (match step quiet with | .next t => t.schedule | .fault _ => [] | .refused _ => []) = [.atomic .r 0] := by
        decide +kernel
      obtain ⟨t, ht⟩ := Laws.step_next quiet
      simp only [Host.Core.run, show Sys2Proof.core.step quiet = .next t from ht] at hr
      rw [ht] at h
      cases hr
      rw [show x.schedule = [.atomic .r 0] from h] at hs
      cases hs
      exact nomatch hu

theorem witness_MixedSnapshotPossible :
    let s : State := { base with
      portA := { queue := [encode .snap], busy := none, resp := none }
      portH := { queue := [encode (.pwrite 0#8 0#32), encode (.pwrite 2#8 0#32)], busy := none, resp := none } }
    s.running ∧ s.portA = { queue := [encode .snap], busy := none, resp := none } ∧
    s.portH = { queue := [encode (.pwrite 0#8 0#32), encode (.pwrite 2#8 0#32)], busy := none, resp := none } :=
  ⟨.inl rfl, rfl, rfl⟩
theorem witness_PdefaultWindowMissesTick :
    let s : State := { base with
      dirty := false
      portH := { queue := [encode .pdefault], busy := none, resp := none }
      portR := { queue := [encode .tick], busy := none, resp := none } }
    s.dirty = false ∧ s.portH = { queue := [encode .pdefault], busy := none, resp := none } ∧
    s.portR = { queue := [encode .tick], busy := none, resp := none } := ⟨rfl, rfl, rfl⟩

/-- A tie: 3/2 units. -/
theorem witness_RoundingIsToNearestEven : 0 < 2 ∧ F32.roundBits 3 2 < F32.infBits ∧ 1 < F32.infBits := by decide
theorem witness_OverflowGivesInfinity : 0 < 1 ∧ F32.roundBits ((2 ^ 25 - 1) * 2 ^ 252) 1 = F32.infBits ∧
    F32.roundBits ((2 ^ 25 - 1) * 2 ^ 252 - 1) 1 ≠ F32.infBits := by decide
theorem witness_SumIsRoundedOnce : F32.isFinite 0x3F800000#32 = true ∧ F32.isZero 0x3F800000#32 = false ∧
    F32.isInf 0xFF800000#32 = true ∧ F32.isNaN 0x7FC00001#32 = true ∧
    (F32.units 0x3F800000#32 : Int) + -(F32.units 0x3F7FFFFF#32 : Int) ≠ 0 := by decide +kernel
theorem witness_ProductAndQuotientAreRoundedOnce : F32.isZero 0x80000000#32 = true ∧ F32.isInf 0x7F800000#32 = true ∧
    F32.isNaN 0x7FC00001#32 = true ∧ F32.isFinite 0x00000001#32 = true ∧ F32.isZero 0x00000001#32 = false ∧
    F32.isNaN (F32.fmul 0x3F800000#32 0x00000001#32) = false ∧ F32.isNaN (F32.fdiv 0x3F800000#32 0x00000001#32) = false := by
  decide +kernel
theorem witness_SquareRootIsNearest : F32.isFinite 0x40000000#32 = true ∧ F32.sign 0x40000000#32 = false ∧
    F32.isZero 0x40000000#32 = false ∧ 0 < F32.magBits (F32.fsqrt 0x40000000#32) ∧
    F32.magBits (F32.fsqrt 0x40000000#32) < F32.infBits ∧ F32.flt 0xBF800000#32 0#32 = true := by decide +kernel

end Sys2Proof.Tests
end

section
/-! SUPPORT. The invariant of the engine taken apart: what the memories, chains, snapshots and registers hold, and what each
port has under way. Each named update of the state keeps its part. -/

namespace Sys2Proof.Proofs

open Machine Laws

/-! ### Blocks and flags of one chain -/

/-- The blocks and flags that a chain or PUB may hold: finite blocks, and on each side the active stages first. -/
structure Sound (coef : Vector Block 9) (byp : Vector Bool 8) : Prop where
  finite : ∀ b : Fin 9, coef[b].allFinite = true
  first : prefixFlags byp

theorem sound_neutral : Sound Chain.neutral.coef Chain.neutral.byp :=
  ⟨by decide, fun side => by cases side <;> decide⟩

theorem Sound.setCoef {coef : Vector Block 9} {byp : Vector Bool 8} (h : Sound coef byp) (b : Fin 9) {c : Block}
    (hc : c.allFinite = true) : Sound (coef.set b c) byp where
  finite b' := by
    rw [getElem_set_fin]
    split
    · exact hc
    · exact h.finite b'
  first := h.first

/-- Assigning finite staged blocks to stages of a side leaves finite blocks. -/
theorem assignStages_allFinite {stg coef : Vector Block 9} {side : Side} {l : List (Fin 4)}
    (hstg : ∀ i ∈ l, stg[cutSlot side i].allFinite = true) (hcoef : ∀ b : Fin 9, coef[b].allFinite = true) (b : Fin 9) :
    (assignStages stg side l coef)[b].allFinite = true := by
  by_cases hb : ∃ i, b = cutSlot side i
  · obtain ⟨i, rfl⟩ := hb
    rw [assignStages_own]
    split
    · exact hstg i ‹_›
    · exact hcoef _
  · rw [assignStages_other _ _ _ _ _ (fun i e => hb ⟨i, e⟩)]
    exact hcoef b

/-- Only the flags of one side have changed, and there the active stages still come first. -/
theorem prefixFlags_of_side {byp byp' : Vector Bool 8} (h : prefixFlags byp) (side : Side)
    (hown : ∀ i j : Fin 4, i ≤ j → byp'[cutFlag side j] = false → byp'[cutFlag side i] = false)
    (hother : ∀ f : Fin 8, (∀ i, f ≠ cutFlag side i) → byp'[f] = byp[f]) : prefixFlags byp' := by
  intro side' i j hij hj
  by_cases hs : side' = side
  · subst hs; exact hown i j hij hj
  · have hne : ∀ k k', cutFlag side' k ≠ cutFlag side k' := fun k k' => by
      cases side <;> cases side'
      · exact absurd rfl hs
      · exact (cutFlag_ne_of_side k' k).symm
      · exact cutFlag_ne_of_side k k'
      · exact absurd rfl hs
    rw [hother _ (hne j)] at hj
    rw [hother _ (hne i)]
    exact h side' i j hij hj

/-- SetCut leaves a sound chain sound, also when it stops at a block that is not finite (43_chain R192). -/
theorem Sound.setCut {c : Chain} (h : Sound c.coef c.byp) (stg : Vector Block 9) (side : Side) (k : Fin 4) :
    Sound (setCut stg side k c).2.coef (setCut stg side k c).2.byp := by
  have hother := (setCut_frame stg side k c).2.2
  rcases first_nonfinite stg side k with hf | ⟨j, hjk, hj, hf⟩
  · rw [setCut_finite _ _ _ _ hf] at hother ⊢
    refine ⟨assignStages_allFinite (fun i hi => hf i ((mem_stagesUpTo k i).mp hi)) h.finite,
      prefixFlags_of_side h.first side (fun i j hij => ?_) hother⟩
    simp only [setFlags_own, mem_stagesUpTo, mem_all_stages, if_true, ite_eq_left_iff, Bool.true_eq_false, imp_false, not_not]
    exact hij.trans
  · rw [setCut_stops _ _ _ _ _ hjk hf hj] at hother ⊢
    refine ⟨assignStages_allFinite (fun i hi => hf i ((mem_stagesBelow j i).mp hi)) h.finite,
      prefixFlags_of_side h.first side (fun i j hij => ?_) hother⟩
    simp only [setFlags_own, mem_all_stages, if_true]
    exact fun h => nomatch h

/-- Commit leaves a sound chain sound. -/
theorem Sound.commitChain {c : Chain} (h : Sound c.coef c.byp) {stg : Vector Block 9} (hp : stg[peakSlot].allFinite = true)
    (v : Settings) : Sound (commitChain stg v c).coef (commitChain stg v c).byp :=
  (Sound.setCut (c := { c with coef := c.coef.set peakSlot stg[peakSlot] }) (h.setCoef peakSlot hp) stg .low _).setCut
    stg .high _

/-! ### What the state holds, the ports aside -/

/-- The clauses of the invariant that speak of no port. -/
structure Stored (s : State) : Prop where
  smp : Bounded 131072 s.smp
  crv : Bounded Config.wmax s.crv
  chains : ∀ ch : Fin 2, Sound (s.chain ch).coef (s.chain ch).byp
  pub : Sound s.pub.coef s.pub.byp
  asnap : s.asnap.inRange = true
  rsnap : s.rsnap.inRange = true
  rate : s.RateKnown
  view : s.viewW.toNat ≤ Config.wmax
  crvLen : s.crvLen.toNat ≤ Config.wmax
  curve : ∀ c < s.crvLen.toNat, cellWritten s.crv c
  fault : s.FaultBitsReserved

theorem inv_iff (s : State) : s.Inv ↔ Stored s ∧ s.PortsLegal := by
  constructor
  · rintro ⟨⟨hsw, hcw, hsb, hcb⟩, hfin, ⟨hfl, hpfl⟩, ⟨ha, hr⟩, hrate, ⟨hv, hl⟩, hcurve, hfault, hports⟩
    exact ⟨⟨⟨hsw, hsb⟩, ⟨hcw, hcb⟩, fun ch => ⟨fun b => (hfin b).1 ch, hfl ch⟩, ⟨fun b => (hfin b).2, hpfl⟩, ha, hr, hrate,
      hv, hl, hcurve, hfault⟩, hports⟩
  · rintro ⟨⟨⟨hsw, hsb⟩, ⟨hcw, hcb⟩, hch, hpub, ha, hr, hrate, hv, hl, hcurve, hfault⟩, hports⟩
    exact ⟨⟨hsw, hcw, hsb, hcb⟩, fun b => ⟨fun ch => (hch ch).finite b, hpub.finite b⟩, ⟨fun ch => (hch ch).first, hpub.first⟩,
      ⟨ha, hr⟩, hrate, ⟨hv, hl⟩, hcurve, hfault, hports⟩

theorem bounded_empty (n : Nat) : Bounded n { cells := [] } := ⟨List.Pairwise.nil, fun _ h => nomatch h⟩

theorem chain_reset (ch : Fin 2) : State.reset.chain ch = Chain.neutral := by
  match ch with
  | 0 => rfl
  | 1 => rfl

/-- The table of 10_state R46 meets every clause. -/
theorem stored_reset : Stored State.reset where
  smp := bounded_empty _
  crv := bounded_empty _
  chains ch := by rw [chain_reset]; exact sound_neutral
  pub := sound_neutral
  asnap := snapshot_inRange defP
  rsnap := snapshot_inRange defP
  rate h := absurd rfl h
  view := Nat.zero_le _
  crvLen := Nat.zero_le _
  curve c h := absurd h (Nat.not_lt_zero c)
  fault := by show (0#32 : Word) &&& 0xFFFFFE01#32 = 0#32; decide

/-! ### What the ports have under way -/

/-- What a port may have under way. -/
def busyLegal (s : State) : Port → Option InFlight → Prop
  | .a => audioBusyLegal s
  | .r => renderBusyLegal
  | .h => hostBusyLegal

theorem busyLegal_none (s : State) (p : Port) : busyLegal s p none := by cases p <;> trivial

theorem portsLegal_iff (s : State) : s.PortsLegal ↔ ∀ p, busyLegal s p (s.port p).busy :=
  ⟨fun ⟨ha, hr, hh⟩ p => by cases p; exacts [ha, hr, hh], fun h => ⟨h .a, h .r, h .h⟩⟩

theorem busyLegal_snap {s : State} {p : Port} {g : Vector (Option Word) 7} :
    busyLegal s p (some (.reading .snap g)) ↔ p = .a ∧ s.running := by
  cases p <;> simp [busyLegal, audioBusyLegal, renderBusyLegal, hostBusyLegal, State.running]

theorem busyLegal_prepare {s : State} {p : Port} {bs : BitVec 16} {fs : Word} {g : Vector (Option Word) 7} :
    busyLegal s p (some (.reading (.prepare bs fs) g)) ↔
      p = .a ∧ s.lifecycle = .uninitialized ∧ rateValid fs = true ∧ bs ≠ 0#16 := by
  cases p <;> simp [busyLegal, audioBusyLegal, renderBusyLegal, hostBusyLegal]

theorem busyLegal_block {s : State} {p : Port} {nin nout : BitVec 4} {count : BitVec 16} {g : Vector (Option Word) 7} :
    busyLegal s p (some (.reading (.block nin nout count) g)) ↔
      p = .a ∧ s.running ∧ nin.toNat ≤ 2 ∧ nout.toNat ≤ 2 ∧ count.toNat ≤ s.blocksize.toNat := by
  cases p <;> simp [busyLegal, audioBusyLegal, renderBusyLegal, hostBusyLegal, State.running]

theorem busyLegal_tick {s : State} {p : Port} {g : Vector (Option Word) 7} :
    busyLegal s p (some (.reading .tick g)) ↔ p = .r := by
  cases p <;> simp [busyLegal, audioBusyLegal, renderBusyLegal, hostBusyLegal]

theorem busyLegal_defaulting {s : State} {p : Port} {n : Fin 8} : busyLegal s p (some (.defaulting n)) ↔ p = .h := by
  cases p <;> simp [busyLegal, audioBusyLegal, renderBusyLegal, hostBusyLegal]

/-- What may be under way does not depend on the parameters read or written so far. -/
theorem busyLegal_reading {s : State} {p : Port} {c : SnapshotCmd} {g g' : Vector (Option Word) 7}
    (h : busyLegal s p (some (.reading c g))) : busyLegal s p (some (.reading c g')) := by
  cases c with
  | snap => exact busyLegal_snap.mpr (busyLegal_snap.mp h)
  | prepare bs fs => exact busyLegal_prepare.mpr (busyLegal_prepare.mp h)
  | block nin nout count => exact busyLegal_block.mpr (busyLegal_block.mp h)
  | tick => exact busyLegal_tick.mpr (busyLegal_tick.mp h)

/-! ### The invariant while a command runs -/

/-- The invariant but for what the port whose turn it is has under way: what holds between a command's own writes, and is
enough for the invariant once the command has answered or marked itself busy. -/
structure Working (s : State) : Prop extends Stored s where
  audio : s.active ≠ .a → audioBusyLegal s s.portA.busy
  render : s.active ≠ .r → renderBusyLegal s.portR.busy
  host : s.active ≠ .h → hostBusyLegal s.portH.busy

theorem working_of_inv {s : State} (h : s.Inv) : Working s := by
  obtain ⟨hs, ha, hr, hh⟩ := (inv_iff s).mp h
  exact { hs with audio := fun _ => ha, render := fun _ => hr, host := fun _ => hh }

theorem busyLegal_of_inv {s : State} (h : s.Inv) (p : Port) : busyLegal s p (s.port p).busy :=
  (portsLegal_iff s).mp h.ports p

variable {s : State}

theorem Working.inv_setPort (h : Working s) {v : PortState} (hv : busyLegal s s.active v.busy) :
    (s.setPort s.active v).Inv := by
  obtain ⟨hs, ha, hr, hh⟩ := h
  cases e : s.active <;> rw [e] at ha hr hh hv <;> refine (inv_iff _).mpr ⟨{ hs with }, ?_⟩
  · exact ⟨hv, hr (by decide), hh (by decide)⟩
  · exact ⟨ha (by decide), hv, hh (by decide)⟩
  · exact ⟨ha (by decide), hr (by decide), hv⟩

theorem Working.done (h : Working s) (d : Word) : (s.done d).Inv := h.inv_setPort (busyLegal_none s _)

theorem Working.setBusy (h : Working s) {f : InFlight} (hf : busyLegal s s.active (some f)) : (s.setBusy f).Inv :=
  h.inv_setPort hf

/-- The bit of a fault is none of the reserved ones (10_state R28). -/
theorem withFaultBit_reserved {w : Word} (h : w &&& 0xFFFFFE01#32 = 0#32) (f : FaultCode) :
    withFaultBit w f &&& 0xFFFFFE01#32 = 0#32 := by
  have hbit : (1#32 <<< f.code) &&& 0xFFFFFE01#32 = 0#32 := by cases f <;> decide
  rw [withFaultBit, BitVec.and_or_distrib_right, h, hbit, BitVec.or_zero]

theorem Working.raise (h : Working s) (f : FaultCode) : (s.raise f).Inv := by
  have hf : Working (s.setFault (withFaultBit s.fault f)) := { h with fault := withFaultBit_reserved h.fault f }
  exact hf.inv_setPort (busyLegal_none _ _)

theorem Working.faulted (h : Working s) (f : FaultCode) : (s.faulted f.code).Inv := raise_eq_faulted s f ▸ h.raise f

/-! ### The named updates -/

theorem Working.setParam (h : Working s) (i : Fin 7) (v : Word) : Working (s.setParam i v) := { h with }

theorem Working.setParams (h : Working s) (v : Vector Word 7) : Working (s.setParams v) := { h with }

theorem Working.setDirty (h : Working s) (b : Bool) : Working (s.setDirty b) := { h with }

theorem Working.setStaging (h : Working s) (v : Vector Block 9) : Working (s.setStaging v) := { h with }

theorem Working.setDraws (h : Working s) (n : Nat) : Working (s.setDraws n) := { h with }

theorem Working.setAsnap (h : Working s) {v : Settings} (hv : v.inRange = true) : Working (s.setAsnap v) :=
  { h with asnap := hv }

theorem Working.setRsnap (h : Working s) {v : Settings} (hv : v.inRange = true) : Working (s.setRsnap v) :=
  { h with rsnap := hv }

theorem Working.setSmp (h : Working s) {m : Memory} (hm : Bounded 131072 m) : Working (s.setSmp m) := { h with smp := hm }

theorem Working.setView (h : Working s) {w : BitVec 16} (hw : w.toNat ≤ Config.wmax) (ht : BitVec 16) :
    Working (s.setView w ht) := { h with view := hw }

theorem Working.setCurve (h : Working s) {m : Memory} {len : BitVec 16} (hm : Bounded Config.wmax m)
    (hl : len.toNat ≤ Config.wmax) (hw : ∀ c < len.toNat, cellWritten m c) (n : Word) : Working (s.setCurve m len n) :=
  { h with crv := hm, crvLen := hl, curve := hw }

theorem Working.setPub (h : Working s) {p : Published} (hp : Sound p.coef p.byp) : Working (s.setPub p) :=
  { h with pub := hp }

theorem Working.setChains (h : Working s) {cs : Vector Chain 2} (hc : ∀ ch : Fin 2, Sound cs[ch].coef cs[ch].byp) :
    Working (s.setChains cs) := { h with chains := hc }

theorem Working.setChain (h : Working s) (ch : Fin 2) {c : Chain} (hc : Sound c.coef c.byp) : Working (s.setChain ch c) :=
  h.setChains fun ch' => by
    rw [getElem_set_fin]
    split
    · exact hc
    · exact h.chains ch'

/-- A command on port A moves the lifecycle. -/
theorem Working.setLifecycle (h : Working s) (ha : s.active = .a) {l : Lifecycle}
    (hl : l ≠ .uninitialized → rateValid s.fs = true ∧ s.blocksize ≠ 0#16) : Working (s.setLifecycle l) :=
  { h with rate := hl, audio := fun hn => absurd ha hn }

/-- A command on port A sets a rate and block size that PREPARE accepts. -/
theorem Working.setRate (h : Working s) (ha : s.active = .a) {fs : Word} {bs : BitVec 16} (hfs : rateValid fs = true)
    (hbs : bs ≠ 0#16) : Working (s.setRate fs bs) :=
  { h with rate := fun _ => ⟨hfs, hbs⟩, audio := fun hn => absurd ha hn }

/-! ### What a turn does before its command -/

theorem inv_setSchedule (h : s.Inv) (l : List Turn) : (s.setSchedule l).Inv := { h with }

theorem inv_setActive (h : s.Inv) (p : Port) : (s.setActive p).Inv := { h with }

theorem inv_take (h : s.Inv) (p : Port) (q : List CommandWord) : (s.take p q).Inv := by
  have hp := busyLegal_of_inv (inv_setActive h p) p
  rw [State.setActive_port] at hp
  exact (working_of_inv (inv_setActive h p)).inv_setPort hp

theorem inv_afterReset (s : State) : s.afterReset.Inv := (inv_iff _).mpr ⟨{ stored_reset with }, trivial, trivial, trivial⟩

end Sys2Proof.Proofs
end

section
/-! SUPPORT. Every command, from the checks that admit it to its response, keeps the invariant; so does every atomic step. -/

namespace Sys2Proof.Proofs

open Machine Laws

variable {s : State}

/-! ### The effects that several commands share -/

theorem Working.publishStep (h : Working s) : Working (publishStep s) := h.setPub (h.chains 0)

theorem Working.commit (h : Working s) {v : Settings} {fs : Word} (hv : v.inRange = true) (hd : designsFinite v fs = true) :
    Working (commit v fs s) := by
  have hpeak : (stageAll v fs s.stg)[peakSlot].allFinite = true := by rw [stageAll_peak]; exact (finiteAt_parts hd).1
  refine (((h.setAsnap hv).setStaging (stageAll v fs s.stg)).setChains fun ch => ?_).publishStep
  match ch with
  | 0 => exact (h.chains 0).commitChain hpeak v
  | 1 => exact (h.chains 1).commitChain hpeak v

theorem Working.runChannel (h : Working s) (ch : Fin 2) {n : Nat} (hn : n ≤ 65536) : Working (runChannel ch n s) := by
  refine ((h.setChain ch ?_).setSmp ?_).setDraws _
  · exact h.chains ch
  · exact bounded_procSamples _ _ ch hn _ h.smp

theorem Working.runChannels (h : Working s) (nin nout : Nat) {n : Nat} (hn : n ≤ 65536) :
    Working (runChannels nin nout n s) := by
  unfold Machine.runChannels
  induction channels 0 (max nin nout) generalizing s with
  | nil => exact h
  | cons ch l ih => exact ih (h.runChannel ch hn)

theorem Working.clearOutputs (h : Working s) (nin nout : Nat) {n : Nat} (hn : n ≤ 65536) :
    Working (clearOutputs nin nout n s) := h.setSmp (bounded_clearOutputs _ hn _ h.smp)

/-! ### The commands that take a snapshot -/

theorem Working.snapFinish (h : Working s) (r : Vector Word 7) : (snapFinish r s).Inv :=
  (h.setAsnap (snapshot_inRange r)).done _

theorem Working.prepareFinish (h : Working s) (ha : s.active = .a) {bs : BitVec 16} {fs : Word} (hfs : rateValid fs = true)
    (hbs : bs ≠ 0#16) (r : Vector Word 7) : (prepareFinish bs fs r s).Inv := by
  unfold Machine.prepareFinish
  split
  · have hset : Working ((s.setRate fs bs).setChains #v[Chain.neutral, Chain.neutral]) :=
      (h.setRate ha hfs hbs).setChains fun ch => by match ch with | 0 | 1 => exact sound_neutral
    exact ((hset.commit (snapshot_inRange r) ‹_›).setLifecycle ha fun _ => ⟨hfs, hbs⟩).done _
  · exact h.raise _

theorem Working.blockFinish (h : Working s) (ha : s.active = .a) (hrun : s.running) (nin nout : BitVec 4)
    (count : BitVec 16) (r : Vector Word 7) : (blockFinish nin nout count r s).Inv := by
  have hn : count.toNat ≤ 65536 := count.isLt.le
  have hrate : rateValid s.fs = true ∧ s.blocksize ≠ 0#16 := h.rate (by rcases hrun with e | e <;> rw [e] <;> decide)
  unfold Machine.blockFinish
  split
  · refine ((((h.clearOutputs _ _ hn).commit (snapshot_inRange r) ‹_›).runChannels _ _ hn).setLifecycle ?_ fun _ => ?_).done _
    · simpa [Machine.clearOutputs] using ha
    · simpa [Machine.clearOutputs] using hrate
  · exact h.raise _

theorem Working.tickFinish (h : Working s) (r : Vector Word 7) : (tickFinish r s).Inv :=
  ((h.setRsnap (snapshot_inRange r)).setCurve (bounded_drawCurve s.pub s.viewW.toNat _ h.view h.crv) h.view
    (fun c hc => drawCurve_written _ _ _ c _ (.inl hc)) _).done _

/-- The rest of a command under way, once every parameter is read (20_memory R67). -/
theorem Working.finish (h : Working s) {c : SnapshotCmd} {g : Vector (Option Word) 7}
    (hc : busyLegal s s.active (some (.reading c g))) (r : Vector Word 7) : (c.finish r s).Inv := by
  cases c with
  | snap => exact h.snapFinish r
  | prepare bs fs =>
    obtain ⟨ha, -, hfs, hbs⟩ := busyLegal_prepare.mp hc
    exact h.prepareFinish ha hfs hbs r
  | block nin nout count =>
    obtain ⟨ha, hrun, -⟩ := busyLegal_block.mp hc
    exact h.blockFinish ha hrun nin nout count r
  | tick => exact h.tickFinish r

theorem Working.readStep (h : Working s) {cmd : SnapshotCmd} {got : Vector (Option Word) 7}
    (hc : busyLegal s s.active (some (.reading cmd got))) (c : Nat) : (readStep cmd got c s).Inv := by
  rcases readStep_cases cmd got c s with ⟨-, e⟩ | ⟨j, -, e⟩ <;> rw [e]
  · exact h.finish hc _
  · exact h.setBusy (busyLegal_reading hc)

theorem Working.tickStart (h : Working s) (hr : s.active = .r) : (tickStart s).Inv := by
  unfold Machine.tickStart
  split
  · exact (h.setDirty false).setBusy (busyLegal_tick.mpr hr)
  · exact (h.setDirty false).done _

/-! ### PDEFAULT -/

theorem Working.defaultStep (h : Working s) (hh : s.active = .h) (n : Fin 8) : (defaultStep n s).Inv := by
  unfold Machine.defaultStep
  split
  · exact (h.setParam _ _).setBusy (busyLegal_defaulting.mpr hh)
  · exact (h.setDirty true).done _

theorem Working.defaultSteps (h : Working s) {n : Nat} (hn : n ≤ 7) : (defaultSteps 8 n s).Inv := by
  rw [defaultSteps_eight n hn]
  exact ((h.setParams _).setDirty true).done _

/-! ### Whole commands and first steps -/

theorem busyLegal_of_checks_snap (hc : checks .snap s = none) (g : Vector (Option Word) 7) :
    busyLegal s s.active (some (.reading .snap g)) := by
  obtain ⟨hp, -, -, hl, -⟩ := checks_eq_none.mp hc
  exact busyLegal_snap.mpr ⟨(portAdmits_iff _ _).mp hp, by simpa [lifecycleAdmits, Instr.opcode, State.running] using hl⟩

theorem busyLegal_of_checks_prepare {bs : BitVec 16} {fs : Word} (hc : checks (.prepare bs fs) s = none)
    (g : Vector (Option Word) 7) : busyLegal s s.active (some (.reading (.prepare bs fs) g)) := by
  obtain ⟨hp, -, -, hl, ho⟩ := checks_eq_none.mp hc
  refine busyLegal_prepare.mpr ⟨(portAdmits_iff _ _).mp hp, by simpa [lifecycleAdmits, Instr.opcode] using hl, ?_⟩
  simpa [ownCheck] using ho

theorem busyLegal_of_checks_block {nin nout : BitVec 4} {count : BitVec 16} (hc : checks (.block nin nout count) s = none)
    (g : Vector (Option Word) 7) : busyLegal s s.active (some (.reading (.block nin nout count) g)) := by
  obtain ⟨hp, ho, -, hl, hown⟩ := checks_eq_none.mp hc
  simp only [operandsLegal, Bool.and_eq_true, decide_eq_true_eq] at ho
  exact busyLegal_block.mpr ⟨(portAdmits_iff _ _).mp hp, by simpa [lifecycleAdmits, Instr.opcode, State.running] using hl,
    ho.1, ho.2, by simpa [ownCheck] using hown⟩

/-- A whole command that its checks admit keeps the invariant. -/
theorem Working.effect (h : Working s) {i : Instr} (hc : checks i s = none) : (effect i s).Inv := by
  cases i with
  | rdreg _ | pread _ | rdsmp _ _ | rdcrv _ => exact h.done _
  | pwrite idx value => exact ((h.setParam _ value).setDirty true).done _
  | pdefault => exact h.defaultSteps (Nat.zero_le 7)
  | prepare bs fs => exact h.finish (busyLegal_of_checks_prepare hc noReads) s.p
  | block nin nout count => exact h.finish (busyLegal_of_checks_block hc noReads) s.p
  | release =>
    obtain ⟨hp, -, -, hl, -⟩ := checks_eq_none.mp hc
    have hrate : rateValid s.fs = true ∧ s.blocksize ≠ 0#16 :=
      h.rate fun e => by rw [e] at hl; exact absurd hl (by decide)
    exact (h.setLifecycle ((portAdmits_iff _ _).mp hp) fun _ => hrate).done _
  | wrsmp ch index value => exact (h.setSmp (bounded_writeWord h.smp (smpCell_lt ch index.isLt) value)).done _
  | clrch ch count => exact (h.setSmp (bounded_clearSamples ch count.isLt.le h.smp)).done _
  | proc ch count => exact (h.runChannel ch count.isLt.le).done _
  | snap => exact h.snapFinish s.p
  | despk | descut _ =>
    simp only [Laws.effect]
    split
    · exact (h.setStaging _).done _
    · exact h.raise _
  | ldstg slot k value => exact (h.setStaging _).done _
  | setpk ch =>
    simp only [Laws.effect]
    split
    · exact (h.setChain ch ((h.chains ch).setCoef peakSlot ‹_›)).done _
    · exact h.raise _
  | setcut ch side slope =>
    have hset := h.setChain ch ((h.chains ch).setCut s.stg side (slopeIx slope))
    simp only [Laws.effect]
    split
    · exact hset.done _
    · exact hset.raise _
  | publish => exact h.publishStep.done _
  | tick =>
    simp only [Laws.effect]
    split
    · exact (h.setDirty false).tickFinish s.p
    · exact (h.setDirty false).done _
  | setview width height =>
    obtain ⟨-, ho, -⟩ := checks_eq_none.mp hc
    exact (h.setView (of_decide_eq_true ho) height).done _

/-- The first atomic step of a command that its checks admit keeps the invariant. -/
theorem Working.startEffect (h : Working s) {i : Instr} (hc : checks i s = none) (c : Nat) : (startEffect i c s).Inv := by
  cases i with
  | rdreg _ | pwrite _ _ | pread _ | release | wrsmp _ _ _ | rdsmp _ _ | clrch _ _ | proc _ _ | ldstg _ _ _ | publish
  | setview _ _ | rdcrv _ | despk | descut _ | setpk _ | setcut _ _ _ => exact h.effect hc
  | snap => exact h.readStep (busyLegal_of_checks_snap hc noReads) c
  | prepare bs fs => exact h.readStep (busyLegal_of_checks_prepare hc noReads) c
  | block nin nout count => exact h.readStep (busyLegal_of_checks_block hc noReads) c
  | tick => exact h.tickStart ((portAdmits_iff _ _).mp (checks_eq_none.mp hc).1)
  | pdefault => exact h.defaultStep ((portAdmits_iff _ _).mp (checks_eq_none.mp hc).1) 0

/-! ### Commands under way -/

theorem Working.complete (h : Working s) {f : InFlight} (hf : busyLegal s s.active (some f)) : (complete f s).Inv := by
  cases f with
  | reading c got => exact h.finish hf _
  | defaulting n => exact h.defaultSteps (Nat.le_of_lt_succ n.isLt)

theorem Working.advance (h : Working s) {f : InFlight} (hf : busyLegal s s.active (some f)) (c : Nat) :
    (advance f c s).Inv := by
  cases f with
  | reading cmd got => exact h.readStep hf c
  | defaulting n => exact h.defaultStep (busyLegal_defaulting.mp hf) n

/-! ### Turns -/

/-- A word that is no command is refused with one of the first three codes (60_exceptions R275, R276). -/
theorem refusal_code {n : Nat} (h : n = 1 ∨ n = 2 ∨ n = 3) : ∃ f : FaultCode, f.code = n := by
  rcases h with rfl | rfl | rfl
  exacts [⟨.illegalOpcode, rfl⟩, ⟨.illegalOperand, rfl⟩, ⟨.wrongPort, rfl⟩]

/-- Whatever becomes of a port that has its turn, the invariant is kept. -/
theorem inv_of_moved {p : Port} {t : State} (h : s.Inv) (hm : Moved p s t) : t.Inv := by
  have hw : Working (s.setActive p) := working_of_inv (inv_setActive h p)
  have ht : ∀ q, Working (s.take p q) := fun q => working_of_inv (inv_take h p q)
  have hbusy : ∀ f, (s.port p).busy = some f → busyLegal (s.setActive p) p (some f) := fun f hf => by
    have hb := busyLegal_of_inv (inv_setActive h p) p
    rwa [State.setActive_port, hf] at hb
  cases hm with
  | idle => exact h
  | completed f hf => exact hw.complete (hbusy f hf)
  | advanced f c hf => exact hw.advance (hbusy f hf) c
  | refusedWord w q n _ _ hn =>
    obtain ⟨f, rfl⟩ := refusal_code hn
    exact (ht q).faulted f
  | checkFailed w q i f _ _ _ _ => exact (ht q).faulted f
  | ran w q i _ _ _ hc => exact (ht q).effect hc
  | started w q i c _ _ _ hc => exact (ht q).startEffect hc c

/-- Settles O16: a step is nothing, the external reset, or a turn of one port, and each keeps the invariant. -/
theorem invariantKeptByStep : Obligations.InvariantKeptByStep := by
  intro s t h hst
  rcases step_cases hst with ⟨-, rfl⟩ | ⟨rest, -, rfl⟩ | ⟨u, rest, p, -, -, -, hm⟩
  · exact h
  · exact inv_afterReset _
  · exact inv_of_moved (inv_setSchedule h rest) hm

/-- Settles O15: the table of 10_state R46 meets every clause, and no port has anything under way. -/
theorem invariantHoldsAtReset : Obligations.InvariantHoldsAtReset :=
  (inv_iff _).mpr ⟨stored_reset, trivial, trivial, trivial⟩

end Sys2Proof.Proofs
end

section
/-! SUPPORT. The external reset (10_state R46, 70_reset R310). -/

namespace Sys2Proof.Proofs

open Machine Laws

theorem chain_afterReset (s : State) (ch : Fin 2) : s.afterReset.chain ch = Chain.neutral := chain_reset ch

theorem getElem_replicate_fin {α : Type} {n : Nat} (x : α) (i : Fin n) : (Vector.replicate n x)[i] = x :=
  Vector.getElem_replicate i.isLt

/-- Settles O14: whatever the state, the reset turn goes to the table of 10_state R46. -/
theorem resetGivesTheTable : Obligations.ResetGivesTheTable := by
  intro s rest hs
  have hstep : step s = .next (s.setSchedule rest).afterReset := by rw [step, hs]; rfl
  refine ⟨_, hstep, rfl, rfl, rfl, rfl, rfl, rfl, rfl, rfl, rfl, rfl, rfl, rfl, fun b => ?_, fun k => ?_,
    rfl, rfl, rfl, fun p => ?_⟩
  · refine ⟨getElem_replicate_fin Block.identity b, rfl, fun ch => ?_⟩
    rw [chain_afterReset]
    exact ⟨rfl, getElem_replicate_fin Delay.clear b⟩
  · refine ⟨getElem_replicate_fin true k, fun ch => ?_⟩
    rw [chain_afterReset]
    exact getElem_replicate_fin true k
  · cases p <;> rfl

end Sys2Proof.Proofs
end

section
/-! SUPPORT. The FAULT register over a step: a fault sets its own bit, and nothing but the external reset clears one. -/

namespace Sys2Proof.Proofs

open Machine Laws

/-- FAULT is as before, or has one more fault's bit set. -/
def FaultGrows (s t : State) : Prop := t.fault = s.fault ∨ ∃ f, t.fault = withFaultBit s.fault f

theorem FaultGrows.sticks {s t : State} (h : FaultGrows s t) : s.fault &&& t.fault = s.fault := by
  rcases h with h | ⟨f, h⟩ <;> rw [h]
  · exact BitVec.and_self
  · rw [withFaultBit]; ext i hi; simp +contextual

variable {s x : State}

theorem faultGrows_done (h : x.fault = s.fault) (d : Word) : FaultGrows s (x.done d) := .inl (by simp [h])

theorem faultGrows_raise (h : x.fault = s.fault) (f : FaultCode) : FaultGrows s (x.raise f) := .inr ⟨f, by simp [h]⟩

theorem faultGrows_setBusy (h : x.fault = s.fault) (f : InFlight) : FaultGrows s (x.setBusy f) := .inl (by simp [h])

theorem faultGrows_faulted (s : State) (f : FaultCode) : FaultGrows s (s.faulted f.code) := .inr ⟨f, rfl⟩

theorem faultGrows_finish (c : SnapshotCmd) (r : Vector Word 7) (s : State) : FaultGrows s (c.finish r s) := by
  cases c with
  | snap | tick => exact faultGrows_done rfl _
  | prepare bs fs =>
    simp only [SnapshotCmd.finish, prepareFinish]
    split
    · exact faultGrows_done rfl _
    · exact faultGrows_raise rfl _
  | block nin nout count =>
    simp only [SnapshotCmd.finish, blockFinish]
    split
    · exact faultGrows_done (by simp [clearOutputs]) _
    · exact faultGrows_raise rfl _

theorem faultGrows_defaultSteps {n : Nat} (hn : n ≤ 7) (s : State) : FaultGrows s (defaultSteps 8 n s) := by
  rw [defaultSteps_eight n hn]; exact faultGrows_done rfl _

theorem faultGrows_defaultStep (n : Fin 8) (s : State) : FaultGrows s (defaultStep n s) := by
  unfold defaultStep
  split
  · exact .inl (by simp)
  · exact faultGrows_done rfl _

theorem faultGrows_readStep (cmd : SnapshotCmd) (got : Vector (Option Word) 7) (c : Nat) (s : State) :
    FaultGrows s (readStep cmd got c s) := by
  rcases readStep_cases cmd got c s with ⟨-, e⟩ | ⟨j, -, e⟩ <;> rw [e]
  · exact faultGrows_finish _ _ _
  · exact faultGrows_setBusy rfl _

theorem faultGrows_effect (i : Instr) (s : State) : FaultGrows s (effect i s) := by
  cases i with
  | rdreg _ | pwrite _ _ | pread _ | release | wrsmp _ _ _ | rdsmp _ _ | clrch _ _ | proc _ _ | snap | ldstg _ _ _ | publish
  | setview _ _ | rdcrv _ => exact faultGrows_done rfl _
  | pdefault => exact faultGrows_defaultSteps (Nat.zero_le 7) s
  | prepare bs fs => exact faultGrows_finish (.prepare bs fs) s.p s
  | block nin nout count => exact faultGrows_finish (.block nin nout count) s.p s
  | despk | descut _ | setpk _ | setcut _ _ _ =>
    simp only [effect]
    split
    · exact faultGrows_done rfl _
    · exact faultGrows_raise rfl _
  | tick =>
    simp only [effect]
    split <;> exact faultGrows_done rfl _

theorem faultGrows_startEffect (i : Instr) (c : Nat) (s : State) : FaultGrows s (startEffect i c s) := by
  cases i with
  | rdreg _ | pwrite _ _ | pread _ | release | wrsmp _ _ _ | rdsmp _ _ | clrch _ _ | proc _ _ | ldstg _ _ _ | publish
  | setview _ _ | rdcrv _ | despk | descut _ | setpk _ | setcut _ _ _ => exact faultGrows_effect _ s
  | snap | prepare _ _ | block _ _ _ => exact faultGrows_readStep _ noReads c s
  | tick =>
    simp only [startEffect, tickStart]
    split
    · exact faultGrows_setBusy rfl _
    · exact faultGrows_done rfl _
  | pdefault => exact faultGrows_defaultStep 0 s

theorem faultGrows_of_moved {p : Port} {s0 t : State} (hm : Moved p s0 t) : FaultGrows s0 t := by
  have hact : ∀ {u}, FaultGrows (s0.setActive p) u → FaultGrows s0 u := fun h => h
  have htake : ∀ {q u}, FaultGrows (s0.take p q) u → FaultGrows s0 u := fun h => by simpa [FaultGrows] using h
  cases hm with
  | idle => exact .inl rfl
  | completed f _ =>
    cases f with
    | reading c got => exact hact (faultGrows_finish c _ _)
    | defaulting n => exact hact (faultGrows_defaultSteps (Nat.le_of_lt_succ n.isLt) _)
  | advanced f c _ =>
    cases f with
    | reading cmd got => exact hact (faultGrows_readStep cmd got c _)
    | defaulting n => exact hact (faultGrows_defaultStep n _)
  | refusedWord w q n _ _ hn =>
    obtain ⟨f, rfl⟩ := refusal_code hn
    exact htake (faultGrows_faulted _ f)
  | checkFailed w q i f _ _ _ _ => exact htake (faultGrows_faulted _ f)
  | ran w q i _ _ _ _ => exact htake (faultGrows_effect i _)
  | started w q i c _ _ _ _ => exact htake (faultGrows_startEffect i c _)

/-- Settles O11: a step that is not the external reset leaves FAULT as it was or sets one more bit of it. -/
theorem faultBitsStick : Obligations.FaultBitsStick := by
  intro s t hst hnr
  rcases step_cases hst with ⟨-, rfl⟩ | ⟨rest, hs, -⟩ | ⟨u, rest, p, -, -, -, hm⟩
  · exact BitVec.and_self
  · exact (hnr _ _ hs).elim
  · exact (faultGrows_of_moved (s0 := s.setSchedule rest) hm).sticks

end Sys2Proof.Proofs
end

section
/-! SUPPORT. The map of the REG address space, row by row (10_state R30, 46_access R260). -/

namespace Sys2Proof.Proofs

open Machine

/-! ### Rows -/

theorem paramRow_eq_some {mk : Fin 7 → Reg} {d : Nat} {r : Reg} (h : paramRow mk d = some r) :
    ∃ i : Fin 7, d = i.val ∧ r = mk i := by
  unfold paramRow at h
  split at h
  · cases h; exact ⟨_, rfl, rfl⟩
  · cases h

theorem paramRow_eq_none {mk : Fin 7 → Reg} {d : Nat} : paramRow mk d = none ↔ 7 ≤ d := by simp [paramRow]

theorem paramRow_val (mk : Fin 7 → Reg) (i : Fin 7) : paramRow mk i.val = some (mk i) := by simp [paramRow]

theorem blockRow_eq_some {word : Fin 9 → Fin 8 → Reg} {d : Nat} {r : Reg} (h : blockRow word d = some r) :
    ∃ (s : Fin 9) (k : Fin 8), d = 8 * s.val + k.val ∧ r = word s k := by
  unfold blockRow at h
  split at h
  · cases h; exact ⟨_, _, (Nat.div_add_mod d 8).symm, rfl⟩
  · cases h

theorem blockRow_eq_none {word : Fin 9 → Fin 8 → Reg} {d : Nat} : blockRow word d = none ↔ 72 ≤ d := by simp [blockRow]

theorem blockRow_cell (word : Fin 9 → Fin 8 → Reg) (s : Fin 9) (k : Fin 8) :
    blockRow word (8 * s.val + k.val) = some (word s k) := by
  have hs : (8 * s.val + k.val) / 8 = s.val := by omega
  have hk : (8 * s.val + k.val) % 8 = k.val := by omega
  simp only [blockRow, hs, hk, dif_pos (show 8 * s.val + k.val < 72 by omega)]

/-! ### The cell at each address of a row -/

theorem regAt_p (i : Fin 7) : regAt (0x10 + i.val) = some (.p i) := by
  rw [regAt, if_neg (by omega), if_pos (by omega), Nat.add_sub_cancel_left, paramRow_val]

theorem regAt_asnap (i : Fin 7) : regAt (0x18 + i.val) = some (.asnap i) := by
  rw [regAt, if_neg (by omega), if_neg (by omega), if_pos (by omega), Nat.add_sub_cancel_left, paramRow_val]

theorem regAt_rsnap (i : Fin 7) : regAt (0x20 + i.val) = some (.rsnap i) := by
  rw [regAt, if_neg (by omega), if_neg (by omega), if_neg (by omega), if_pos (by omega), Nat.add_sub_cancel_left, paramRow_val]

theorem regAt_stg (s : Fin 9) (k : Fin 8) : regAt (0x40 + (8 * s.val + k.val)) = some (stgCell s k) := by
  rw [regAt, if_neg (by omega), if_neg (by omega), if_neg (by omega), if_neg (by omega), if_pos (by omega),
    Nat.add_sub_cancel_left, blockRow_cell]

theorem regAt_chain (ch : Fin 2) (s : Fin 9) (k : Fin 8) :
    regAt (0x100 + 0x80 * ch.val + (8 * s.val + k.val)) = some (chainCell ch s k) := by
  match ch with
  | 0 =>
    show regAt (0x100 + (8 * s.val + k.val)) = _
    rw [regAt, if_neg (by omega), if_neg (by omega), if_neg (by omega), if_neg (by omega), if_neg (by omega),
      if_pos (by omega), Nat.add_sub_cancel_left, blockRow_cell]
  | 1 =>
    show regAt (0x180 + (8 * s.val + k.val)) = _
    rw [regAt, if_neg (by omega), if_neg (by omega), if_neg (by omega), if_neg (by omega), if_neg (by omega),
      if_neg (by omega), if_pos (by omega), Nat.add_sub_cancel_left, blockRow_cell]

theorem regAt_pub (s : Fin 9) (k : Fin 8) : regAt (0x200 + (8 * s.val + k.val)) = some (pubCell s k) := by
  rw [regAt, if_neg (by omega), if_neg (by omega), if_neg (by omega), if_neg (by omega), if_neg (by omega),
    if_neg (by omega), if_neg (by omega), Nat.add_sub_cancel_left, blockRow_cell]

/-! ### The address of each cell of a row -/

theorem stgCell_addr {s : Fin 9} {k : Fin 8} (h : stgCell s k ≠ .unused) :
    (stgCell s k).addr = 0x40 + (8 * s.val + k.val) := by
  by_cases hk : k.val < 5
  · simp only [stgCell, dif_pos hk, Reg.addr, Nat.add_assoc]
  · exact absurd (dif_neg hk) h

theorem chainCell_addr (ch : Fin 2) (s : Fin 9) (k : Fin 8) :
    (chainCell ch s k).addr = 0x100 + 0x80 * ch.val + (8 * s.val + k.val) := by
  unfold chainCell
  repeat' split
  all_goals simp only [Reg.addr]; omega

theorem pubCell_addr {s : Fin 9} {k : Fin 8} (h : pubCell s k ≠ .unused) :
    (pubCell s k).addr = 0x200 + (8 * s.val + k.val) := by
  by_cases hk : k.val < 5
  · simp only [pubCell, dif_pos hk, Reg.addr, Nat.add_assoc]
  · by_cases h7 : k.val = 7
    · rw [show pubCell s k = .pubByp s by rw [pubCell, dif_neg hk, if_pos h7], h7, Reg.addr, Nat.add_assoc]
    · exact absurd (by rw [pubCell, dif_neg hk, if_neg h7]) h

/-! ### The whole map -/

/-- A register is found at its own address. -/
theorem regAt_addr {r : Reg} (h : r ≠ .unused) : regAt r.addr = some r := by
  cases r with
  | id | lifecycle | fault | fs | blocksize | dirty | recomputes | viewW | viewH | crvLen | pubSeq | pubFs => rfl
  | p i => exact regAt_p i
  | asnap i => exact regAt_asnap i
  | rsnap i => exact regAt_rsnap i
  | stg s k => simpa [stgCell, Reg.addr, Nat.add_assoc] using regAt_stg s (k.castLE (by decide))
  | coef ch s k => simpa [chainCell, Reg.addr, Nat.add_assoc] using regAt_chain ch s (k.castLE (by decide))
  | z1 ch s => exact regAt_chain ch s 5
  | z2 ch s => exact regAt_chain ch s 6
  | byp ch s => exact regAt_chain ch s 7
  | pubCoef s k => simpa [pubCell, Reg.addr, Nat.add_assoc] using regAt_pub s (k.castLE (by decide))
  | pubByp s => exact regAt_pub s 7
  | unused => exact absurd rfl h

/-- A register is found at no other address. -/
theorem addr_of_regAt {a : Nat} {r : Reg} (hr : r ≠ .unused) (h : regAt a = some r) : a = r.addr := by
  have hsingle : ∀ a < 0x10, ∀ r, singleRegs[a]? = some r → a = r.addr := by decide
  unfold regAt at h
  split at h
  · exact hsingle a ‹_› r h
  split at h
  · obtain ⟨i, hd, rfl⟩ := paramRow_eq_some h; simp only [Reg.addr]; omega
  split at h
  · obtain ⟨i, hd, rfl⟩ := paramRow_eq_some h; simp only [Reg.addr]; omega
  split at h
  · obtain ⟨i, hd, rfl⟩ := paramRow_eq_some h; simp only [Reg.addr]; omega
  split at h
  · obtain ⟨s, k, hd, rfl⟩ := blockRow_eq_some h; rw [stgCell_addr hr]; omega
  split at h
  · obtain ⟨s, k, hd, rfl⟩ := blockRow_eq_some h; rw [chainCell_addr, Fin.val_zero]; omega
  split at h
  · obtain ⟨s, k, hd, rfl⟩ := blockRow_eq_some h; rw [chainCell_addr, Fin.val_one]; omega
  · obtain ⟨s, k, hd, rfl⟩ := blockRow_eq_some h; rw [pubCell_addr hr]; omega

/-- The addresses where no row has a cell. -/
theorem regAt_eq_none (a : Nat) : regAt a = none ↔
    (0x000C ≤ a ∧ a ≤ 0x000F) ∨ a = 0x0017 ∨ a = 0x001F ∨ (0x0027 ≤ a ∧ a ≤ 0x003F) ∨ (0x0088 ≤ a ∧ a ≤ 0x00FF) ∨
      (0x0148 ≤ a ∧ a ≤ 0x017F) ∨ (0x01C8 ≤ a ∧ a ≤ 0x01FF) ∨ 0x0248 ≤ a := by
  have hsingle : singleRegs[a]? = none ↔ 12 ≤ a := List.getElem?_eq_none_iff
  unfold regAt
  repeat' split
  all_goals simp only [hsingle, paramRow_eq_none, blockRow_eq_none]; omega

/-- Settles O26, row by row of the map. -/
theorem registerMapIsExact : Obligations.RegisterMapIsExact :=
  ⟨fun _ hr => regAt_addr hr, fun _ _ hr h => addr_of_regAt hr h, regAt_eq_none⟩

end Sys2Proof.Proofs
end

section
/-! SUPPORT. A neutral chain (10_state R47): its peak slot multiplies by 1.0 and adds +0.0, its other slots are bypassed. -/

namespace Sys2Proof.Proofs

open Machine Machine.F32 Machine.Numeric Laws

/-! ### 1.0, +0.0 and a finite number -/

theorem isFinite_zero : isFinite zero = true := by decide

/-- Multiplying by 1.0 is exact. -/
theorem fmul_one_left {v : Word} (hv : isFinite v = true) : fmul one v = v := by
  have hu : units one = 2 ^ 149 := by decide
  rw [fmul_finite (by decide) hv, hu, Nat.mul_comm, units, roundBits_exact (isFinite_iff.mp hv) (by positivity),
    show sign one = false by decide, Bool.false_bne, pack_sign_magBits]

/-- Multiplying by +0.0 gives a zero with the sign of the operand. -/
theorem fmul_zero_left {v : Word} (hv : isFinite v = true) : fmul zero v = pack (sign v) 0 := by
  have hu : units zero = 0 := by decide
  have hr : roundBits 0 (2 ^ 149) = 0 := by decide
  rw [fmul_finite isFinite_zero hv, hu, Nat.zero_mul, hr, show sign zero = false by decide, Bool.false_bne]

/-- Adding +0.0 changes no finite number but -0.0. -/
theorem fadd_zero_right {v : Word} (hv : isFinite v = true) (hz : v ≠ 0x80000000#32) : fadd v zero = v := by
  have hsum : exactSum v zero = (sign v, units v) := by
    have hu : units zero = 0 := by decide
    have hs : sign zero = false := by decide
    cases h : sign v with
    | false => simp [exactSum, h, hs, hu]
    | true =>
      have hm : 0 < magBits v := Nat.pos_of_ne_zero fun e => hz (by rw [← pack_sign_magBits v, h, e]; decide)
      simp [exactSum, h, hs, hu, units_pos hm]
  have hr := roundBits_exact (isFinite_iff.mp hv) Nat.one_pos
  rw [Nat.mul_one] at hr
  rw [fadd_finite hv isFinite_zero, hsum, units, hr, pack_sign_magBits]

/-- A zero less itself is +0.0. -/
theorem fsub_pack_zero (b : Bool) : fsub (pack b 0) (pack b 0) = zero := by cases b <;> decide

/-! ### The stage, the slots and the samples -/

/-- The identity block passes a finite sample but -0.0 on and keeps a clear delay pair (43_chain R197). -/
theorem stage_identity {v : Word} (hv : isFinite v = true) (hz : v ≠ 0x80000000#32) (n : Nat) :
    stage Block.identity Delay.clear v n = (v, Delay.clear) := by
  have hy : store n (fadd (fmul one v) zero) = v := by
    rw [fmul_one_left hv, fadd_zero_right hv hz, store, isNaN_of_finite hv]; rfl
  have h0 : ∀ k, store k zero = zero := fun k => by rw [store, isNaN_of_finite isFinite_zero]; rfl
  have h00 : fadd zero zero = zero := by decide
  simp only [stage, Block.identity, Delay.clear, hy, fmul_zero_left hv, fsub_pack_zero, h00, h0]

theorem neutral_bypassed (s : Fin 9) : bypassed Chain.neutral.byp s = decide (s ≠ peakSlot) := by revert s; decide

theorem runSlot_neutral_bypassed (l : Lane) {s : Fin 9} (hs : s ≠ peakSlot) : runSlot Chain.neutral l s = l :=
  if_pos (by rw [neutral_bypassed, decide_eq_true hs])

theorem runSlot_neutral_peak {v : Word} (hv : isFinite v = true) (hz : v ≠ 0x80000000#32) (n : Nat) :
    runSlot Chain.neutral { v := v, z := Chain.neutral.z, draws := n } peakSlot =
      { v := v, z := Chain.neutral.z, draws := n + 3 } := by
  have hcoef : Chain.neutral.coef[peakSlot] = Block.identity := by decide
  have hdelay : Chain.neutral.z[peakSlot] = Delay.clear := by decide
  have hset : Chain.neutral.z.set peakSlot Delay.clear = Chain.neutral.z := by decide
  have hnot : bypassed Chain.neutral.byp peakSlot = false := by decide
  simp only [runSlot, hnot, Bool.false_eq_true, if_false, hcoef, hdelay, stage_identity hv hz, hset]

theorem foldl_runSlot_neutral (ss : List (Fin 9)) (l : Lane) (hss : peakSlot ∉ ss) :
    ss.foldl (runSlot Chain.neutral) l = l := by
  induction ss with
  | nil => rfl
  | cons s ss ih =>
    obtain ⟨hs, hss⟩ := not_or.mp fun h => hss (List.mem_cons.mpr h)
    rw [List.foldl_cons, runSlot_neutral_bypassed l (Ne.symm hs), ih hss]

theorem runSample_neutral {v : Word} (hv : isFinite v = true) (hz : v ≠ 0x80000000#32) (n : Nat) :
    runSample Chain.neutral { v := v, z := Chain.neutral.z, draws := n } =
      { v := v, z := Chain.neutral.z, draws := n + 3 } := by
  have hslots : slotsInOrder = [0, 1, 2, 3] ++ peakSlot :: [5, 6, 7, 8] := rfl
  rw [runSample, hslots, List.foldl_append, foldl_runSlot_neutral [0, 1, 2, 3] _ (by decide), List.foldl_cons,
    runSlot_neutral_peak hv hz, foldl_runSlot_neutral [5, 6, 7, 8] _ (by decide)]

/-- Every sample of a run leaves a neutral chain as it came in, with the delay words clear. -/
theorem laneAfter_neutral {x : Nat → Word} {n : Nat} (hx : ∀ i < n, isFinite (x i) = true ∧ x i ≠ 0x80000000#32) (d : Nat) :
    (laneAfter Chain.neutral x Chain.neutral.z d n).z = Chain.neutral.z ∧
      ∀ i < n, (laneAfter Chain.neutral x Chain.neutral.z d (i + 1)).v = x i := by
  induction n with
  | zero => exact ⟨rfl, fun i hi => absurd hi (Nat.not_lt_zero i)⟩
  | succ n ih =>
    obtain ⟨hz, hv⟩ := ih fun i hi => hx i (by omega)
    obtain ⟨hf, hn⟩ := hx n (Nat.lt_succ_self n)
    have hlast : laneAfter Chain.neutral x Chain.neutral.z d (n + 1) =
        { v := x n, z := Chain.neutral.z, draws := (laneAfter Chain.neutral x Chain.neutral.z d n).draws + 3 } := by
      rw [laneAfter, hz, runSample_neutral hf hn]
    refine ⟨by rw [hlast], fun i hi => ?_⟩
    rcases Nat.lt_succ_iff_lt_or_eq.mp hi with h | rfl
    · exact hv i h
    · rw [hlast]

/-- PROC on a neutral chain leaves every sample and every delay word as it was. -/
theorem runChannel_neutral {s : State} {ch : Fin 2} (hch : s.chain ch = Chain.neutral) {n : Nat}
    (hx : ∀ i < n, isFinite (s.readSmp ch i) = true ∧ s.readSmp ch i ≠ 0x80000000#32) :
    (runChannel ch n s).chains = s.chains ∧ ∀ c i, (runChannel ch n s).readSmp c i = s.readSmp c i := by
  obtain ⟨hz, -, hown, hother, -⟩ := procSamples_spec (s.chain ch) (Config.unwrittenSmp s.epoch) ch n
    { smp := s.smp, z := (s.chain ch).z, draws := s.draws }
  obtain ⟨hlz, hlv⟩ := laneAfter_neutral hx s.draws
  rw [← hch] at hlz hlv
  constructor
  · calc (runChannel ch n s).chains = s.chains.set ch { s.chain ch with z := (s.chain ch).z } :=
          congrArg (fun z => s.chains.set ch { s.chain ch with z := z }) (hz.trans hlz)
      _ = s.chains := Vector.set_getElem_self _
  · intro c i
    by_cases h : ∃ j < n, smpCell c i = smpCell ch j
    · obtain ⟨j, hj, e⟩ := h
      simp only [State.readSmp, e]
      exact (hown j hj).trans (hlv j hj)
    · exact hother _ fun j hj e => h ⟨j, hj, e⟩

/-- Settles O41: each sample of the run is multiplied by 1.0 and added to +0.0, and the delay words stay clear. -/
theorem neutralChainPassesSamples : Obligations.NeutralChainPassesSamples := by
  intro s t ch count ha hrun hn hch hx hex
  have hc : checks (.proc ch count) s = none :=
    checks_ok ((portAdmits_iff _ _).mpr ha) rfl rfl (lifecycleAdmits_of_running hrun .proc (by decide)) (if_pos hn)
  obtain ⟨hchains, hsmp⟩ := runChannel_neutral hch hx
  rw [exec_of_checks hc] at hex
  cases hex
  constructor
  · simpa [effect] using hchains
  · simpa [effect, State.readSmp] using hsmp

end Sys2Proof.Proofs
end

section
/-! SUPPORT. Which pieces of state a turn of a port may write (20_memory R72): every command, from the checks that admit it to
its response, and every atomic step of one, keeps what the other two ports own. -/

namespace Sys2Proof.Proofs

open Machine Laws

/-! ### What each port owns -/

/-- What only a command of port H writes is kept: the parameters, and DIRTY is not set. -/
def HostKept (s t : State) : Prop := t.p = s.p ∧ (t.dirty = true → s.dirty = true)

/-- What only a command of port R writes is kept: the view, its snapshot and the curve, and DIRTY is not cleared. -/
def RenderKept (s t : State) : Prop :=
  t.viewW = s.viewW ∧ t.viewH = s.viewH ∧ t.rsnap = s.rsnap ∧ t.crv = s.crv ∧ t.crvLen = s.crvLen ∧
    t.recomputes = s.recomputes ∧ (s.dirty = true → t.dirty = true)

/-- What only a command of port A writes is kept. -/
def AudioKept (s t : State) : Prop :=
  t.lifecycle = s.lifecycle ∧ t.fs = s.fs ∧ t.blocksize = s.blocksize ∧ t.asnap = s.asnap ∧ t.stg = s.stg ∧
    t.chains = s.chains ∧ t.smp = s.smp ∧ t.pub = s.pub

/-- From `s` to `t` port `p` has written nothing that another port owns. -/
structure WroteOwn (p : Port) (s t : State) : Prop where
  host : p ≠ .h → HostKept s t
  render : p ≠ .r → RenderKept s t
  audio : p ≠ .a → AudioKept s t

section
variable {p : Port} {s x : State}

theorem HostKept.refl (s : State) : HostKept s s := ⟨rfl, id⟩

theorem RenderKept.refl (s : State) : RenderKept s s := ⟨rfl, rfl, rfl, rfl, rfl, rfl, id⟩

theorem AudioKept.refl (s : State) : AudioKept s s := ⟨rfl, rfl, rfl, rfl, rfl, rfl, rfl, rfl⟩

theorem WroteOwn.refl (p : Port) (s : State) : WroteOwn p s s :=
  ⟨fun _ => .refl s, fun _ => .refl s, fun _ => .refl s⟩

/-! ### The owner of each named update (the table of 20_memory R72) -/

theorem WroteOwn.ofHost (hr : RenderKept s x) (ha : AudioKept s x) : WroteOwn .h s x :=
  ⟨fun h => absurd rfl h, fun _ => hr, fun _ => ha⟩

theorem WroteOwn.ofRender (hh : HostKept s x) (ha : AudioKept s x) : WroteOwn .r s x :=
  ⟨fun _ => hh, fun h => absurd rfl h, fun _ => ha⟩

theorem WroteOwn.ofAudio (hh : HostKept s x) (hr : RenderKept s x) : WroteOwn .a s x :=
  ⟨fun _ => hh, fun _ => hr, fun h => absurd rfl h⟩

theorem WroteOwn.setParam (h : WroteOwn .h s x) (i : Fin 7) (v : Word) : WroteOwn .h s (x.setParam i v) :=
  .ofHost (h.render nofun) (h.audio nofun)

theorem WroteOwn.setParams (h : WroteOwn .h s x) (v : Vector Word 7) : WroteOwn .h s (x.setParams v) :=
  .ofHost (h.render nofun) (h.audio nofun)

theorem WroteOwn.setsDirty (h : WroteOwn .h s x) : WroteOwn .h s (x.setDirty true) := by
  obtain ⟨hw, hh, hsnap, hcrv, hlen, hcount, -⟩ := h.render nofun
  exact .ofHost ⟨hw, hh, hsnap, hcrv, hlen, hcount, fun _ => rfl⟩ (h.audio nofun)

theorem WroteOwn.clearsDirty (h : WroteOwn .r s x) : WroteOwn .r s (x.setDirty false) :=
  .ofRender ⟨(h.host nofun).1, nofun⟩ (h.audio nofun)

theorem WroteOwn.setView (h : WroteOwn .r s x) (width height : BitVec 16) : WroteOwn .r s (x.setView width height) :=
  .ofRender (h.host nofun) (h.audio nofun)

theorem WroteOwn.setRsnap (h : WroteOwn .r s x) (v : Settings) : WroteOwn .r s (x.setRsnap v) :=
  .ofRender (h.host nofun) (h.audio nofun)

theorem WroteOwn.setCurve (h : WroteOwn .r s x) (m : Memory) (len : BitVec 16) (n : Word) :
    WroteOwn .r s (x.setCurve m len n) := .ofRender (h.host nofun) (h.audio nofun)

theorem WroteOwn.setLifecycle (h : WroteOwn .a s x) (l : Lifecycle) : WroteOwn .a s (x.setLifecycle l) :=
  .ofAudio (h.host nofun) (h.render nofun)

theorem WroteOwn.setRate (h : WroteOwn .a s x) (fs : Word) (bs : BitVec 16) : WroteOwn .a s (x.setRate fs bs) :=
  .ofAudio (h.host nofun) (h.render nofun)

theorem WroteOwn.setAsnap (h : WroteOwn .a s x) (v : Settings) : WroteOwn .a s (x.setAsnap v) :=
  .ofAudio (h.host nofun) (h.render nofun)

theorem WroteOwn.setStaging (h : WroteOwn .a s x) (v : Vector Block 9) : WroteOwn .a s (x.setStaging v) :=
  .ofAudio (h.host nofun) (h.render nofun)

theorem WroteOwn.setChains (h : WroteOwn .a s x) (v : Vector Chain 2) : WroteOwn .a s (x.setChains v) :=
  .ofAudio (h.host nofun) (h.render nofun)

theorem WroteOwn.setChain (h : WroteOwn .a s x) (ch : Fin 2) (c : Chain) : WroteOwn .a s (x.setChain ch c) :=
  h.setChains _

theorem WroteOwn.setPub (h : WroteOwn .a s x) (v : Published) : WroteOwn .a s (x.setPub v) :=
  .ofAudio (h.host nofun) (h.render nofun)

theorem WroteOwn.setSmp (h : WroteOwn .a s x) (m : Memory) : WroteOwn .a s (x.setSmp m) :=
  .ofAudio (h.host nofun) (h.render nofun)

theorem WroteOwn.setDraws (h : WroteOwn .a s x) (n : Nat) : WroteOwn .a s (x.setDraws n) :=
  .ofAudio (h.host nofun) (h.render nofun)

theorem WroteOwn.publishStep (h : WroteOwn .a s x) : WroteOwn .a s (publishStep x) := h.setPub _

theorem WroteOwn.commit (h : WroteOwn .a s x) (v : Settings) (fs : Word) : WroteOwn .a s (commit v fs x) :=
  (((h.setAsnap v).setStaging _).setChains _).publishStep

theorem WroteOwn.runChannel (h : WroteOwn .a s x) (ch : Fin 2) (n : Nat) : WroteOwn .a s (runChannel ch n x) :=
  ((h.setChain ch _).setSmp _).setDraws _

theorem WroteOwn.runChannels (h : WroteOwn .a s x) (nin nout n : Nat) : WroteOwn .a s (runChannels nin nout n x) := by
  unfold Machine.runChannels
  induction channels 0 (max nin nout) generalizing x with
  | nil => exact h
  | cons ch l ih => exact ih (h.runChannel ch n)

/-! ### The ports, the turn and FAULT are not among what R72 gives to one port -/

theorem WroteOwn.setPort (h : WroteOwn p s x) (q : Port) (v : PortState) : WroteOwn p s (x.setPort q v) :=
  ⟨by simpa [HostKept] using h.host, by simpa [RenderKept] using h.render, by simpa [AudioKept] using h.audio⟩

theorem WroteOwn.setActive (h : WroteOwn p s x) (q : Port) : WroteOwn p s (x.setActive q) := ⟨h.host, h.render, h.audio⟩

theorem WroteOwn.setFault (h : WroteOwn p s x) (w : Word) : WroteOwn p s (x.setFault w) := ⟨h.host, h.render, h.audio⟩

theorem WroteOwn.done (h : WroteOwn p s x) (d : Word) : WroteOwn p s (x.done d) := h.setPort _ _

theorem WroteOwn.raise (h : WroteOwn p s x) (f : FaultCode) : WroteOwn p s (x.raise f) := (h.setFault _).setPort _ _

theorem WroteOwn.setBusy (h : WroteOwn p s x) (f : InFlight) : WroteOwn p s (x.setBusy f) := h.setPort _ _

/-- Taking a command off a queue writes nothing of R72, so what the command writes is what the turn writes. -/
theorem WroteOwn.ofTake {q : List CommandWord} (h : WroteOwn p (s.take p q) x) : WroteOwn p s x :=
  ⟨by simpa [HostKept] using h.host, by simpa [RenderKept] using h.render, by simpa [AudioKept] using h.audio⟩

end

section
variable {s x : State}

/-! ### The finishing steps of the snapshot commands -/

theorem wroteOwn_prepareFinish (bs : BitVec 16) (fs : Word) (r : Vector Word 7) (s : State) :
    WroteOwn .a s (prepareFinish bs fs r s) := by
  unfold prepareFinish
  split
  · exact (((((WroteOwn.refl _ s).setRate fs bs).setChains _).commit _ fs).setLifecycle _).done _
  · exact (WroteOwn.refl _ s).raise _

theorem wroteOwn_blockFinish (nin nout : BitVec 4) (count : BitVec 16) (r : Vector Word 7) (s : State) :
    WroteOwn .a s (blockFinish nin nout count r s) := by
  unfold blockFinish
  split
  · exact (((((WroteOwn.refl _ s).setSmp _).commit _ _).runChannels _ _ _).setLifecycle _).done _
  · exact (WroteOwn.refl _ s).raise _

theorem WroteOwn.tickFinish (h : WroteOwn .r s x) (r : Vector Word 7) : WroteOwn .r s (tickFinish r x) :=
  ((h.setRsnap _).setCurve _ _ _).done _

/-- A snapshot command is under way only on its own port, and its finishing step writes what that port owns. -/
theorem wroteOwn_finish {c : SnapshotCmd} {g : Vector (Option Word) 7}
    (hc : busyLegal s s.active (some (.reading c g))) (r : Vector Word 7) : WroteOwn s.active s (c.finish r s) := by
  cases c with
  | snap =>
    rw [(busyLegal_snap.mp hc).1]
    exact ((WroteOwn.refl _ s).setAsnap _).done _
  | prepare bs fs => rw [(busyLegal_prepare.mp hc).1]; exact wroteOwn_prepareFinish bs fs r s
  | block nin nout count => rw [(busyLegal_block.mp hc).1]; exact wroteOwn_blockFinish nin nout count r s
  | tick => rw [busyLegal_tick.mp hc]; exact (WroteOwn.refl _ s).tickFinish r

theorem wroteOwn_readStep {cmd : SnapshotCmd} {got : Vector (Option Word) 7}
    (hc : busyLegal s s.active (some (.reading cmd got))) (c : Nat) : WroteOwn s.active s (readStep cmd got c s) := by
  rcases readStep_cases cmd got c s with ⟨-, e⟩ | ⟨j, -, e⟩ <;> rw [e]
  · exact wroteOwn_finish hc _
  · exact (WroteOwn.refl _ s).setBusy _

/-- TICK's test-and-clear clears DIRTY, which port R may, and sets nothing. -/
theorem wroteOwn_tickStart (s : State) : WroteOwn .r s (tickStart s) := by
  unfold tickStart
  split
  · exact (WroteOwn.refl _ s).clearsDirty.setBusy _
  · exact (WroteOwn.refl _ s).clearsDirty.done _

/-! ### PDEFAULT -/

theorem wroteOwn_defaultStep (n : Fin 8) (s : State) : WroteOwn .h s (defaultStep n s) := by
  unfold defaultStep
  split
  · exact ((WroteOwn.refl _ s).setParam _ _).setBusy _
  · exact (WroteOwn.refl _ s).setsDirty.done _

theorem wroteOwn_defaultSteps {n : Nat} (hn : n ≤ 7) (s : State) : WroteOwn .h s (defaultSteps 8 n s) := by
  rw [defaultSteps_eight n hn]
  exact ((WroteOwn.refl _ s).setParams _).setsDirty.done _

/-! ### Whole commands and first steps -/

/-- A whole command that its checks admit writes only what its port owns. -/
theorem wroteOwn_effect {i : Instr} (hc : checks i s = none) : WroteOwn s.active s (effect i s) := by
  have hport := (portAdmits_iff i.opcode s.active).mp (checks_eq_none.mp hc).1
  have h := WroteOwn.refl s.active s
  cases i with
  | rdreg _ | pread _ | rdsmp _ _ | rdcrv _ => exact h.done _
  | pwrite _ _ => rw [hport] at h ⊢; exact (h.setParam _ _).setsDirty.done _
  | pdefault => rw [hport]; exact wroteOwn_defaultSteps (Nat.zero_le 7) s
  | prepare bs fs => rw [hport]; exact wroteOwn_prepareFinish bs fs s.p s
  | block nin nout count => rw [hport]; exact wroteOwn_blockFinish nin nout count s.p s
  | release => rw [hport] at h ⊢; exact (h.setLifecycle _).done _
  | wrsmp _ _ _ | clrch _ _ => rw [hport] at h ⊢; exact (h.setSmp _).done _
  | proc ch _ => rw [hport] at h ⊢; exact (h.runChannel ch _).done _
  | snap => rw [hport] at h ⊢; exact (h.setAsnap _).done _
  | ldstg _ _ _ => rw [hport] at h ⊢; exact (h.setStaging _).done _
  | publish => rw [hport] at h ⊢; exact h.publishStep.done _
  | despk | descut _ =>
    rw [hport] at h ⊢
    simp only [effect]
    split
    · exact (h.setStaging _).done _
    · exact h.raise _
  | setpk ch =>
    rw [hport] at h ⊢
    simp only [effect]
    split
    · exact (h.setChain ch _).done _
    · exact h.raise _
  | setcut ch _ _ =>
    rw [hport] at h ⊢
    simp only [effect]
    split
    · exact (h.setChain ch _).done _
    · exact (h.setChain ch _).raise _
  | tick =>
    rw [hport] at h ⊢
    simp only [effect]
    split
    · exact h.clearsDirty.tickFinish s.p
    · exact h.clearsDirty.done _
  | setview _ _ => rw [hport] at h ⊢; exact (h.setView _ _).done _

/-- So does the first atomic step of one. -/
theorem wroteOwn_startEffect {i : Instr} (hc : checks i s = none) (c : Nat) : WroteOwn s.active s (startEffect i c s) := by
  have hport := (portAdmits_iff i.opcode s.active).mp (checks_eq_none.mp hc).1
  cases i with
  | rdreg _ | pwrite _ _ | pread _ | release | wrsmp _ _ _ | rdsmp _ _ | clrch _ _ | proc _ _ | ldstg _ _ _ | publish
  | setview _ _ | rdcrv _ | despk | descut _ | setpk _ | setcut _ _ _ => exact wroteOwn_effect hc
  | snap => exact wroteOwn_readStep (busyLegal_of_checks_snap hc noReads) c
  | prepare bs fs => exact wroteOwn_readStep (busyLegal_of_checks_prepare hc noReads) c
  | block nin nout count => exact wroteOwn_readStep (busyLegal_of_checks_block hc noReads) c
  | tick => rw [hport]; exact wroteOwn_tickStart s
  | pdefault => rw [hport]; exact wroteOwn_defaultStep 0 s

/-! ### Commands under way -/

theorem wroteOwn_complete {f : InFlight} (hf : busyLegal s s.active (some f)) : WroteOwn s.active s (complete f s) := by
  cases f with
  | reading c got => exact wroteOwn_finish hf _
  | defaulting n => rw [busyLegal_defaulting.mp hf]; exact wroteOwn_defaultSteps (Nat.le_of_lt_succ n.isLt) s

theorem wroteOwn_advance {f : InFlight} (hf : busyLegal s s.active (some f)) (c : Nat) :
    WroteOwn s.active s (advance f c s) := by
  cases f with
  | reading cmd got => exact wroteOwn_readStep hf c
  | defaulting n => rw [busyLegal_defaulting.mp hf]; exact wroteOwn_defaultStep n s

/-! ### Turns -/

/-- Whatever becomes of a port that has its turn, nothing is written that another port owns. -/
theorem wroteOwn_of_moved {p : Port} {t : State} (h : s.Inv) (hm : Moved p s t) : WroteOwn p s t := by
  have hbusy : ∀ f, (s.port p).busy = some f → busyLegal (s.setActive p) p (some f) := fun f hf => by
    have hb := busyLegal_of_inv (inv_setActive h p) p
    rwa [State.setActive_port, hf] at hb
  have hact : ∀ {u}, WroteOwn p (s.setActive p) u → WroteOwn p s u := fun hw => ⟨hw.host, hw.render, hw.audio⟩
  have htake : ∀ {q u}, WroteOwn (s.take p q).active (s.take p q) u → WroteOwn p s u := fun hw =>
    .ofTake (by rwa [State.take_active] at hw)
  cases hm with
  | idle => exact .refl p s
  | completed f hf => exact hact (wroteOwn_complete (hbusy f hf))
  | advanced f c hf => exact hact (wroteOwn_advance (hbusy f hf) c)
  | refusedWord w q n _ _ hn =>
    obtain ⟨f, rfl⟩ := refusal_code hn
    rw [← raise_eq_faulted]
    exact htake (.raise (.refl _ _) f)
  | checkFailed w q i f _ _ _ _ =>
    rw [← raise_eq_faulted]
    exact htake (.raise (.refl _ _) f)
  | ran w q i _ _ _ hc => exact htake (wroteOwn_effect hc)
  | started w q i c _ _ _ hc => exact htake (wroteOwn_startEffect hc c)

/-- A turn of one port is not a turn of another. -/
theorem ne_of_not_ofPort {u : Turn} {p q : Port} (hp : u.ofPort p) (hq : ¬ u.ofPort q) : p ≠ q := fun e => hq (e ▸ hp)

end

/-- Settles O17: a step that is not the external reset is a turn of one port, which writes nothing that another port owns. -/
theorem writersByPort : Obligations.WritersByPort := by
  intro s t u rest hinv hs hst hnr
  rcases step_cases hst with ⟨hnil, -⟩ | ⟨rest', hreset, -⟩ | ⟨u', rest', p, hs', -, hp, hm⟩
  · rw [hs] at hnil; cases hnil
  · rw [hs] at hreset; cases hreset; exact hnr.elim
  · rw [hs] at hs'; cases hs'
    have hw : WroteOwn p (s.setSchedule rest) t := wroteOwn_of_moved (inv_setSchedule hinv rest) hm
    exact ⟨fun hq => hw.host (ne_of_not_ofPort hp hq), fun hq => hw.render (ne_of_not_ofPort hp hq),
      fun hq => hw.audio (ne_of_not_ofPort hp hq)⟩

end Sys2Proof.Proofs
end

section
/-! SUPPORT. One turn of a port: the command that its oldest word decodes to, or the next atomic step of the command under way
(20_memory R66 to R68). -/

namespace Sys2Proof.Proofs

open Machine Laws

/-! ### The word a port takes up -/

/-- A turn of an idle port whose oldest word decodes runs that command, an atomic turn where it is one of a single step. -/
theorem step_decoded {s : State} {p : Port} {u : Turn} {rest : List Turn} {w : CommandWord} {q : List CommandWord} {i : Instr}
    (hs : s.schedule = u :: rest) (hb : (s.port p).busy = none) (hq : (s.port p).queue = w :: q) (hd : decode w = .ok i)
    (hu : u = .whole p ∨ ∃ c, u = .atomic p c ∧ atomicSteps i s = 1) : step s = exec i ((s.setSchedule rest).take p q) := by
  rcases hu with rfl | ⟨c, rfl, h1⟩
  · rw [step_whole hs hb hq, runWord, hd]
  · rw [step_atomic_idle hs hb hq, runWord, hd]
    exact startAtomic_of_one h1 (by simp) c

/-- Settles O5: the command is the decoded word's; a snapshot under way reads what `c` picks among the parameters left. -/
theorem stepRunsDecodedCommand : Obligations.StepRunsDecodedCommand := by
  constructor
  · intro s p u rest w q i hs hb hq hd hu
    rw [step_decoded hs hb hq hd hu, take_eq]
  · intro s p rest cmd got hb s' read
    have hstep : ∀ c, step { s with schedule := .atomic p c :: rest } = .next (readStep cmd got c s') := fun c => by
      rw [step_atomic_busy (p := p) (c := c) (rest := rest) (f := .reading cmd got) rfl (by cases p <;> exact hb)]
      rfl
    have hread : ∀ j : Fin 7, s'.setBusy (.reading cmd (got.set j (some s'.p[j]))) = read j := fun j => by cases p <;> rfl
    refine ⟨fun c r hr => ?_, fun c hleft => ?_, fun j hj => ?_⟩
    · rcases readStep_cases cmd got c s' with ⟨-, e⟩ | ⟨j, hj, -⟩
      · rw [hstep, e, fillReads_of_all hr]
      · rw [mem_unread, hr j] at hj; cases hj
    · obtain ⟨j, hj⟩ := hleft
      rcases readStep_cases cmd got c s' with ⟨hnil, -⟩ | ⟨k, hk, e⟩
      · rw [← mem_unread, hnil] at hj; cases hj
      · exact ⟨k, (mem_unread got k).mp hk, by rw [hstep, e, hread]⟩
    · obtain ⟨c, e⟩ := readStep_any cmd got s' ((mem_unread got j).mpr hj)
      exact ⟨c, by rw [hstep, e, hread]⟩

/-! ### The port a word is presented on -/

/-- The class of an OPC is its high nibble (30_encoding R92). -/
theorem class_eq (opc : BitVec 8) : opc.toNat / 16 = (opc.extractLsb' 4 4).toNat := by
  have hb := opc.isLt
  rw [BitVec.extractLsb'_toNat, Nat.shiftRight_eq_div_pow]
  omega

/-- `withFetchWord` presents a word on the port that its class admits, port A for class 0 (log entry 12). -/
theorem portOfWord_eq {w : CommandWord} {p : Port} (h : classAdmits (w.extractLsb' 56 8) p)
    (h0 : w.extractLsb' 60 4 = 0#4 → p = .a) : portOfWord w = p := by
  have hnibble : (w.extractLsb' 56 8).extractLsb' 4 4 = w.extractLsb' 60 4 := by
    ext i hi
    simp only [BitVec.getElem_extractLsb', BitVec.getLsbD_extractLsb', ← Nat.add_assoc]
    simp [show 4 + i < 8 by omega]
  have hclass : (fieldsOf w).opc.toNat / 16 = (w.extractLsb' 60 4).toNat := hnibble ▸ class_eq _
  rw [classAdmits, hnibble] at h
  rw [portOfWord, hclass]
  rcases h with hn | ⟨hn, rfl⟩ | ⟨hn, rfl⟩ | ⟨hn, rfl⟩
  · rw [hn, h0 hn]; rfl
  all_goals rw [hn]; rfl

/-- Settles O6: the presented word is the oldest of its port's queue, and that port has the next whole turn. -/
theorem stepRunsPresentedWord : Obligations.StepRunsPresentedWord := by
  intro s w i p hd hc h0
  have hw : BitVec.ofNat 64 (w.toNat % 2 ^ 64) = w := by rw [Nat.mod_eq_of_lt w.isLt, BitVec.ofNat_toNat, BitVec.setWidth_eq]
  rw [State.withFetchWord, hw, portOfWord_eq hc h0,
    step_decoded (q := (s.port p).queue) rfl (by simp [State.present]) (by simp [State.present]) hd (.inl rfl)]
  cases p <;> rfl

end Sys2Proof.Proofs
end

section
/-! SUPPORT. The atomic turns of a command of several steps, one after the other: whatever order the reads of a snapshot take,
they end where the whole turn ends (20_memory R67, R68). -/

namespace Sys2Proof.Proofs

open Machine Laws

theorem run_of_step {s t : State} (h : step s = .next t) (n : Nat) :
    Sys2Proof.core.run (n + 1) s = Sys2Proof.core.run n t := by
  simp only [Host.Core.run]
  rw [show Sys2Proof.core.step s = step s from rfl, h]

/-! ### The reads of a snapshot -/

/-- A read takes its parameter off those left. -/
theorem unread_set (got : Vector (Option Word) 7) (j : Fin 7) (v : Word) :
    unread (got.set j (some v)) = (unread got).filter (· != j) := by
  rw [unread, unread, List.filter_filter]
  refine List.filter_congr fun i _ => ?_
  rw [getElem_set_fin]
  by_cases hij : i = j <;> simp [hij]

theorem length_unread_set {got : Vector (Option Word) 7} {j : Fin 7} (h : j ∈ unread got) (v : Word) :
    (unread (got.set j (some v))).length + 1 = (unread got).length := by
  have hnodup : (unread got).Nodup := List.Nodup.filter _ (by decide)
  rw [unread_set, ← hnodup.erase_eq_filter, List.length_erase_add_one h]

theorem getElem_fillReads (got : Vector (Option Word) 7) (p : Vector Word 7) (i : Fin 7) :
    (fillReads got p)[i] = got[i].getD p[i] := by
  match i with | 0 | 1 | 2 | 3 | 4 | 5 | 6 => rfl

/-- A snapshot of one store is the same whether a missing read is made now or with the others. -/
theorem fillReads_set {got : Vector (Option Word) 7} {p : Vector Word 7} {j : Fin 7} (h : got[j] = none) :
    fillReads (got.set j (some p[j])) p = fillReads got p := by
  refine Vector.ext fun i hi => ?_
  show (fillReads (got.set j (some p[j])) p)[(⟨i, hi⟩ : Fin 7)] = (fillReads got p)[(⟨i, hi⟩ : Fin 7)]
  rw [getElem_fillReads, getElem_fillReads, getElem_set_fin]
  split
  · next e => rw [e, h]; rfl
  · rfl

theorem fillReads_noReads (p : Vector Word 7) : fillReads noReads p = p := by
  refine Vector.ext fun i hi => ?_
  match i, hi with | 0, _ | 1, _ | 2, _ | 3, _ | 4, _ | 5, _ | 6, _ => rfl

/-! ### A mark of what is under way commutes with what a command writes, and the response takes it away -/

section
variable (s : State) (f : InFlight)

theorem setBusy_setSchedule (l : List Turn) : (s.setBusy f).setSchedule l = (s.setSchedule l).setBusy f := by
  match s with | { active := .a, .. } | { active := .r, .. } | { active := .h, .. } => rfl

theorem clearOutputs_setBusy (nin nout n : Nat) :
    clearOutputs nin nout n (s.setBusy f) = (clearOutputs nin nout n s).setBusy f := by
  match s with | { active := .a, .. } | { active := .r, .. } | { active := .h, .. } => rfl

theorem commit_setBusy (v : Settings) (fs : Word) : commit v fs (s.setBusy f) = (commit v fs s).setBusy f := by
  match s with | { active := .a, .. } | { active := .r, .. } | { active := .h, .. } => rfl

theorem runChannel_setBusy (ch : Fin 2) (n : Nat) : runChannel ch n (s.setBusy f) = (runChannel ch n s).setBusy f := by
  match s with | { active := .a, .. } | { active := .r, .. } | { active := .h, .. } => rfl

theorem runChannels_setBusy (nin nout n : Nat) :
    runChannels nin nout n (s.setBusy f) = (runChannels nin nout n s).setBusy f := by
  unfold runChannels
  induction channels 0 (max nin nout) generalizing s with
  | nil => rfl
  | cons ch l ih => rw [List.foldl_cons, List.foldl_cons, runChannel_setBusy, ih]

theorem setLifecycle_setBusy (l : Lifecycle) : (s.setBusy f).setLifecycle l = (s.setLifecycle l).setBusy f := by
  match s with | { active := .a, .. } | { active := .r, .. } | { active := .h, .. } => rfl

theorem done_setBusy (d : Word) : (s.setBusy f).done d = s.done d := by
  match s with | { active := .a, .. } | { active := .r, .. } | { active := .h, .. } => rfl

theorem raise_setBusy (e : FaultCode) : (s.setBusy f).raise e = s.raise e := by
  match s with | { active := .a, .. } | { active := .r, .. } | { active := .h, .. } => rfl

/-- The finishing step does not depend on the reads marked on the port, but through the values it is given. -/
theorem finish_setBusy (c : SnapshotCmd) (r : Vector Word 7) : c.finish r (s.setBusy f) = c.finish r s := by
  cases c with
  | snap | prepare _ _ | tick =>
    match s with | { active := .a, .. } | { active := .r, .. } | { active := .h, .. } => rfl
  | block nin nout count =>
    simp only [SnapshotCmd.finish, blockFinish, State.setBusy_fs, clearOutputs_setBusy, commit_setBusy, runChannels_setBusy,
      setLifecycle_setBusy, done_setBusy, raise_setBusy]

end

/-! ### Atomic turns one after the other -/

section
variable {s : State} {rest : List Turn}

theorem setSchedule_of_eq (h : s.schedule = rest) : s.setSchedule rest = s := by subst h; rfl

/-- The next atomic turn of the port that has just marked a command under way. -/
theorem step_setBusy {f : InFlight} {c : Nat} (hs : s.schedule = .atomic s.active c :: rest) :
    step (s.setBusy f) = .next (advance f c ((s.setSchedule rest).setBusy f)) := by
  have hactive : ∀ x : State, x.active = s.active → x.setActive s.active = x := fun x e => by rw [← e]; rfl
  rw [step_atomic_busy (p := s.active) (f := f) (by rw [State.setBusy_schedule, hs]) (by rw [State.setBusy_port_active]),
    setBusy_setSchedule, hactive _ (by simp)]

/-- A snapshot goes on by atomic turns of its port alone: its missing reads, in any order, and the finishing step. -/
theorem run_readStep (cmd : SnapshotCmd) {got : Vector (Option Word) 7} (c : Nat) {cs : List Nat}
    (hs : s.schedule = cs.map (.atomic s.active) ++ rest) (hlen : cs.length = (unread got).length) :
    Sys2Proof.core.run cs.length (readStep cmd got c s) = .next (cmd.finish (fillReads got s.p) (s.setSchedule rest)) := by
  induction cs generalizing got c s with
  | nil =>
    rcases readStep_cases cmd got c s with ⟨-, e⟩ | ⟨j, hj, -⟩
    · rw [e, setSchedule_of_eq (rest := rest) hs]; rfl
    · exact absurd hlen (List.length_pos_of_mem hj).ne
  | cons c' cs ih =>
    rcases readStep_cases cmd got c s with ⟨hnil, -⟩ | ⟨j, hj, e⟩
    · rw [hnil] at hlen; cases hlen
    · have hleft := length_unread_set hj s.p[j]
      rw [e, List.length_cons, run_of_step (step_setBusy hs)]
      simp only [advance]
      rw [ih c' (by simp) (by simp only [List.length_cons] at hlen; omega), setBusy_setSchedule, finish_setBusy,
        State.setBusy_p, State.setSchedule_p, fillReads_set ((mem_unread got j).mp hj)]
      rfl

/-- The atomic turns left of a snapshot under way, with no other port between. -/
theorem run_reading {p : Port} {cmd : SnapshotCmd} {got : Vector (Option Word) 7} {cs : List Nat}
    (hs : s.schedule = cs.map (.atomic p) ++ rest) (hb : (s.port p).busy = some (.reading cmd got))
    (hlen : cs.length = (unread got).length + 1) : Sys2Proof.core.run cs.length s =
      .next (cmd.finish (fillReads got s.p) ((s.setActive p).setSchedule rest)) := by
  cases cs with
  | nil => cases hlen
  | cons c cs =>
    have hread : Sys2Proof.core.run cs.length
        (readStep cmd got c ((s.setSchedule (cs.map (.atomic p) ++ rest)).setActive p)) = .next
          (cmd.finish (fillReads got s.p) ((s.setActive p).setSchedule rest)) :=
      run_readStep cmd c (rest := rest) (by simp) (Nat.succ.inj hlen)
    rw [List.length_cons, run_of_step (step_atomic_busy (p := p) hs hb)]
    exact hread

/-- PDEFAULT goes on by atomic turns of its port alone: the writes left and the set of DIRTY. -/
theorem run_defaultStep {n : Nat} {cs : List Nat} (hs : s.schedule = cs.map (.atomic s.active) ++ rest)
    (hlen : n + cs.length = 7) :
    Sys2Proof.core.run cs.length (defaultStep ⟨n, by omega⟩ s) = .next (defaultFinish n (s.setSchedule rest)) := by
  induction cs generalizing n s with
  | nil =>
    obtain rfl : n = 7 := hlen
    rw [setSchedule_of_eq (rest := rest) hs, defaultFinish, defaultsFrom_seven]
    rfl
  | cons c cs ih =>
    rw [List.length_cons] at hlen
    have hstep : ∀ x : State, defaultStep ⟨n, by omega⟩ x =
        (x.setParam ⟨n, by omega⟩ defP[n]).setBusy (.defaulting ⟨n + 1, by omega⟩) := fun x => dif_pos (show n < 7 by omega)
    rw [hstep, List.length_cons, run_of_step (step_setBusy (s := s.setParam _ _) hs)]
    simp only [advance]
    rw [ih (by simp) (by omega), setBusy_setSchedule, ← defaultFinish_step n (by omega) (s.setSchedule rest), hstep]
    rfl

/-- TICK after its test-and-clear: nothing is left with DIRTY clear, else the reads and the drawing. -/
theorem run_tickStart {cs : List Nat} (hs : s.schedule = cs.map (.atomic s.active) ++ rest)
    (hlen : cs.length + 1 = atomicSteps .tick s) :
    Sys2Proof.core.run cs.length (tickStart s) = .next (effect .tick (s.setSchedule rest)) := by
  rw [atomicSteps] at hlen
  split at hlen <;> rename_i hdirty
  · have hstart : tickStart s = (s.setDirty false).setBusy (.reading .tick noReads) := if_pos hdirty
    have hend : effect .tick (s.setSchedule rest) = tickFinish s.p ((s.setSchedule rest).setDirty false) := if_pos hdirty
    cases cs with
    | nil => cases hlen
    | cons c cs =>
      rw [hstart, hend, List.length_cons, run_of_step (step_setBusy (s := s.setDirty false) hs)]
      simp only [advance]
      rw [run_readStep .tick c (rest := rest) (by simp) (Nat.succ.inj (Nat.succ.inj hlen)), fillReads_noReads,
        setBusy_setSchedule, finish_setBusy, State.setBusy_p]
      rfl
  · have hstart : tickStart s = effect .tick s := (if_neg hdirty).trans (if_neg hdirty).symm
    obtain rfl : cs = [] := List.length_eq_zero_iff.mp (Nat.succ.inj hlen)
    rw [setSchedule_of_eq (rest := rest) hs, hstart]
    rfl

/-- After the first atomic step of a command, the others end it as the whole command does. -/
theorem run_startEffect {i : Instr} (c : Nat) {cs : List Nat} (hs : s.schedule = cs.map (.atomic s.active) ++ rest)
    (hlen : cs.length + 1 = atomicSteps i s) :
    Sys2Proof.core.run cs.length (startEffect i c s) = .next (effect i (s.setSchedule rest)) := by
  have hreads : ∀ cmd : SnapshotCmd, cs.length = 7 → Sys2Proof.core.run cs.length (readStep cmd noReads c s) =
      .next (cmd.finish s.p (s.setSchedule rest)) := fun cmd h => by
    rw [run_readStep cmd c hs (got := noReads) h, fillReads_noReads]
  cases i with
  | rdreg _ | pwrite _ _ | pread _ | release | wrsmp _ _ _ | rdsmp _ _ | clrch _ _ | proc _ _ | ldstg _ _ _ | publish
  | setview _ _ | rdcrv _ | despk | descut _ | setpk _ | setcut _ _ _ =>
    obtain rfl : cs = [] := List.length_eq_zero_iff.mp (Nat.succ.inj hlen)
    rw [setSchedule_of_eq (rest := rest) hs]
    rfl
  | snap => exact hreads .snap (Nat.succ.inj hlen)
  | prepare bs fs => exact hreads (.prepare bs fs) (Nat.succ.inj hlen)
  | block nin nout count => exact hreads (.block nin nout count) (Nat.succ.inj hlen)
  | pdefault =>
    exact (run_defaultStep hs (n := 0) (by simpa [atomicSteps] using hlen)).trans
      (by rw [← defaultSteps_eight 0 (Nat.zero_le 7)]; rfl)
  | tick => exact run_tickStart hs hlen

end

/-! ### Whole and first turns of an idle port -/

/-- No check looks at the schedule. -/
theorem checks_setSchedule (i : Instr) (s : State) (l : List Turn) : checks i (s.setSchedule l) = checks i s := by
  cases i <;> rfl

section
variable {s : State} {p : Port} {rest : List Turn} {w : CommandWord} {q : List CommandWord} {i : Instr}

theorem step_whole_effect (hs : s.schedule = .whole p :: rest) (hb : (s.port p).busy = none) (hq : (s.port p).queue = w :: q)
    (hd : decode w = .ok i) (hc : checks i (s.setActive p) = none) :
    step s = .next (effect i ((s.setSchedule rest).take p q)) := by
  rw [step_decoded hs hb hq hd (.inl rfl), exec_of_checks]
  rw [checks_take]
  exact (checks_setSchedule i (s.setActive p) rest).trans hc

theorem step_atomic_startEffect {c : Nat} (hs : s.schedule = .atomic p c :: rest) (hb : (s.port p).busy = none)
    (hq : (s.port p).queue = w :: q) (hd : decode w = .ok i) (hc : checks i (s.setActive p) = none) :
    step s = .next (startEffect i c ((s.setSchedule rest).take p q)) := by
  rw [step_atomic_idle hs hb hq, runWord, hd]
  show startAtomic i c _ = _
  rw [startAtomic_eq, checked_of_none]
  rw [checks_take]
  exact (checks_setSchedule i (s.setActive p) rest).trans hc

end

theorem atomicSteps_congr (i : Instr) {s t : State} (h : t.dirty = s.dirty) : atomicSteps i t = atomicSteps i s := by
  cases i <;> simp only [atomicSteps, h]

theorem atomicSteps_pos (i : Instr) (s : State) : 0 < atomicSteps i s := by
  cases i with
  | tick => rw [atomicSteps]; split <;> decide
  | _ => exact Nat.succ_pos _

/-- Settles O8: the first atomic turn begins the command, and the rest of its atomic turns end it as the whole turn does. -/
theorem wholeTurnIsItsAtomicTurns : Obligations.WholeTurnIsItsAtomicTurns := by
  intro s p rest w q i cs hb hq hd hc hlen
  have hport : ∀ l, ({ s with schedule := l } : State).port p = s.port p := fun l => port_setSchedule s l p
  have hchecks : ∀ l, checks i (({ s with schedule := l } : State).setActive p) = none := fun l =>
    (checks_setSchedule i (s.setActive p) l).trans hc
  have hwhole := step_whole_effect (s := { s with schedule := .whole p :: rest }) rfl (by rw [hport, hb]) (by rw [hport, hq])
    hd (hchecks _)
  rw [run_of_step hwhole]
  cases cs with
  | nil => exact absurd hlen (atomicSteps_pos i s).ne
  | cons c cs =>
    have hfirst := step_atomic_startEffect (s := { s with schedule := .atomic p c :: (cs.map (.atomic p) ++ rest) }) (c := c)
      rfl (by rw [hport, hb]) (by rw [hport, hq]) hd (hchecks _)
    rw [List.length_cons, List.map_cons, List.cons_append, run_of_step hfirst,
      run_startEffect c (cs := cs) (rest := rest) (by simp)]
    · cases p <;> rfl
    · rw [← List.length_cons, hlen]
      exact (atomicSteps_congr i (by simp)).symm

end Sys2Proof.Proofs
end

section
/-! SUPPORT. A mixed snapshot (20_memory R68, 70_reset R316): two PWRITEs of port H between the reads of a SNAP on port A. -/

namespace Sys2Proof.Proofs

open Machine Laws

theorem decode_encode {i : Instr} (h : i.wellFormed = true) : decode (encode i) = .ok i :=
  (decode_ok_iff _ i).mpr ⟨(opc_encode i).symm, encode_zeroMask i, h, operandsOf_encode i⟩

section
variable {s : State} {rest : List Turn} {q : List CommandWord}

/-- The first atomic turn of a SNAP on a running engine reads P[0], where that is the choice, and nothing else. -/
theorem step_snap_reads_first (hs : s.schedule = .atomic .a 0 :: rest) (hb : s.portA.busy = none)
    (hq : s.portA.queue = encode .snap :: q) (hrun : s.running) : ∃ t, step s = .next t ∧
      t.portA.busy = some (.reading .snap (noReads.set 0 (some s.p[0]))) ∧ t.schedule = rest ∧ t.p = s.p ∧ t.portH = s.portH :=
  have hchecks : checks .snap (s.setActive .a) = none :=
    checks_ok ((portAdmits_iff _ _).mpr rfl) rfl rfl (lifecycleAdmits_of_running hrun .snap (by decide)) rfl
  ⟨_, step_atomic_startEffect hs hb hq (decode_encode rfl) hchecks, rfl, rfl, rfl, rfl⟩

/-- A whole turn of port H that runs a PWRITE stores its value and touches no other port. -/
theorem step_pwrite {idx : BitVec 8} {v : Word} (hi : idx.toNat ≤ 6) (hs : s.schedule = .whole .h :: rest)
    (hb : s.portH.busy = none) (hq : s.portH.queue = encode (.pwrite idx v) :: q) : ∃ t, step s = .next t ∧
      t.p = s.p.set (paramIx idx) v ∧ t.schedule = rest ∧ t.portA = s.portA ∧ t.portH.busy = none ∧ t.portH.queue = q :=
  have hd : decode (encode (.pwrite idx v)) = .ok (.pwrite idx v) := decode_encode (decide_eq_true hi)
  have hchecks : checks (.pwrite idx v) (s.setActive .h) = none :=
    checks_ok ((portAdmits_iff _ _).mpr rfl) (decide_eq_true hi) rfl rfl rfl
  ⟨_, step_whole_effect hs hb hq hd hchecks, rfl, rfl, rfl, rfl, rfl⟩

end

theorem clampParam_congr {r r' : Vector Word 7} {i : Fin 7} (h : r[i] = r'[i]) : clampParam r i = clampParam r' i := by
  rw [clampParam, clampParam, h]

/-- The order: SNAP reads P[0], port H writes P[0] and P[2], SNAP reads the other six parameters and finishes. -/
def mixedTurns : List Turn := .atomic .a 0 :: .whole .h :: .whole .h :: (List.replicate 7 0).map (.atomic .a)

/-- Settles O54: in the order `mixedTurns` SNAP has the old P[0] and the new P[2]. -/
theorem mixedSnapshotPossible : Obligations.MixedSnapshotPossible := by
  intro s v0 v2 hrun hA hH
  obtain ⟨s1, hstep1, hbusy1, hsched1, hp1, hH1⟩ := step_snap_reads_first (s := { s with schedule := mixedTurns }) rfl
    (by rw [hA]) (by rw [hA]) hrun
  have hH1 : s1.portH = s.portH := hH1
  obtain ⟨s2, hstep2, hp2, hsched2, hA2, hbusy2, hqueue2⟩ := step_pwrite (idx := 0#8) (by decide) hsched1 (by rw [hH1, hH])
    (by rw [hH1, hH])
  obtain ⟨s3, hstep3, hp3, hsched3, hA3, -⟩ := step_pwrite (idx := 2#8) (by decide) hsched2 hbusy2 hqueue2
  have hstore : s3.p = (s.p.set 0 v0).set 2 v2 := by rw [hp3, hp2, hp1]; rfl
  have hread : (s3.port .a).busy = some (.reading .snap (noReads.set 0 (some s.p[0]))) := by
    show s3.portA.busy = _
    rw [hA3, hA2, hbusy1]
  have hend := run_reading (cs := List.replicate 7 0) (rest := []) (hsched3.trans (List.append_nil _).symm) hread rfl
  refine ⟨mixedTurns, _, (run_of_step hstep1 9).trans ((run_of_step hstep2 8).trans ((run_of_step hstep3 7).trans hend)),
    hstore, clampParam_congr rfl, clampParam_congr rfl, rfl, rfl⟩

end Sys2Proof.Proofs
end

section
/-! SUPPORT. The decoder and the encoder are inverse to each other between the well-formed commands and the words that decode
(30_encoding R91, R97, R98). -/

namespace Sys2Proof.Proofs

open Machine Laws

/-! ### The words that decode -/

/-- A word decodes to a command exactly when it is the command's word and the command is well formed. -/
theorem decode_eq_ok_iff {w : CommandWord} {i : Instr} : decode w = .ok i ↔ encode i = w ∧ i.wellFormed = true := by
  constructor
  · intro h
    obtain ⟨hcode, hzero, hlegal, hoperands⟩ := (decode_ok_iff w i).mp h
    have hword := encode_operandsOf i.opcode w hcode hzero
    rw [hoperands] at hword
    exact ⟨hword, hlegal⟩
  · rintro ⟨rfl, hwf⟩
    exact decode_encode hwf

/-- Settles O1: the fields of an encoded command are its operands, and its must-be-zero bits are zero. -/
theorem decodeUndoesEncode : Obligations.DecodeUndoesEncode := fun _ => decode_encode

/-- Settles O2: with the must-be-zero bits zero, the operands and OPC make up the whole word. -/
theorem encodeUndoesDecode : Obligations.EncodeUndoesDecode := fun _ _ => decode_eq_ok_iff.mp

/-! ### The words that do not -/

/-- A word is the word of no well-formed command exactly when it decodes to no command. -/
theorem encodes_none_iff {w : CommandWord} : (∀ i : Instr, encode i = w → i.wellFormed = false) ↔ ∀ i, decode w ≠ .ok i := by
  simp only [ne_eq, decode_eq_ok_iff, not_and, Bool.not_eq_true]

/-- With an assigned OPC, what does not decode has illegal operands. -/
theorem decode_eq_illegalOperand_iff {w : CommandWord} {o : Opcode} : decode w = .illegalOperand o ↔
    o.code = (fieldsOf w).opc ∧ ∀ i, decode w ≠ .ok i := by
  constructor
  · intro h
    exact ⟨((decode_illegalOperand_iff w o).mp h).1, fun i => by rw [h]; nofun⟩
  · rintro ⟨hcode, hnone⟩
    refine (decode_illegalOperand_iff w o).mpr ⟨hcode, fun ⟨hzero, hlegal⟩ => hnone (operandsOf o (fieldsOf w)) ?_⟩
    exact decode_eq_ok_iff.mpr ⟨encode_operandsOf o w hcode hzero, hlegal⟩

/-- Settles O3: the decoder looks for the opcode first, and then for a well-formed command of that word. -/
theorem decoderRejectsExactly : Obligations.DecoderRejectsExactly := fun w =>
  ⟨decode_illegalOpcode_iff w, fun _ => decode_eq_illegalOperand_iff.trans (and_congr_right' encodes_none_iff.symm)⟩

/-- Settles O4: eight words of commands, two with an OPC that no command has, two with operands out of their legal sets. -/
theorem writtenWordsDecode : Obligations.WrittenWordsDecode :=
  have command {w : CommandWord} {i : Instr} (h : encode i = w ∧ i.wellFormed = true) : decode w = .ok i :=
    decode_eq_ok_iff.mpr h
  ⟨command (by decide), command (by decide), command (by decide), command (by decide), command (by decide),
    command (by decide), command (by decide), command (by decide),
    (decode_illegalOpcode_iff _).mpr fun o => by cases o <;> decide,
    (decode_illegalOpcode_iff _).mpr fun o => by cases o <;> decide,
    (decode_illegalOperand_iff _ _).mpr (by decide),
    (decode_illegalOperand_iff _ _).mpr (by decide)⟩

end Sys2Proof.Proofs
end

section
/-! SUPPORT. A turn of an idle port whose oldest word is no command, or is a command whose checks fail: one step, which leaves
the fault (60_exceptions R271, R274; log entry 10). -/

namespace Sys2Proof.Proofs

open Machine Laws

section
variable {s : State} {p : Port} {u : Turn} {rest : List Turn} {w : CommandWord} {q : List CommandWord}
  {exe : Instr → State → Host.Outcome State Fault Refusal}

theorem runWord_ok {i : Instr} (hd : decode w = .ok i) (x : State) : runWord exe w x = exe i x := by
  rw [runWord, hd]

theorem runWord_illegalOpcode (hd : decode w = .illegalOpcode) (x : State) : runWord exe w x = .next (x.faulted 1) := by
  rw [runWord, hd]
  exact congrArg Host.Outcome.next (raise_eq_faulted x .illegalOpcode)

/-- The port is checked before the fields (60_exceptions R274). -/
theorem runWord_illegalOperand {o : Opcode} (hd : decode w = .illegalOperand o) (x : State) :
    runWord exe w x = .next (x.faulted (if portAdmits o x.active then 2 else 3)) := by
  rw [runWord, hd]
  exact congrArg Host.Outcome.next (refuseWord_operand o x)

/-- Whole or atomic, the turn runs the port's oldest word, each command by its checks and then some effect. -/
theorem step_idle (hs : s.schedule = u :: rest) (hu : u = .whole p ∨ ∃ c, u = .atomic p c) (hb : (s.port p).busy = none)
    (hq : (s.port p).queue = w :: q) : ∃ (exe : Instr → State → Host.Outcome State Fault Refusal) (run : Instr → State → State),
      (∀ i x, exe i x = .next (checked i x (run i))) ∧ step s = runWord exe w ((s.setSchedule rest).take p q) := by
  rcases hu with rfl | ⟨c, rfl⟩
  · exact ⟨exec, effect, exec_eq, step_whole hs hb hq⟩
  · exact ⟨_, fun i => startEffect i c, fun i x => startAtomic_eq i c x, step_atomic_idle hs hb hq⟩

variable (hs : s.schedule = u :: rest) (hu : u = .whole p ∨ ∃ c, u = .atomic p c) (hb : (s.port p).busy = none)
  (hq : (s.port p).queue = w :: q)
include hs hu hb hq

theorem step_illegalOpcode (hd : decode w = .illegalOpcode) :
    step s = .next (((s.setSchedule rest).take p q).faulted 1) := by
  obtain ⟨_, _, -, hstep⟩ := step_idle hs hu hb hq
  rw [hstep, runWord_illegalOpcode hd]

theorem step_illegalOperand {o : Opcode} (hd : decode w = .illegalOperand o) :
    step s = .next (((s.setSchedule rest).take p q).faulted (if portAdmits o p then 2 else 3)) := by
  obtain ⟨_, _, -, hstep⟩ := step_idle hs hu hb hq
  rw [hstep, runWord_illegalOperand hd, take_active]

theorem step_failed_check {i : Instr} {f : FaultCode} (hd : decode w = .ok i)
    (hc : checks i ((s.setSchedule rest).take p q) = some f) :
    step s = .next (((s.setSchedule rest).take p q).faulted f.code) := by
  obtain ⟨_, _, hexe, hstep⟩ := step_idle hs hu hb hq
  rw [hstep, runWord_ok hd, hexe, checked_of_some hc]

end

/-- RDCRV's index is an operand check against CRV_LEN, made on port R after the port check (60_exceptions R275). -/
theorem checks_rdcrv_index {s : State} {index : BitVec 16} (hp : s.active = .r) (h : s.crvLen.toNat ≤ index.toNat) :
    checks (.rdcrv index) s = some .illegalOperand := by
  have hport : portAdmits .rdcrv s.active = true := (portAdmits_iff _ _).mpr hp
  simp [checks, Instr.opcode, hport, indexLegal, h]

/-- Settles O7: what the decoder answers, and the first check that fails, decide the fault of the one step. -/
theorem illegalWordIsFaulted : Obligations.IllegalWordIsFaulted := by
  intro s p u rest w q hs hu hb hq
  rw [← take_eq]
  refine ⟨fun h => ?_, fun o hcode hnone => ?_, fun index hd hp hlen => ?_, fun i f hd hc => ?_⟩
  · exact step_illegalOpcode hs hu hb hq ((decode_illegalOpcode_iff w).mpr h)
  · have hstep := step_illegalOperand hs hu hb hq (decode_eq_illegalOperand_iff.mpr ⟨hcode, encodes_none_iff.mp hnone⟩)
    rw [classAdmits_iff]
    exact ⟨fun h => by rw [hstep, if_neg h], fun h => by rw [hstep, if_pos h]⟩
  · subst hp
    have hc : checks (.rdcrv index) ((s.setSchedule rest).take .r q) = some .illegalOperand :=
      checks_rdcrv_index (take_active ..) (by rwa [State.take_crvLen])
    exact step_failed_check (f := .illegalOperand) hs hu hb hq hd hc
  · exact step_failed_check hs hu hb hq hd hc

end Sys2Proof.Proofs
end

section
/-! SUPPORT. Rounding to binary32 is to nearest, ties to even, with an infinity from the overflow threshold on
(40_numerics R121): the midpoints between a result and the numbers next to it decide. -/

namespace Sys2Proof.Proofs

open Machine.F32 Laws

/-! ### What magnitude bits stand for -/

/-- All magnitude bits are a quantum exponent and a significand, as `bitsUnits_compose` takes them. -/
theorem exists_compose (m : Nat) : ∃ sh n, m = sh * 2 ^ 23 + n ∧ n < 2 ^ 24 ∧ (sh = 0 ∨ 2 ^ 23 ≤ n) :=
  ⟨m / 2 ^ 23 - 1, m - (m / 2 ^ 23 - 1) * 2 ^ 23, by omega, by omega, by omega⟩

theorem bitsUnits_strictMono : StrictMono bitsUnits := by
  refine strictMono_nat_of_lt_succ fun m => ?_
  obtain ⟨sh, n, rfl, hn, hsh⟩ := exists_compose m
  rw [Nat.add_assoc, bitsUnits_compose sh n hn.le hsh, bitsUnits_compose sh (n + 1) hn (by omega)]
  exact Nat.mul_lt_mul_of_pos_right (Nat.lt_succ_self n) (by positivity)

/-- From the least number of quantum 2 on, magnitude bits stand for an even number of units. -/
theorem two_dvd_bitsUnits {m : Nat} (h : 2 ^ 24 ≤ m) : 2 ∣ bitsUnits m := by
  obtain ⟨sh, n, rfl, hn, hsh⟩ := exists_compose m
  rw [bitsUnits_compose sh n hn.le hsh]
  exact Dvd.dvd.mul_left (dvd_pow_self 2 (by omega)) n

/-! ### Ties -/

theorem roundEven_even_of_up {a b : Nat} (hb : 0 < b) (h : 2 * (b * roundEven a b) = 2 * a + b) : roundEven a b % 2 = 0 := by
  have hdiv := Nat.div_add_mod a b
  unfold roundEven at h ⊢
  split at h
  · rename_i hc
    have : b * (a / b + 1) = b * (a / b) + b := rfl
    rw [if_pos hc]
    omega
  · omega

theorem roundEven_even_of_down {a b : Nat} (hb : 0 < b) (h : 2 * (b * roundEven a b) + b = 2 * a) :
    roundEven a b % 2 = 0 := by
  have hdiv := Nat.div_add_mod a b
  have hmod := Nat.mod_lt a hb
  unfold roundEven at h ⊢
  split at h
  · have : b * (a / b + 1) = b * (a / b) + b := rfl
    omega
  · rename_i hc
    rw [if_neg hc]
    omega

/-! ### A result and its neighbours -/

section
variable {num den m : Nat}

/-- A result that is no infinity, as a quantum exponent and a significand, with what the exact value says of them. -/
theorem roundBits_parts (hden : 0 < den) (hfin : roundBits num den < infBits) :
    ∃ sh n, roundBits num den = sh * 2 ^ 23 + n ∧ bitsUnits (roundBits num den) = n * 2 ^ sh ∧
      n = roundEven num (den * 2 ^ sh) ∧ n ≤ 2 ^ 24 ∧ num < 2 ^ 24 * (den * 2 ^ sh) ∧
      (sh = 0 ∨ 2 ^ 23 ≤ n ∧ 2 ^ 23 * (den * 2 ^ sh) ≤ num) := by
  refine ⟨(num / den).log2 - 23, _, ?_, bitsUnits_roundBits hfin, rfl, roundEven_lt_bound num den, ?_, ?_⟩
  · rw [roundBits_eq] at hfin ⊢
    exact min_eq_left (by omega)
  · have hlt : num / den < 2 ^ 24 * 2 ^ ((num / den).log2 - 23) := by
      rcases shift_spec (num / den) with ⟨h0, h⟩ | ⟨-, -, h⟩
      · rwa [h0, pow_zero, Nat.mul_one]
      · exact h
    rw [Nat.div_lt_iff_lt_mul hden] at hlt
    linarith
  · rcases shift_spec (num / den) with ⟨h0, -⟩ | ⟨hpos, h, -⟩
    · exact .inl h0
    · rw [Nat.le_div_iff_mul_le hden] at h
      exact .inr ⟨roundEven_ge_bound num den hpos, by linarith⟩

/-- The midpoint with a smaller number is at most the exact value, and it is the exact value only where the result is even. -/
theorem midpoint_le (hden : 0 < den) (hfin : roundBits num den < infBits) (hm : m < roundBits num den) :
    (bitsUnits m + bitsUnits (roundBits num den)) * den ≤ 2 * num ∧
      ((bitsUnits m + bitsUnits (roundBits num den)) * den = 2 * num → roundBits num den % 2 = 0) := by
  obtain ⟨sh, n, hbits, hunits, hn, hn24, -, hlow⟩ := roundBits_parts hden hfin
  by_cases hedge : 2 ^ 23 < n ∨ sh = 0
  · -- the number below has the same quantum
    have hprev : bitsUnits m ≤ (n - 1) * 2 ^ sh := by
      rw [← bitsUnits_compose sh (n - 1) (by omega) (by omega)]
      exact bitsUnits_mono (by omega)
    have hround := roundEven_le num (den * 2 ^ sh)
    have htie := roundEven_even_of_up (a := num) (b := den * 2 ^ sh) (by positivity)
    rw [← hn] at hround htie
    have hsum : (bitsUnits m + n * 2 ^ sh) * den + den * 2 ^ sh ≤ 2 * (den * 2 ^ sh * n) := by
      obtain ⟨k, rfl⟩ : ∃ k, n = k + 1 := ⟨n - 1, by omega⟩
      calc (bitsUnits m + (k + 1) * 2 ^ sh) * den + den * 2 ^ sh ≤ (k * 2 ^ sh + (k + 1) * 2 ^ sh) * den + den * 2 ^ sh := by
            gcongr; exact hprev
        _ = 2 * (den * 2 ^ sh * (k + 1)) := by ring
    rw [hunits]
    exact ⟨by omega, fun h => by have := htie (by omega); omega⟩
  · -- the result is the least number of its quantum, and not above the exact value
    obtain ⟨hn23, hle⟩ := hlow.resolve_left (by omega)
    obtain rfl : n = 2 ^ 23 := by omega
    have hlt : (bitsUnits m + bitsUnits (roundBits num den)) * den < 2 * num := by
      calc (bitsUnits m + bitsUnits (roundBits num den)) * den
          < (bitsUnits (roundBits num den) + bitsUnits (roundBits num den)) * den :=
            Nat.mul_lt_mul_of_pos_right (Nat.add_lt_add_right (bitsUnits_strictMono hm) _) hden
        _ = 2 * (2 ^ 23 * (den * 2 ^ sh)) := by rw [hunits]; ring
        _ ≤ 2 * num := Nat.mul_le_mul_left 2 hle
    exact ⟨hlt.le, fun h => absurd h hlt.ne⟩

/-- The midpoint with a larger number is at least the exact value, and it is the exact value only where the result is even. -/
theorem le_midpoint (hden : 0 < den) (hfin : roundBits num den < infBits) (hm : roundBits num den < m) :
    2 * num ≤ (bitsUnits m + bitsUnits (roundBits num den)) * den ∧
      (2 * num = (bitsUnits m + bitsUnits (roundBits num den)) * den → roundBits num den % 2 = 0) := by
  obtain ⟨sh, n, hbits, hunits, hn, hn24, hhigh, hlow⟩ := roundBits_parts hden hfin
  by_cases hedge : n < 2 ^ 24
  · -- the number above has the same quantum
    have hnext : (n + 1) * 2 ^ sh ≤ bitsUnits m := by
      rw [← bitsUnits_compose sh (n + 1) hedge (by omega)]
      exact bitsUnits_mono (by omega)
    have hround := le_roundEven num (den * 2 ^ sh) (by positivity)
    have htie := roundEven_even_of_down (a := num) (b := den * 2 ^ sh) (by positivity)
    rw [← hn] at hround htie
    have hsum : 2 * (den * 2 ^ sh * n) + den * 2 ^ sh ≤ (bitsUnits m + n * 2 ^ sh) * den := by
      calc 2 * (den * 2 ^ sh * n) + den * 2 ^ sh = ((n + 1) * 2 ^ sh + n * 2 ^ sh) * den := by ring
        _ ≤ (bitsUnits m + n * 2 ^ sh) * den := by gcongr
    rw [hunits]
    exact ⟨by omega, fun h => by have := htie (by omega); omega⟩
  · -- the result is the least number of the next quantum, and above the exact value
    obtain rfl : n = 2 ^ 24 := by omega
    have hlt : 2 * num < (bitsUnits m + bitsUnits (roundBits num den)) * den := by
      calc 2 * num < 2 * (2 ^ 24 * (den * 2 ^ sh)) := by omega
        _ = (bitsUnits (roundBits num den) + bitsUnits (roundBits num den)) * den := by rw [hunits]; ring
        _ ≤ (bitsUnits m + bitsUnits (roundBits num den)) * den := by gcongr; exact (bitsUnits_strictMono hm).le
    exact ⟨hlt.le, fun h => absurd h hlt.ne⟩

end

/-- Settles O56: the midpoints of the result with any smaller and any larger number enclose the exact value. -/
theorem roundingIsToNearestEven : Obligations.RoundingIsToNearestEven := by
  intro num den hden hfin m _ err
  have herr : ∀ k, err k = ((bitsUnits k * den : Nat) - num : Int).natAbs := fun k => Int.abs_eq_natAbs _
  rcases lt_trichotomy m (roundBits num den) with hlt | rfl | hgt
  · obtain ⟨hmid, htie⟩ := midpoint_le hden hfin hlt
    have hstep := Nat.mul_lt_mul_of_pos_right (bitsUnits_strictMono hlt) hden
    rw [Nat.add_mul] at hmid htie
    rw [herr, herr]
    exact ⟨by omega, fun h => .inr (htie (by omega))⟩
  · exact ⟨le_rfl, fun _ => .inl rfl⟩
  · obtain ⟨hmid, htie⟩ := le_midpoint hden hfin hgt
    have hstep := Nat.mul_lt_mul_of_pos_right (bitsUnits_strictMono hgt) hden
    rw [Nat.add_mul] at hmid htie
    rw [herr, herr]
    exact ⟨by omega, fun h => .inr (htie (by omega))⟩

/-! ### Overflow -/

/-- Below the largest finite number and half its quantum the result is finite. -/
theorem roundBits_lt_infBits {num den : Nat} (h : num < (2 ^ 25 - 1) * 2 ^ 252 * den) :
    roundBits num den < infBits := by
  have hinf : infBits = 255 * 2 ^ 23 := by decide
  have hsh : (num / den).log2 - 23 ≤ 253 := by
    by_contra hc
    have hdiv : num / den < 2 ^ 23 * 2 ^ 254 := (Nat.div_lt_of_lt_mul (by rwa [Nat.mul_comm])).trans (by norm_num)
    rcases shift_spec (num / den) with ⟨h0, -⟩ | ⟨-, hle, -⟩
    · omega
    · have : 2 ^ 23 * 2 ^ 254 ≤ 2 ^ 23 * 2 ^ ((num / den).log2 - 23) :=
        Nat.mul_le_mul_left _ (Nat.pow_le_pow_right (by norm_num) (by omega))
      omega
  have hbound := roundEven_lt_bound num den
  rw [roundBits_eq, min_lt_iff, hinf]
  left
  rcases hsh.lt_or_eq with hlt | heq
  · omega
  · have hround := roundEven_le num (den * 2 ^ 253)
    rw [heq]
    generalize roundEven num (den * 2 ^ 253) = n at hround
    have : n < 2 ^ 24 := by
      by_contra hc
      have : den * 2 ^ 253 * 2 ^ 24 ≤ den * 2 ^ 253 * n := Nat.mul_le_mul_left _ (not_lt.mp hc)
      omega
    omega

/-- Settles O57: rounding is monotone, the threshold rounds to an infinity, and below it a result is finite. -/
theorem overflowGivesInfinity : Obligations.OverflowGivesInfinity := by
  intro num den hden
  constructor
  · exact fun h => not_lt.mp fun hc => (roundBits_lt_infBits hc).ne h
  · intro h
    refine le_antisymm (roundBits_le_inf num den) ?_
    calc infBits = roundBits ((2 ^ 25 - 1) * 2 ^ 252) 1 := by decide
      _ ≤ roundBits num den := roundBits_mono Nat.one_pos hden (by rwa [Nat.mul_one])

end Sys2Proof.Proofs
end

section
/-! SUPPORT. The four operations: each is the exact result rounded once, and what it gives for zeros, infinities and NaNs
(40_numerics R122 to R125). -/

namespace Sys2Proof.Proofs

open Machine Machine.F32 Laws

/-! ### Kinds of pattern -/

theorem isNaN_nan : isNaN nan = true := by decide

theorem eq_of_sign_magBits {a b : Word} (hs : sign a = sign b) (hm : magBits a = magBits b) : a = b := by
  rw [← pack_sign_magBits a, ← pack_sign_magBits b, hs, hm]

theorem isInf_iff {w : Word} : isInf w = true ↔ magBits w = infBits := by simp [isInf]

theorem isNaN_of_isInf {w : Word} (h : isInf w = true) : isNaN w = false := by simp [isNaN, isInf_iff.mp h]

theorem isZero_of_isInf {w : Word} (h : isInf w = true) : isZero w = false := by simp [isZero, isInf_iff.mp h, infBits]

theorem magBits_pos_iff {w : Word} : 0 < magBits w ↔ isZero w = false := by simp [isZero, Nat.pos_iff_ne_zero]

/-- A pattern is a NaN, an infinity or finite. -/
theorem finite_or_inf {w : Word} (h : isNaN w = false) : isFinite w = true ∨ isInf w = true := by
  rw [isFinite_iff, isInf_iff]
  simp only [isNaN, decide_eq_false_iff_not] at h
  omega

/-! ### The sum and the difference -/

/-- The value of a finite pattern in units of 2^-149. -/
def signedUnits (w : Word) : Int := if sign w = true then -(units w : Int) else (units w : Int)

theorem signedUnits_neg (w : Word) : signedUnits (neg w) = -signedUnits w := by
  cases h : sign w <;> simp [signedUnits, h]

/-- The exact sum: the sum of the values, where that is not 0; else a zero, negative only when both operands are. -/
theorem exactSum_eq (a b : Word) : exactSum a b =
    (if signedUnits a + signedUnits b = 0 then sign a && sign b else decide (signedUnits a + signedUnits b < 0),
      (signedUnits a + signedUnits b).natAbs) := by
  unfold signedUnits exactSum
  by_cases hs : sign a = sign b
  · -- one sign: the magnitudes add
    rw [if_pos hs, ← hs, Bool.and_self]
    cases sign a <;> ext1 <;> grind
  · -- two signs: the larger magnitude less the smaller, with the sign of the larger
    rw [if_neg hs]
    cases ha : sign a <;> cases hb : sign b <;> grind

theorem fadd_of_isNaN {a b : Word} (h : isNaN a = true ∨ isNaN b = true) : fadd a b = nan :=
  if_pos ((Bool.or_eq_true _ _).mpr h)

theorem fadd_comm (a b : Word) : fadd a b = fadd b a := by
  by_cases hnan : isNaN a = true ∨ isNaN b = true
  · rw [fadd_of_isNaN hnan, fadd_of_isNaN hnan.symm]
  · simp only [not_or, Bool.not_eq_true] at hnan
    obtain ⟨hna, hnb⟩ := hnan
    unfold fadd
    simp only [hna, hnb]
    by_cases ha : isInf a = true <;> by_cases hb : isInf b = true
    · -- two infinities: of one sign they are the same pattern
      by_cases hs : sign a = sign b
      · rw [eq_of_sign_magBits hs ((isInf_iff.mp ha).trans (isInf_iff.mp hb).symm)]
      · simp [ha, hb, hs, Ne.symm hs]
    · simp [ha, hb]
    · simp [ha, hb]
    · simp [ha, hb, exactSum_eq, Int.add_comm, Bool.and_comm]

/-- The sum of finite patterns whose values do not cancel. -/
theorem fadd_of_ne_zero {a b : Word} (ha : isFinite a = true) (hb : isFinite b = true)
    (h : signedUnits a + signedUnits b ≠ 0) : fadd a b =
      pack (decide (signedUnits a + signedUnits b < 0)) (roundBits (signedUnits a + signedUnits b).natAbs 1) := by
  rw [fadd_finite ha hb, exactSum_eq, if_neg h]

theorem fadd_neg_self {a : Word} (ha : isFinite a = true) : fadd a (neg a) = zero := by
  rw [fadd_finite ha (by rwa [isFinite_neg]), exactSum_eq, signedUnits_neg, Int.add_right_neg, if_pos rfl, sign_neg,
    Bool.and_not_self]
  decide

/-- An infinity less itself is a NaN. -/
theorem fadd_neg_self_of_isInf {a : Word} (ha : isInf a = true) : fadd a (neg a) = nan := by
  simp [fadd, isNaN_of_isInf ha, ha]

theorem fsub_self (a : Word) : fsub a a = fadd a (neg a) := rfl

/-- Settles O58: the exact sum is the sum of the values, rounded once. -/
theorem sumIsRoundedOnce : Obligations.SumIsRoundedOnce := by
  intro x y
  refine ⟨fun hx hy h => ?_, fadd_comm x y, rfl, fun hx => ?_, by decide, by decide, fun hx => ?_, fun h => ?_,
    fun hx hz => ?_⟩
  · rw [fadd_of_ne_zero hx hy h]
    exact ⟨sign_pack_round _ _ _, magBits_pack_round _ _ _⟩
  · rw [fsub_self]
    exact ⟨fadd_neg_self hx, fadd_neg_self hx⟩
  · rw [fsub_self, fadd_neg_self_of_isInf hx]
    exact ⟨isNaN_nan, isNaN_nan⟩
  · rw [fadd_of_isNaN h]
    exact isNaN_nan
  · exact fadd_zero_right hx (by rintro rfl; exact absurd hz (by decide))

/-! ### The product -/

theorem fmul_of_isNaN {a b : Word} (h : isNaN a = true ∨ isNaN b = true) : fmul a b = nan :=
  if_pos ((Bool.or_eq_true _ _).mpr h)

/-- An infinity times what is no NaN and no zero. -/
theorem fmul_of_isInf {a b : Word} (ha : isInf a = true) (hb : isNaN b = false) (hz : isZero b = false) :
    fmul a b = pack (sign a != sign b) infBits := by
  simp [fmul, isNaN_of_isInf ha, hb, ha, isZero_of_isInf ha, hz]

theorem fmul_zero_inf {a b : Word} (ha : isZero a = true) (hb : isInf b = true) : fmul a b = nan := by
  simp [fmul, isNaN_of_isZero ha, isNaN_of_isInf hb, hb, ha]

theorem fmul_comm (a b : Word) : fmul a b = fmul b a := by
  unfold fmul
  simp only [Bool.or_comm (isNaN a), Bool.or_comm (isInf a), Bool.or_comm (isZero a), bne_comm (a := sign a),
    Nat.mul_comm (units a)]

/-- A product that is no NaN has the exclusive-or of the signs. -/
theorem sign_fmul {a b : Word} (h : isNaN (fmul a b) = false) : sign (fmul a b) = (sign a != sign b) := by
  unfold fmul at h ⊢
  split_ifs at h ⊢ with hnan hinf hzero
  · exact absurd h (by decide)
  · exact absurd h (by decide)
  · exact sign_pack _ pack_infBits_lt
  · exact sign_pack_round _ _ _

/-- Multiplying by 1.0 changes nothing but a NaN. -/
theorem fmul_one_right {a : Word} (h : isNaN a = false) : fmul a one = a := by
  rcases finite_or_inf h with hf | hi
  · rw [fmul_comm, fmul_one_left hf]
  · rw [fmul_of_isInf hi (by decide) (by decide), show sign one = false by decide, Bool.bne_false, ← isInf_iff.mp hi,
      pack_sign_magBits]

/-! ### The quotient -/

theorem fdiv_of_isNaN {a b : Word} (h : isNaN a = true ∨ isNaN b = true) : fdiv a b = nan :=
  if_pos ((Bool.or_eq_true _ _).mpr h)

theorem fdiv_inf_inf {a b : Word} (ha : isInf a = true) (hb : isInf b = true) : fdiv a b = nan := by
  simp [fdiv, isNaN_of_isInf ha, isNaN_of_isInf hb, ha, hb]

theorem fdiv_zero_zero {a b : Word} (ha : isZero a = true) (hb : isZero b = true) : fdiv a b = nan := by
  simp [fdiv, isNaN_of_isZero ha, isNaN_of_isZero hb, isInf_of_isZero ha, isInf_of_isZero hb, ha, hb]

theorem fdiv_finite_inf {a b : Word} (ha : isFinite a = true) (hb : isInf b = true) :
    fdiv a b = pack (sign a != sign b) 0 := by
  simp [fdiv, isNaN_of_finite ha, isInf_of_finite ha, isNaN_of_isInf hb, hb]

theorem fdiv_by_zero {a b : Word} (ha : isFinite a = true) (hz : isZero a = false) (hb : isZero b = true) :
    fdiv a b = pack (sign a != sign b) infBits := by
  simp [fdiv, isNaN_of_finite ha, isInf_of_finite ha, isNaN_of_isZero hb, isInf_of_isZero hb, hb, hz]

theorem fdiv_inf_finite {a b : Word} (ha : isInf a = true) (hb : isFinite b = true) :
    fdiv a b = pack (sign a != sign b) infBits := by
  simp [fdiv, isNaN_of_isInf ha, isNaN_of_finite hb, isInf_of_finite hb, ha]

/-- A quotient that is no NaN has the exclusive-or of the signs. -/
theorem sign_fdiv {a b : Word} (h : isNaN (fdiv a b) = false) : sign (fdiv a b) = (sign a != sign b) := by
  unfold fdiv at h ⊢
  split_ifs at h ⊢ with hnan hia hib hib hzb hza
  · exact absurd h (by decide)
  · exact absurd h (by decide)
  · exact sign_pack _ pack_infBits_lt
  · exact sign_pack _ (by norm_num)
  · exact absurd h (by decide)
  · exact sign_pack _ pack_infBits_lt
  · exact sign_pack_round _ _ _

/-- Dividing by 1.0 changes nothing but a NaN. -/
theorem fdiv_one_right {a : Word} (h : isNaN a = false) : fdiv a one = a := by
  have hs : sign one = false := by decide
  have hu : units one = 2 ^ 149 := by decide
  rcases finite_or_inf h with hf | hi
  · rw [fdiv_finite hf (by decide) (by decide), hs, Bool.bne_false, hu, units,
      roundBits_exact (isFinite_iff.mp hf) (by positivity), pack_sign_magBits]
  · rw [fdiv_inf_finite hi (by decide), hs, Bool.bne_false, ← isInf_iff.mp hi, pack_sign_magBits]

theorem fdiv_self {a : Word} (ha : isFinite a = true) (hz : isZero a = false) : fdiv a a = one := by
  have hm := magBits_pos_iff.mpr hz
  have hone := roundBits_exact (m := magBits one) (by decide) (units_pos hm)
  rw [show bitsUnits (magBits one) = 2 ^ 149 by decide] at hone
  rw [fdiv_finite ha ha hm, Nat.mul_comm, hone, bne_self_eq_false]
  decide

/-- Settles O59: the product and the quotient of the units, rounded once, with the case of each special value. -/
theorem productAndQuotientAreRoundedOnce : Obligations.ProductAndQuotientAreRoundedOnce := by
  intro x y
  refine ⟨fun hx hy => ?_, fun hx hy hz => ?_, fmul_comm x y, sign_fmul, sign_fdiv, fun hx hy => ?_, fun h => ?_,
    fun h => ⟨fmul_one_right h, fdiv_one_right h⟩, fun hx hz hy => ?_, fun hx hy => ?_, fun hx hy => ?_, fdiv_self,
    fun hx hy => ?_⟩
  · rw [fmul_finite hx hy, magBits_pack_round]
  · rw [fdiv_finite hx hy (magBits_pos_iff.mpr hz), magBits_pack_round]
  · rw [fmul_zero_inf hx hy, isNaN_nan]
  · rw [fmul_of_isNaN h, fdiv_of_isNaN h]
    exact ⟨isNaN_nan, isNaN_nan⟩
  · rw [fdiv_by_zero hx hz hy, isInf_iff, magBits_pack _ pack_infBits_lt]
  · rw [fdiv_zero_zero hx hy, isNaN_nan]
  · rw [fdiv_inf_inf hx hy, isNaN_nan]
  · rw [fdiv_finite_inf hx hy, isZero_iff, magBits_pack _ (by norm_num)]

end Sys2Proof.Proofs
end

section
/-! SUPPORT. The square root (40_numerics R126) is the exact root rounded once: the root of a positive number is far above the
numbers of quantum 1, so every midpoint it is compared with is a whole number of units. -/

namespace Sys2Proof.Proofs

open Machine.F32 Laws

/-! ### The integer part of a root -/

/-- Bit by bit: what is left to find keeps `x` between `r ^ 2` and `(r + 2 ^ bits) ^ 2`. -/
theorem isqrt_spec {bits x r : Nat} (hlo : r * r ≤ x) (hhi : x < (r + 2 ^ bits) * (r + 2 ^ bits)) :
    isqrt bits x r * isqrt bits x r ≤ x ∧ x < (isqrt bits x r + 1) * (isqrt bits x r + 1) := by
  induction bits generalizing r with
  | zero => exact ⟨hlo, hhi⟩
  | succ b ih =>
    rw [isqrt]
    split
    · rename_i hbit
      exact ih hbit (by rwa [Nat.add_assoc, ← Nat.two_mul, ← pow_succ'])
    · rename_i hbit
      exact ih hlo (not_le.mp hbit)

/-- The exact root of `x` in half units, as `fsqrt` rounds it: an odd number of them stands for what is no integer. -/
def rootHalves (x : Nat) : Nat := 2 * isqrt 214 x 0 + if isqrt 214 x 0 * isqrt 214 x 0 = x then 0 else 1

section
variable {x e : Nat} (hx : x < 2 ^ 214 * 2 ^ 214)
include hx

theorem le_of_le_rootHalves (h : 2 * e ≤ rootHalves x) : e * e ≤ x := by
  obtain ⟨hlo, -⟩ := isqrt_spec (Nat.zero_le x) (by rwa [Nat.zero_add])
  have he : e ≤ isqrt 214 x 0 := by unfold rootHalves at h; split at h <;> omega
  exact (Nat.mul_le_mul he he).trans hlo

theorem le_of_rootHalves_le (h : rootHalves x ≤ 2 * e) : x ≤ e * e := by
  obtain ⟨-, hhi⟩ := isqrt_spec (Nat.zero_le x) (by rwa [Nat.zero_add])
  unfold rootHalves at h
  split at h
  · rename_i hexact
    have he : isqrt 214 x 0 ≤ e := by omega
    exact hexact.ge.trans (Nat.mul_le_mul he he)
  · have he : isqrt 214 x 0 + 1 ≤ e := by omega
    exact hhi.le.trans (Nat.mul_le_mul he he)

end

/-! ### The root of a positive finite number -/

theorem fsqrt_pos {a : Word} (hf : isFinite a = true) (hs : sign a = false) (hz : isZero a = false) :
    fsqrt a = pack false (roundBits (rootHalves (units a * 2 ^ 149)) 2) := by
  simp [fsqrt, isNaN_of_finite hf, isInf_of_finite hf, hs, hz, rootHalves]

section
variable {x m : Nat} (hlo : 2 ^ 149 ≤ x) (hhi : x < 2 ^ 213 * 2 ^ 213)
include hhi

/-- The root of a finite number is finite. -/
theorem roundBits_root_lt : roundBits (rootHalves x) 2 < infBits := by
  have hroot : rootHalves x ≤ 2 * 2 ^ 213 := by
    by_contra hc
    have := le_of_le_rootHalves (x := x) (e := 2 ^ 213) (by omega) (by omega)
    omega
  calc roundBits (rootHalves x) 2 ≤ roundBits (2 ^ 213) 1 := roundBits_mono (by norm_num) (by norm_num) (by omega)
    _ < infBits := by decide

include hlo

/-- The root of a positive number is no number of quantum 1. -/
theorem lt_roundBits_root : 2 ^ 24 < roundBits (rootHalves x) 2 := by
  have hroot : 2 * 2 ^ 74 ≤ rootHalves x := by
    by_contra hc
    have := le_of_rootHalves_le (x := x) (e := 2 ^ 74) (by omega) (by omega)
    omega
  calc 2 ^ 24 < roundBits (2 ^ 74) 1 := by decide
    _ ≤ roundBits (rootHalves x) 2 := roundBits_mono (by norm_num) (by norm_num) (by omega)

/-- The midpoint with a smaller number is at most the root. -/
theorem midpoint_le_root (hm : m < roundBits (rootHalves x) 2) :
    (bitsUnits m + bitsUnits (roundBits (rootHalves x) 2)) ^ 2 ≤ 4 * x := by
  have hbig := lt_roundBits_root hlo hhi
  have hfin := roundBits_root_lt hhi
  generalize hR : roundBits (rootHalves x) 2 = R at *
  -- of the smaller numbers the next one has the largest midpoint, and that is a whole number of units
  obtain ⟨e, he⟩ : 2 ∣ bitsUnits (R - 1) + bitsUnits R :=
    dvd_add (two_dvd_bitsUnits (by omega)) (two_dvd_bitsUnits (by omega))
  obtain ⟨hmid, -⟩ := midpoint_le (m := R - 1) two_pos (by rwa [hR]) (by rw [hR]; omega)
  rw [hR, he] at hmid
  calc (bitsUnits m + bitsUnits R) ^ 2 ≤ (bitsUnits (R - 1) + bitsUnits R) ^ 2 := by
        gcongr; exact bitsUnits_mono (by omega)
    _ = 4 * (e * e) := by rw [he]; ring
    _ ≤ 4 * x := Nat.mul_le_mul_left 4 (le_of_le_rootHalves (by omega) (by omega))

/-- The midpoint with a larger number is at least the root. -/
theorem root_le_midpoint (hm : roundBits (rootHalves x) 2 < m) :
    4 * x ≤ (bitsUnits m + bitsUnits (roundBits (rootHalves x) 2)) ^ 2 := by
  have hbig := lt_roundBits_root hlo hhi
  obtain ⟨e, he⟩ : 2 ∣ bitsUnits m + bitsUnits (roundBits (rootHalves x) 2) :=
    dvd_add (two_dvd_bitsUnits (by omega)) (two_dvd_bitsUnits (by omega))
  obtain ⟨hmid, -⟩ := le_midpoint two_pos (roundBits_root_lt hhi) hm
  rw [he] at hmid
  calc 4 * x ≤ 4 * (e * e) := Nat.mul_le_mul_left 4 (le_of_rootHalves_le (by omega) (by omega))
    _ = (bitsUnits m + bitsUnits (roundBits (rootHalves x) 2)) ^ 2 := by rw [he]; ring

end

theorem units_pack_round (s : Bool) (n d : Nat) : units (pack s (roundBits n d)) = bitsUnits (roundBits n d) := by
  rw [units, magBits_pack_round]

/-! ### The special values -/

theorem fsqrt_of_isZero {a : Word} (h : isZero a = true) : fsqrt a = a := by
  simp [fsqrt, isNaN_of_isZero h, h]

theorem fsqrt_of_isInf {a : Word} (h : isInf a = true) (hs : sign a = false) : fsqrt a = a := by
  simp [fsqrt, isNaN_of_isInf h, hs, h]

/-- The root of a NaN, and of a number below zero, is a NaN. -/
theorem fsqrt_of_isNaN_or_neg {a : Word} (h : isNaN a = true ∨ flt a zero = true) : fsqrt a = nan := by
  rcases h with h | h
  · exact if_pos h
  · obtain ⟨hn, hz, hs⟩ := flt_zero_iff.mp h
    simp [fsqrt, hn, hz, hs]

/-- Settles O60: the root in half units is rounded once, and no midpoint lies between it and the exact root. -/
theorem squareRootIsNearest : Obligations.SquareRootIsNearest := by
  refine ⟨fun x hf hs hz => ?_, by decide, by decide, by decide, fun x h => ?_⟩
  · have hlo : 2 ^ 149 ≤ units x * 2 ^ 149 := Nat.le_mul_of_pos_left _ (units_pos (magBits_pos_iff.mpr hz))
    have hhi : units x * 2 ^ 149 < 2 ^ 213 * 2 ^ 213 := by
      calc units x * 2 ^ 149 < 2 ^ 128 * 2 ^ 149 * 2 ^ 149 :=
            Nat.mul_lt_mul_of_pos_right (units_lt_of_finite hf) (by positivity)
        _ ≤ 2 ^ 213 * 2 ^ 213 := by decide
    rw [fsqrt_pos hf hs hz, isFinite_iff, units_pack_round, magBits_pack_round, sign_pack_round]
    exact ⟨rfl, roundBits_root_lt hhi, fun m _ => ⟨midpoint_le_root hlo hhi, root_le_midpoint hlo hhi⟩⟩
  · rw [fsqrt_of_isNaN_or_neg h, isNaN_nan]

end Sys2Proof.Proofs
end

section
/-! SUPPORT. The magnitude of a stage (40_numerics R136) is the root of a quotient of sums of squares. -/

namespace Sys2Proof.Proofs

open Machine Machine.F32 Laws

/-- A NaN, or a pattern of sign bit 0: no number below +0.0 and not -0.0. -/
def NonNegative (w : Word) : Prop := isNaN w = true ∨ sign w = false

theorem NonNegative.sign {w : Word} (h : NonNegative w) (hn : isNaN w = false) : F32.sign w = false :=
  h.resolve_left (by simp [hn])

theorem nonNegative_fmul_self (a : Word) : NonNegative (fmul a a) := by
  cases h : isNaN (fmul a a) with
  | true => exact .inl h
  | false => exact .inr (by rw [sign_fmul h, bne_self_eq_false])

theorem NonNegative.fadd {a b : Word} (ha : NonNegative a) (hb : NonNegative b) : NonNegative (fadd a b) := by
  by_cases hnan : isNaN a = true ∨ isNaN b = true
  · exact .inl (by rw [fadd_of_isNaN hnan, isNaN_nan])
  · simp only [not_or, Bool.not_eq_true] at hnan
    obtain ⟨hna, hnb⟩ := hnan
    have hsa := ha.sign hna
    have hsb := hb.sign hnb
    right
    simp only [F32.fadd, hna, hnb, exactSum, hsa, hsb, Bool.or_self, Bool.false_eq_true, if_false, if_true, bne_self_eq_false,
      Bool.and_false]
    split_ifs
    · exact hsa
    · exact hsb
    · exact sign_pack_round _ _ _

theorem NonNegative.fdiv {a b : Word} (ha : NonNegative a) (hb : NonNegative b) : NonNegative (fdiv a b) := by
  by_cases hnan : isNaN a = true ∨ isNaN b = true
  · exact .inl (by rw [fdiv_of_isNaN hnan, isNaN_nan])
  · simp only [not_or, Bool.not_eq_true] at hnan
    cases h : isNaN (F32.fdiv a b) with
    | true => exact .inl h
    | false => exact .inr (by rw [sign_fdiv h, ha.sign hnan.1, hb.sign hnan.2, bne_self_eq_false])

theorem NonNegative.fsqrt {a : Word} (ha : NonNegative a) : NonNegative (fsqrt a) := by
  cases hn : isNaN a with
  | true => exact .inl (by rw [fsqrt_of_isNaN_or_neg (.inl hn), isNaN_nan])
  | false =>
    have hs := ha.sign hn
    right
    rcases finite_or_inf hn with hf | hi
    · cases hz : isZero a with
      | true => rw [fsqrt_of_isZero hz, hs]
      | false => rw [fsqrt_pos hf hs hz, sign_pack_round]
    · rw [fsqrt_of_isInf hi hs, hs]

/-- Settles O52: squares, their sums, the quotient of these and its root are never below +0.0. -/
theorem magnitudeNeverNegative : Obligations.MagnitudeNeverNegative := fun _ _ _ =>
  (((nonNegative_fmul_self _).fadd (nonNegative_fmul_self _)).fdiv
    ((nonNegative_fmul_self _).fadd (nonNegative_fmul_self _))).fsqrt

end Sys2Proof.Proofs
end

section
/-! SUPPORT. The slope ordinal of a parameter (40_numerics R134): the clamp to 0.0 to 3.0 and the integer part, on the number
line of the patterns. -/

namespace Sys2Proof.Proofs

open Machine Machine.F32 Machine.Numeric Laws

theorem flt_eq_order {a b : Word} (ha : isNaN a = false) (hb : isNaN b = false) : flt a b = decide (order a < order b) := by
  simp [flt, ha, hb]

/-- The clamp on the number line. -/
theorem order_clampRange {v lo hi : Word} (hv : isNaN v = false) (hlo : isNaN lo = false) (hhi : isNaN hi = false)
    (dflt : Word) : order (clampRange v lo hi dflt) =
      if order v < order lo then order lo else if order hi < order v then order hi else order v := by
  simp only [clampRange, fgt, flt_eq_order, hv, hlo, hhi, Bool.false_eq_true, if_false, decide_eq_true_eq]
  split_ifs <;> rfl

/-- From 0 on, the place on the number line is the magnitude bits. -/
theorem magBits_eq_order {w : Word} (h : 0 ≤ order w) : (magBits w : Int) = order w := by
  unfold order at h ⊢
  split at h <;> simp_all

/-- The integer part of a number between two small integers. -/
theorem toNat_eq {w : Word} {k : Nat} (hk : k < 4) (hlo : order (F32.ofNat k) ≤ order w)
    (hhi : order w < order (F32.ofNat (k + 1))) : F32.toNat w = k := by
  have hplace : ∀ k < 5, 0 ≤ order (F32.ofNat k) ∧ units (F32.ofNat k) = k * 2 ^ 149 := by decide
  obtain ⟨hzero, hunits⟩ := hplace k (by omega)
  obtain ⟨hzero', hunits'⟩ := hplace (k + 1) (by omega)
  have hw := magBits_eq_order (hzero.trans hlo)
  have hk := magBits_eq_order hzero
  have hk' := magBits_eq_order hzero'
  have h1 : units (F32.ofNat k) ≤ units w := bitsUnits_mono (by omega)
  have h2 : units w < units (F32.ofNat (k + 1)) := bitsUnits_strictMono (by omega)
  unfold F32.toNat
  omega

/-- The slope ordinal is the integer part; for 0 the number has no lower bound, for 3 no upper one. -/
theorem slopeOrdinal_eq {v : Word} {k : Fin 4} (hv : isNaN v = false)
    (hlo : k = 0 ∨ flt v (F32.ofNat k.val) = false) (hhi : k = 3 ∨ flt v (F32.ofNat (k.val + 1)) = true) (dflt : Word) :
    slopeOrdinal v dflt = k := by
  have hplace : ∀ k < 5, isNaN (F32.ofNat k) = false ∧ 0 ≤ order (F32.ofNat k) := by decide
  have hbelow : ∀ k : Fin 4, order (F32.ofNat k.val) ≤ order 0x40400000#32 ∧ 0 < order (F32.ofNat (k.val + 1)) ∧
    (k = 0 → order (F32.ofNat k.val) = 0) ∧ (k = 3 → order 0x40400000#32 < order (F32.ofNat (k.val + 1))) := by decide
  have hclamp := order_clampRange hv (lo := zero) (hi := 0x40400000#32) (by decide) (by decide) dflt
  rw [show order zero = 0 by decide] at hclamp
  obtain ⟨hn, h0⟩ := hplace k.val (by omega)
  obtain ⟨hn', -⟩ := hplace (k.val + 1) (by omega)
  obtain ⟨h1, h2, h3, h4⟩ := hbelow k
  rw [flt_eq_order hv hn, decide_eq_false_iff_not] at hlo
  rw [flt_eq_order hv hn', decide_eq_true_eq] at hhi
  rw [slopeOrdinal, toNat_eq k.isLt, Fin.ofNat_val_eq_self]
  · grind
  · grind

theorem slopeOrdinal_of_isNaN {v dflt : Word} {k : Fin 4} (hv : isNaN v = true) (hd : dflt = F32.ofNat k.val) :
    slopeOrdinal v dflt = k := by
  have htable : ∀ k : Fin 4, F32.toNat (F32.ofNat k.val) = k.val := by decide
  rw [slopeOrdinal, clampRange, if_pos hv, hd, htable, Fin.ofNat_val_eq_self]

/-- The slope words of a snapshot are slope ordinals. -/
theorem snapshot_word_slope (r : Vector Word 7) {i : Fin 7} (hi : i = 1 ∨ i = 3) :
    (snapshot r).word i = BitVec.ofNat 32 (slopeOrdinal r[i] defP[i]).val := by
  rcases hi with rfl | rfl <;> rfl

/-- Settles O24: the clamp leaves a number from 0.0 to 3.0, and its integer part is the slope. -/
theorem snapshotSlopeTruncates : Obligations.SnapshotSlopeTruncates := by
  intro r i hi
  rw [snapshot_word_slope r hi]
  exact ⟨fun k hv hlo hhi => by rw [slopeOrdinal_eq hv hlo hhi], fun hv k hd => by rw [slopeOrdinal_of_isNaN hv hd]⟩

end Sys2Proof.Proofs
end

section
/-! SUPPORT. Every NUM that has the properties of 40_numerics R128 for a NUM_ULP below 2^22 keeps the bounds under which all
designs are finite (42_designer R175(c), R179(d)): N6 is then an error of at most half the exact result. -/

namespace Sys2Proof.Proofs

open Machine Machine.F32 Laws

/-! ### Bits from values -/

theorem magBits_le_of_val_le {w : Word} {m : Nat} (hs : sign w = false) (h : val w * 2 ^ 149 ≤ bitsUnits m) :
    magBits w ≤ m := by
  rw [val_of_pos hs, div_mul_cancel₀ _ (by positivity), Nat.cast_le] at h
  exact bitsUnits_strictMono.le_iff_le.mp h

theorem le_magBits_of_le_val {w : Word} {m : Nat} (hs : sign w = false) (h : (bitsUnits m : ℝ) ≤ val w * 2 ^ 149) :
    m ≤ magBits w := by
  rw [val_of_pos hs, div_mul_cancel₀ _ (by positivity), Nat.cast_le] at h
  exact bitsUnits_strictMono.le_iff_le.mp h

/-! ### Accuracy for a NUM_ULP below 2^22 -/

/-- The error of an accurate result is at most half the exact one, or tiny. -/
theorem error_le_of_accurate {ulp : ℚ} {r : ℝ} {y : Word} (h : Accurate ulp r y) (hulp : ulp < 2 ^ 22) (hr : r ≠ 0)
    (hrep : representable r) : |val y - r| ≤ max (|r| / 2) (1 / 100) := by
  have hulp' : (ulp : ℝ) ≤ 2 ^ 22 := by exact_mod_cast hulp.le
  calc |val y - r| ≤ ulp * ulpOf r := (h hr hrep).2
    _ ≤ 2 ^ 22 * ulpOf r := mul_le_mul_of_nonneg_right hulp' (ulpOf_pos r).le
    _ ≤ 2 ^ 22 * max (|r| / 2 ^ 23) (2 ^ (-149 : ℤ)) := mul_le_mul_of_nonneg_left (ulpOf_le hr) (by positivity)
    _ = max (|r| / 2) (2 ^ 22 * 2 ^ (-149 : ℤ)) := by rw [mul_max_of_nonneg _ _ (by positivity)]; congr 1; ring
    _ ≤ max (|r| / 2) (1 / 100) := max_le_max_left _ (by norm_num)

/-- The tangents on the operands of a design (42_designer R177): the Nyquist guard keeps them below 51. -/
theorem tan_design_bounds {x : ℝ} (h0 : 0 < x) (h1 : x < 15394 / 10000) : 0 < Real.tan x ∧ Real.tan x < 51 := by
  have hcos : 1 / 51 < Real.cos x := lt_trans (by norm_num) (cos_lower h0 h1 (by norm_num))
  have hpos : 0 < Real.cos x := lt_trans (by norm_num) hcos
  refine ⟨Real.tan_pos_of_pos_of_lt_pi_div_two h0 (by have := Real.pi_gt_d6; norm_num at h1 this ⊢; linarith), ?_⟩
  rw [Real.tan_eq_sin_div_cos, div_lt_iff₀ hpos]
  linarith [Real.sin_le_one x]

/-- The powers of ten that the gain of a peak takes (42_designer R174). -/
theorem pow10_design_bounds {x : ℝ} (h : |x| ≤ 1) : 1 / 10 ≤ (10 : ℝ) ^ x ∧ (10 : ℝ) ^ x ≤ 10 := by
  obtain ⟨hlo, hhi⟩ := abs_le.mp h
  constructor
  · calc (1 / 10 : ℝ) = (10 : ℝ) ^ (-1 : ℝ) := by rw [Real.rpow_neg_one]; norm_num
      _ ≤ (10 : ℝ) ^ x := Real.rpow_le_rpow_of_exponent_le (by norm_num) hlo
  · calc (10 : ℝ) ^ x ≤ (10 : ℝ) ^ (1 : ℝ) := Real.rpow_le_rpow_of_exponent_le (by norm_num) hhi
      _ = 10 := Real.rpow_one 10

theorem representable_of_small {r : ℝ} (h : |r| < 100) : representable r :=
  h.trans (by norm_num)

theorem abs_val_le_one {x : Word} (h : AtMost 0x3F800000 x) : |val x| ≤ 1 := by
  rw [abs_val, div_le_one (by positivity)]
  exact_mod_cast (units_le h).trans (show bitsUnits 0x3F800000 ≤ 2 ^ 149 by decide)

/-! ### The bounds -/

section
variable {n : Numerics} {ulp : ℚ} (h : n.Required ulp) (hulp : ulp < 2 ^ 22)
include h hulp

theorem tan_pos_of_required {x : Word} (hx : inOpen x 15394 10000 = true) : Pos 1 0x43000000 (n.tan x) := by
  obtain ⟨hx0, hx1⟩ := val_inOpen hx (by norm_num)
  obtain ⟨hpos, hlt⟩ := tan_design_bounds (pos_of_scaled hx0) (by exact_mod_cast hx1)
  obtain ⟨-, -, htan, -⟩ := h.n6 x (inOpen_finite hx)
  obtain ⟨hsign, -⟩ := h.n7
  have hgt := hsign x hx
  have habs : |Real.tan (val x)| = Real.tan (val x) := abs_of_pos hpos
  have herr := error_le_of_accurate htan hulp hpos.ne' (representable_of_small (by rw [habs]; linarith))
  have hmax : max (|Real.tan (val x)| / 2) (1 / 100) ≤ 26 := max_le (by rw [habs]; linarith) (by norm_num)
  have hs : sign (n.tan x) = false := (kind_of_val_pos (val_pos hgt)).2
  refine pos_of_flt hgt (magBits_le_of_val_le hs ?_)
  rw [show bitsUnits 0x43000000 = 128 * 2 ^ 149 by decide]
  push_cast
  have := (abs_le.mp (herr.trans hmax)).2
  linarith

theorem pow10_pos_of_required {x : Word} (hx : AtMost 0x3F800000 x) : Pos 0x3D000000 0x41800000 (n.pow10 x) := by
  have hf := hx.finite (by decide)
  obtain ⟨hlo, hhi⟩ := pow10_design_bounds (abs_val_le_one hx)
  obtain ⟨-, -, -, hpow, -⟩ := h.n6 x hf
  obtain ⟨-, -, hs, -⟩ := h.n5 x hf
  generalize (10 : ℝ) ^ val x = r at *
  have habs : |r| = r := abs_of_nonneg (by linarith)
  have herr := error_le_of_accurate hpow hulp (by linarith) (representable_of_small (by rw [habs]; linarith))
  rw [habs, max_eq_left (by linarith), abs_le] at herr
  obtain ⟨herr1, herr2⟩ := herr
  refine ⟨hs, le_magBits_of_le_val hs ?_, magBits_le_of_val_le hs ?_⟩
  · rw [show bitsUnits 0x3D000000 = 2 ^ 144 by decide]
    push_cast
    linarith
  · rw [show bitsUnits 0x41800000 = 16 * 2 ^ 149 by decide]
    push_cast
    linarith

theorem designBounds_of_required : DesignBounds n :=
  have ⟨_, hsin, hcos⟩ := h.n7
  { sin_atMost := fun hx => have ⟨hle, _⟩ := h.n5 _ hx; hle
    cos_atMost := fun hx => have ⟨_, hle, _⟩ := h.n5 _ hx; hle
    sin_pos := hsin _
    cos_pos := hcos _
    tan_pos := tan_pos_of_required h hulp
    pow10_pos := pow10_pos_of_required h hulp }

end

/-- Settles O34: the engine's NUM and NUM_CR by the lemmas about each, and a free choice gives any admitted pair back. -/
theorem everyNumericsInstanceAdmitted : Obligations.EveryNumericsInstanceAdmitted :=
  ⟨⟨num_admitted.ulpAtLeastHalf, num_admitted.required⟩, numCR_required,
    fun _ _ h hulp => (designBounds_of_required h hulp).designsFinite,
    fun _ _ hhalf h hdesigns => ⟨⟨hhalf, h, hdesigns⟩, rfl⟩⟩

end Sys2Proof.Proofs
end

section
/-! SUPPORT. What a snapshot holds of each float parameter (40_numerics R133, 41_parameters R155, R156): the clamp of a NaN,
of a number below the range, above it and inside it. -/

namespace Sys2Proof.Proofs

open Machine Machine.F32 Machine.Numeric Laws

section
variable {v lo hi : Word}

/-- Two numbers that compare are no NaNs, and the comparison is that of their places on the number line. -/
theorem flt_eq_true_iff {a b : Word} :
    flt a b = true ↔ isNaN a = false ∧ isNaN b = false ∧ order a < order b := by
  simp [flt, and_assoc]

theorem clampRange_of_isNaN (h : isNaN v = true) (dflt : Word) : clampRange v lo hi dflt = dflt := if_pos h

theorem clampRange_of_below (h : flt v lo = true) (dflt : Word) : clampRange v lo hi dflt = lo := by
  obtain ⟨hv, -, -⟩ := flt_eq_true_iff.mp h
  rw [clampRange, if_neg (by simp [hv]), if_pos h]

/-- A number above a range that is not reversed is not below it too. -/
theorem clampRange_of_above (hrange : flt hi lo = false) (h : flt hi v = true) (dflt : Word) :
    clampRange v lo hi dflt = hi := by
  obtain ⟨hhi, hv, habove⟩ := flt_eq_true_iff.mp h
  have hlow : ¬ flt v lo = true := fun hb => by
    obtain ⟨-, hlo, hbelow⟩ := flt_eq_true_iff.mp hb
    rw [flt_eq_true_iff.mpr ⟨hhi, hlo, habove.trans hbelow⟩] at hrange
    cases hrange
  rw [clampRange, if_neg (by simp [hv]), if_neg hlow, fgt, if_pos h]

theorem clampRange_of_inRange {i : Fin 7} (h : Machine.inRange i v = true) (dflt : Word) :
    clampRange v paramLow[i] paramHigh[i] dflt = v := by
  simp only [Machine.inRange, Bool.and_eq_true, Bool.not_eq_true'] at h
  obtain ⟨⟨hv, hlow⟩, hhigh⟩ := h
  simp only [clampRange, hv, hlow, hhigh, Bool.false_eq_true, if_false]

end

/-- The words of a snapshot other than the slopes are clamped parameters. -/
theorem snapshot_word_float (r : Vector Word 7) {i : Fin 7} (h1 : i ≠ 1) (h3 : i ≠ 3) :
    (snapshot r).word i = clampParam r i := by
  match i with
  | 0 | 2 | 4 | 5 | 6 => rfl
  | 1 => exact absurd rfl h1
  | 3 => exact absurd rfl h3

/-- Settles O23: each clause is one branch of the clamp. -/
theorem snapshotClampsEachField : Obligations.SnapshotClampsEachField := by
  rintro r i ⟨h1, h3⟩
  have hrange : ∀ i : Fin 7, flt paramHigh[i] paramLow[i] = false := by decide
  rw [snapshot_word_float r h1 h3]
  exact ⟨clampParam_inRange r i, (clampRange_of_isNaN · _), (clampRange_of_below · _),
    (clampRange_of_above (hrange i) · _), (clampRange_of_inRange · _)⟩

end Sys2Proof.Proofs
end

section
/-! SUPPORT. PWRITE, PREAD, PDEFAULT and SNAP as whole commands (41_parameters R151 to R154). -/

namespace Sys2Proof.Proofs

open Machine Laws

section
variable {s : State}

/-- Port H may issue its three commands in every lifecycle state; the index is the one operand checked. -/
theorem checks_pwrite {idx : BitVec 8} (h : s.active = .h) (hi : idx.toNat ≤ 6) (v : Word) :
    checks (.pwrite idx v) s = none :=
  checks_ok ((portAdmits_iff _ _).mpr h) (decide_eq_true hi) rfl rfl rfl

theorem checks_pread {idx : BitVec 8} (h : s.active = .h) (hi : idx.toNat ≤ 6) : checks (.pread idx) s = none :=
  checks_ok ((portAdmits_iff _ _).mpr h) (decide_eq_true hi) rfl rfl rfl

theorem checks_pdefault (h : s.active = .h) : checks .pdefault s = none :=
  checks_ok ((portAdmits_iff _ _).mpr h) rfl rfl rfl rfl

theorem checks_snap (h : s.active = .a) (hrun : s.running) : checks .snap s = none :=
  checks_ok ((portAdmits_iff _ _).mpr h) rfl rfl (lifecycleAdmits_of_running hrun .snap (by decide)) rfl

end

theorem done_a {s : State} (h : s.active = .a) (d : Word) : s.done d = { s with portA := s.portA.answered 0#8 d } :=
  (done_eq_ended s d).trans (ended_a h _ d)

theorem done_r {s : State} (h : s.active = .r) (d : Word) : s.done d = { s with portR := s.portR.answered 0#8 d } :=
  (done_eq_ended s d).trans (ended_r h _ d)

theorem done_h {s : State} (h : s.active = .h) (d : Word) : s.done d = { s with portH := s.portH.answered 0#8 d } :=
  (done_eq_ended s d).trans (ended_h h _ d)

theorem paramIx_val {idx : BitVec 8} (h : idx.toNat ≤ 6) : (paramIx idx).val = idx.toNat :=
  Nat.mod_eq_of_lt (Nat.lt_succ_of_le h)

/-- Settles O19: one element of the store is replaced. -/
theorem pwriteStoresAndNotifies : Obligations.PwriteStoresAndNotifies := by
  intro s idx v hactive hidx
  have heffect : effect (.pwrite idx v) s =
      { s with p := s.p.set (paramIx idx) v, dirty := true, portH := s.portH.answered 0#8 0#32 } :=
    done_h (s := (s.setParam (paramIx idx) v).setDirty true) hactive 0#32
  refine ⟨_, (exec_of_checks (checks_pwrite hactive hidx v)).trans (congrArg _ heffect), rfl, fun i => ?_⟩
  exact (getElem_set_fin s.p (paramIx idx) i v).trans (by simp only [Fin.ext_iff, paramIx_val hidx])

/-- Settles O20: the response carries the element of the store at the index. -/
theorem preadAnswersRawPattern : Obligations.PreadAnswersRawPattern := by
  intro s idx i hactive hidx
  have hle : idx.toNat ≤ 6 := by omega
  obtain rfl : paramIx idx = i := Fin.ext ((paramIx_val hle).trans hidx)
  rw [exec_of_checks (checks_pread hactive hle), effect, done_h hactive]

/-- Settles O21: the eight steps of PDEFAULT leave the defaults, each of which is legal. -/
theorem pdefaultStoresLegalDefaults : Obligations.PdefaultStoresLegalDefaults := by
  refine ⟨fun s hactive => ?_, fun i => ⟨defP_inRange i, fun hslope => ?_⟩⟩
  · rw [exec_of_checks (checks_pdefault hactive), effect, defaultSteps_all]
    exact congrArg _ (done_h (s := (s.setParams defP).setDirty true) hactive 0#32)
  · have hlegal := (Bool.and_eq_true_iff.mp (defP_legal i)).2
    simpa [hslope] using hlegal

/-- SNAP's last step replaces ASNAP and answers. -/
theorem snapFinish_eq {s : State} (h : s.active = .a) (r : Vector Word 7) :
    snapFinish r s = { s with asnap := snapshot r, portA := s.portA.answered 0#8 0#32 } :=
  done_a (s := s.setAsnap (snapshot r)) h 0#32

/-- Settles O22: the whole command is its last step on the store as it is. -/
theorem snapReplacesAsnap : Obligations.SnapReplacesAsnap := fun _ hactive hrun =>
  ⟨(exec_of_checks (checks_snap hactive hrun)).trans (congrArg _ (snapFinish_eq hactive _)), snapFinish_eq hactive⟩

end Sys2Proof.Proofs
end

section
/-! SUPPORT. A TICK in the window of PDEFAULT (41_parameters R153, 70_reset R317): between its seventh write and its set of
DIRTY. -/

namespace Sys2Proof.Proofs

open Machine Laws

theorem run_add {s t : State} {m : Nat} (h : Sys2Proof.core.run m s = .next t) (n : Nat) :
    Sys2Proof.core.run (m + n) s = Sys2Proof.core.run n t := by
  induction m generalizing s with
  | zero => cases h; rw [Nat.zero_add]
  | succ m ih =>
    obtain ⟨u, hu⟩ := step_next s
    rw [run_of_step hu] at h
    rw [Nat.succ_add, run_of_step hu, ih h]

section
variable {s : State} {rest : List Turn}

theorem take_h (s : State) (q : List CommandWord) :
    s.take .h q = { s with active := .h, portH := { s.portH with queue := q } } := rfl

theorem take_r (s : State) (q : List CommandWord) :
    s.take .r q = { s with active := .r, portR := { s.portR with queue := q } } := rfl

theorem setBusy_h (h : s.active = .h) (f : InFlight) :
    s.setBusy f = { s with portH := { s.portH with busy := some f } } := by
  cases s; cases h; rfl

/-- Each of PDEFAULT's first seven steps writes one default and marks the next one due. -/
theorem defaultStep_write {n : Nat} (h : n < 7) :
    defaultStep ⟨n, by omega⟩ s = (s.setParam ⟨n, h⟩ defP[n]).setBusy (.defaulting ⟨n + 1, by omega⟩) := dif_pos h

theorem setBusy_setParams (f : InFlight) (v : Vector Word 7) : (s.setBusy f).setParams v = (s.setParams v).setBusy f := by
  match s with | { active := .a, .. } | { active := .r, .. } | { active := .h, .. } => rfl

theorem setBusy_setBusy (f g : InFlight) : (s.setBusy f).setBusy g = s.setBusy g := by
  simp [State.setBusy]

/-- Atomic turns of PDEFAULT's port up to its write of P[m - 1]: only the store has changed, and step `m` is due. -/
theorem run_defaultWrites {n m : Nat} {cs : List Nat} (hs : s.schedule = cs.map (.atomic s.active) ++ rest)
    (hlen : n + cs.length + 1 = m) (hm : m ≤ 7) : ∃ q, defaultsFrom m q = defaultsFrom n s.p ∧
      Sys2Proof.core.run cs.length (defaultStep ⟨n, by omega⟩ s) =
        .next (((s.setSchedule rest).setParams q).setBusy (.defaulting ⟨m, by omega⟩)) := by
  induction cs generalizing n s with
  | nil =>
    obtain rfl : n + 1 = m := hlen
    refine ⟨_, defaultsFrom_set n (by omega) s.p, ?_⟩
    rw [defaultStep_write (by omega), setSchedule_of_eq (rest := rest) hs]
    rfl
  | cons c cs ih =>
    rw [List.length_cons] at hlen
    obtain ⟨q, hq, hrun⟩ := ih (n := n + 1) (s := ((s.setParam ⟨n, by omega⟩ defP[n]).setSchedule
      (cs.map (.atomic s.active) ++ rest)).setBusy (.defaulting ⟨n + 1, by omega⟩)) (by simp) (by omega)
    refine ⟨q, hq.trans ?_, ?_⟩
    · rw [State.setBusy_p]
      exact defaultsFrom_set n (by omega) s.p
    · rw [defaultStep_write (by omega), List.length_cons, run_of_step (step_setBusy (s := s.setParam _ _) hs)]
      refine hrun.trans (congrArg _ ?_)
      rw [setBusy_setSchedule, setBusy_setParams, setBusy_setBusy]
      rfl

/-- Seven atomic turns of port H that run a PDEFAULT store the defaults, and its last step is due. -/
theorem run_pdefault_writes {q : List CommandWord} (hs : s.schedule = (List.replicate 7 0).map (.atomic .h) ++ rest)
    (hb : s.portH.busy = none) (hq : s.portH.queue = encode .pdefault :: q) : Sys2Proof.core.run 7 s = .next
      { s with p := defP, active := .h, schedule := rest
               portH := { s.portH with queue := q, busy := some (.defaulting 7) } } := by
  have hfirst := step_atomic_startEffect (p := .h) hs hb hq (decode_encode rfl) (checks_pdefault rfl)
  obtain ⟨p, hp, hrun⟩ := run_defaultWrites (n := 0) (m := 7) (cs := List.replicate 6 0) (rest := rest)
    (s := (s.setSchedule ((List.replicate 6 0).map (.atomic .h) ++ rest)).take .h q) rfl rfl le_rfl
  obtain rfl : p = defP := (defaultsFrom_seven p).symm.trans (hp.trans (defaultsFrom_zero _))
  rw [run_of_step hfirst 6, startEffect]
  refine hrun.trans ?_
  rw [take_h, setBusy_h rfl]
  rfl

/-- With DIRTY clear a whole turn of port R that runs a TICK answers 0 and redraws nothing. -/
theorem step_tick_clean {q : List CommandWord} (hs : s.schedule = .whole .r :: rest) (hb : s.portR.busy = none)
    (hq : s.portR.queue = encode .tick :: q) (hd : s.dirty = false) : step s = .next
      { s with dirty := false, active := .r, schedule := rest
               portR := { queue := q, busy := none, resp := some 0#40 } } := by
  have hchecks : checks .tick (s.setActive .r) = none := checks_ok ((portAdmits_iff _ _).mpr rfl) rfl rfl rfl rfl
  have heffect : effect .tick ((s.setSchedule rest).take .r q) =
      (((s.setSchedule rest).take .r q).setDirty false).done 0#32 := if_neg (by simp [hd])
  rw [step_whole_effect hs hb hq (decode_encode rfl) hchecks, heffect, take_r, done_r rfl]
  simp only [State.setDirty, State.setSchedule, PortState.answered, hb]
  rfl

/-- The last atomic step of PDEFAULT sets DIRTY and answers. -/
theorem step_default_notifies {c : Nat} (hs : s.schedule = .atomic .h c :: rest)
    (hb : s.portH.busy = some (.defaulting 7)) : step s = .next
      { s with dirty := true, active := .h, schedule := rest, portH := s.portH.answered 0#8 0#32 } :=
  step_atomic_busy hs hb

end

/-- The order: PDEFAULT's seven writes, a TICK, PDEFAULT's set of DIRTY. -/
def windowTurns : List Turn := (List.replicate 7 0).map (.atomic .h) ++ [.whole .r, .atomic .h 0]

/-- Settles O55: in the order `windowTurns` the TICK finds DIRTY clear. -/
theorem pdefaultWindowMissesTick : Obligations.PdefaultWindowMissesTick := by
  intro s hdirty hH hR
  have hwrites := run_pdefault_writes (s := { s with schedule := windowTurns }) rfl (by rw [hH]) (by rw [hH])
  have htick := step_tick_clean (q := [])
    (s := { s with p := defP, active := .h, schedule := [.whole .r, .atomic .h 0]
                   portH := { s.portH with queue := [], busy := some (.defaulting 7) } })
    rfl (by rw [hR]) (by rw [hR]) hdirty
  exact ⟨windowTurns, _, (run_add hwrites 2).trans ((run_of_step htick 1).trans
    (run_of_step (step_default_notifies rfl rfl) 0)), rfl, rfl, rfl, rfl, rfl, rfl⟩

end Sys2Proof.Proofs
end

section
/-! SUPPORT. DESPK, DESCUT and LDSTG as whole commands (42_designer R173, R176, R178): each ends with new staging blocks and its
response. -/

namespace Sys2Proof.Proofs

open Machine Laws

section
variable {s : State}

theorem checks_despk (h : s.active = .a) (hrun : s.running) : checks .despk s = none :=
  checks_ok ((portAdmits_iff _ _).mpr h) rfl rfl (lifecycleAdmits_of_running hrun .despk (by decide)) rfl

theorem checks_descut (h : s.active = .a) (hrun : s.running) (side : Side) : checks (.descut side) s = none :=
  checks_ok ((portAdmits_iff _ _).mpr h) rfl rfl (lifecycleAdmits_of_running hrun .descut (by decide)) rfl

theorem checks_ldstg (h : s.active = .a) (hrun : s.running) {slot : BitVec 8} {k : BitVec 16} (hslot : slot.toNat ≤ 8)
    (hk : k.toNat ≤ 4) (v : Word) : checks (.ldstg slot k v) s = none :=
  checks_ok ((portAdmits_iff _ _).mpr h) (by simp [operandsLegal, hslot, hk]) rfl
    (lifecycleAdmits_of_running hrun .ldstg (by decide)) rfl

/-- How the three commands end: the staging blocks are `stg`, and the response is returned on port A. -/
theorem done_setStaging (h : s.active = .a) (stg : Vector Block 9) :
    (s.setStaging stg).done 0#32 = { s with stg := stg, portA := s.portA.answered 0#8 0#32 } :=
  done_a (s := s.setStaging stg) h 0#32

end

/-- Settles O30: the peak design is finite, so it is staged, in the one slot that is written. -/
theorem despkStagesPeak : Obligations.DespkStagesPeak := by
  intro s hactive hrun hsnap hrate
  have heffect : effect .despk s = (s.setStaging (s.stg.set peakSlot (peakOf s.asnap s.fs))).done 0#32 :=
    if_pos (peakOf_allFinite hsnap hrate)
  rw [exec_of_checks (checks_despk hactive hrun), heffect, done_setStaging hactive]
  exact ⟨_, rfl, rfl, (getElem_set_fin ..).trans (if_pos rfl), fun b hb => (getElem_set_fin ..).trans (if_neg hb)⟩

/-- Settles O31: every section of the cascade is finite, so the cascade is staged in the slots of its side. -/
theorem descutStagesCascade : Obligations.DescutStagesCascade := by
  intro s side hactive hrun hsnap hrate
  have heffect : effect (.descut side) s =
      (s.setStaging (stageCut s.stg side (cutOf s.asnap s.fs side))).done 0#32 :=
    if_pos (cutOf_allFinite side hsnap hrate)
  rw [exec_of_checks (checks_descut hactive hrun side), heffect, done_setStaging hactive]
  exact ⟨_, rfl, rfl, stageCut_own s.stg s.asnap s.fs side, stageCut_other s.stg s.asnap s.fs side⟩

theorem word_setWord (c : Block) (k j : Fin 5) (v : Word) : (c.setWord k v).word j = if j = k then v else c.word j := by
  match k, j with
  | 0, 0 | 0, 1 | 0, 2 | 0, 3 | 0, 4 => rfl
  | 1, 0 | 1, 1 | 1, 2 | 1, 3 | 1, 4 => rfl
  | 2, 0 | 2, 1 | 2, 2 | 2, 3 | 2, 4 => rfl
  | 3, 0 | 3, 1 | 3, 2 | 3, 3 | 3, 4 => rfl
  | 4, 0 | 4, 1 | 4, 2 | 4, 3 | 4, 4 => rfl

/-- One word of one block among nine replaced. -/
theorem word_set_setWord (stg : Vector Block 9) (a b : Fin 9) (k j : Fin 5) (v : Word) :
    (stg.set a (stg[a].setWord k v))[b].word j = if b = a ∧ j = k then v else stg[b].word j := by
  rw [getElem_set_fin]
  by_cases hb : b = a
  · subst hb
    simp only [if_true, true_and, word_setWord]
  · simp only [hb, false_and, if_false]

/-- Settles O32: one word of one block is replaced. -/
theorem ldstgLoadsOneWord : Obligations.LdstgLoadsOneWord := by
  intro s slot k v hactive hrun hslot hk
  have hslotIx : (Fin.ofNat 9 slot.toNat).val = slot.toNat := Nat.mod_eq_of_lt (Nat.lt_succ_of_le hslot)
  have hkIx : (Fin.ofNat 5 k.toNat).val = k.toNat := Nat.mod_eq_of_lt (Nat.lt_succ_of_le hk)
  rw [exec_of_checks (checks_ldstg hactive hrun hslot hk v), effect, done_setStaging hactive]
  exact ⟨_, rfl, rfl, fun b j => (word_set_setWord ..).trans (by simp only [Fin.ext_iff, hslotIx, hkIx])⟩

end Sys2Proof.Proofs
end

section
/-! SUPPORT. The peak design at 0 dB (42_designer R175(a), (b)): POW10 gives 1.0 (N1), so the numerator is the denominator, and
the design is finite only where the quotient of `a0` and itself is 1.0. -/

namespace Sys2Proof.Proofs

open Machine Machine.F32 Laws

theorem roundBits_zero (den : Nat) : roundBits 0 den = 0 := by simp [roundBits, roundEven]

/-- A zero divided by a finite number other than 0 is a zero. -/
theorem isZero_fdiv {a b : Word} (ha : isZero a = true) (hb : isFinite b = true) (hz : isZero b = false) :
    isZero (fdiv a b) = true := by
  have hfin : isFinite a = true := isFinite_iff.mpr (by rw [isZero_iff.mp ha]; decide)
  have hunits : units a = 0 := by rw [units, isZero_iff.mp ha]; rfl
  rw [fdiv_finite hfin hb (magBits_pos_iff.mpr hz), isZero_iff, magBits_pack_round, hunits, Nat.zero_mul, roundBits_zero]

/-- Multiplying and dividing by 1.0 are the same, for a NaN as well. -/
theorem fmul_one_eq_fdiv_one (a : Word) : fmul a one = fdiv a one := by
  cases h : isNaN a
  · rw [fmul_one_right h, fdiv_one_right h]
  · rw [fmul_of_isNaN (.inl h), fdiv_of_isNaN (.inl h)]

/-- A finite quotient of a pattern and itself is 1.0: a NaN, an infinity and a zero give a NaN. -/
theorem fdiv_self_of_isFinite {a : Word} (h : isFinite (fdiv a a) = true) : fdiv a a = one := by
  have hne : fdiv a a ≠ nan := fun hnan => absurd (hnan ▸ h) (by decide)
  have hnan : isNaN a = false := by
    by_contra hc
    exact hne (fdiv_of_isNaN (.inl (eq_true_of_ne_false hc)))
  rcases finite_or_inf hnan with hf | hi
  · refine fdiv_self hf ?_
    by_contra hc
    exact hne (fdiv_zero_zero (eq_true_of_ne_false hc) (eq_true_of_ne_false hc))
  · exact absurd (fdiv_inf_inf hi hi) hne

theorem feq_self {a : Word} (h : isFinite a = true) : feq a a = true := by simp [feq, isNaN_of_finite h]

/-- At 0 dB the block of an instance with N1 has the quotient of a pattern and itself for `b0`, and the denominator's
coefficients for the numerator's. -/
theorem designPeak_of_zero_gain {n : Numerics} (hn1 : ∀ x, isZero x = true → n.pow10 x = one) {g : Word}
    (hg : isZero g = true) (f q fs : Word) :
    (∃ x, (n.designPeak f q g fs).b0 = fdiv x x) ∧ (n.designPeak f q g fs).b1 = (n.designPeak f q g fs).a1 ∧
      (n.designPeak f q g fs).b2 = (n.designPeak f q g fs).a2 := by
  have hpow : n.pow10 (fdiv g 0x42200000#32) = one := hn1 _ (isZero_fdiv hg (by decide) (by decide))
  simp only [Numerics.designPeak, hpow, fmul_one_eq_fdiv_one, and_true]
  exact ⟨_, rfl⟩

/-- A finite block whose `b0` is a quotient of a pattern and itself, and whose numerator is else its denominator, has the form
of R175(a) and is neutral (45_renderer R243). -/
theorem peakNeutral_of_symmetric {c : Block} (hfin : c.allFinite = true) (h0 : ∃ x, c.b0 = fdiv x x) (h1 : c.b1 = c.a1)
    (h2 : c.b2 = c.a2) : c.b0 = one ∧ peakNeutral c = true := by
  simp only [Block.allFinite, Bool.and_eq_true] at hfin
  obtain ⟨⟨⟨⟨hb0, -⟩, -⟩, ha1⟩, ha2⟩ := hfin
  obtain ⟨x, hx⟩ := h0
  have hone : c.b0 = one := hx.trans (fdiv_self_of_isFinite (hx ▸ hb0))
  refine ⟨hone, ?_⟩
  rw [peakNeutral, hone, h1, h2, feq_self ha1, feq_self ha2]
  decide

/-- Settles O33: the design is finite, and with POW10 of a zero 1.0 its numerator is its denominator. -/
theorem peakIsNeutralAtZeroGain : Obligations.PeakIsNeutralAtZeroGain := by
  intro v fs hsnap hrate hgain
  have hfin : (designPeak v.peakFreq v.peakQ v.peakGain fs).allFinite = true := peakOf_allFinite hsnap hrate
  obtain ⟨h0, h1, h2⟩ := designPeak_of_zero_gain num_admitted.required.n1 hgain v.peakFreq v.peakQ fs
  obtain ⟨hone, hneutral⟩ := peakNeutral_of_symmetric hfin h0 h1 h2
  exact ⟨hone, h1, h2, hneutral⟩

end Sys2Proof.Proofs
end

section
/-! SUPPORT. The commands of the chain as whole commands: what their checks let through on port A, and how a command that
replaces one chain ends (43_chain R190). -/

namespace Sys2Proof.Proofs

open Machine Laws

section
variable {s : State}

theorem checks_setpk (h : s.active = .a) (hrun : s.running) (ch : Fin 2) : checks (.setpk ch) s = none :=
  checks_ok ((portAdmits_iff _ _).mpr h) rfl rfl (lifecycleAdmits_of_running hrun .setpk (by decide)) rfl

theorem checks_setcut (h : s.active = .a) (hrun : s.running) (ch : Fin 2) (side : Side) {slope : BitVec 16}
    (hslope : slope.toNat ≤ 3) : checks (.setcut ch side slope) s = none :=
  checks_ok ((portAdmits_iff _ _).mpr h) (decide_eq_true hslope) rfl (lifecycleAdmits_of_running hrun .setcut (by decide)) rfl

theorem checks_publish (h : s.active = .a) (hrun : s.running) : checks .publish s = none :=
  checks_ok ((portAdmits_iff _ _).mpr h) rfl rfl (lifecycleAdmits_of_running hrun .publish (by decide)) rfl

theorem checks_proc (h : s.active = .a) (hrun : s.running) (ch : Fin 2) {count : BitVec 16}
    (hcount : count.toNat ≤ s.blocksize.toNat) : checks (.proc ch count) s = none :=
  checks_ok ((portAdmits_iff _ _).mpr h) rfl rfl (lifecycleAdmits_of_running hrun .proc (by decide)) (if_pos hcount)

theorem checks_clrch (h : s.active = .a) (hrun : s.running) (ch : Fin 2) {count : BitVec 16}
    (hcount : count.toNat ≤ s.blocksize.toNat) : checks (.clrch ch count) s = none :=
  checks_ok ((portAdmits_iff _ _).mpr h) rfl rfl (lifecycleAdmits_of_running hrun .clrch (by decide)) (if_pos hcount)

/-- How a command that replaces one chain completes. -/
theorem done_setChain (h : s.active = .a) (ch : Fin 2) (c : Chain) :
    (s.setChain ch c).done 0#32 = { s with chains := s.chains.set ch c, portA := s.portA.answered 0#8 0#32 } :=
  done_a (s := s.setChain ch c) h 0#32

/-- How it ends with CoefficientFault: the chain it wrote stays written (60_exceptions R271). -/
theorem raise_setChain (h : s.active = .a) (ch : Fin 2) (c : Chain) :
    (s.setChain ch c).raise .coefficientFault =
      { s with chains := s.chains.set ch c, fault := s.fault ||| 1#32 <<< 8, portA := s.portA.answered 8#8 0#32 } := by
  rw [raise_eq_faulted, State.faulted, ended_a (s := s.setChain ch c) h]
  rfl

theorem setChain_chain_eq (s : State) (ch : Fin 2) : s.setChain ch (s.chain ch) = s :=
  congrArg s.setChains (Vector.set_getElem_self _)

end

/-- Settles O39: PUB is replaced, and the response is returned. -/
theorem publishCopiesChainZero : Obligations.PublishCopiesChainZero := by
  intro s hactive hrun
  rw [exec_of_checks (checks_publish hactive hrun), effect, done_a (s := publishStep s) hactive]
  rfl

end Sys2Proof.Proofs
end

section
/-! SUPPORT. SETPK and SETCUT as whole commands (43_chain R191 to R193): where they end, and what they leave of their chain. -/

namespace Sys2Proof.Proofs

open Machine Laws

section
variable {s : State} {ch : Fin 2} {side : Side} {slope : BitVec 16}

/-! ### SETPK -/

theorem exec_setpk_finite (h : s.active = .a) (hrun : s.running) (hfin : s.stg[peakSlot].allFinite = true) :
    exec (.setpk ch) s = .next
      ((s.setChain ch { s.chain ch with coef := (s.chain ch).coef.set peakSlot s.stg[peakSlot] }).done 0#32) := by
  rw [exec_of_checks (checks_setpk h hrun ch), effect, if_pos hfin]

theorem exec_setpk_nonfinite (h : s.active = .a) (hrun : s.running) (hfin : s.stg[peakSlot].allFinite = false) :
    exec (.setpk ch) s = .next (s.raise .coefficientFault) := by
  rw [exec_of_checks (checks_setpk h hrun ch), effect, if_neg (Bool.eq_false_iff.mp hfin)]

/-! ### SETCUT -/

theorem slopeIx_val (hslope : slope.toNat ≤ 3) : (slopeIx slope).val = slope.toNat :=
  Nat.mod_eq_of_lt (Nat.lt_succ_of_le hslope)

theorem exec_setcut_fills (h : s.active = .a) (hrun : s.running) (hslope : slope.toNat ≤ 3)
    (hok : (setCut s.stg side (slopeIx slope) (s.chain ch)).1 = true) :
    exec (.setcut ch side slope) s = .next
      ((s.setChain ch (setCut s.stg side (slopeIx slope) (s.chain ch)).2).done 0#32) := by
  rw [exec_of_checks (checks_setcut h hrun ch side hslope), effect, if_pos hok]

theorem exec_setcut_stops (h : s.active = .a) (hrun : s.running) (hslope : slope.toNat ≤ 3)
    (hok : (setCut s.stg side (slopeIx slope) (s.chain ch)).1 = false) :
    exec (.setcut ch side slope) s = .next
      ((s.setChain ch (setCut s.stg side (slopeIx slope) (s.chain ch)).2).raise .coefficientFault) := by
  rw [exec_of_checks (checks_setcut h hrun ch side hslope), effect, if_neg (Bool.eq_false_iff.mp hok)]

/-- What a SetCut that fills its stages leaves of its side: the stages up to the slope new and active, the later ones bypassed. -/
theorem setCut_own_finite {stg : Vector Block 9} {k : Fin 4} (c : Chain)
    (hfin : ∀ i ≤ k, stg[cutSlot side i].allFinite = true) (i : Fin 4) :
    (setCut stg side k c).2.byp[cutFlag side i] = decide (k < i) ∧
      (setCut stg side k c).2.coef[cutSlot side i] = if i ≤ k then stg[cutSlot side i] else c.coef[cutSlot side i] := by
  have hflag : (if i ≤ k then false else true) = decide (k < i) := by
    by_cases hik : i ≤ k
    · rw [if_pos hik, decide_eq_false (not_lt.mpr hik)]
    · rw [if_neg hik, decide_eq_true (not_le.mp hik)]
  rw [setCut_finite _ _ _ _ hfin]
  simp only [setFlags_own, assignStages_own, mem_stagesUpTo, mem_all_stages, if_true, hflag, and_self]

/-- What a SetCut that stops at stage `j` leaves of its side: the stages before `j` new, and all four bypassed. -/
theorem setCut_own_stops {stg : Vector Block 9} {k j : Fin 4} (c : Chain) (hjk : j ≤ k)
    (hfin : ∀ i < j, stg[cutSlot side i].allFinite = true) (hj : stg[cutSlot side j].allFinite = false) (i : Fin 4) :
    (setCut stg side k c).2.byp[cutFlag side i] = true ∧
      (setCut stg side k c).2.coef[cutSlot side i] = if i < j then stg[cutSlot side i] else c.coef[cutSlot side i] := by
  rw [setCut_stops _ _ _ _ _ hjk hfin hj]
  simp only [setFlags_own, assignStages_own, mem_stagesBelow, mem_all_stages, if_true, and_self]

end

/-- Settles O35: a finite block is written to one slot of one chain; a non-finite one raises the fault before any write. -/
theorem setpkAssignsPeak : Obligations.SetpkAssignsPeak := by
  refine fun s ch hactive hrun => ⟨fun hfin => ?_, fun hfin => ?_⟩
  · rw [exec_setpk_nonfinite hactive hrun hfin, raise_eq_faulted, FaultCode.code]
  · refine ⟨_, exec_setpk_finite hactive hrun hfin, by rw [done_setChain hactive], ?_⟩
    simp only [State.done_chain, State.setChain_chain_self]
    exact ⟨trivial, trivial, fun b => getElem_set_fin .., fun c hc => s.setChain_chain_ne hc _⟩

/-- Settles O36: SetCut fills its stages, since every block it assigns is finite. -/
theorem setcutAssignsSide : Obligations.SetcutAssignsSide := by
  intro s ch side slope hactive hrun hslope hstg
  have hk : (slopeIx slope).val = slope.toNat := slopeIx_val hslope
  have hfin : ∀ i ≤ slopeIx slope, s.stg[cutSlot side i].allFinite = true := fun i hi => hstg i (hk ▸ hi)
  have hok : (setCut s.stg side (slopeIx slope) (s.chain ch)).1 = true := by rw [setCut_finite _ _ _ _ hfin]
  obtain ⟨hz, hcoef, hbyp⟩ := setCut_frame s.stg side (slopeIx slope) (s.chain ch)
  have hown := setCut_own_finite (s.chain ch) hfin
  simp only [Fin.lt_def, Fin.le_def, hk] at hown
  refine ⟨_, exec_setcut_fills hactive hrun hslope hok, by rw [done_setChain hactive], ?_⟩
  simp only [State.done_chain, State.setChain_chain_self]
  exact ⟨hz, hown, hbyp, hcoef, fun c hc => s.setChain_chain_ne hc _⟩

/-- Settles O37: SetCut stops at stage `j`, before it enables any stage. -/
theorem setcutFailsMidwayBypassed : Obligations.SetcutFailsMidwayBypassed := by
  intro s ch side slope j hactive hrun hslope hj hbad hfin
  have hjk : j ≤ slopeIx slope := Fin.le_def.mpr ((slopeIx_val hslope).symm ▸ hj)
  have hok : (setCut s.stg side (slopeIx slope) (s.chain ch)).1 = false := by rw [setCut_stops _ _ _ _ _ hjk hfin hbad]
  obtain ⟨hz, hcoef, hbyp⟩ := setCut_frame s.stg side (slopeIx slope) (s.chain ch)
  refine ⟨_, exec_setcut_stops hactive hrun hslope hok, by rw [raise_setChain hactive], ?_⟩
  simp only [State.raise_chain, State.setChain_chain_self]
  exact ⟨hz, setCut_own_stops _ hjk hfin hbad, hbyp, hcoef, fun c hc => s.setChain_chain_ne hc _⟩

end Sys2Proof.Proofs
end

section
/-! SUPPORT. PROC and CLRCH as whole commands (43_chain R196 to R201): the samples and delay words of one channel. -/

namespace Sys2Proof.Proofs

open Machine Laws

/-- How PROC completes: SMP, the chains and the count of free NaNs are its loop's. -/
theorem done_runChannel {s : State} (h : s.active = .a) (ch : Fin 2) (n : Nat) :
    (runChannel ch n s).done 0#32 = { s with
      smp := (runChannel ch n s).smp, chains := (runChannel ch n s).chains, draws := (runChannel ch n s).draws
      portA := s.portA.answered 0#8 0#32 } :=
  done_a (s := runChannel ch n s) h 0#32

/-- Running one channel writes neither the coefficients and flags of a chain nor a byte outside its samples. -/
theorem runChannel_frame (ch : Fin 2) (n : Nat) (s : State) :
    (∀ c, ((runChannel ch n s).chain c).coef = (s.chain c).coef ∧ ((runChannel ch n s).chain c).byp = (s.chain c).byp) ∧
      ∀ a, (∀ i < n, a / 4 ≠ smpCell ch i) → (runChannel ch n s).smpByte a = s.smpByte a := by
  have hran : RanChannels [ch] n s (runChannel ch n s) := ranChannels [ch] n s
  exact ⟨hran.coef, fun a ha => hran.bytes a fun c hc => List.mem_singleton.mp hc ▸ ha⟩

/-- Settles O40: the lanes are those of PROC's loop over the samples as they were. -/
theorem procFiltersInPlace : Obligations.ProcFiltersInPlace := by
  intro s ch count hactive hrun hcount
  obtain ⟨-, hz, hread, hother⟩ := runChannel_lane ch count.isLt.le s
  obtain ⟨hcoef, hbytes⟩ := runChannel_frame ch count.toNat s
  refine ⟨_, laneAfter (s.chain ch) (s.readSmp ch) (s.chain ch).z s.draws,
    exec_of_checks (checks_proc hactive hrun ch hcount), ?_⟩
  rw [effect, done_runChannel hactive]
  exact ⟨rfl, rfl, rfl, fun n hn => ⟨rfl, hread n hn⟩, hz, (hcoef ch).1, (hcoef ch).2,
    fun b hb => (congrArg (·[b]) hz).trans (laneAfter_frozen _ _ _ _ _ b hb), fun c hc => (hother c hc).1, hbytes⟩

/-- Settles O29: each of the first `count` cells of the channel is written once, with +0.0. -/
theorem clrchSilencesSamples : Obligations.ClrchSilencesSamples := by
  intro s ch count hactive hrun hcount
  rw [exec_of_checks (checks_clrch hactive hrun ch hcount), effect,
    done_a (s := s.setSmp (clearSamples ch count.toNat s.smp)) hactive]
  exact ⟨_, rfl, rfl, (clearSamples_read ch count.toNat _ s.smp).1,
    fun a ha => clear_bytes [ch] count.toNat _ s.smp a fun c hc => List.mem_singleton.mp hc ▸ ha⟩

end Sys2Proof.Proofs
end

section
/-! SUPPORT. The coefficient update of a chain (43_chain R202): each of its commands writes values that the staging blocks fix to
places that they fix, so a second update writes the same again. -/

namespace Sys2Proof.Proofs

open Machine Laws

/-! ### Functions that overwrite some entries of a vector -/

/-- Each entry of the result is either one value, whatever the vector held, or the entry that was there. -/
def Overwrites {α : Type} {n : Nat} (g : Vector α n → Vector α n) : Prop :=
  ∀ b : Fin n, (∃ x, ∀ v, (g v)[b] = x) ∨ ∀ v, (g v)[b] = v[b]

section
variable {α : Type} {n : Nat} {f g : Vector α n → Vector α n}

theorem overwrites_id : Overwrites (id : Vector α n → Vector α n) := fun _ => .inr fun _ => rfl

theorem overwrites_set (i : Fin n) (x : α) : Overwrites (fun v : Vector α n => v.set i x) := by
  intro b
  by_cases hb : b = i
  · exact .inl ⟨x, fun v => (getElem_set_fin v i b x).trans (if_pos hb)⟩
  · exact .inr fun v => (getElem_set_fin v i b x).trans (if_neg hb)

theorem Overwrites.comp (hg : Overwrites g) (hf : Overwrites f) : Overwrites (g ∘ f) := by
  intro b
  rcases hg b with ⟨x, hx⟩ | hkept
  · exact .inl ⟨x, fun v => hx (f v)⟩
  · rcases hf b with ⟨x, hx⟩ | hkept'
    · exact .inl ⟨x, fun v => (hkept (f v)).trans (hx v)⟩
    · exact .inr fun v => (hkept (f v)).trans (hkept' v)

theorem overwrites_foldl_set {ι : Type} (l : List ι) (i : ι → Fin n) (x : ι → α) :
    Overwrites (fun v : Vector α n => l.foldl (fun v j => v.set (i j) (x j)) v) := by
  induction l with
  | nil => exact overwrites_id
  | cons j l ih => exact ih.comp (overwrites_set (i j) (x j))

theorem Overwrites.idem (hg : Overwrites g) (v : Vector α n) : g (g v) = g v := by
  refine Vector.ext fun b hb => ?_
  rcases hg ⟨b, hb⟩ with ⟨x, hx⟩ | hkept
  · exact (hx (g v)).trans (hx v).symm
  · exact hkept (g v)

end

/-! ### Writes to one chain -/

/-- What a command that writes to one chain does: it overwrites blocks and flags, sets bits of FAULT and answers. -/
structure ChainWrite where
  coef : Vector Block 9 → Vector Block 9
  byp : Vector Bool 8 → Vector Bool 8
  bits : Word
  status : Byte

/-- The state after the write. -/
def ChainWrite.run (w : ChainWrite) (ch : Fin 2) (s : State) : State :=
  { s with
    chains := s.chains.set ch { coef := w.coef (s.chain ch).coef, z := (s.chain ch).z, byp := w.byp (s.chain ch).byp }
    fault := s.fault ||| w.bits
    portA := s.portA.answered w.status 0#32 }

/-- One write and then another. -/
def ChainWrite.andThen (w u : ChainWrite) : ChainWrite :=
  { coef := u.coef ∘ w.coef, byp := u.byp ∘ w.byp, bits := w.bits ||| u.bits, status := u.status }

/-- The blocks and flags written do not depend on those that were there. -/
structure ChainWrite.Overwrites (w : ChainWrite) : Prop where
  coef : Proofs.Overwrites w.coef
  byp : Proofs.Overwrites w.byp

theorem ChainWrite.run_chain (w : ChainWrite) (ch : Fin 2) (s : State) : (w.run ch s).chain ch =
    { coef := w.coef (s.chain ch).coef, z := (s.chain ch).z, byp := w.byp (s.chain ch).byp } :=
  s.setChain_chain_self ch _

theorem ChainWrite.run_run (w u : ChainWrite) (ch : Fin 2) (s : State) :
    u.run ch (w.run ch s) = (w.andThen u).run ch s := by
  rw [ChainWrite.run, ChainWrite.run_chain]
  simp [ChainWrite.run, ChainWrite.andThen, PortState.answered, BitVec.or_assoc]

theorem ChainWrite.Overwrites.andThen {w u : ChainWrite} (hw : w.Overwrites) (hu : u.Overwrites) :
    (w.andThen u).Overwrites := ⟨hu.coef.comp hw.coef, hu.byp.comp hw.byp⟩

theorem ChainWrite.Overwrites.run_idem {w : ChainWrite} (hw : w.Overwrites) (ch : Fin 2) (s : State) :
    w.run ch (w.run ch s) = w.run ch s := by
  have hsame : w.andThen w = { w with coef := w.coef ∘ w.coef, byp := w.byp ∘ w.byp } := by
    simp [ChainWrite.andThen]
  have hcoef : w.coef ∘ w.coef = w.coef := funext hw.coef.idem
  have hbyp : w.byp ∘ w.byp = w.byp := funext hw.byp.idem
  rw [ChainWrite.run_run, hsame, hcoef, hbyp]

/-! ### The commands of the update -/

/-- On port A, in the running states and with the staging blocks `stg`, `f` is one fixed write to a chain. -/
def WritesChain (stg : Vector Block 9) (ch : Fin 2) (f : State → Host.Outcome State Fault Refusal) : Prop :=
  ∃ w : ChainWrite, w.Overwrites ∧
    ∀ s : State, s.active = .a → s.running → s.stg = stg → f s = .next (w.run ch s)

section
variable {stg : Vector Block 9} {ch : Fin 2}

theorem writesChain_setpk (stg : Vector Block 9) (ch : Fin 2) : WritesChain stg ch (exec (.setpk ch)) := by
  cases hfin : stg[peakSlot].allFinite
  · refine ⟨{ coef := id, byp := id, bits := 1#32 <<< 8, status := 8#8 }, ⟨overwrites_id, overwrites_id⟩, ?_⟩
    rintro s hactive hrun rfl
    have hraise := raise_setChain hactive ch (s.chain ch)
    rw [setChain_chain_eq] at hraise
    rw [exec_setpk_nonfinite hactive hrun hfin, hraise]
    rfl
  · refine ⟨{ coef := fun v => v.set peakSlot stg[peakSlot], byp := id, bits := 0#32, status := 0#8 },
      ⟨overwrites_set _ _, overwrites_id⟩, ?_⟩
    rintro s hactive hrun rfl
    rw [exec_setpk_finite hactive hrun hfin, done_setChain hactive, ChainWrite.run, BitVec.or_zero]
    rfl

theorem writesChain_setcut (stg : Vector Block 9) (ch : Fin 2) (side : Side) {slope : BitVec 16} (hslope : slope.toNat ≤ 3) :
    WritesChain stg ch (exec (.setcut ch side slope)) := by
  rcases first_nonfinite stg side (slopeIx slope) with hfin | ⟨j, hjk, hbad, hfin⟩
  · refine ⟨{ coef := assignStages stg side (stagesUpTo (slopeIx slope))
              byp := setFlags side false (stagesUpTo (slopeIx slope)) ∘ setFlags side true [0, 1, 2, 3]
              bits := 0#32, status := 0#8 },
      ⟨overwrites_foldl_set _ _ _, (overwrites_foldl_set _ _ _).comp (overwrites_foldl_set _ _ _)⟩, ?_⟩
    rintro s hactive hrun rfl
    have hcut := setCut_finite s.stg side (slopeIx slope) (s.chain ch) hfin
    rw [exec_setcut_fills hactive hrun hslope (congrArg Prod.fst hcut), done_setChain hactive, hcut, ChainWrite.run,
      BitVec.or_zero]
    rfl
  · refine ⟨{ coef := assignStages stg side (stagesBelow j), byp := setFlags side true [0, 1, 2, 3]
              bits := 1#32 <<< 8, status := 8#8 }, ⟨overwrites_foldl_set _ _ _, overwrites_foldl_set _ _ _⟩, ?_⟩
    rintro s hactive hrun rfl
    have hcut := setCut_stops s.stg side (slopeIx slope) j (s.chain ch) hjk hfin hbad
    rw [exec_setcut_stops hactive hrun hslope (congrArg Prod.fst hcut), raise_setChain hactive, hcut, ChainWrite.run]

theorem WritesChain.cons {i : Instr} {l : List Instr} (hi : WritesChain stg ch (exec i))
    (hl : WritesChain stg ch (runCommands l)) : WritesChain stg ch (runCommands (i :: l)) := by
  obtain ⟨w, hw, hexec⟩ := hi
  obtain ⟨u, hu, hruns⟩ := hl
  refine ⟨w.andThen u, hw.andThen hu, fun s hactive hrun hstg => ?_⟩
  simp only [runCommands, hexec s hactive hrun hstg]
  rw [hruns (w.run ch s) hactive hrun hstg, ChainWrite.run_run]

theorem runCommands_singleton (i : Instr) : runCommands [i] = exec i := by
  funext s
  obtain ⟨t, ht⟩ := exec_next i s
  simp only [runCommands, ht]

/-- What is one fixed write to a chain leaves, done again, the state it left the first time. -/
theorem WritesChain.idem {f : State → Host.Outcome State Fault Refusal} {s t : State} (h : WritesChain s.stg ch f)
    (hactive : s.active = .a) (hrun : s.running) (hst : f s = .next t) : f t = .next t := by
  obtain ⟨w, hw, hf⟩ := h
  have ht : t = w.run ch s := by simpa [hst] using hf s hactive hrun rfl
  subst ht
  rw [hf (w.run ch s) hactive hrun rfl, hw.run_idem]

end

/-- Settles O38: the three commands together are one fixed write to the chain. -/
theorem coefficientUpdateIdempotent : Obligations.CoefficientUpdateIdempotent := by
  intro s t ch kl kh update hactive hrun hkl hkh
  have hlast : WritesChain s.stg ch (runCommands [.setcut ch .high kh]) :=
    runCommands_singleton _ ▸ writesChain_setcut s.stg ch .high hkh
  have hupdate : WritesChain s.stg ch (runCommands update) :=
    (writesChain_setpk s.stg ch).cons ((writesChain_setcut s.stg ch .low hkl).cons hlast)
  exact hupdate.idem hactive hrun

end Sys2Proof.Proofs
end

section
/-! SUPPORT. RELEASE, PREPARE and BLOCK as whole commands (44_audio_loop R221 to R227): what their checks let through, how their
last steps end, and what Commit leaves of a chain. -/

namespace Sys2Proof.Proofs

open Machine Laws

section
variable {s : State}

theorem checks_release (h : s.active = .a) (hrun : s.running) : checks .release s = none :=
  checks_ok ((portAdmits_iff _ _).mpr h) rfl rfl (lifecycleAdmits_of_running hrun .release (by decide)) rfl

theorem checks_prepare (h : s.active = .a) (hl : s.lifecycle = .uninitialized) {bs : BitVec 16} {fs : Word}
    (hbs : bs ≠ 0#16) (hfs : rateValid fs = true) : checks (.prepare bs fs) s = none :=
  checks_ok ((portAdmits_iff _ _).mpr h) rfl rfl (decide_eq_true hl) (if_pos (by simp [hbs, hfs]))

theorem checks_block (h : s.active = .a) (hrun : s.running) {nin nout : BitVec 4} {count : BitVec 16}
    (hnin : nin.toNat ≤ 2) (hnout : nout.toNat ≤ 2) (hcount : count.toNat ≤ s.blocksize.toNat) :
    checks (.block nin nout count) s = none :=
  checks_ok ((portAdmits_iff _ _).mpr h) (by simp [operandsLegal, hnin, hnout]) rfl
    (lifecycleAdmits_of_running hrun .block (by decide)) (if_pos hcount)

/-! ### The last steps -/

/-- The seven values read are a snapshot in range, so no design of it fails (60_exceptions R279). -/
theorem designsFinite_snapshot {fs : Word} (hfs : rateValid fs = true) (r : Vector Word 7) :
    designsFinite (snapshot r) fs = true := designsFinite_of_valid (snapshot_inRange r) hfs

/-- The blocks and flags of a chain whose blocks and flags are those that Commit leaves of `c` (44_audio_loop R222). -/
theorem committed_blocks {v : Settings} {fs : Word} (h : designsFinite v fs = true) {stg : Vector Block 9} {c c' : Chain}
    (hcoef : c'.coef = (commitChain (stageAll v fs stg) v c).coef) (hbyp : c'.byp = (commitChain (stageAll v fs stg) v c).byp) :
    c'.coef[(4 : Fin 9)] = designPeak v.peakFreq v.peakQ v.peakGain fs ∧
      ∀ (side : Side) (i : Fin 4), c'.byp[cutFlag side i] = decide (v.cutSlope side < i) ∧
        c'.coef[cutSlot side i] = if i ≤ v.cutSlope side then cutDesign v fs side i else c.coef[cutSlot side i] := by
  rw [hcoef, hbyp]
  exact ⟨commitChain_peak h stg c, fun side i => ⟨commitChain_flags h stg c side i, commitChain_coef h stg c side i⟩⟩

/-- How the three commands complete: LIFECYCLE is `l`, and the response is returned on port A. -/
theorem done_setLifecycle (h : s.active = .a) (l : Lifecycle) :
    (s.setLifecycle l).done 0#32 = { s with lifecycle := l, portA := s.portA.answered 0#8 0#32 } :=
  done_a (s := s.setLifecycle l) h 0#32

/-- PREPARE's last step is Commit on two neutral chains (44_audio_loop R221). -/
theorem prepareFinish_eq (h : s.active = .a) (bs : BitVec 16) {fs : Word} (hfs : rateValid fs = true) (r : Vector Word 7) :
    prepareFinish bs fs r s =
      { commit (snapshot r) fs ((s.setRate fs bs).setChains #v[Chain.neutral, Chain.neutral]) with
        lifecycle := .prepared, portA := s.portA.answered 0#8 0#32 } := by
  rw [prepareFinish, if_pos (designsFinite_snapshot hfs r), done_setLifecycle]
  · rfl
  · exact h

/-- BLOCK's last step clears the output-only channels, makes Commit and runs the channels of the buffer (44_audio_loop R224). -/
theorem blockFinish_eq (h : s.active = .a) (hfs : rateValid s.fs = true) (nin nout : BitVec 4) (count : BitVec 16)
    (r : Vector Word 7) :
    blockFinish nin nout count r s =
      { runChannels nin.toNat nout.toNat count.toNat
          (commit (snapshot r) s.fs (clearOutputs nin.toNat nout.toNat count.toNat s)) with
        lifecycle := .processing, portA := s.portA.answered 0#8 0#32 } := by
  rw [blockFinish, if_pos (designsFinite_snapshot hfs r), done_setLifecycle]
  · simp [clearOutputs]
  · simpa [clearOutputs] using h

end

/-- Settles O46: RELEASE's checks pass, and its effect sets LIFECYCLE and answers. -/
theorem releaseEndsLifecycle : Obligations.ReleaseEndsLifecycle := fun _ hactive hrun =>
  (exec_of_checks (checks_release hactive hrun)).trans (congrArg _ (done_setLifecycle hactive .released))

/-- Settles O43: Commit on two neutral chains, whose blocks are the identity and whose delay words are clear. -/
theorem prepareInitialisesChains : Obligations.PrepareInitialisesChains := by
  intro s bs fs hactive hlife hbs hfin hlow
  have hfs : rateValid fs = true := by
    rw [rateValid, hfin, show F32.flt fs Config.fsMin = false from hlow]; rfl
  refine ⟨exec_of_checks (checks_prepare hactive hlife hbs hfs), ?_⟩
  intro r v t
  have hd : designsFinite v fs = true := designsFinite_snapshot hfs r
  have ht : t = _ := prepareFinish_eq hactive bs hfs r
  have hchain : ∀ ch, t.chain ch = commitChain (stageAll v fs s.stg) v Chain.neutral := fun ch => by
    rw [ht]; match ch with | 0 | 1 => rfl
  have hstg : t.stg = stageAll v fs s.stg := by rw [ht]; rfl
  have hid : ∀ b : Fin 9, Chain.neutral.coef[b] = Block.identity := getElem_replicate_fin _
  refine ⟨?_, fun ch => ⟨fun b => ?_, ?_⟩, ?_, fun side i => ?_⟩
  · rw [ht]; rfl
  · rw [hchain, commitChain_z hd]; exact getElem_replicate_fin Delay.clear b
  · simpa only [hid] using committed_blocks hd (congrArg Chain.coef (hchain ch)) (congrArg Chain.byp (hchain ch))
  · rw [hstg]; exact stageAll_peak v fs s.stg
  · rw [hstg]; exact stageAll_cut v fs s.stg side i

/-- Settles O44: BLOCK's channels run on what Commit leaves of the state with its output-only channels cleared. -/
theorem blockRedesignsAndRuns : Obligations.BlockRedesignsAndRuns := by
  intro s nin nout count hactive hrun hnin hnout hcount hfs
  refine ⟨exec_of_checks (checks_block hactive hrun hnin hnout hcount), ?_⟩
  intro r v t
  have hd : designsFinite v s.fs = true := designsFinite_snapshot hfs r
  have hn : count.toNat ≤ 65536 := count.isLt.le
  have ht : t = _ := blockFinish_eq hactive hfs nin nout count r
  obtain ⟨m, cs, pub, hcommit, hpub, hcs, hcleared, hbytes⟩ := commit_cleared_spec nin.toNat nout.toNat hn v s
  obtain ⟨cs', m', d, lane, hran, hco, hz, hlane, hbytes'⟩ := runChannels_spec nin.toNat nout.toNat hn
    { s.setSmp m with asnap := v, stg := stageAll v s.fs s.stg, chains := cs, pub := pub }
  rw [hcommit, hran] at ht
  have hchain : ∀ ch, t.chain ch = cs'[ch] := fun ch => by rw [ht]; rfl
  have hread : ∀ ch i, t.readSmp ch i = m'.readWord (Config.unwrittenSmp s.epoch) (smpCell ch i) := fun ch i => by
    rw [ht]; rfl
  have hstg : t.stg = stageAll v s.fs s.stg := by rw [ht]; rfl
  have hkept : ∀ ch : Fin 2, cs[ch].z = (s.chain ch).z := fun ch => by rw [hcs, commitChain_z hd]
  refine ⟨?_, fun ch => ⟨fun hch => ?_, ?_⟩, ?_, fun side i => ?_, ⟨lane, fun ch hch => ?_⟩, fun a ha => ?_⟩
  · simp only [hchain, (hco 0).1, (hco 0).2]
    rw [ht, hpub]
    dsimp only [State.setDraws, State.setSmp, State.setChains, State.setLifecycle, State.chain]
  · rw [hchain]; exact (hz ch hch).trans (hkept ch)
  · rw [hchain]
    exact committed_blocks hd ((hco ch).1.trans (congrArg Chain.coef (hcs ch)))
      ((hco ch).2.trans (congrArg Chain.byp (hcs ch)))
  · rw [hstg]; exact stageAll_peak v s.fs s.stg
  · rw [hstg]; exact stageAll_cut v s.fs s.stg side i
  · obtain ⟨hz0, hdraws, hsteps, hend⟩ := hlane ch hch
    simp only [hchain, hread]
    refine ⟨hz0.trans (hkept ch), hdraws, fun n hlt => ⟨?_, (hsteps n hlt).2⟩, hend⟩
    exact (hsteps n hlt).1.trans (congrArg
      (fun x => runSample cs'[ch] { v := x, z := (lane ch n).z, draws := (lane ch n).draws }) (hcleared ch hch n hlt))
  · rw [ht]; exact (hbytes' a ha).trans (hbytes a ha)

end Sys2Proof.Proofs
end

section
/-! SUPPORT. LIFECYCLE over a turn of a port (44_audio_loop R220): only PREPARE, BLOCK and RELEASE move it, each from the states
in which its checks pass, and it stays where it is while one of them is under way. -/

namespace Sys2Proof.Proofs

open Machine Laws

/-- From `s` to `t` LIFECYCLE stays, or moves along an arrow of the command `o`. -/
def LifecycleMoves (o : Opcode) (s t : State) : Prop :=
  t.lifecycle = s.lifecycle ∨ lifecycleArrow o s.lifecycle t.lifecycle

section
variable {s x : State} {o : Opcode}

theorem lifecycleMoves_done (h : x.lifecycle = s.lifecycle) (d : Word) : LifecycleMoves o s (x.done d) := .inl (by simp [h])

theorem lifecycleMoves_raise (h : x.lifecycle = s.lifecycle) (f : FaultCode) : LifecycleMoves o s (x.raise f) :=
  .inl (by simp [h])

theorem lifecycleMoves_setBusy (h : x.lifecycle = s.lifecycle) (f : InFlight) : LifecycleMoves o s (x.setBusy f) :=
  .inl (by simp [h])

/-! ### The three arrows -/

theorem lifecycleMoves_release (h : s.running) (d : Word) : LifecycleMoves .release s ((s.setLifecycle .released).done d) :=
  .inr (.inr (.inr ⟨rfl, h, by simp⟩))

theorem lifecycleMoves_prepareFinish (h : s.lifecycle = .uninitialized) (bs : BitVec 16) (fs : Word) (r : Vector Word 7) :
    LifecycleMoves .prepare s (prepareFinish bs fs r s) := by
  unfold prepareFinish
  split
  · exact .inr (.inl ⟨rfl, h, by simp⟩)
  · exact lifecycleMoves_raise rfl _

/-- BLOCK moves LIFECYCLE from Prepared, and leaves it at Processing. -/
theorem lifecycleMoves_blockFinish (h : s.running) (nin nout : BitVec 4) (count : BitVec 16) (r : Vector Word 7) :
    LifecycleMoves .block s (blockFinish nin nout count r s) := by
  unfold blockFinish
  split
  · rcases h with hprepared | hprocessing
    · exact .inr (.inr (.inl ⟨rfl, hprepared, by simp⟩))
    · exact .inl (by simp [hprocessing])
  · exact lifecycleMoves_raise rfl _

/-- The finishing step of a snapshot command that its port may have under way. -/
theorem lifecycleMoves_finish {p : Port} {c : SnapshotCmd} {g : Vector (Option Word) 7}
    (hc : busyLegal s p (some (.reading c g))) (r : Vector Word 7) : LifecycleMoves c.opcode s (c.finish r s) := by
  cases c with
  | snap | tick => exact lifecycleMoves_done rfl _
  | prepare bs fs =>
    obtain ⟨-, hlife, -⟩ := busyLegal_prepare.mp hc
    exact lifecycleMoves_prepareFinish hlife bs fs r
  | block nin nout count =>
    obtain ⟨-, hrun, -⟩ := busyLegal_block.mp hc
    exact lifecycleMoves_blockFinish hrun nin nout count r

/-! ### Whole commands and atomic steps -/

theorem lifecycleMoves_readStep {p : Port} {cmd : SnapshotCmd} {got : Vector (Option Word) 7}
    (hc : busyLegal s p (some (.reading cmd got))) (c : Nat) : LifecycleMoves cmd.opcode s (readStep cmd got c s) := by
  rcases readStep_cases cmd got c s with ⟨-, e⟩ | ⟨j, -, e⟩ <;> rw [e]
  · exact lifecycleMoves_finish hc _
  · exact lifecycleMoves_setBusy rfl _

theorem lifecycleMoves_defaultStep (n : Fin 8) (s : State) : LifecycleMoves .pdefault s (defaultStep n s) := by
  unfold defaultStep
  split
  · exact .inl (by simp)
  · exact lifecycleMoves_done rfl _

theorem lifecycleMoves_defaultSteps {n : Nat} (hn : n ≤ 7) (s : State) : LifecycleMoves .pdefault s (defaultSteps 8 n s) := by
  rw [defaultSteps_eight n hn]
  exact lifecycleMoves_done rfl _

/-- A whole command whose checks pass. -/
theorem lifecycleMoves_effect {i : Instr} (hc : checks i s = none) : LifecycleMoves i.opcode s (effect i s) := by
  cases i with
  | rdreg _ | pwrite _ _ | pread _ | wrsmp _ _ _ | rdsmp _ _ | clrch _ _ | proc _ _ | snap | ldstg _ _ _ | publish
  | setview _ _ | rdcrv _ => exact lifecycleMoves_done rfl _
  | pdefault => exact lifecycleMoves_defaultSteps (Nat.zero_le 7) s
  | prepare bs fs => exact lifecycleMoves_finish (busyLegal_of_checks_prepare hc noReads) s.p
  | block nin nout count => exact lifecycleMoves_finish (busyLegal_of_checks_block hc noReads) s.p
  | release =>
    obtain ⟨-, -, -, hlife, -⟩ := checks_eq_none.mp hc
    exact lifecycleMoves_release (by simpa [lifecycleAdmits, Instr.opcode, State.running] using hlife) _
  | despk | descut _ | setpk _ | setcut _ _ _ =>
    simp only [effect]
    split
    · exact lifecycleMoves_done rfl _
    · exact lifecycleMoves_raise rfl _
  | tick =>
    simp only [effect]
    split <;> exact lifecycleMoves_done rfl _

/-- The first atomic step of one. -/
theorem lifecycleMoves_startEffect {i : Instr} (hc : checks i s = none) (c : Nat) :
    LifecycleMoves i.opcode s (startEffect i c s) := by
  cases i with
  | rdreg _ | pwrite _ _ | pread _ | release | wrsmp _ _ _ | rdsmp _ _ | clrch _ _ | proc _ _ | ldstg _ _ _ | publish
  | setview _ _ | rdcrv _ | despk | descut _ | setpk _ | setcut _ _ _ => exact lifecycleMoves_effect hc
  | snap => exact lifecycleMoves_readStep (busyLegal_of_checks_snap hc noReads) c
  | prepare bs fs => exact lifecycleMoves_readStep (busyLegal_of_checks_prepare hc noReads) c
  | block nin nout count => exact lifecycleMoves_readStep (busyLegal_of_checks_block hc noReads) c
  | tick =>
    simp only [startEffect, tickStart]
    split
    · exact lifecycleMoves_setBusy rfl _
    · exact lifecycleMoves_done rfl _
  | pdefault => exact lifecycleMoves_defaultStep 0 s

/-! ### Turns -/

theorem commandOf_reading {p : Port} {c : SnapshotCmd} {got : Vector (Option Word) 7}
    (h : (s.port p).busy = some (.reading c got)) : s.commandOf p = some c.opcode := by
  simp only [State.commandOf, h]

theorem commandOf_defaulting {p : Port} {n : Fin 8} (h : (s.port p).busy = some (.defaulting n)) :
    s.commandOf p = some .pdefault := by
  simp only [State.commandOf, h]

theorem commandOf_decoded {p : Port} {w : CommandWord} {q : List CommandWord} {i : Instr} (hb : (s.port p).busy = none)
    (hq : (s.port p).queue = w :: q) (hd : decode w = .ok i) : s.commandOf p = some i.opcode := by
  simp only [State.commandOf, hb, hq, hd]

/-- A turn of a port moves LIFECYCLE only along an arrow of the command that the port goes on with or takes up. -/
theorem lifecycleArrow_of_moved {p : Port} {t : State} (h : s.Inv) (hm : Moved p s t) (hne : t.lifecycle ≠ s.lifecycle) :
    ∃ o, s.commandOf p = some o ∧ lifecycleArrow o s.lifecycle t.lifecycle := by
  have hbusy : ∀ {f}, (s.port p).busy = some f → busyLegal (s.setActive p) p (some f) := fun {f} hf => by
    have hb := busyLegal_of_inv (inv_setActive h p) p
    rwa [State.setActive_port, hf] at hb
  have hact : ∀ {o}, s.commandOf p = some o → LifecycleMoves o (s.setActive p) t →
      ∃ o, s.commandOf p = some o ∧ lifecycleArrow o s.lifecycle t.lifecycle := fun ho hmv =>
    ⟨_, ho, hmv.resolve_left hne⟩
  have htake : ∀ {q o}, s.commandOf p = some o → LifecycleMoves o (s.take p q) t →
      ∃ o, s.commandOf p = some o ∧ lifecycleArrow o s.lifecycle t.lifecycle := fun ho hmv =>
    ⟨_, ho, by rw [LifecycleMoves, State.take_lifecycle] at hmv; exact hmv.resolve_left hne⟩
  cases hm with
  | idle => exact absurd rfl hne
  | completed f hf =>
    cases f with
    | reading c got => exact hact (commandOf_reading hf) (lifecycleMoves_finish (hbusy hf) _)
    | defaulting n => exact hact (commandOf_defaulting hf) (lifecycleMoves_defaultSteps (Nat.le_of_lt_succ n.isLt) _)
  | advanced f c hf =>
    cases f with
    | reading cmd got => exact hact (commandOf_reading hf) (lifecycleMoves_readStep (hbusy hf) c)
    | defaulting n => exact hact (commandOf_defaulting hf) (lifecycleMoves_defaultStep n _)
  | refusedWord _ _ _ _ _ _ | checkFailed _ _ _ _ _ _ _ _ => exact absurd (by simp) hne
  | ran w q i hb hq hd hc => exact htake (commandOf_decoded hb hq hd) (lifecycleMoves_effect hc)
  | started w q i c hb hq hd hc => exact htake (commandOf_decoded hb hq hd) (lifecycleMoves_startEffect hc c)

end

/-- Settles O18: a command whose checks pass moves LIFECYCLE along its own arrow, so does every turn, and only a turn of port A
writes LIFECYCLE at all (20_memory R72). -/
theorem lifecycleMovesForward : Obligations.LifecycleMovesForward := by
  refine ⟨fun i s t hexec hne => ?_, fun s t hinv hnr hst hne => ?_⟩
  · rcases exec_cases hexec with ⟨c, -, rfl⟩ | ⟨hc, rfl⟩
    · exact absurd (faulted_lifecycle s c.code) hne
    · exact (lifecycleMoves_effect hc).resolve_left hne
  · rcases step_cases hst with ⟨-, rfl⟩ | ⟨rest, hs, -⟩ | ⟨u, rest, p, hs, hu, hp, hm⟩
    · exact absurd rfl hne
    · exact (hnr _ _ hs).elim
    · have hinv' : (s.setSchedule rest).Inv := inv_setSchedule hinv rest
      obtain rfl : p = .a := by_contra fun hpa => hne ((wroteOwn_of_moved hinv' hm).audio hpa).1
      exact ⟨⟨u, rest, hs, hp⟩, lifecycleArrow_of_moved (s := s.setSchedule rest) hinv' hm hne⟩

end Sys2Proof.Proofs
end

section
/-! SUPPORT. A coordinate of the curve (45_renderer R246, R247): ClampDb leaves a finite number, so no operation of CurveY meets a
NaN, or an infinity beside a zero or another infinity. -/

namespace Sys2Proof.Proofs

open Machine Machine.F32 Laws

/-- ClampDb touches what is not finite. -/
theorem isFinite_clampDb (d : Word) : isFinite (clampDb d) = true := by
  by_cases hnan : isNaN d = true
  · rw [clampDb, if_pos hnan]; decide
  · rw [clampDb, if_neg hnan]
    split_ifs with hpos hneg
    · decide
    · decide
    · refine (finite_or_inf (Bool.eq_false_of_not_eq_true hnan)).resolve_right fun hinf => ?_
      have hm : magBits d = infBits := isInf_iff.mp hinf
      cases hs : sign d with
      | false => exact hpos (eq_of_sign_magBits hs hm)
      | true => exact hneg (eq_of_sign_magBits hs hm)

/-- A 16-bit height as a number is at most 65535.0. -/
theorem atMost_ofNat {h : Nat} (hh : h < 65536) : AtMost 0x477FFF00 (F32.ofNat h) := by
  rw [AtMost, F32.ofNat, magBits_pack_round]
  calc roundBits (h * 2 ^ 149) 1 ≤ roundBits (65535 * 2 ^ 149) 1 :=
        roundBits_mono Nat.one_pos Nat.one_pos
          (Nat.mul_le_mul_right _ (Nat.mul_le_mul_right _ (Nat.le_of_lt_succ hh)))
    _ ≤ 0x477FFF00 := by decide

/-- The place of a clamped number between the ends of the vertical range, `(d + 24.0) / 36.0`, does not overflow. -/
theorem isFinite_curvePlace (d : Word) : isFinite (fdiv (fsub (clampDb d) dbLo) (fsub dbHi dbLo)) = true := by
  have hd : AtMost (infBits - 1) (clampDb d) := Nat.le_sub_one_of_lt (isFinite_iff.mp (isFinite_clampDb d))
  have hlo : AtMost 0x41C00000 dbLo := (by decide : magBits dbLo ≤ 0x41C00000)
  have hsum : AtMost (infBits - 1) (fsub (clampDb d) dbLo) := hd.fsub hlo (by decide) (by decide) (by decide)
  have hspan : Pos 0x42100000 0x42100000 (fsub dbHi dbLo) := ⟨by decide, by decide, by decide⟩
  exact (hsum.fdiv hspan (by decide) (by decide) (by decide) le_rfl).finite (by decide)

theorem isNaN_fmul_of_isFinite {a b : Word} (ha : isFinite a = true) (hb : isFinite b = true) :
    isNaN (fmul a b) = false := by
  rw [fmul_finite ha hb, isNaN, magBits_pack_round]
  exact decide_eq_false (roundBits_le_inf _ _).not_gt

/-- A finite number and one that is no NaN have a sum that is none, an overflow included. -/
theorem isNaN_fadd_of_isFinite {a b : Word} (ha : isFinite a = true) (hb : isNaN b = false) :
    isNaN (fadd a b) = false := by
  rcases finite_or_inf hb with hf | hi
  · rw [fadd_finite ha hf, isNaN, magBits_pack_round]
    exact decide_eq_false (roundBits_le_inf _ _).not_gt
  · simp [fadd, isNaN_of_finite ha, isInf_of_finite ha, hb, hi]

/-- CurveY gives no NaN, whatever it is given. -/
theorem isNaN_curveY (d : Word) {h : Nat} (hh : h < 65536) : isNaN (curveY d h) = false := by
  have hheight := atMost_ofNat hh
  have hneg : AtMost 0x477FFF00 (fsub zero (F32.ofNat h)) :=
    AtMost.fsub (x := 0) (by decide : magBits zero ≤ 0) hheight (by decide) (by decide) (by decide)
  exact isNaN_fadd_of_isFinite (hheight.finite (by decide))
    (isNaN_fmul_of_isFinite (isFinite_curvePlace d) (hneg.finite (by decide)))

/-- Settles O50: CurveY gives no NaN for any magnitude. -/
theorem curvePointNeverNaN : Obligations.CurvePointNeverNaN := fun _ _ _ _ hh => isNaN_curveY _ hh

/-! ### The flat curve (45_renderer R242 to R244) -/

/-- A magnitude of which no slot is a factor is 1.0. -/
theorem curveMag_of_no_contribution {pub : Published} (h : ∀ b, contributes pub b = false) (f : Word) :
    curveMag pub f = one := by
  rw [curveMag]
  induction slotsInOrder with
  | nil => rfl
  | cons b l ih => rw [List.foldl_cons, h b]; exact ih

/-- No slot contributes where every cut stage is bypassed and the peak is neutral. -/
theorem contributes_of_neutral {pub : Published} (hbyp : ∀ k : Fin 8, pub.byp[k] = true)
    (hpeak : peakNeutral pub.coef[(4 : Fin 9)] = true) (b : Fin 9) : contributes pub b = false := by
  have hflag : ∀ b : Fin 9, flagOfSlot b = none → b = 4 := by decide
  rw [contributes]
  split
  · next k _ => rw [hbyp k]; rfl
  · next hnone => rw [hflag b hnone, hpeak]; rfl

/-- 1.0 is 0 dB: its logarithm is +0.0 in every instance of NUM (40_numerics R128, N2). -/
theorem db_one : db one = zero := by
  rw [db, show Numeric.log10 one = zero from num_admitted.required.n2]
  decide

/-- Settles O51: the product over no slots is 1.0, whose level is +0.0. -/
theorem neutralCurveIsFlat : Obligations.NeutralCurveIsFlat := fun _ hbyp hpeak _ h _ =>
  congrArg (curveY · h)
    ((congrArg db (curveMag_of_no_contribution (contributes_of_neutral hbyp hpeak) _)).trans db_one)

end Sys2Proof.Proofs
end

section
/-! SUPPORT. SETVIEW, TICK and RDCRV as whole commands (45_renderer R240, R248, R251), and the finishing step of a TICK. -/

namespace Sys2Proof.Proofs

open Machine Laws

section
variable {s : State}

/-- Port R may issue its three commands in every lifecycle state. -/
theorem checks_setview (h : s.active = .r) {width : BitVec 16} (hw : width.toNat ≤ 4096) (height : BitVec 16) :
    checks (.setview width height) s = none :=
  checks_ok ((portAdmits_iff _ _).mpr h) (decide_eq_true hw) rfl rfl rfl

theorem checks_tick (h : s.active = .r) : checks .tick s = none :=
  checks_ok ((portAdmits_iff _ _).mpr h) rfl rfl rfl rfl

theorem checks_rdcrv (h : s.active = .r) {index : BitVec 16} (hi : index.toNat < s.crvLen.toNat) :
    checks (.rdcrv index) s = none :=
  checks_ok ((portAdmits_iff _ _).mpr h) rfl (decide_eq_true hi) rfl rfl

/-- TICK with DIRTY clear only answers (45_renderer R248). -/
theorem effect_tick_clean (hd : s.dirty = false) : effect .tick s = s.done 0#32 := by
  have hsame : s.setDirty false = s := by rw [← hd]; rfl
  rw [effect, if_neg (by simp [hd]), hsame]

/-- A recomputing TICK's last step replaces RSNAP, draws the polyline, counts and answers 1. -/
theorem tickFinish_eq (h : s.active = .r) (r : Vector Word 7) : tickFinish r s =
    { s with
      rsnap := snapshot r, crv := drawCurve s.pub s.viewW.toNat s.viewH.toNat s.crv, crvLen := s.viewW
      recomputes := s.recomputes + 1#32, portR := s.portR.answered 0#8 1#32 } :=
  done_r (s := (s.setRsnap (snapshot r)).setCurve _ _ _) h 1#32

end

/-- Settles O48: the finishing step leaves in CRV what drawing the polyline leaves there. -/
theorem tickRedrawsWhenDirty : Obligations.TickRedrawsWhenDirty := by
  intro s hactive
  refine ⟨fun hd => ?_, fun hd => ?_, fun r => ?_⟩
  · rw [exec_of_checks (checks_tick hactive), effect_tick_clean hd, done_r hactive]
  · rw [exec_of_checks (checks_tick hactive), effect, if_pos hd]
    rfl
  · intro t
    have ht : t = _ := tickFinish_eq hactive r
    obtain ⟨hpoints, hbytes⟩ := drawCurve_spec s.pub s.viewW.toNat s.viewH.toNat (Config.unwrittenCrv s.epoch) s.crv
    refine ⟨?_, fun p hp => ?_, fun a ha => ?_⟩
    · rw [ht]
    · rw [ht]; exact hpoints p hp
    · rw [ht]; exact hbytes a ha

/-- Settles O47: SETVIEW's checks pass, and its effect stores the view and answers. -/
theorem setviewStoresView : Obligations.SetviewStoresView := fun s width height hactive hw =>
  (exec_of_checks (checks_setview hactive hw height)).trans
    (congrArg _ (done_r (s := s.setView width height) hactive 0#32))

/-- Settles O49: below CRV_LEN the checks pass and the point is the response, from there on the index check fails. -/
theorem rdcrvAnswersPoint : Obligations.RdcrvAnswersPoint := by
  intro s index hactive
  refine ⟨fun hi => ?_, fun hi => exec_of_fault (c := .illegalOperand) (checks_rdcrv_index hactive hi)⟩
  rw [exec_of_checks (checks_rdcrv hactive hi), effect, done_r hactive]

end Sys2Proof.Proofs
end

section
/-! SUPPORT. The curve while DIRTY is clear (45_renderer R250(a)): only PWRITE and PDEFAULT set DIRTY, and a TICK that finds it
clear answers and draws nothing. -/

namespace Sys2Proof.Proofs

open Machine Laws

/-- At `t` DIRTY is clear, and the curve, its snapshot and their count are those of `s`. -/
def CurveKept (s t : State) : Prop :=
  t.dirty = false ∧ t.recomputes = s.recomputes ∧ t.crv = s.crv ∧ t.crvLen = s.crvLen ∧ t.rsnap = s.rsnap

section
variable {s x t : State}

theorem CurveKept.refl (hd : s.dirty = false) : CurveKept s s := ⟨hd, rfl, rfl, rfl, rfl⟩

theorem CurveKept.trans (h : CurveKept s x) (h' : CurveKept x t) : CurveKept s t := by
  obtain ⟨-, hcount, hcrv, hlen, hsnap⟩ := h
  obtain ⟨hd, hcount', hcrv', hlen', hsnap'⟩ := h'
  exact ⟨hd, hcount'.trans hcount, hcrv'.trans hcrv, hlen'.trans hlen, hsnap'.trans hsnap⟩

theorem CurveKept.done (h : CurveKept s x) (d : Word) : CurveKept s (x.done d) := by simpa [CurveKept] using h

theorem CurveKept.faulted (h : CurveKept s x) (n : Nat) : CurveKept s (x.faulted n) := by simpa [CurveKept] using h

/-- Taking a command off a queue changes nothing of the curve. -/
theorem CurveKept.ofTake {p : Port} {q : List CommandWord} (h : CurveKept (s.take p q) t) : CurveKept s t := by
  simpa [CurveKept] using h

/-- What port A writes is neither DIRTY nor the curve (20_memory R72). -/
theorem CurveKept.ofAudio (h : WroteOwn .a s t) (hd : s.dirty = false) : CurveKept s t := by
  obtain ⟨-, -, hsnap, hcrv, hlen, hcount, -⟩ := h.render nofun
  exact ⟨Bool.eq_false_of_not_eq_true fun ht => by simp [(h.host nofun).2 ht] at hd, hcount, hcrv, hlen, hsnap⟩

/-! ### The commands of ports R and H -/

/-- On port R or H, with DIRTY clear, a command whose checks pass and that is no PWRITE or PDEFAULT keeps the curve, and its
first atomic step is the whole of it. -/
theorem curveKept_effect {i : Instr} (hc : checks i s = none) (hp : s.active ≠ .a) (hd : s.dirty = false)
    (hw : s.active = .h → i.opcode ≠ .pwrite ∧ i.opcode ≠ .pdefault) :
    CurveKept s (effect i s) ∧ ∀ c, startEffect i c s = effect i s := by
  have hport := (portAdmits_iff i.opcode s.active).mp (checks_eq_none.mp hc).1
  have h : CurveKept s s := .refl hd
  cases i with
  | rdreg _ | pread _ | rdcrv _ => exact ⟨h.done _, fun _ => rfl⟩
  | setview width height => exact ⟨CurveKept.done (x := s.setView width height) h _, fun _ => rfl⟩
  | tick =>
    have hstart : tickStart s = effect .tick s := by simp only [tickStart, effect, hd, Bool.false_eq_true, if_false]
    exact ⟨by rw [effect_tick_clean hd]; exact h.done _, fun _ => hstart⟩
  | pwrite _ _ => exact absurd rfl (hw hport).1
  | pdefault => exact absurd rfl (hw hport).2
  | prepare _ _ | block _ _ _ | release | wrsmp _ _ _ | rdsmp _ _ | clrch _ _ | proc _ _ | snap | despk | descut _
  | ldstg _ _ _ | setpk _ | setcut _ _ _ | publish => exact absurd hport hp

/-- A turn of port R or H that finds its port idle and DIRTY clear keeps the curve and leaves the port idle, where it takes up
no PWRITE or PDEFAULT. -/
theorem curveKept_of_idle {p : Port} (hm : Moved p s t) (hp : p ≠ .a) (hb : (s.port p).busy = none) (hd : s.dirty = false)
    (hw : p = .h → s.commandOf .h ≠ some .pwrite ∧ s.commandOf .h ≠ some .pdefault) :
    CurveKept s t ∧ (t.port p).busy = none := by
  have htaken : ∀ q, CurveKept (s.take p q) (s.take p q) := fun q => .refl (by rw [State.take_dirty, hd])
  have hends : ∀ {q u}, PortsEnd (s.take p q) u → (u.port p).busy = none := fun he => by
    simpa only [State.take_active] using he.busy
  have hran : ∀ {w q i}, (s.port p).queue = w :: q → decode w = .ok i → checks i (s.take p q) = none →
      CurveKept (s.take p q) (effect i (s.take p q)) ∧ ∀ c, startEffect i c (s.take p q) = effect i (s.take p q) :=
    fun {w q i} hq hdec hc => curveKept_effect hc (by rwa [State.take_active]) (by rw [State.take_dirty, hd]) fun hh => by
      rw [State.take_active] at hh
      subst hh
      simpa [commandOf_decoded hb hq hdec] using hw rfl
  cases hm with
  | idle => exact ⟨.refl hd, hb⟩
  | completed f hf | advanced f _ hf => rw [hb] at hf; cases hf
  | refusedWord w q n _ _ hn =>
    obtain ⟨f, rfl⟩ := refusal_code hn
    exact ⟨((htaken q).faulted _).ofTake, hends (.faulted _ f)⟩
  | checkFailed w q i f _ _ _ _ => exact ⟨((htaken q).faulted _).ofTake, hends (.faulted _ f)⟩
  | ran w q i _ hq hdec hc => exact ⟨(hran hq hdec hc).1.ofTake, hends (effect_ports i _)⟩
  | started w q i c _ hq hdec hc =>
    obtain ⟨hkept, hstart⟩ := hran hq hdec hc
    rw [hstart]
    exact ⟨hkept.ofTake, hends (effect_ports i _)⟩

/-! ### Turns -/

/-- Port H has nothing under way but a PDEFAULT. -/
theorem busy_of_not_pdefault (h : s.Inv) (hw : s.commandOf .h ≠ some .pdefault) : s.portH.busy = none := by
  have hlegal : busyLegal s .h s.portH.busy := busyLegal_of_inv h .h
  cases hb : s.portH.busy with
  | none => rfl
  | some f =>
    rw [hb] at hlegal
    cases f with
    | reading c got => exact hlegal.elim
    | defaulting n => exact absurd (commandOf_defaulting (p := .h) hb) hw

/-- A turn of any port, with port R idle and DIRTY clear. -/
theorem curveKept_of_moved {p : Port} (h : s.Inv) (hm : Moved p s t) (hd : s.dirty = false) (hr : s.portR.busy = none)
    (hw : p = .h → s.commandOf .h ≠ some .pwrite ∧ s.commandOf .h ≠ some .pdefault) :
    CurveKept s t ∧ t.portR.busy = none := by
  have hothers : p ≠ .r → t.portR.busy = none := fun hp => by
    have hsame : t.portR = s.portR := (moved_frame hm).2 .r hp.symm
    rw [hsame, hr]
  cases p with
  | a => exact ⟨.ofAudio (wroteOwn_of_moved h hm) hd, hothers nofun⟩
  | r => exact curveKept_of_idle hm nofun hr hd nofun
  | h => exact ⟨(curveKept_of_idle hm nofun (busy_of_not_pdefault h (hw rfl).2) hd hw).1, hothers nofun⟩

/-- A step that is no reset and of no PWRITE or PDEFAULT, with port R idle and DIRTY clear; it takes its turn off the
schedule. -/
theorem curveKept_of_step (h : s.Inv) (hst : step s = .next t) (hd : s.dirty = false) (hr : s.portR.busy = none)
    (hnr : ∀ u ∈ s.schedule.take 1, u.notReset)
    (hw : ∀ u rest, s.schedule = u :: rest → u.ofPort .h →
      s.commandOf .h ≠ some .pwrite ∧ s.commandOf .h ≠ some .pdefault) :
    CurveKept s t ∧ t.portR.busy = none ∧ t.schedule = s.schedule.drop 1 := by
  rcases step_cases hst with ⟨hs, rfl⟩ | ⟨rest, hs, -⟩ | ⟨u, rest, p, hs, -, hp, hm⟩
  · exact ⟨.refl hd, hr, by rw [hs]; rfl⟩
  · exact (hnr .reset (by rw [hs]; exact List.mem_cons_self)).elim
  · obtain ⟨hkept, hidle⟩ := curveKept_of_moved (s := s.setSchedule rest) (inv_setSchedule h rest) hm hd hr
      fun hh => hw u rest hs (hh ▸ hp)
    exact ⟨hkept, hidle, by rw [hs]; exact (moved_frame hm).1⟩

end

/-- Settles O53: each step keeps the curve and leaves DIRTY clear and port R idle, so the next one does so too. -/
theorem noChangeNoRecompute : Obligations.NoChangeNoRecompute := by
  intro n
  induction n with
  | zero =>
    intro s t _ hd _ _ _ hrun
    cases hrun
    exact CurveKept.refl hd
  | succ n ih =>
    intro s t hinv hd hr hnr hw hrun
    obtain ⟨x, hst⟩ := step_next s
    obtain ⟨hkept, hidle, hsched⟩ := curveKept_of_step hinv hst hd hr
      (fun u hu => hnr u (List.take_subset_take_left s.schedule (Nat.succ_le_succ (Nat.zero_le n)) hu))
      (fun u rest => hw 0 (Nat.succ_pos n) s u rest rfl)
    rw [run_of_step hst] at hrun
    refine hkept.trans (ih x t (invariantKeptByStep s x hinv hst) hkept.1 hidle (fun u hu => hnr u ?_)
      (fun k hk y u rest hy => hw (k + 1) (Nat.succ_lt_succ hk) y u rest ((run_of_step hst k).trans hy)) hrun)
    rw [hsched, List.take_drop, Nat.add_comm] at hu
    exact List.mem_of_mem_drop hu

end Sys2Proof.Proofs
end

section
/-! SUPPORT. RDREG, WRSMP and RDSMP as whole commands (46_access R260 to R262): one register read, one cell of SMP written or
read. -/

namespace Sys2Proof.Proofs

open Machine Laws

/-- Where RDREG finds a register, its only operand check passes, on every port and in every lifecycle state. -/
theorem checks_rdreg {addr : BitVec 16} {r : Reg} (hreg : regAt addr.toNat = some r) (s : State) :
    checks (.rdreg addr) s = none :=
  checks_ok ((portAdmits_iff _ _).mpr trivial) (Option.isSome_of_eq_some hreg) rfl rfl rfl

theorem rdregData_of_mapped {addr : BitVec 16} {r : Reg} (hreg : regAt addr.toNat = some r) (s : State) :
    rdregData addr s = s.readReg r := by
  rw [rdregData, hreg]

/-- Two pairs of channel and 16-bit index name one cell only when they are the same pair (10_state R41). -/
theorem smpCell_inj {ch ch' : Fin 2} {i i' : BitVec 16} :
    smpCell ch i.toNat = smpCell ch' i'.toNat ↔ ch = ch' ∧ i = i' := by
  refine ⟨fun hcell => ?_, fun ⟨hch, hi⟩ => by rw [hch, hi]⟩
  have hi := i.isLt
  have hi' := i'.isLt
  unfold smpCell at hcell
  exact ⟨Fin.ext (by omega), BitVec.eq_of_toNat_eq (by omega)⟩

section
variable {s : State}

/-- WRSMP and RDSMP have no check but the port's: each index names a cell, in every lifecycle state (10_state R41). -/
theorem checks_wrsmp (h : s.active = .a) (ch : Fin 2) (index : BitVec 16) (v : Word) : checks (.wrsmp ch index v) s = none :=
  checks_ok ((portAdmits_iff _ _).mpr h) rfl rfl rfl rfl

theorem checks_rdsmp (h : s.active = .a) (ch : Fin 2) (index : BitVec 16) : checks (.rdsmp ch index) s = none :=
  checks_ok ((portAdmits_iff _ _).mpr h) rfl rfl rfl rfl

/-- WRSMP replaces one cell of SMP and answers. -/
theorem exec_wrsmp (h : s.active = .a) (ch : Fin 2) (index : BitVec 16) (v : Word) : exec (.wrsmp ch index v) s =
    .next { s with smp := s.smp.writeWord (smpCell ch index.toNat) v, portA := s.portA.answered 0#8 0#32 } :=
  (exec_of_checks (checks_wrsmp h ch index v)).trans (congrArg _
    (done_a (s := s.setSmp (s.smp.writeWord (smpCell ch index.toNat) v)) h 0#32))

/-- RDSMP only answers. -/
theorem exec_rdsmp (h : s.active = .a) (ch : Fin 2) (index : BitVec 16) :
    exec (.rdsmp ch index) s = .next { s with portA := s.portA.answered 0#8 (s.readSmp ch index.toNat) } :=
  (exec_of_checks (checks_rdsmp h ch index)).trans (congrArg _ (done_a h _))

end

/-- Reading one cell after writing another or the same. -/
theorem readWord_writeWord (m : Memory) (free : Nat → Byte) (c d : Nat) (v : Word) :
    (m.writeWord c v).readWord free d = if c = d then v else m.readWord free d := by
  split
  · next hcell => rw [hcell, readWord_writeWord_self]
  · next hcell => exact readWord_writeWord_ne m free v (Ne.symm hcell)

/-- Settles O27: the four bytes of the written cell are the pattern's, and a byte of any other cell is untouched. -/
theorem wrsmpStoresOneCell : Obligations.WrsmpStoresOneCell := fun s ch index v hactive =>
  ⟨_, exec_wrsmp hactive ch index v, rfl, byte_of_writeWord s.smp _ _ v, fun _ => writeWord_byteAt_ne s.smp _ _ v⟩

/-- Settles O28: channel and index fix the cell, so a write is read back from that pair and from no other. -/
theorem rdsmpAnswersLastWrite : Obligations.RdsmpAnswersLastWrite := by
  intro s ch index hactive
  refine ⟨exec_rdsmp hactive ch index, fun ch' index' v t hwrite => ?_⟩
  rw [exec_wrsmp hactive] at hwrite
  cases hwrite
  exact (readWord_writeWord s.smp _ _ _ v).trans (by simp only [smpCell_inj, State.readSmp])

/-- Settles O25: at a mapped address the checks pass and the response carries the register. -/
theorem rdregAnswersRegister : Obligations.RdregAnswersRegister := by
  intro s addr r hreg
  rw [exec_of_checks (checks_rdreg hreg s), effect, rdregData_of_mapped hreg, done_eq_ended]

end Sys2Proof.Proofs
end

section
/-! SUPPORT. How a command ends (60_exceptions R271): with status 0 and FAULT as it was, or with the fault of a design that is not
finite or of a staging block that is not. -/

namespace Sys2Proof.Proofs

open Machine Laws

/-! ### Commands that complete -/

/-- From `s` to `t` the command of the port whose turn it is has answered with status 0, and FAULT is as before. -/
structure Completes (s t : State) : Prop where
  fault : t.fault = s.fault
  answer : ∃ d, (t.port s.active).resp = some (response 0 d)

theorem completes_done {s x : State} (d : Word) (h : x.fault = s.fault ∧ x.active = s.active := by exact ⟨rfl, rfl⟩) :
    Completes s (x.done d) :=
  ⟨by rw [State.done_fault, h.1], d, by rw [← h.2, State.done_port_active]⟩

/-! ### Finishing steps -/

/-- The sample rate at which the finishing step of a snapshot command designs; SNAP and TICK design nothing
(44_audio_loop R221, R224). -/
def designRate (c : SnapshotCmd) (s : State) : Option Word :=
  match c with
  | .prepare _ fs => some fs
  | .block _ _ _ => some s.fs
  | .snap | .tick => none

theorem finish_ends (c : SnapshotCmd) (r : Vector Word 7) (s : State) : Completes s (c.finish r s) ∨
    ∃ fs, designRate c s = some fs ∧ designsFinite (snapshot r) fs = false ∧ c.finish r s = s.raise .invalidParameter := by
  cases c with
  | snap | tick => exact .inl (completes_done _)
  | prepare bs fs =>
    simp only [SnapshotCmd.finish, prepareFinish]
    split
    · exact .inl (completes_done _)
    · next hbad => exact .inr ⟨fs, rfl, Bool.eq_false_iff.mpr hbad, rfl⟩
  | block nin nout count =>
    simp only [SnapshotCmd.finish, blockFinish]
    split
    · exact .inl (completes_done _ (by simp [clearOutputs]))
    · next hbad => exact .inr ⟨s.fs, rfl, Bool.eq_false_iff.mpr hbad, rfl⟩

/-! ### Whole commands -/

/-- The snapshot and the sample rate that a command designs from (42_designer R173, R176; 44_audio_loop R221, R224). -/
def designsFrom (i : Instr) (s : State) : Option (Settings × Word) :=
  match i with
  | .despk | .descut _ => some (s.asnap, s.fs)
  | .prepare _ fs => some (snapshot s.p, fs)
  | .block _ _ _ => some (snapshot s.p, s.fs)
  | .rdreg _ | .pwrite _ _ | .pread _ | .pdefault | .release | .wrsmp _ _ _ | .rdsmp _ _ | .clrch _ _ | .proc _ _ | .snap
  | .ldstg _ _ _ | .setpk _ | .setcut _ _ _ | .publish | .tick | .setview _ _ | .rdcrv _ => none

/-- The ways in which a command whose checks have passed ends. Only a SETCUT that stops leaves writes beside its fault. -/
inductive EffectEnds (i : Instr) (s t : State) : Prop
  | completed : Completes s t → EffectEnds i s t
  | badDesign (v : Settings) (fs : Word) : designsFrom i s = some (v, fs) → designsFinite v fs = false →
      t = s.raise .invalidParameter → EffectEnds i s t
  | badPeak (ch : Fin 2) : i = .setpk ch → s.stg[peakSlot].allFinite = false → t = s.raise .coefficientFault →
      EffectEnds i s t
  | badCut (ch : Fin 2) (side : Side) (slope : BitVec 16) (c : Chain) : i = .setcut ch side slope →
      (∃ j ≤ slopeIx slope, s.stg[cutSlot side j].allFinite = false) → t = (s.setChain ch c).raise .coefficientFault →
      EffectEnds i s t

/-- SetCut fails only on a block that is not finite, of a stage up to the slope (43_chain R192). -/
theorem nonfinite_of_setCut_fails {stg : Vector Block 9} {side : Side} {k : Fin 4} {c : Chain}
    (h : (setCut stg side k c).1 ≠ true) : ∃ j ≤ k, stg[cutSlot side j].allFinite = false := by
  rcases first_nonfinite stg side k with hfin | ⟨j, hjk, hj, -⟩
  · exact absurd (by rw [setCut_finite _ _ _ _ hfin]) h
  · exact ⟨j, hjk, hj⟩

theorem effect_ends (i : Instr) (s : State) : EffectEnds i s (effect i s) := by
  cases i with
  | rdreg _ | pwrite _ _ | pread _ | release | wrsmp _ _ _ | rdsmp _ _ | clrch _ _ | proc _ _ | snap | ldstg _ _ _ | publish
  | setview _ _ | rdcrv _ => exact .completed (completes_done _)
  | pdefault =>
    have hend : effect .pdefault s = ((s.setParams defP).setDirty true).done 0#32 := defaultSteps_all s
    exact .completed (hend ▸ completes_done _)
  | prepare bs fs =>
    rcases finish_ends (.prepare bs fs) s.p s with hdone | ⟨fs', hfs, hbad, heq⟩
    · exact .completed hdone
    · exact .badDesign (snapshot s.p) fs' (congrArg (Option.map (snapshot s.p, ·)) hfs) hbad heq
  | block nin nout count =>
    rcases finish_ends (.block nin nout count) s.p s with hdone | ⟨fs', hfs, hbad, heq⟩
    · exact .completed hdone
    · exact .badDesign (snapshot s.p) fs' (congrArg (Option.map (snapshot s.p, ·)) hfs) hbad heq
  | despk =>
    simp only [effect]
    split
    · exact .completed (completes_done _)
    · next hbad => exact .badDesign s.asnap s.fs rfl (Bool.eq_false_iff.mpr fun h => hbad (finiteAt_parts h).1) rfl
  | descut side =>
    simp only [effect]
    split
    · exact .completed (completes_done _)
    · next hbad => exact .badDesign s.asnap s.fs rfl (Bool.eq_false_iff.mpr fun h => hbad ((finiteAt_parts h).2 side)) rfl
  | setpk ch =>
    simp only [effect]
    split
    · exact .completed (completes_done _)
    · next hbad => exact .badPeak ch rfl (Bool.eq_false_iff.mpr hbad) rfl
  | setcut ch side slope =>
    simp only [effect]
    split
    · exact .completed (completes_done _)
    · next hbad => exact .badCut ch side slope _ rfl (nonfinite_of_setCut_fails hbad) rfl
  | tick =>
    simp only [effect]
    split <;> exact .completed (completes_done _)

theorem code_bounds (f : FaultCode) : 1 ≤ f.code ∧ f.code ≤ 8 := by cases f <;> decide

/-- The fault of a failed check is one of the first six: no check reports InvalidParameter or CoefficientFault
(60_exceptions R279, R280). -/
theorem code_le_of_checks {i : Instr} {s : State} {f : FaultCode} (h : checks i s = some f) : f.code ≤ 6 := by
  have hown : ∀ f, ownCheck i s = some f → f.code ≤ 6 := by
    intro f hf
    cases i with
    | prepare _ _ | block _ _ _ | proc _ _ | clrch _ _ =>
      simp only [ownCheck] at hf
      split at hf <;> cases hf
      decide
    | rdreg _ | pwrite _ _ | pread _ | pdefault | release | wrsmp _ _ _ | rdsmp _ _ | snap | despk | descut _ | ldstg _ _ _
    | setpk _ | setcut _ _ _ | publish | tick | setview _ _ | rdcrv _ => cases hf
  unfold checks at h
  split at h
  · cases h; decide
  · split at h
    · cases h; decide
    · split at h
      · cases h; decide
      · exact hown f h

end Sys2Proof.Proofs
end

section
/-! SUPPORT. No turn of a port reports InvalidParameter from a state that meets the invariant (60_exceptions R279): a command
designs from a snapshot in range at a valid sample rate, where every admitted NUM gives finite blocks. -/

namespace Sys2Proof.Proofs

open Machine Laws

/-! ### One bit of FAULT -/

theorem getLsbD_withFaultBit (w : Word) (f : FaultCode) (n : Nat) :
    (withFaultBit w f).getLsbD n = (w.getLsbD n || decide (n = f.code)) := by
  have hbit : (1#32 <<< f.code).getLsbD n = decide (n = f.code) := by
    have hcode : f.code < 32 := Nat.lt_of_le_of_lt (code_bounds f).2 (by decide)
    rw [← BitVec.twoPow_eq, BitVec.getLsbD_twoPow]
    simp [hcode, eq_comm]
  rw [withFaultBit, BitVec.getLsbD_or, hbit]

/-- From `s` to `t` bit `n` of FAULT is not newly set. -/
def SparesBit (n : Nat) (s t : State) : Prop := t.fault.getLsbD n = true → s.fault.getLsbD n = true

theorem sparesBit_of_fault_eq {n : Nat} {s t : State} (h : t.fault = s.fault) : SparesBit n s t := fun hn => h ▸ hn

/-- A fault sets the bit of its own code and no other (60_exceptions R271). -/
theorem sparesBit_raise {n : Nat} {s x : State} (hx : x.fault = s.fault) {f : FaultCode} (hf : n ≠ f.code) :
    SparesBit n s (x.raise f) := by
  intro h
  rw [State.raise_fault, getLsbD_withFaultBit, hx, decide_eq_false hf, Bool.or_false] at h
  exact h

theorem sparesBit_faulted {n : Nat} {s : State} {f : FaultCode} (hf : n ≠ f.code) :
    SparesBit n s (s.faulted f.code) := raise_eq_faulted s f ▸ sparesBit_raise rfl hf

variable {s : State}

/-! ### The rates and snapshots that commands design from -/

theorem rateValid_of_running (h : Stored s) (hrun : s.running) : rateValid s.fs = true :=
  (h.rate (by rcases hrun with e | e <;> rw [e] <;> decide)).1

theorem rateValid_of_designRate (h : Stored s) {p : Port} {c : SnapshotCmd} {g : Vector (Option Word) 7} {fs : Word}
    (hc : busyLegal s p (some (.reading c g))) (hfs : designRate c s = some fs) : rateValid fs = true := by
  cases c with
  | snap | tick => cases hfs
  | prepare bs fs' =>
    obtain ⟨-, -, hrate, -⟩ := busyLegal_prepare.mp hc
    cases hfs; exact hrate
  | block nin nout count =>
    obtain ⟨-, hrun, -⟩ := busyLegal_block.mp hc
    cases hfs; exact rateValid_of_running h hrun

theorem valid_of_designsFrom (h : Stored s) {i : Instr} (hc : checks i s = none) {v : Settings} {fs : Word}
    (hd : designsFrom i s = some (v, fs)) : v.inRange = true ∧ rateValid fs = true := by
  cases i with
  | prepare bs fs' =>
    cases hd
    exact ⟨snapshot_inRange s.p, rateValid_of_designRate h (busyLegal_of_checks_prepare hc noReads) rfl⟩
  | block nin nout count =>
    cases hd
    exact ⟨snapshot_inRange s.p, rateValid_of_designRate h (busyLegal_of_checks_block hc noReads) rfl⟩
  | despk | descut _ =>
    cases hd
    obtain ⟨-, -, -, hl, -⟩ := checks_eq_none.mp hc
    exact ⟨h.asnap, rateValid_of_running h (by simpa [lifecycleAdmits, Instr.opcode, State.running] using hl)⟩
  | rdreg _ | pwrite _ _ | pread _ | pdefault | release | wrsmp _ _ _ | rdsmp _ _ | clrch _ _ | proc _ _ | snap
  | ldstg _ _ _ | setpk _ | setcut _ _ _ | publish | tick | setview _ _ | rdcrv _ => cases hd

/-! ### Whole commands and atomic steps -/

theorem Stored.finish_completes (h : Stored s) {p : Port} {c : SnapshotCmd} {g : Vector (Option Word) 7}
    (hc : busyLegal s p (some (.reading c g))) (r : Vector Word 7) : Completes s (c.finish r s) := by
  rcases finish_ends c r s with hdone | ⟨fs, hfs, hbad, -⟩
  · exact hdone
  · have hfin : designsFinite (snapshot r) fs = true := designsFinite_snapshot (rateValid_of_designRate h hc hfs) r
    rw [hfin] at hbad; cases hbad

theorem sparesBit7_effect (h : Stored s) {i : Instr} (hc : checks i s = none) : SparesBit 7 s (effect i s) := by
  cases effect_ends i s with
  | completed hdone => exact sparesBit_of_fault_eq hdone.fault
  | badDesign v fs hd hbad _ =>
    obtain ⟨hv, hfs⟩ := valid_of_designsFrom h hc hd
    rw [designsFinite_of_valid hv hfs] at hbad; cases hbad
  | badPeak ch _ _ ht | badCut ch side slope c _ _ ht => exact ht ▸ sparesBit_raise rfl (by decide)

theorem sparesBit7_readStep (h : Stored s) {p : Port} {cmd : SnapshotCmd} {got : Vector (Option Word) 7}
    (hc : busyLegal s p (some (.reading cmd got))) (c : Nat) : SparesBit 7 s (readStep cmd got c s) := by
  rcases readStep_cases cmd got c s with ⟨-, e⟩ | ⟨j, -, e⟩ <;> rw [e]
  · exact sparesBit_of_fault_eq (h.finish_completes hc _).fault
  · exact sparesBit_of_fault_eq (by simp)

theorem fault_defaultStep (n : Fin 8) (s : State) : (defaultStep n s).fault = s.fault := by
  unfold defaultStep
  split <;> simp

theorem sparesBit7_startEffect (h : Stored s) {i : Instr} (hc : checks i s = none) (c : Nat) :
    SparesBit 7 s (startEffect i c s) := by
  cases i with
  | rdreg _ | pwrite _ _ | pread _ | release | wrsmp _ _ _ | rdsmp _ _ | clrch _ _ | proc _ _ | ldstg _ _ _ | publish
  | setview _ _ | rdcrv _ | despk | descut _ | setpk _ | setcut _ _ _ => exact sparesBit7_effect h hc
  | snap => exact sparesBit7_readStep h (busyLegal_of_checks_snap hc noReads) c
  | prepare bs fs => exact sparesBit7_readStep h (busyLegal_of_checks_prepare hc noReads) c
  | block nin nout count => exact sparesBit7_readStep h (busyLegal_of_checks_block hc noReads) c
  | pdefault => exact sparesBit_of_fault_eq (fault_defaultStep 0 s)
  | tick =>
    simp only [startEffect, tickStart]
    split <;> exact sparesBit_of_fault_eq (by simp)

theorem sparesBit7_complete (h : Stored s) {p : Port} {f : InFlight} (hf : busyLegal s p (some f)) :
    SparesBit 7 s (complete f s) := by
  cases f with
  | reading c got => exact sparesBit_of_fault_eq (h.finish_completes hf _).fault
  | defaulting n =>
    have hend : complete (.defaulting n) s = defaultFinish n.val s := defaultSteps_eight n.val (Nat.le_of_lt_succ n.isLt) s
    exact sparesBit_of_fault_eq (by rw [hend, defaultFinish]; simp)

theorem sparesBit7_advance (h : Stored s) {p : Port} {f : InFlight} (hf : busyLegal s p (some f)) (c : Nat) :
    SparesBit 7 s (advance f c s) := by
  cases f with
  | reading cmd got => exact sparesBit7_readStep h hf c
  | defaulting n => exact sparesBit_of_fault_eq (fault_defaultStep n s)

/-! ### Turns -/

theorem sparesBit7_of_moved {p : Port} {t : State} (h : s.Inv) (hm : Moved p s t) : SparesBit 7 s t := by
  have hact : Stored (s.setActive p) := ((inv_iff _).mp (inv_setActive h p)).1
  have htake : ∀ q, Stored (s.take p q) := fun q => ((inv_iff _).mp (inv_take h p q)).1
  have hbusy : ∀ {f}, (s.port p).busy = some f → busyLegal (s.setActive p) p (some f) := fun {f} hf => by
    have hb := busyLegal_of_inv (inv_setActive h p) p
    rwa [State.setActive_port, hf] at hb
  have hback : ∀ {q t'}, SparesBit 7 (s.take p q) t' → SparesBit 7 s t' := fun h7 => by simpa [SparesBit] using h7
  cases hm with
  | idle => exact fun h7 => h7
  | completed f hf => exact sparesBit7_complete hact (hbusy hf)
  | advanced f c hf => exact sparesBit7_advance hact (hbusy hf) c
  | refusedWord w q n _ _ hn =>
    obtain ⟨f, rfl⟩ := refusal_code hn
    exact hback (sparesBit_faulted (by omega))
  | checkFailed w q i f _ _ _ hc =>
    have hcode := code_le_of_checks hc
    exact hback (sparesBit_faulted (by omega))
  | ran w q i _ _ _ hc => exact hback (sparesBit7_effect (htake q) hc)
  | started w q i c _ _ _ hc => exact hback (sparesBit7_startEffect (htake q) hc c)

/-- Settles O12: the reset clears FAULT, and no turn of a port sets the bit of InvalidParameter. -/
theorem invalidParameterNeverRaised : Obligations.InvalidParameterNeverRaised := by
  intro s t hinv hst
  rcases step_cases hst with ⟨-, rfl⟩ | ⟨rest, -, rfl⟩ | ⟨u, rest, p, -, -, -, hm⟩
  · exact fun h7 => h7
  · intro h7
    have hclear : (s.setSchedule rest).afterReset.fault = 0#32 := rfl
    rw [hclear] at h7; cases h7
  · exact sparesBit7_of_moved (s := s.setSchedule rest) (inv_setSchedule hinv rest) hm

end Sys2Proof.Proofs
end

section
/-! SUPPORT. What a faulting command leaves, and which commands raise CoefficientFault (60_exceptions R271, R280). -/

namespace Sys2Proof.Proofs

open Machine Laws

theorem status_response (n : Nat) (d : Word) : (response n d).extractLsb' 32 8 = BitVec.ofNat 8 n := by
  rw [response, BitVec.extractLsb'_append_eq_left]

theorem faulted_answer (s : State) (f : FaultCode) :
    ((s.faulted f.code).port s.active).resp = some (response f.code 0#32) := by
  rw [← raise_eq_faulted, State.raise_port_active]

/-- A fault after a write to one chain is the fault from the state found, with the chains as written. -/
theorem faulted_setChain (s : State) (ch : Fin 2) (c : Chain) (n : Nat) :
    (s.setChain ch c).faulted n = { s.faulted n with chains := ((s.setChain ch c).faulted n).chains } := by
  match s with | { active := .a, .. } | { active := .r, .. } | { active := .h, .. } => rfl

/-- Settles O10: a failed check and a design or peak block that is not finite raise their fault in the state found; a SETCUT
that stops raises it with its chain written. -/
theorem faultsArePrecise : Obligations.FaultsArePrecise := by
  intro i s t r hexec hresp hstatus
  have hplain : ∀ f : FaultCode, t = s.faulted f.code → ∃ code : Nat, 1 ≤ code ∧ code ≤ 8 ∧
      r = BitVec.ofNat 8 code ++ 0#32 ∧ t = { s.faulted code with chains := t.chains } ∧
      (t.chains = s.chains ∨ (code = 8 ∧ i.opcode = .setcut)) := by
    rintro f rfl
    rw [faulted_answer] at hresp
    obtain ⟨hlow, hhigh⟩ := code_bounds f
    exact ⟨f.code, hlow, hhigh, (Option.some.inj hresp).symm, rfl, .inl (faulted_chains s f.code)⟩
  rcases exec_cases hexec with ⟨f, -, ht⟩ | ⟨-, ht⟩
  · exact hplain f ht
  · have hends := effect_ends i s
    rw [← ht] at hends
    cases hends with
    | completed hdone =>
      obtain ⟨d, hd⟩ := hdone.answer
      obtain rfl : response 0 d = r := Option.some.inj (hd.symm.trans hresp)
      exact absurd (status_response 0 d) hstatus
    | badDesign v fs _ _ hraise => exact hplain _ (hraise.trans (raise_eq_faulted s _))
    | badPeak ch _ _ hraise => exact hplain _ (hraise.trans (raise_eq_faulted s _))
    | badCut ch side slope c hi _ hraise =>
      have hanswer := faulted_answer (s.setChain ch c) .coefficientFault
      obtain rfl : t = (s.setChain ch c).faulted 8 := hraise.trans (raise_eq_faulted _ _)
      obtain rfl : response 8 0#32 = r := Option.some.inj (hanswer.symm.trans hresp)
      exact ⟨8, by decide, by decide, rfl, faulted_setChain s ch c 8, .inr ⟨rfl, hi ▸ rfl⟩⟩

/-- Settles O13: of all the ends of a command only those on a staging block that is not finite set bit 8. -/
theorem coefficientFaultOnlyFromAssignment : Obligations.CoefficientFaultOnlyFromAssignment := by
  intro i s t hexec hset hclear
  have hnew : ¬ SparesBit 8 s t := fun h => by rw [h hset] at hclear; cases hclear
  rcases exec_cases hexec with ⟨f, hf, rfl⟩ | ⟨hc, rfl⟩
  · have hcode := code_le_of_checks hf
    exact absurd (sparesBit_faulted (by omega)) hnew
  · cases effect_ends i s with
    | completed hdone => exact absurd (sparesBit_of_fault_eq hdone.fault) hnew
    | badDesign v fs _ _ ht => exact absurd (ht ▸ sparesBit_raise rfl (by decide)) hnew
    | badPeak ch hi hbad _ => exact .inl ⟨ch, hi, hbad⟩
    | badCut ch side slope c hi hbad _ =>
      subst hi
      obtain ⟨j, hj, hbad⟩ := hbad
      obtain ⟨-, hops, -⟩ := checks_eq_none.mp hc
      have hk : (slopeIx slope).val = slope.toNat := slopeIx_val (of_decide_eq_true hops)
      exact .inr ⟨ch, side, slope, rfl, j, hk ▸ hj, hbad⟩

end Sys2Proof.Proofs
end

section
/-! SUPPORT. The checks of a command one by one (60_exceptions R274): which of them fails first, and the fault it reports. -/

namespace Sys2Proof.Proofs

open Machine Laws

section
variable {i : Instr} {s : State}

/-! ### What each check asks -/

theorem operands_iff : (operandsLegal i && indexLegal i s) = true ↔
    i.wellFormed = true ∧ ∀ index, i = .rdcrv index → index.toNat < s.crvLen.toNat := by
  rw [Bool.and_eq_true]
  refine and_congr Iff.rfl ?_
  cases i <;> simp [indexLegal]

theorem lifecycleAdmits_iff {o : Opcode} {l : Lifecycle} : lifecycleAdmits o l = true ↔ (o = .prepare → l = .uninitialized) ∧
    (o ∈ [.block, .release, .snap, .despk, .descut, .ldstg, .setpk, .setcut, .publish, .proc, .clrch] →
      l = .prepared ∨ l = .processing) := by
  cases o <;> simp [lifecycleAdmits]

theorem ownCheck_prepare_bad {bs : BitVec 16} {fs : Word}
    (h : bs = 0#16 ∨ F32.isFinite fs = false ∨ F32.flt fs 0x3F800000#32 = true) :
    ownCheck (.prepare bs fs) s = some .configMismatch := by
  refine if_neg fun hok => ?_
  rw [Bool.and_eq_true, rateValid, Bool.and_eq_true, Bool.not_eq_true', decide_eq_true_eq] at hok
  obtain ⟨⟨hfin, hlow⟩, hbs⟩ := hok
  rcases h with h | h | h
  · exact hbs h
  · rw [hfin] at h; cases h
  · rw [show F32.flt fs 0x3F800000#32 = false from hlow] at h; cases h

/-! ### The first that fails -/

theorem checks_port_fails (hport : ¬ portAdmits i.opcode s.active = true) : checks i s = some .wrongPort :=
  if_pos (by simp [hport])

variable (hport : portAdmits i.opcode s.active = true)
include hport

theorem checks_operands_fail (hops : ¬ (operandsLegal i && indexLegal i s) = true) : checks i s = some .illegalOperand := by
  simp only [checks, hport, hops, Bool.not_true, Bool.not_false, Bool.false_eq_true, if_false, if_true]

variable (hops : (operandsLegal i && indexLegal i s) = true)
include hops

theorem checks_lifecycle_fails (hlife : ¬ lifecycleAdmits i.opcode s.lifecycle = true) :
    checks i s = some .lifecycleFault := by
  simp only [checks, hport, hops, hlife, Bool.not_true, Bool.not_false, Bool.false_eq_true, if_false, if_true]

theorem checks_eq_ownCheck (hlife : lifecycleAdmits i.opcode s.lifecycle = true) : checks i s = ownCheck i s := by
  simp only [checks, hport, hops, hlife, Bool.not_true, Bool.false_eq_true, if_false]

end

/-- Settles O9: each clause names the first check that fails, and its fault is raised in the state found. -/
theorem firstFailingCheckIsReported : Obligations.FirstFailingCheckIsReported := by
  intro i s port operands prepared chain
  have hp : port ↔ portAdmits i.opcode s.active = true := classAdmits_iff _ _
  have ho : operands ↔ (operandsLegal i && indexLegal i s) = true := operands_iff.symm
  have hl : prepared ∧ chain ↔ lifecycleAdmits i.opcode s.lifecycle = true := lifecycleAdmits_iff.symm
  have hown : port → operands → prepared → chain → ∀ {f}, ownCheck i s = some f → exec i s = .next (s.faulted f.code) :=
    fun h1 h2 h3 h4 _ hf => exec_of_fault ((checks_eq_ownCheck (hp.mp h1) (ho.mp h2) (hl.mp ⟨h3, h4⟩)).trans hf)
  refine ⟨fun h1 => ?_, fun h1 h2 => ?_, fun h1 h2 h3 => ?_, fun bs fs hi h1 h3 hbad => ?_, fun ch count hi h1 h4 hcount => ?_,
    fun nin nout count hi h1 h2 h4 hcount => ?_⟩
  · exact exec_of_fault (c := .wrongPort) (checks_port_fails (mt hp.mpr h1))
  · exact exec_of_fault (c := .illegalOperand) (checks_operands_fail (hp.mp h1) (mt ho.mpr h2))
  · exact exec_of_fault (c := .lifecycleFault) (checks_lifecycle_fails (hp.mp h1) (ho.mp h2) (mt hl.mpr h3))
  · subst hi
    exact hown h1 ⟨rfl, nofun⟩ h3 (fun h => absurd h (by simp [Instr.opcode])) (f := .configMismatch) (ownCheck_prepare_bad hbad)
  · rcases hi with rfl | rfl
    · exact hown h1 ⟨rfl, nofun⟩ nofun h4 (f := .badBlock) (if_neg (Nat.not_le.mpr hcount))
    · exact hown h1 ⟨rfl, nofun⟩ nofun h4 (f := .badBlock) (if_neg (Nat.not_le.mpr hcount))
  · subst hi
    exact hown h1 h2 nofun h4 (f := .badBlock) (if_neg (Nat.not_le.mpr hcount))

end Sys2Proof.Proofs
end

section
/-! SUPPORT. BLOCK and its primitive commands (60_exceptions R292): each primitive is one named update of the state and the answer
of port A, and the updates one after the other are those of BLOCK. -/

namespace Sys2Proof.Proofs

open Machine Laws

/-! ### Commands of port A one after the other -/

/-- `s` with the command of port A answered with status 0 and no data. -/
def answeredA (s : State) : State := { s with portA := s.portA.answered 0#8 0#32 }

/-- The commands lead from `x` to `y`, port A answered in both. -/
def Performs (l : List Instr) (x y : State) : Prop := runCommands l (answeredA x) = .next (answeredA y)

theorem Performs.nil (x : State) : Performs [] x x := rfl

theorem Performs.cons {i : Instr} {l : List Instr} {x y z : State} (hi : exec i (answeredA x) = .next (answeredA y))
    (hl : Performs l y z) : Performs (i :: l) x z := by
  rw [Performs, runCommands, hi]
  exact hl

theorem runCommands_append {l l' : List Instr} {s t : State} (h : runCommands l s = .next t) :
    runCommands (l ++ l') s = runCommands l' t := by
  induction l generalizing s with
  | nil => cases h; rfl
  | cons i l ih =>
    obtain ⟨u, hu⟩ := exec_next i s
    simp only [runCommands, hu] at h
    simp only [List.cons_append, runCommands, hu]
    exact ih h

theorem Performs.append {l l' : List Instr} {x y z : State} (h : Performs l x y) (h' : Performs l' y z) :
    Performs (l ++ l') x z := (runCommands_append h).trans h'

/-- It is port A's turn, in a lifecycle state that admits the chain commands (44_audio_loop R220). -/
structure OnAudio (s : State) : Prop where
  active : s.active = .a
  running : s.running

/-! ### The primitives -/

section
variable {x : State}

theorem OnAudio.setAsnap (h : OnAudio x) (v : Settings) : OnAudio (x.setAsnap v) := ⟨h.active, h.running⟩
theorem OnAudio.setStaging (h : OnAudio x) (v : Vector Block 9) : OnAudio (x.setStaging v) := ⟨h.active, h.running⟩
theorem OnAudio.setChains (h : OnAudio x) (v : Vector Chain 2) : OnAudio (x.setChains v) := ⟨h.active, h.running⟩
theorem OnAudio.setChain (h : OnAudio x) (ch : Fin 2) (c : Chain) : OnAudio (x.setChain ch c) := h.setChains _
theorem OnAudio.setSmp (h : OnAudio x) (m : Memory) : OnAudio (x.setSmp m) := ⟨h.active, h.running⟩
theorem OnAudio.setDraws (h : OnAudio x) (n : Nat) : OnAudio (x.setDraws n) := ⟨h.active, h.running⟩
theorem OnAudio.setPub (h : OnAudio x) (p : Published) : OnAudio (x.setPub p) := ⟨h.active, h.running⟩
theorem OnAudio.answeredA (h : OnAudio x) : OnAudio (answeredA x) := ⟨h.active, h.running⟩

theorem OnAudio.runChannel (h : OnAudio x) (ch : Fin 2) (n : Nat) : OnAudio (runChannel ch n x) :=
  ((h.setChain ch _).setSmp _).setDraws _

theorem OnAudio.commit (h : OnAudio x) (v : Settings) (fs : Word) : OnAudio (commit v fs x) :=
  (((h.setAsnap v).setStaging _).setChains _).setPub _

/-- An answered port that answers once more. -/
theorem OnAudio.done_answeredA (h : OnAudio x) : (Proofs.answeredA x).done 0#32 = Proofs.answeredA x :=
  (done_a h.answeredA.active 0#32).trans rfl

variable (h : OnAudio x)
include h

theorem exec_clrch_answeredA (ch : Fin 2) {count : BitVec 16} (hcount : count.toNat ≤ x.blocksize.toNat) :
    exec (.clrch ch count) (answeredA x) = .next (answeredA (x.setSmp (clearSamples ch count.toNat x.smp))) :=
  (exec_of_checks (checks_clrch h.answeredA.active h.answeredA.running ch hcount)).trans
    (congrArg _ (h.setSmp _).done_answeredA)

theorem exec_proc_answeredA (ch : Fin 2) {count : BitVec 16} (hcount : count.toNat ≤ x.blocksize.toNat) :
    exec (.proc ch count) (answeredA x) = .next (answeredA (runChannel ch count.toNat x)) :=
  (exec_of_checks (checks_proc h.answeredA.active h.answeredA.running ch hcount)).trans
    (congrArg _ (h.runChannel ch count.toNat).done_answeredA)

theorem exec_snap_answeredA : exec .snap (answeredA x) = .next (answeredA (x.setAsnap (snapshot x.p))) :=
  (exec_of_checks (checks_snap h.answeredA.active h.answeredA.running)).trans
    (congrArg _ (h.setAsnap (snapshot x.p)).done_answeredA)

theorem exec_despk_answeredA (hfin : (peakOf x.asnap x.fs).allFinite = true) :
    exec .despk (answeredA x) = .next (answeredA (x.setStaging (x.stg.set peakSlot (peakOf x.asnap x.fs)))) :=
  (exec_of_checks (checks_despk h.answeredA.active h.answeredA.running)).trans
    (congrArg _ ((if_pos hfin).trans (h.setStaging _).done_answeredA))

theorem exec_descut_answeredA {side : Side} (hfin : (cutOf x.asnap x.fs side).all Block.allFinite = true) :
    exec (.descut side) (answeredA x) =
      .next (answeredA (x.setStaging (stageCut x.stg side (cutOf x.asnap x.fs side)))) :=
  (exec_of_checks (checks_descut h.answeredA.active h.answeredA.running side)).trans
    (congrArg _ ((if_pos hfin).trans (h.setStaging _).done_answeredA))

theorem exec_setpk_answeredA (ch : Fin 2) (hfin : x.stg[peakSlot].allFinite = true) :
    exec (.setpk ch) (answeredA x) = .next (answeredA
      (x.setChain ch { x.chain ch with coef := (x.chain ch).coef.set peakSlot x.stg[peakSlot] })) :=
  (exec_setpk_finite h.answeredA.active h.answeredA.running hfin).trans (congrArg _ (h.setChain ch _).done_answeredA)

theorem exec_publish_answeredA : exec .publish (answeredA x) = .next (answeredA (publishStep x)) :=
  (exec_of_checks (checks_publish h.answeredA.active h.answeredA.running)).trans (congrArg _ (h.setPub _).done_answeredA)

end

/-! ### SETCUT after another write to the same chain -/

theorem slopeIx_ofNat (k : Fin 4) : slopeIx (BitVec.ofNat 16 k.val) = k := by revert k; decide

theorem setChain_setChain (s : State) (ch : Fin 2) (c c' : Chain) : (s.setChain ch c).setChain ch c' = s.setChain ch c' :=
  congrArg s.setChains (Vector.set_set ..)

theorem exec_setcut_answeredA {x : State} (h : OnAudio x) (ch : Fin 2) (c : Chain) {side : Side} {k : Fin 4}
    (hfin : ∀ i ≤ k, x.stg[cutSlot side i].allFinite = true) :
    exec (.setcut ch side (BitVec.ofNat 16 k.val)) (answeredA (x.setChain ch c)) =
      .next (answeredA (x.setChain ch (setCut x.stg side k c).2)) := by
  have hx : OnAudio (x.setChain ch c) := h.setChain ch c
  have hslope : (BitVec.ofNat 16 k.val).toNat ≤ 3 := by simp; omega
  have hchain : (answeredA (x.setChain ch c)).chain ch = c := x.setChain_chain_self ch c
  have hfills : (setCut x.stg side k c).1 = true := congrArg Prod.fst (setCut_finite _ _ _ c hfin)
  have hexec := exec_setcut_fills (ch := ch) (side := side) hx.answeredA.active hx.answeredA.running hslope
  rw [slopeIx_ofNat, hchain] at hexec
  refine (hexec hfills).trans (congrArg _ ((hx.setChain ch _).done_answeredA.trans ?_))
  exact congrArg answeredA (setChain_setChain x ch c _)

/-- Both chains replaced, one after the other. -/
theorem setChain_zero_one (s : State) (c c' : Chain) : (s.setChain 0 c).setChain 1 c' = s.setChains #v[c, c'] := by
  refine congrArg s.setChains (Vector.ext fun i hi => ?_)
  match i, hi with | 0, _ | 1, _ => simp

/-! ### The parts of BLOCK -/

/-- CLRCH of each channel listed (44_audio_loop R226). -/
def clearCommands (chs : List (Fin 2)) (count : BitVec 16) : List Instr := chs.map (.clrch · count)

/-- PROC of each channel listed (44_audio_loop R224). -/
def runChannelCommands (chs : List (Fin 2)) (count : BitVec 16) : List Instr := chs.map (.proc · count)

/-- The commands that take and stage the designs. -/
def designCommands : List Instr := [.snap, .despk, .descut .low, .descut .high]

/-- The coefficient update of one chain with the slopes of a snapshot (43_chain R202). -/
def updateCommands (v : Settings) (ch : Fin 2) : List Instr :=
  [.setpk ch, .setcut ch .low (BitVec.ofNat 16 (v.cutSlope .low).val),
    .setcut ch .high (BitVec.ofNat 16 (v.cutSlope .high).val)]

/-- The commands that make up Commit (44_audio_loop R222). -/
def commitCommands (v : Settings) : List Instr :=
  designCommands ++ ((updateCommands v 0 ++ updateCommands v 1) ++ [Instr.publish])

section
variable {x : State} (h : OnAudio x)
include h

theorem performs_clrch (l : List (Fin 2)) {count : BitVec 16} (hcount : count.toNat ≤ x.blocksize.toNat) :
    Performs (clearCommands l count) x
      (x.setSmp (l.foldl (fun m ch => clearSamples ch count.toNat m) x.smp)) := by
  induction l generalizing x with
  | nil => exact .nil x
  | cons ch l ih =>
    exact .cons (exec_clrch_answeredA h ch hcount) (ih (h.setSmp (clearSamples ch count.toNat x.smp)) hcount)

theorem performs_proc (l : List (Fin 2)) {count : BitVec 16} (hcount : count.toNat ≤ x.blocksize.toNat) :
    Performs (runChannelCommands l count) x (l.foldl (fun s ch => runChannel ch count.toNat s) x) := by
  induction l generalizing x with
  | nil => exact .nil x
  | cons ch l ih => exact .cons (exec_proc_answeredA h ch hcount) (ih (h.runChannel ch count.toNat) hcount)

/-- SNAP, DESPK and DESCUT of both sides leave the snapshot of the store and its designs staged. -/
theorem performs_designs (hfs : rateValid x.fs = true) : Performs designCommands x
    ((x.setAsnap (snapshot x.p)).setStaging (stageAll (snapshot x.p) x.fs x.stg)) := by
  obtain ⟨hpeak, hcut⟩ := finiteAt_parts (designsFinite_snapshot hfs x.p)
  have hsnap := h.setAsnap (snapshot x.p)
  have hlow := exec_descut_answeredA (hsnap.setStaging (x.stg.set peakSlot (peakOf (snapshot x.p) x.fs))) (hcut .low)
  have hhigh := exec_descut_answeredA (hsnap.setStaging
    (stageCut (x.stg.set peakSlot (peakOf (snapshot x.p) x.fs)) .low (cutOf (snapshot x.p) x.fs .low))) (hcut .high)
  exact .cons (exec_snap_answeredA h) (.cons (exec_despk_answeredA hsnap hpeak) (.cons hlow (.cons hhigh (.nil _))))

/-- SETPK and SETCUT of both sides do Commit's part on one chain (44_audio_loop R222). -/
theorem performs_update {v : Settings} {fs : Word} (hd : designsFinite v fs = true) {stg : Vector Block 9}
    (hstg : x.stg = stageAll v fs stg) (ch : Fin 2) :
    Performs (updateCommands v ch) x (x.setChain ch (commitChain x.stg v (x.chain ch))) := by
  have hpeak : x.stg[peakSlot].allFinite = true := by rw [hstg, stageAll_peak]; exact (finiteAt_parts hd).1
  have hcut : ∀ (side : Side), ∀ i ≤ v.cutSlope side, x.stg[cutSlot side i].allFinite = true := fun side i hi => by
    rw [hstg]; exact stageAll_finite hd stg side i hi
  exact .cons (exec_setpk_answeredA h ch hpeak) (.cons (exec_setcut_answeredA h ch _ (hcut .low))
    (.cons (exec_setcut_answeredA h ch _ (hcut .high)) (.nil _)))

theorem performs_updates {v : Settings} {fs : Word} (hd : designsFinite v fs = true) {stg : Vector Block 9}
    (hstg : x.stg = stageAll v fs stg) :
    Performs (updateCommands v 0 ++ updateCommands v 1) x
      (x.setChains #v[commitChain x.stg v (x.chain 0), commitChain x.stg v (x.chain 1)]) := by
  have hone := performs_update (h.setChain 0 (commitChain x.stg v (x.chain 0))) hd hstg 1
  rw [State.setChain_stg, State.setChain_chain_ne _ (by decide), setChain_zero_one] at hone
  exact (performs_update h hd hstg 0).append hone

/-- Between CLRCH and PROC the primitives are Commit (44_audio_loop R222). -/
theorem performs_commit {p : Vector Word 7} {fs : Word} (hp : x.p = p) (hx : x.fs = fs) (hfs : rateValid fs = true) :
    Performs (commitCommands (snapshot p)) x (commit (snapshot p) fs x) := by
  subst hp hx
  have hy : OnAudio ((x.setAsnap (snapshot x.p)).setStaging (stageAll (snapshot x.p) x.fs x.stg)) :=
    (h.setAsnap _).setStaging _
  have hupdates := performs_updates hy (designsFinite_snapshot hfs x.p) (State.setStaging_stg ..)
  exact (performs_designs h hfs).append (hupdates.append (.cons (exec_publish_answeredA (hy.setChains _)) (.nil _)))

end

/-! ### BLOCK -/

/-- What port A held before does not matter to the command that comes first, CLRCH or SNAP. -/
theorem exec_first_answeredA {s : State} (h : s.active = .a) {i : Instr}
    (hi : (∃ ch count, i = .clrch ch count) ∨ i = .snap) : exec i (answeredA s) = exec i s := by
  cases s; cases h
  rcases hi with ⟨ch, count, rfl⟩ | rfl <;> rfl

theorem runCommands_first_answeredA {s : State} (h : s.active = .a) (chs : List (Fin 2)) (count : BitVec 16)
    (v : Settings) (l : List Instr) : runCommands (clearCommands chs count ++ (commitCommands v ++ l)) s =
      runCommands (clearCommands chs count ++ (commitCommands v ++ l)) (answeredA s) := by
  have hcons : ∀ {i l}, exec i (answeredA s) = exec i s → runCommands (i :: l) s = runCommands (i :: l) (answeredA s) :=
    fun hi => by rw [runCommands, runCommands, hi]
  cases chs with
  | nil => exact hcons (exec_first_answeredA h (.inr rfl))
  | cons ch chs => exact hcons (exec_first_answeredA h (.inl ⟨ch, count, rfl⟩))

/-- Settles O45: CLRCH's loop, Commit and PROC's loop are the three parts of BLOCK's last step. -/
theorem blockIsItsPrimitives : Obligations.BlockIsItsPrimitives := by
  intro s nin nout count hactive hrun hnin hnout hcount hfs kl kh both primitives
  have hprimitives : primitives = clearCommands (channels nin.toNat nout.toNat) count ++ (commitCommands (snapshot s.p) ++
      runChannelCommands (channels 0 (max nin.toNat nout.toNat)) count) := by
    simp [primitives, both, kl, kh, clearCommands, commitCommands, designCommands, updateCommands, runChannelCommands, channels]
  have h : OnAudio s := ⟨hactive, hrun⟩
  have hcleared : OnAudio (clearOutputs nin.toNat nout.toNat count.toNat s) := h.setSmp _
  have hclrch : Performs _ s (clearOutputs nin.toNat nout.toNat count.toNat s) :=
    performs_clrch h (channels nin.toNat nout.toNat) hcount
  have hcommit := performs_commit hcleared (p := s.p) (fs := s.fs) (by simp [clearOutputs]) (by simp [clearOutputs]) hfs
  have hproc := performs_proc (hcleared.commit (snapshot s.p) s.fs) (channels 0 (max nin.toNat nout.toNat)) (count := count)
    (by simpa [clearOutputs] using hcount)
  have hall : runCommands primitives s = .next (answeredA (runChannels nin.toNat nout.toNat count.toNat
      (commit (snapshot s.p) s.fs (clearOutputs nin.toNat nout.toNat count.toNat s)))) := by
    rw [hprimitives]
    exact (runCommands_first_answeredA hactive _ count _ _).trans (hclrch.append (hcommit.append hproc))
  refine ⟨_, _, exec_of_checks (checks_block hactive hrun hnin hnout hcount), hall, ?_⟩
  rw [effect, blockFinish_eq hactive hfs, answeredA, runChannels_portA, commit_portA]
  rfl

end Sys2Proof.Proofs
end

section
/-! SUPPORT. A NaN in a stage (70_reset_and_hazards R321): the arithmetic passes a NaN operand on, what is stored of it is a free
NaN, and both delay words are computed from the output. -/

namespace Sys2Proof.Proofs

open Machine Machine.F32 Machine.Numeric Laws

/-! ### What is stored -/

theorem magBits_append (s : BitVec 1) (m : BitVec 31) : magBits (s ++ m) = m.toNat := by
  rw [magBits, ← BitVec.toNat_setWidth, BitVec.setWidth_append, dif_pos le_rfl, BitVec.setWidth_eq]

/-- Every NaN the engine stores is quiet, so it lies above the infinities (40_numerics R130). -/
theorem isNaN_freeNaN (n : Nat) : isNaN (freeNaN n) = true := by
  have hmag : infBits < (0x1FF#9 ++ (Config.nanBits n).extractLsb' 0 22).toNat :=
    calc infBits < (0x1FF#9).toNat <<< 22 := by decide
      _ ≤ (0x1FF#9).toNat <<< 22 ||| ((Config.nanBits n).extractLsb' 0 22).toNat := Nat.left_le_or
      _ = _ := (BitVec.toNat_append ..).symm
  exact decide_eq_true (lt_of_lt_of_eq hmag (magBits_append _ _).symm)

@[simp] theorem isNaN_store (n : Nat) (r : Word) : isNaN (store n r) = isNaN r := by
  unfold store
  split_ifs with h
  · rw [isNaN_freeNaN, h]
  · rfl

/-! ### NaN operands -/

theorem isNaN_fadd {a b : Word} (h : isNaN a = true ∨ isNaN b = true) : isNaN (fadd a b) = true := by
  rw [fadd_of_isNaN h, isNaN_nan]

theorem isNaN_fmul {a b : Word} (h : isNaN a = true ∨ isNaN b = true) : isNaN (fmul a b) = true := by
  rw [fmul_of_isNaN h, isNaN_nan]

theorem isNaN_fsub {a b : Word} (h : isNaN a = true ∨ isNaN b = true) : isNaN (fsub a b) = true :=
  isNaN_fadd (by rwa [isNaN_neg])

/-! ### The stage -/

section
variable {c : Block} {z : Delay} {v : Word} {n : Nat}

/-- The first delay word is a term of the output. -/
theorem isNaN_stage_output (hz : isNaN z.z1 = true) : isNaN (stage c z v n).1 = true :=
  (isNaN_store _ _).trans (isNaN_fadd (.inr hz))

/-- The output is fed back, times a1 and a2, into both delay words. -/
theorem isNaN_stage_delay (hy : isNaN (stage c z v n).1 = true) :
    isNaN (stage c z v n).2.z1 = true ∧ isNaN (stage c z v n).2.z2 = true := by
  have hfeedback : ∀ b a : Word, isNaN (fsub (fmul b v) (fmul a (stage c z v n).1)) = true :=
    fun b a => isNaN_fsub (.inr (isNaN_fmul (.inr hy)))
  exact ⟨(isNaN_store _ _).trans (isNaN_fadd (.inl (hfeedback c.b1 c.a1))),
    (isNaN_store _ _).trans (hfeedback c.b2 c.a2)⟩

end

/-- Settles O42: a NaN delay word makes the output a NaN, and the output both delay words. -/
theorem nanPoisonsTheStage : Obligations.NanPoisonsTheStage := fun _ _ _ _ hz =>
  ⟨isNaN_stage_output hz, isNaN_stage_delay (isNaN_stage_output hz)⟩

end Sys2Proof.Proofs
end
